-- ==== Sys2Proof/Word.lean ====
section
/-! DEFINITION. The word types of the block and the three-valued latch bit (00_scope.md R8, R9). -/

namespace Sys2Proof

/-- `u32` of R8: a register word, a mirror word, a count. -/
abbrev Word := BitVec 32

/-- `u16` of R8: one half of a count. -/
abbrev Half := BitVec 16

/-- One byte of an operation's text (R81). -/
abbrev Byte := BitVec 8

/-- `Bit3` of R9: a latch bit is 0, 1 or `X`, where `X` means the chip may hold either. -/
inductive Bit3 where
  | zero
  | one
  | x
  deriving DecidableEq, Repr

/-- A known signal level as a latch bit. -/
def Bit3.ofBool : Bool → Bit3
  | false => .zero
  | true => .one

/-- One latch bit for each of the 1216 stages or positions (R7: N_ASC = 1216). -/
abbrev Chain := Vector Bit3 1216

end Sys2Proof
end

