-- ==== Sys2Proof/Syntax.lean ====
section
/-! DEFINITION. The operations of 30_encoding.md R84, one constructor for each row of the operation table,
and the two ways an operation is issued: a bus access (R52) or a line of text (R81). -/

namespace Sys2Proof

/-- Counter indices of R12: 0 is the 2 MHz RC clock, 1 the divided LC clock, 2 IF, 3 HF, 4 the 32 kHz clock. -/
inductive Counter where
  | c2m
  | clc
  | cif
  | chf
  | c32k
  deriving DecidableEq, Repr

/-- The code fields `d.f` of the parameter store (R12, R28). -/
inductive Field where
  | hfCoarse
  | hfFine
  | rc2mCoarse
  | rc2mFine
  | rc2mSuperfine
  | ifCoarse
  | ifFine
  | lcCode
  deriving DecidableEq, Repr

/-- The operation set of R84. An operand that the spec calls a natural number (a position, a mirror word
index, a width, a field value) is a `Nat`; a `u32` operand is a `Word`. -/
inductive Instr where
  -- 40_scan_chain.md
  | ascCtrlWr (v : Word)
  | ascCtrlRd
  | ascMirrorWr (w : Nat) (v : Word)
  | ascMirrorRd (w : Nat)
  | ascSetBit (p : Nat)
  | ascClearBit (p : Nat)
  | ascReadBit (p : Nat)
  | ascWriteField (p n v : Nat)
  | ascShiftBit (d : Bool)
  | ascShiftAll
  | ascLoad
  | ascCommit
  -- 41_counters.md
  | cntCtrlWr (v : Word)
  | cntDisableAll
  | cntResetAll
  | cntEnableAll
  | cntCtrlRd
  | cntTick (i : Counter)
  | cntRdLo (i : Counter)
  | cntRdHi (i : Counter)
  | cntReadSnapshot
  | cntResetAndEnable
  | cntGateCycle
  -- 42_dac_parameters.md
  | dacGet (f : Field)
  | dacSet (f : Field) (v : Word)
  | hfFineDec
  | hfFineInc
  | ifFineInc
  | ifFineDec
  | rc2mCoarseInc
  | rc2mCoarseDec
  | rc2mFineInc
  | rc2mFineDec
  | rc2mSuperfineInc
  | rc2mSuperfineDec
  | lcInc
  | lcDec
  | lcExpand
  | dacEncodeHf
  | dacEncodeRc2m
  | dacEncodeIf
  | dacEncodeLc
  | dacEncodeAll
  -- 43_calibration_sequencer.md
  | seqArm
  | refDisable
  | refEdge
  | seqEnter
  | seqTick
  | hfCorrect (c : Word)
  | lcCorrect (c : Word)
  | rc2mCorrect (c : Word)
  | ifCorrect (c : Word)
  | seqExit
  | seqWaitDone
  | performCalibration
  deriving DecidableEq, Repr

/-- What a bus access does. A `fetch` is an instruction fetch, which R60 puts outside the block. -/
inductive Dir where
  | read
  | write
  | fetch
  deriving DecidableEq, Repr

/-- A bus access by the CPU: `MemWrite(addr, width, data)` or `MemRead(addr, width)` of R10, width in bytes. -/
structure Access where
  dir   : Dir
  addr  : Nat
  width : Nat
  data  : Word
  deriving DecidableEq, Repr

/-- One operation as it is issued: a bus access, or a line in the syntax of R81 (ASCII bytes). -/
inductive Issue where
  | access (a : Access)
  | line (text : List Byte)
  deriving DecidableEq, Repr

end Sys2Proof
end

