-- ==== Sys2Proof/Config.lean ====
section
/-! DEFINITION. The parameters of 00_scope.md R7 that no source fixes, as one record of plain data that the
model takes as an argument, and the free values of R10. The values a source fixes are named constants in
Machine/Reference.lean; the reference configuration stands there too. -/

namespace Sys2Proof

/-- `draw_32()` of R10: any 32-bit value, one for each draw. -/
opaque Config.draw32 : Nat → BitVec 32

/-- `draw_16()` of R10: any 16-bit value, one for each draw. -/
opaque Config.draw16 : Nat → BitVec 16

/-- One value for each counter, in the order of the source's snapshot record (R12, R34). -/
structure PerCounter (α : Type) where
  c2m  : α
  clc  : α
  cif  : α
  chf  : α
  c32k : α
  deriving DecidableEq, Repr

/-- The five counts: `CNT` itself (R25) and the snapshot record `{c2M, cLC, cIF, cHF, c32k}` (R34). -/
abbrev Counts := PerCounter Word

/-- The parameter store `CODE` (R28): one natural number for each field. -/
structure Codes where
  hfCoarse      : Nat
  hfFine        : Nat
  rc2mCoarse    : Nat
  rc2mFine      : Nat
  rc2mSuperfine : Nat
  ifCoarse      : Nat
  ifFine        : Nat
  lcCode        : Nat
  deriving DecidableEq, Repr

/-- The ten scan-chain code fields of R80. -/
inductive ChainField where
  | hfCoarse
  | hfFine
  | rc2mCoarse
  | rc2mFine
  | rc2mSuperfine
  | ifCoarse
  | ifFine
  | lcCoarse
  | lcMid
  | lcFine
  deriving DecidableEq, Repr

/-- One value for each scan-chain code field. -/
structure PerField (α : Type) where
  hfCoarse      : α
  hfFine        : α
  rc2mCoarse    : α
  rc2mFine      : α
  rc2mSuperfine : α
  ifCoarse      : α
  ifFine        : α
  lcCoarse      : α
  lcMid         : α
  lcFine        : α
  deriving DecidableEq, Repr

/-- PHASE_ROLE (R7, R101): which phase opens the input latches. -/
inductive PhaseRole where
  | p2Input
  | p1Input
  deriving DecidableEq, Repr

/-- COUNTER_OVERFLOW (R7, R158). -/
inductive CounterOverflow where
  | wrap
  | any
  deriving DecidableEq, Repr

/-- CNT_UPPER_READ (R7, R74). -/
inductive UpperRead where
  | zero
  | any
  deriving DecidableEq, Repr

/-- IF_FINE_UNDERFLOW (R7, R197): `fault`, or a carry rule that a model names. The carry down from fine 0
sets fine to `fineReset` and lowers coarse by one. DESIGN CHOICE, safe: log 13. -/
inductive IfUnderflow where
  | fault
  | carry (fineReset : Nat)
  deriving DecidableEq, Repr

/-- RC2M_HIGH_ACTION (R7, R250): what a count above the window does to the selected code. -/
inductive StepDir where
  | inc
  | dec
  deriving DecidableEq, Repr

/-- TERMINATION_POLICY (R7, R252, R253). -/
inductive TerminationPolicy where
  | fixedBudget
  | convergenceGated
  deriving DecidableEq, Repr

/-- One value of LC_MAP: the sub-codes of an LC code (R206). -/
structure LcSub where
  coarse : Nat
  mid    : Nat
  fine   : Nat
  deriving DecidableEq, Repr

/-- LC_MAP as plain data (R206): board constants for the bulk of the range, and a table of codes whose
sub-codes are given outright. Every function on LC_MIN..LC_MAX is some value of this type, so nothing is
assumed of LC_MAP. DESIGN CHOICE, safe: log 12. -/
structure LcMap where
  coarseDiv : Nat
  midDiv    : Nat
  table     : List (Nat × LcSub)
  deriving DecidableEq, Repr

/-- The OPEN parameters of R7. `STATE.cfg` holds one; no step changes it. -/
structure Config where
  ascCtrlAddr       : Nat
  bitData           : Nat
  bitPhi1           : Nat
  bitPhi2           : Nat
  bitLoad           : Nat
  bitRst            : Nat
  rstInactive       : Bool
  phaseRole         : PhaseRole
  cntCtrlAddr       : Nat
  patDisable        : Word
  patReset          : Word
  patEnable         : Word
  cntLoAddr         : PerCounter Nat
  cntHiAddr         : PerCounter Nat
  resetHolds        : Bool
  disableSettle     : Nat
  counterOverflow   : CounterOverflow
  cntUpperRead      : UpperRead
  width             : PerField Nat
  fieldPos          : PerField Nat
  ifFineUnderflow   : IfUnderflow
  lcMin             : Nat
  lcMax             : Nat
  lcMap             : LcMap
  lcTarget          : Nat
  rc2mTCoarse       : Nat
  rc2mTFine         : Nat
  rc2mTSuperfine    : Nat
  rc2mHighAction    : StepDir
  ifTarget          : Nat
  terminationPolicy : TerminationPolicy
  ascInit           : Vector Word 38
  initCodes         : Codes
  deriving DecidableEq, Repr

end Sys2Proof
end

