-- ==== Sys2Proof/Machine/Reference.lean ====
section
/-! DEFINITION. The parameters of 00_scope.md R7 that the source fixes, as named constants, and the reference
configuration of 95_test_vectors.md section 0. The register addresses and the three patterns of the reference
configuration are symbolic in the spec; the numbers here are this model's. DESIGN CHOICE, unsafe: log 1. -/

namespace Sys2Proof

/-- N_ASC. -/
def nAsc : Nat := 1216
/-- N_WORDS. -/
def nWords : Nat := 38
/-- HF_FINE_MAX: the HF fine code at which an increment carries. -/
def hfFineMax : Nat := 31
/-- HF_DEC_RESET: HF fine after a carry down. -/
def hfDecReset : Nat := 10
/-- HF_INC_RESET: HF fine after a carry up. -/
def hfIncReset : Nat := 23
/-- IF_FINE_OVF: the IF fine value that triggers the carry. -/
def ifFineOvf : Nat := 32
/-- IF_FINE_SUB: what the carry subtracts from IF fine. -/
def ifFineSub : Nat := 8
/-- HF_LOW. -/
def hfLow : Nat := 1997000
/-- HF_HIGH. -/
def hfHigh : Nat := 2003000
/-- RC2M_TARGET. -/
def rc2mTarget : Nat := 200000
/-- IF_BAND. -/
def ifBand : Nat := 1400
/-- WARMUP: discarded ticks after arming. -/
def warmup : Nat := 2
/-- BUDGET: post-warm-up iterations. -/
def budget : Nat := 10

/-- The reference configuration (R7's ref column, 95_test_vectors.md section 0). -/
def Config.reference : Config where
  ascCtrlAddr := 0x00
  bitData := 0
  bitPhi1 := 1
  bitPhi2 := 2
  bitLoad := 3
  bitRst := 4
  rstInactive := false
  phaseRole := .p2Input
  cntCtrlAddr := 0x04
  patDisable := 1
  patReset := 2
  patEnable := 3
  cntLoAddr := ⟨0x10, 0x18, 0x20, 0x28, 0x30⟩
  cntHiAddr := ⟨0x14, 0x1C, 0x24, 0x2C, 0x34⟩
  resetHolds := false
  disableSettle := 0
  counterOverflow := .any
  cntUpperRead := .any
  width := ⟨5, 5, 5, 5, 5, 5, 5, 5, 5, 5⟩
  fieldPos := ⟨100, 105, 190, 195, 200, 300, 305, 400, 405, 410⟩
  ifFineUnderflow := .fault
  lcMin := 0
  lcMax := 32767
  lcMap := ⟨128, 6, []⟩
  lcTarget := 100000
  rc2mTCoarse := 600
  rc2mTFine := 520
  rc2mTSuperfine := 15
  rc2mHighAction := .inc
  ifTarget := 50000
  terminationPolicy := .fixedBudget
  ascInit := Vector.replicate 38 0
  initCodes := ⟨12, 0, 20, 16, 9, 4, 31, 700⟩

end Sys2Proof
end

