-- ==== Sys2Proof/Machine/Operands.lean ====
section
/-! DEFINITION. Register layouts, bit maps and field accessors of 30_encoding.md (R70 to R80), and the access to
the parts of records by name (R12). Nothing here reads the state. -/

namespace Sys2Proof

/-! ### Chains of latch bits -/

/-- The bit of stage or position `i`. -/
def Chain.at (v : Chain) (i : Nat) : Bit3 := v[i]?.getD .x

/-- The chain whose bit `i` is `f i`. -/
def Chain.ofFn (f : Nat → Bit3) : Chain := ⟨((List.range 1216).map f).toArray, by simp⟩

/-- Every bit `X` (R21 to R23 at power-on, R102). -/
def Chain.allX : Chain := Vector.replicate 1216 .x

/-- `same(a, b)` of R9: both known and equal. -/
def Bit3.same : Bit3 → Bit3 → Bool
  | .zero, .zero => true
  | .one, .one => true
  | _, _ => false

/-- `changed(a, b)` of R9: any comparison that involves `X` counts as a change. -/
def Bit3.changed (a b : Bit3) : Bool := !(a.same b)

/-! ### The ASC control word (R70, R71) -/

/-- A level on bit `i` of a word. -/
def bitAt (b : Bool) (i : Nat) : Word := if b then 1#32 <<< i else 0#32

/-- `ascw(d, p1, p2, ld)` of R71. -/
def ascw (cfg : Config) (d p1 p2 ld : Bool) : Word :=
  bitAt d cfg.bitData ||| bitAt p1 cfg.bitPhi1 ||| bitAt p2 cfg.bitPhi2 ||| bitAt ld cfg.bitLoad
    ||| bitAt cfg.rstInactive cfg.bitRst

/-- `SIGMASK` of R100. -/
def sigMask (cfg : Config) : Word :=
  bitAt true cfg.bitData ||| bitAt true cfg.bitPhi1 ||| bitAt true cfg.bitPhi2 ||| bitAt true cfg.bitLoad
    ||| bitAt true cfg.bitRst

/-- `v[i]` of R8. -/
def wordBit (v : Word) (i : Nat) : Bool := v.getLsbD i

/-- The word with LOAD = 1 and every other signal held (R117). -/
def loadHigh (cfg : Config) (v : Word) : Word := v ||| bitAt true cfg.bitLoad

/-- The word with LOAD = 0 and every other signal held (R117). -/
def loadLow (cfg : Config) (v : Word) : Word := v &&& ~~~(bitAt true cfg.bitLoad)

/-- The signal levels that the latch rules compare (R101): DATA, the enables of the input and of the output
latches, LOAD. `X` where the last written word is not known. -/
structure Levels where
  d  : Bit3
  ia : Bit3
  ib : Bit3
  ld : Bit3
  deriving DecidableEq, Repr

/-- The levels a written word sets, with the enables by PHASE_ROLE (R101). -/
def levelsOf (cfg : Config) (v : Word) : Levels :=
  let p1 := Bit3.ofBool (wordBit v cfg.bitPhi1)
  let p2 := Bit3.ofBool (wordBit v cfg.bitPhi2)
  { d := Bit3.ofBool (wordBit v cfg.bitData)
    ia := match cfg.phaseRole with | .p2Input => p2 | .p1Input => p1
    ib := match cfg.phaseRole with | .p2Input => p1 | .p1Input => p2
    ld := Bit3.ofBool (wordBit v cfg.bitLoad) }

/-- The levels before a write: those of ASC_CTRL_LAST, or `X` where it is UNKNOWN (R101). -/
def levelsBefore (cfg : Config) : Option Word → Levels
  | none => ⟨.x, .x, .x, .x⟩
  | some u => levelsOf cfg u

/-! ### Positions, stages and the serial order (R76 to R78) -/

/-- `w(p)`: the mirror word of position p. -/
def wordOf (p : Nat) : Nat := p / 32

/-- `j(p)`: the value bit of position p in its word. -/
def bitOf (p : Nat) : Nat := 31 - p % 32

/-- `0x80000000 >> o(p)`: the mask of position p in its word. -/
def maskOf (p : Nat) : Word := 0x80000000#32 >>> (p % 32)

/-- `σ(p)`: the stage that position p loads from (R77). -/
def stageOf (p : Nat) : Nat := 32 * (p / 32) + 31 - p % 32

/-! ### Counts (R75) -/

/-- `{rh[15:0], rl[15:0]}`: the count assembled from a low and a high read. -/
def assembleCount (rl rh : Word) : Word := rh.extractLsb' 0 16 ++ rl.extractLsb' 0 16

/-! ### Records by name (R12) -/

def Counter.all : List Counter := [.c2m, .clc, .cif, .chf, .c32k]

def PerCounter.get {α : Type} (r : PerCounter α) : Counter → α
  | .c2m => r.c2m
  | .clc => r.clc
  | .cif => r.cif
  | .chf => r.chf
  | .c32k => r.c32k

def PerCounter.set {α : Type} (r : PerCounter α) (i : Counter) (v : α) : PerCounter α :=
  match i with
  | .c2m => { r with c2m := v }
  | .clc => { r with clc := v }
  | .cif => { r with cif := v }
  | .chf => { r with chf := v }
  | .c32k => { r with c32k := v }

/-- All fields of the store. -/
def Field.all : List Field :=
  [.hfCoarse, .hfFine, .rc2mCoarse, .rc2mFine, .rc2mSuperfine, .ifCoarse, .ifFine, .lcCode]

def Codes.get (r : Codes) : Field → Nat
  | .hfCoarse => r.hfCoarse
  | .hfFine => r.hfFine
  | .rc2mCoarse => r.rc2mCoarse
  | .rc2mFine => r.rc2mFine
  | .rc2mSuperfine => r.rc2mSuperfine
  | .ifCoarse => r.ifCoarse
  | .ifFine => r.ifFine
  | .lcCode => r.lcCode

def Codes.set (r : Codes) (f : Field) (v : Nat) : Codes :=
  match f with
  | .hfCoarse => { r with hfCoarse := v }
  | .hfFine => { r with hfFine := v }
  | .rc2mCoarse => { r with rc2mCoarse := v }
  | .rc2mFine => { r with rc2mFine := v }
  | .rc2mSuperfine => { r with rc2mSuperfine := v }
  | .ifCoarse => { r with ifCoarse := v }
  | .ifFine => { r with ifFine := v }
  | .lcCode => { r with lcCode := v }

def ChainField.all : List ChainField :=
  [.hfCoarse, .hfFine, .rc2mCoarse, .rc2mFine, .rc2mSuperfine, .ifCoarse, .ifFine, .lcCoarse, .lcMid, .lcFine]

def PerField.get {α : Type} (r : PerField α) : ChainField → α
  | .hfCoarse => r.hfCoarse
  | .hfFine => r.hfFine
  | .rc2mCoarse => r.rc2mCoarse
  | .rc2mFine => r.rc2mFine
  | .rc2mSuperfine => r.rc2mSuperfine
  | .ifCoarse => r.ifCoarse
  | .ifFine => r.ifFine
  | .lcCoarse => r.lcCoarse
  | .lcMid => r.lcMid
  | .lcFine => r.lcFine

/-- LC_MAP at a code (R206): the table's entry, else the board constants. -/
def LcMap.apply (m : LcMap) (c : Nat) : LcSub :=
  match m.table.find? (fun e => e.1 == c) with
  | some e => e.2
  | none => ⟨c / m.coarseDiv, c % m.coarseDiv / m.midDiv, c % m.coarseDiv % m.midDiv⟩

/-! ### Ranges (R193, R206) -/

/-- MAX of a store field: HF.fine and IF.fine by their carry points, LC.code by LC_MAX, the others by width. -/
def maxOf (cfg : Config) : Field → Nat
  | .hfCoarse => 2 ^ cfg.width.hfCoarse - 1
  | .hfFine => hfFineMax
  | .rc2mCoarse => 2 ^ cfg.width.rc2mCoarse - 1
  | .rc2mFine => 2 ^ cfg.width.rc2mFine - 1
  | .rc2mSuperfine => 2 ^ cfg.width.rc2mSuperfine - 1
  | .ifCoarse => 2 ^ cfg.width.ifCoarse - 1
  | .ifFine => ifFineOvf - 1
  | .lcCode => cfg.lcMax

/-- The low end of a store field's range: LC_MIN for LC.code, else 0. -/
def minOf (cfg : Config) : Field → Nat
  | .lcCode => cfg.lcMin
  | _ => 0

/-- `inRange(d.f)` of R193. -/
def inRange (cfg : Config) (code : Codes) (f : Field) : Bool :=
  decide (minOf cfg f ≤ code.get f) && decide (code.get f ≤ maxOf cfg f)

/-- The three sub-codes fit the widths of their chain fields (R206). -/
def LcSub.fits (cfg : Config) (t : LcSub) : Bool :=
  decide (t.coarse ≤ 2 ^ cfg.width.lcCoarse - 1) && decide (t.mid ≤ 2 ^ cfg.width.lcMid - 1)
    && decide (t.fine ≤ 2 ^ cfg.width.lcFine - 1)

/-! ### The constraints a configuration must meet (BadConfig, R281) -/

/-- The eleven register addresses of R51. -/
def Config.addresses (cfg : Config) : List Nat :=
  [cfg.ascCtrlAddr, cfg.cntCtrlAddr] ++ Counter.all.map cfg.cntLoAddr.get ++ Counter.all.map cfg.cntHiAddr.get

/-- The five signal bits of R70. -/
def Config.signalBits (cfg : Config) : List Nat :=
  [cfg.bitData, cfg.bitPhi1, cfg.bitPhi2, cfg.bitLoad, cfg.bitRst]

/-- The three patterns of R73. -/
def Config.patterns (cfg : Config) : List Word := [cfg.patDisable, cfg.patReset, cfg.patEnable]

/-- First position and width of each code field (R80). -/
def Config.fields (cfg : Config) : List (Nat × Nat) :=
  ChainField.all.map fun f => (cfg.fieldPos.get f, cfg.width.get f)

/-- Two fields share no position (R212). A field of width 0 has no position, so it shares none wherever it starts:
its encoder raises OutOfRange (R113; DEDUCED, log 17). -/
def disjointSpans (x y : Nat × Nat) : Bool :=
  decide (x.2 = 0) || decide (y.2 = 0) || decide (x.1 + x.2 ≤ y.1) || decide (y.1 + y.2 ≤ x.1)

/-- No two of a list of spans share a position. -/
def allDisjoint : List (Nat × Nat) → Bool
  | [] => true
  | x :: xs => xs.all (disjointSpans x) && allDisjoint xs

/-- Every code of the store is below this (R28). -/
def codeBound : Nat := 2 ^ 32

/-- The fine code that a carry down sets: none under `fault`, which sets no code. -/
def IfUnderflow.reset? : IfUnderflow → Option Nat
  | .fault => none
  | .carry k => some k

/-- No starting code, no code a step may reach and no carry value leaves the store's range (R28 with R193, R197):
the store could not hold it. DEDUCED, log 14. -/
def Config.codesFit (cfg : Config) : Bool :=
  Field.all.all (fun f => decide (maxOf cfg f < codeBound) && decide (cfg.initCodes.get f < codeBound))
    && cfg.ifFineUnderflow.reset?.all (fun k => decide (k < codeBound))

/-- Every constraint on the parameters that the spec states (R51, R70, R73, R212, R250), and the bound of R28 on
the codes (log 14). A configuration that breaks one is refused before any run. -/
def Config.ok (cfg : Config) : Bool :=
  decide cfg.addresses.Nodup && cfg.addresses.all (fun x => x % 4 == 0)
    && decide cfg.signalBits.Nodup && cfg.signalBits.all (fun x => decide (x < 32))
    && decide cfg.patterns.Nodup
    && cfg.fields.all (fun x => decide (x.1 + x.2 ≤ nAsc)) && allDisjoint cfg.fields
    && decide (cfg.rc2mTFine < cfg.rc2mTCoarse) && decide (cfg.rc2mTSuperfine < cfg.rc2mTFine)
    && cfg.codesFit

end Sys2Proof
end

