-- ==== Sys2Proof/Decode.lean ====
section
/-! DEFINITION. From an issued operation to an instruction, total, refusing by name: bus accesses by the
register map (20_memory.md R51 to R53), lines of text by the operation syntax (30_encoding.md R81). The encoder
stands at the end. The block has no instruction words (R60, R83); the text's byte form is DESIGN CHOICE, safe:
log 3. -/

namespace Sys2Proof

/-- Why decoding refuses (R281): BadAccess for an access, BadSyntax for a line. -/
inductive DecodeError where
  /-- An access of another width, a misaligned one, a write to a counter half, a fetch, or an address outside
  the map (R52, R53, R60). -/
  | badAccess
  /-- A line spelled outside R81, an unknown mnemonic or an unknown field name. -/
  | badSyntax
  deriving DecidableEq, Repr

/-! ### Bus accesses -/

/-- The counter whose register is at an address. -/
def counterAt (addrs : PerCounter Nat) (addr : Nat) : Option Counter :=
  Counter.all.find? fun i => addrs.get i == addr

/-- The operation of a 32-bit read at an aligned address (R51). -/
def decodeRead (cfg : Config) (addr : Nat) : Except DecodeError Instr :=
  if addr = cfg.ascCtrlAddr then .ok .ascCtrlRd
  else if addr = cfg.cntCtrlAddr then .ok .cntCtrlRd
  else match counterAt cfg.cntLoAddr addr with
    | some i => .ok (.cntRdLo i)
    | none =>
      match counterAt cfg.cntHiAddr addr with
      | some i => .ok (.cntRdHi i)
      | none => .error .badAccess

/-- The operation of a 32-bit write at an aligned address (R51, R52). -/
def decodeWrite (cfg : Config) (addr : Nat) (v : Word) : Except DecodeError Instr :=
  if addr = cfg.ascCtrlAddr then .ok (.ascCtrlWr v)
  else if addr = cfg.cntCtrlAddr then .ok (.cntCtrlWr v)
  else .error .badAccess

/-- Decode of a bus access: width and alignment first, then the address and the direction (R52, R53, R283). -/
def decodeAccess (cfg : Config) (a : Access) : Except DecodeError Instr :=
  if a.width ≠ 4 ∨ a.addr % 4 ≠ 0 then .error .badAccess
  else match a.dir with
    | .read => decodeRead cfg a.addr
    | .write => decodeWrite cfg a.addr a.data
    | .fetch => .error .badAccess

/-! ### Reading the text of an operation -/

/-- The bytes of an ASCII text. -/
def ascii (s : String) : List Byte := s.toList.map fun c => BitVec.ofNat 8 c.toNat

/-- A decimal digit. -/
def decDigit (b : Byte) : Option Nat :=
  if 48 ≤ b.toNat ∧ b.toNat ≤ 57 then some (b.toNat - 48) else none

/-- A hexadecimal digit, of either case. -/
def hexDigit (b : Byte) : Option Nat :=
  if 48 ≤ b.toNat ∧ b.toNat ≤ 57 then some (b.toNat - 48)
  else if 65 ≤ b.toNat ∧ b.toNat ≤ 70 then some (b.toNat - 55)
  else if 97 ≤ b.toNat ∧ b.toNat ≤ 102 then some (b.toNat - 87)
  else none

/-- The number that digits continue, from the number read so far. -/
def readDigits (base : Nat) (digit : Byte → Option Nat) : Nat → List Byte → Option Nat
  | n, [] => some n
  | n, b :: bs =>
    match digit b with
    | some d => readDigits base digit (n * base + d) bs
    | none => none

/-- At least one digit. -/
def readNonempty (base : Nat) (digit : Byte → Option Nat) : List Byte → Option Nat
  | [] => none
  | bs => readDigits base digit 0 bs

/-- A number: decimal, or hexadecimal after `0x` (R81). -/
def readNumber (bs : List Byte) : Option Nat :=
  if bs.take 2 = ascii "0x" then readNonempty 16 hexDigit (bs.drop 2) else readNonempty 10 decDigit bs

/-- A `u32` operand. A number of 2^32 or more is no u32: the spec gives the line no outcome, and it is refused as
BadSyntax. DESIGN CHOICE, safe: log 3. -/
def readWord (bs : List Byte) : Option Word :=
  match readNumber bs with
  | some n => if n < 2 ^ 32 then some (BitVec.ofNat 32 n) else none
  | none => none

/-- A one-bit operand, 0 or 1: the bit of ASC_SHIFT_BIT (R114) and a level of the signal form (R81). For any other number
the spec gives the line no outcome, and it is refused as BadSyntax. DESIGN CHOICE, safe: log 3. -/
def readBit (bs : List Byte) : Option Bool :=
  match readNumber bs with
  | some 0 => some false
  | some 1 => some true
  | _ => none

/-- The names of the counters (R81). -/
def Counter.text : Counter → List Byte
  | .c2m => ascii "C2M"
  | .clc => ascii "CLC"
  | .cif => ascii "CIF"
  | .chf => ascii "CHF"
  | .c32k => ascii "C32K"

/-- The number of a counter (R12). -/
def Counter.index : Counter → Nat
  | .c2m => 0
  | .clc => 1
  | .cif => 2
  | .chf => 3
  | .c32k => 4

/-- A counter index, written as a number 0..4 or by name (R81). -/
def readCounter (bs : List Byte) : Option Counter :=
  match Counter.all.find? (fun i => i.text == bs) with
  | some i => some i
  | none =>
    match readNumber bs with
    | some n => Counter.all.find? (fun i => i.index == n)
    | none => none

/-- A field name `d.f` (R81, R12). -/
def Field.text : Field → List Byte
  | .hfCoarse => ascii "HF.coarse"
  | .hfFine => ascii "HF.fine"
  | .rc2mCoarse => ascii "RC2M.coarse"
  | .rc2mFine => ascii "RC2M.fine"
  | .rc2mSuperfine => ascii "RC2M.superfine"
  | .ifCoarse => ascii "IF.coarse"
  | .ifFine => ascii "IF.fine"
  | .lcCode => ascii "LC.code"

def readField (bs : List Byte) : Option Field := Field.all.find? (fun f => f.text == bs)

/-- Cut at the first occurrence of a byte: what stands before it, and what stands after it if it occurs. -/
def cutAt (sep : Byte) : List Byte → List Byte × Option (List Byte)
  | [] => ([], none)
  | b :: bs =>
    if b = sep then ([], some bs)
    else
      let r := cutAt sep bs
      (b :: r.1, r.2)

/-- Spaces dropped from the front: a space may follow a comma, as in the spec's own examples (log 3). -/
def dropSpaces : List Byte → List Byte
  | [] => []
  | b :: bs => if b = 32#8 then dropSpaces bs else b :: bs

/-- What an operation's operands read as: the text after the first space, none where there is no space. -/
abbrev Reader := Config → Option (List Byte) → Option Instr

/-- An operation without operands. -/
def noOperand (i : Instr) : Reader
  | _, none => some i
  | _, some _ => none

/-- An operation with one operand. -/
def oneOperand {α : Type} (read : List Byte → Option α) (mk : α → Instr) : Reader
  | _, none => none
  | _, some bs => (read bs).map mk

/-- An operation with two operands. -/
def twoOperands {α β : Type} (readA : List Byte → Option α) (readB : List Byte → Option β)
    (mk : α → β → Instr) : Reader
  | _, none => none
  | _, some bs =>
    match cutAt 44#8 bs with
    | (x, some y) =>
      match readA x, readB (dropSpaces y) with
      | some m, some n => some (mk m n)
      | _, _ => none
    | (_, none) => none

/-- An operation with three operands. -/
def threeOperands {α β γ : Type} (readA : List Byte → Option α) (readB : List Byte → Option β)
    (readC : List Byte → Option γ) (mk : α → β → γ → Instr) : Reader
  | _, none => none
  | _, some bs =>
    match cutAt 44#8 bs with
    | (x, some rest) =>
      match cutAt 44#8 (dropSpaces rest) with
      | (y, some z) =>
        match readA x, readB y, readC (dropSpaces z) with
        | some m, some n, some k => some (mk m n k)
        | _, _, _ => none
      | (_, none) => none
    | (_, none) => none

/-- One `NAME=level` part of the signal form of a control word, followed by the byte `stop`: its level, and the text
after the stop as it stands. -/
def readSignal (name : String) (stop : Byte) (bs : List Byte) : Option (Bool × List Byte) :=
  match cutAt 61#8 bs with
  | (x, some rest) =>
    if x = ascii name then
      match cutAt stop rest with
      | (y, some z) => (readBit y).map fun b => (b, z)
      | (_, none) => none
    else none
  | (_, none) => none

/-- The signal form of a control word (R81): an opening brace (byte 123), `DATA=d, PHI1=p1, PHI2=p2, LOAD=ld`,
a closing brace (byte 125), at which the line ends. Spaces may follow the commas alone (log 3). It means
`ascw(d, p1, p2, ld)`. -/
def readSignals (cfg : Config) (bs : List Byte) : Option Word :=
  match readSignal "DATA" 44#8 bs with
  | none => none
  | some (d, r1) =>
    match readSignal "PHI1" 44#8 (dropSpaces r1) with
    | none => none
    | some (p1, r2) =>
      match readSignal "PHI2" 44#8 (dropSpaces r2) with
      | none => none
      | some (p2, r3) =>
        match readSignal "LOAD" 125#8 (dropSpaces r3) with
        | some (ld, []) => some (ascw cfg d p1 p2 ld)
        | _ => none

/-- The word operand of ASC_CTRL_WR: a number, or the signal form (R81). -/
def ctrlWordOperand : Reader
  | _, none => none
  | cfg, some bs =>
    match bs with
    | [] => none
    | b :: rest =>
      if b = 123#8 then (readSignals cfg rest).map .ascCtrlWr else (readWord bs).map .ascCtrlWr

/-! ### The operation table: mnemonics and operands (R84) -/

def scanChainRows : List (List Byte × Reader) :=
  [ (ascii "ASC_CTRL_WR", ctrlWordOperand),
    (ascii "ASC_CTRL_RD", noOperand .ascCtrlRd),
    (ascii "ASC_MIRROR_WR", twoOperands readNumber readWord .ascMirrorWr),
    (ascii "ASC_MIRROR_RD", oneOperand readNumber .ascMirrorRd),
    (ascii "ASC_SET_BIT", oneOperand readNumber .ascSetBit),
    (ascii "ASC_CLEAR_BIT", oneOperand readNumber .ascClearBit),
    (ascii "ASC_READ_BIT", oneOperand readNumber .ascReadBit),
    (ascii "ASC_WRITE_FIELD", threeOperands readNumber readNumber readNumber .ascWriteField),
    (ascii "ASC_SHIFT_BIT", oneOperand readBit .ascShiftBit),
    (ascii "ASC_SHIFT_ALL", noOperand .ascShiftAll),
    (ascii "ASC_LOAD", noOperand .ascLoad),
    (ascii "ASC_COMMIT", noOperand .ascCommit) ]

def counterRows : List (List Byte × Reader) :=
  [ (ascii "CNT_CTRL_WR", oneOperand readWord .cntCtrlWr),
    (ascii "CNT_DISABLE_ALL", noOperand .cntDisableAll),
    (ascii "CNT_RESET_ALL", noOperand .cntResetAll),
    (ascii "CNT_ENABLE_ALL", noOperand .cntEnableAll),
    (ascii "CNT_CTRL_RD", noOperand .cntCtrlRd),
    (ascii "CNT_TICK", oneOperand readCounter .cntTick),
    (ascii "CNT_RD_LO", oneOperand readCounter .cntRdLo),
    (ascii "CNT_RD_HI", oneOperand readCounter .cntRdHi),
    (ascii "CNT_READ_SNAPSHOT", noOperand .cntReadSnapshot),
    (ascii "CNT_RESET_AND_ENABLE", noOperand .cntResetAndEnable),
    (ascii "CNT_GATE_CYCLE", noOperand .cntGateCycle) ]

def storeRows : List (List Byte × Reader) :=
  [ (ascii "DAC_GET", oneOperand readField .dacGet),
    (ascii "DAC_SET", twoOperands readField readWord .dacSet),
    (ascii "HF_FINE_DEC", noOperand .hfFineDec),
    (ascii "HF_FINE_INC", noOperand .hfFineInc),
    (ascii "IF_FINE_INC", noOperand .ifFineInc),
    (ascii "IF_FINE_DEC", noOperand .ifFineDec),
    (ascii "RC2M_COARSE_INC", noOperand .rc2mCoarseInc),
    (ascii "RC2M_COARSE_DEC", noOperand .rc2mCoarseDec),
    (ascii "RC2M_FINE_INC", noOperand .rc2mFineInc),
    (ascii "RC2M_FINE_DEC", noOperand .rc2mFineDec),
    (ascii "RC2M_SUPERFINE_INC", noOperand .rc2mSuperfineInc),
    (ascii "RC2M_SUPERFINE_DEC", noOperand .rc2mSuperfineDec),
    (ascii "LC_INC", noOperand .lcInc),
    (ascii "LC_DEC", noOperand .lcDec),
    (ascii "LC_EXPAND", noOperand .lcExpand) ]

def encoderRows : List (List Byte × Reader) :=
  [ (ascii "DAC_ENCODE_HF", noOperand .dacEncodeHf),
    (ascii "DAC_ENCODE_RC2M", noOperand .dacEncodeRc2m),
    (ascii "DAC_ENCODE_IF", noOperand .dacEncodeIf),
    (ascii "DAC_ENCODE_LC", noOperand .dacEncodeLc),
    (ascii "DAC_ENCODE_ALL", noOperand .dacEncodeAll) ]

def sequencerRows : List (List Byte × Reader) :=
  [ (ascii "SEQ_ARM", noOperand .seqArm),
    (ascii "REF_DISABLE", noOperand .refDisable),
    (ascii "REF_EDGE", noOperand .refEdge),
    (ascii "SEQ_ENTER", noOperand .seqEnter),
    (ascii "SEQ_TICK", noOperand .seqTick),
    (ascii "HF_CORRECT", oneOperand readWord .hfCorrect),
    (ascii "LC_CORRECT", oneOperand readWord .lcCorrect),
    (ascii "RC2M_CORRECT", oneOperand readWord .rc2mCorrect),
    (ascii "IF_CORRECT", oneOperand readWord .ifCorrect),
    (ascii "SEQ_EXIT", noOperand .seqExit),
    (ascii "SEQ_WAIT_DONE", noOperand .seqWaitDone),
    (ascii "PERFORM_CALIBRATION", noOperand .performCalibration) ]

/-- The 55 rows of the operation table. -/
def operationRows : List (List Byte × Reader) :=
  scanChainRows ++ counterRows ++ storeRows ++ encoderRows ++ sequencerRows

/-- The operand reader of a mnemonic. -/
def readerOf (mnemonic : List Byte) : Option Reader :=
  (operationRows.find? fun r => r.1 == mnemonic).map (·.2)

/-- Decode of a line: the mnemonic up to the first space, then the operands; any other spelling is refused
(R81). -/
def decodeLine (cfg : Config) (text : List Byte) : Except DecodeError Instr :=
  match cutAt 32#8 text with
  | (m, args) =>
    match readerOf m with
    | none => .error .badSyntax
    | some read =>
      match read cfg args with
      | some i => .ok i
      | none => .error .badSyntax

/-- Decode of an issued operation. -/
def decode (cfg : Config) : Issue → Except DecodeError Instr
  | .access a => decodeAccess cfg a
  | .line t => decodeLine cfg t

/-- The instruction of a 32-bit word of the operation table. The one row whose bits the table gives is
ASC_CTRL_WR, a 32-bit write of that word to the control register in the reference layout; the block has no other
words that carry an operation (R83). Log 2. -/
def decodeTableWord (nbits w : Nat) : Option Instr :=
  if nbits = 32 then
    match decode Config.reference (.access ⟨.write, Config.reference.ascCtrlAddr, 4, BitVec.ofNat 32 w⟩) with
    | .ok i => some i
    | .error _ => none
  else none

/-! ### The encoder -/

/-- Decimal digits of a number, in front of digits already written; `fuel` bounds their count. -/
def digitsOnto : Nat → Nat → List Byte → List Byte
  | 0, _, acc => acc
  | fuel + 1, n, acc =>
    if n < 10 then BitVec.ofNat 8 (48 + n) :: acc
    else digitsOnto fuel (n / 10) (BitVec.ofNat 8 (48 + n % 10) :: acc)

/-- A number in decimal (R81). -/
def numberText (n : Nat) : List Byte := digitsOnto (n + 1) n []

def wordText (v : Word) : List Byte := numberText v.toNat

def bitText (b : Bool) : List Byte := numberText b.toNat

def counterText (i : Counter) : List Byte := numberText i.index

/-- A mnemonic, a space and one operand. -/
def line1 (m : String) (x : List Byte) : List Byte := ascii m ++ 32#8 :: x

/-- A mnemonic, a space and two operands separated by a comma. -/
def line2 (m : String) (x y : List Byte) : List Byte := line1 m (x ++ 44#8 :: y)

/-- A mnemonic, a space and three operands separated by commas. -/
def line3 (m : String) (x y z : List Byte) : List Byte := line2 m x (y ++ 44#8 :: z)

/-- The text of an instruction in the syntax of R81, numbers in decimal. -/
def encode : Instr → List Byte
  | .ascCtrlWr v => line1 "ASC_CTRL_WR" (wordText v)
  | .ascCtrlRd => ascii "ASC_CTRL_RD"
  | .ascMirrorWr w v => line2 "ASC_MIRROR_WR" (numberText w) (wordText v)
  | .ascMirrorRd w => line1 "ASC_MIRROR_RD" (numberText w)
  | .ascSetBit p => line1 "ASC_SET_BIT" (numberText p)
  | .ascClearBit p => line1 "ASC_CLEAR_BIT" (numberText p)
  | .ascReadBit p => line1 "ASC_READ_BIT" (numberText p)
  | .ascWriteField p n v => line3 "ASC_WRITE_FIELD" (numberText p) (numberText n) (numberText v)
  | .ascShiftBit d => line1 "ASC_SHIFT_BIT" (bitText d)
  | .ascShiftAll => ascii "ASC_SHIFT_ALL"
  | .ascLoad => ascii "ASC_LOAD"
  | .ascCommit => ascii "ASC_COMMIT"
  | .cntCtrlWr v => line1 "CNT_CTRL_WR" (wordText v)
  | .cntDisableAll => ascii "CNT_DISABLE_ALL"
  | .cntResetAll => ascii "CNT_RESET_ALL"
  | .cntEnableAll => ascii "CNT_ENABLE_ALL"
  | .cntCtrlRd => ascii "CNT_CTRL_RD"
  | .cntTick i => line1 "CNT_TICK" (counterText i)
  | .cntRdLo i => line1 "CNT_RD_LO" (counterText i)
  | .cntRdHi i => line1 "CNT_RD_HI" (counterText i)
  | .cntReadSnapshot => ascii "CNT_READ_SNAPSHOT"
  | .cntResetAndEnable => ascii "CNT_RESET_AND_ENABLE"
  | .cntGateCycle => ascii "CNT_GATE_CYCLE"
  | .dacGet f => line1 "DAC_GET" f.text
  | .dacSet f v => line2 "DAC_SET" f.text (wordText v)
  | .hfFineDec => ascii "HF_FINE_DEC"
  | .hfFineInc => ascii "HF_FINE_INC"
  | .ifFineInc => ascii "IF_FINE_INC"
  | .ifFineDec => ascii "IF_FINE_DEC"
  | .rc2mCoarseInc => ascii "RC2M_COARSE_INC"
  | .rc2mCoarseDec => ascii "RC2M_COARSE_DEC"
  | .rc2mFineInc => ascii "RC2M_FINE_INC"
  | .rc2mFineDec => ascii "RC2M_FINE_DEC"
  | .rc2mSuperfineInc => ascii "RC2M_SUPERFINE_INC"
  | .rc2mSuperfineDec => ascii "RC2M_SUPERFINE_DEC"
  | .lcInc => ascii "LC_INC"
  | .lcDec => ascii "LC_DEC"
  | .lcExpand => ascii "LC_EXPAND"
  | .dacEncodeHf => ascii "DAC_ENCODE_HF"
  | .dacEncodeRc2m => ascii "DAC_ENCODE_RC2M"
  | .dacEncodeIf => ascii "DAC_ENCODE_IF"
  | .dacEncodeLc => ascii "DAC_ENCODE_LC"
  | .dacEncodeAll => ascii "DAC_ENCODE_ALL"
  | .seqArm => ascii "SEQ_ARM"
  | .refDisable => ascii "REF_DISABLE"
  | .refEdge => ascii "REF_EDGE"
  | .seqEnter => ascii "SEQ_ENTER"
  | .seqTick => ascii "SEQ_TICK"
  | .hfCorrect c => line1 "HF_CORRECT" (wordText c)
  | .lcCorrect c => line1 "LC_CORRECT" (wordText c)
  | .rc2mCorrect c => line1 "RC2M_CORRECT" (wordText c)
  | .ifCorrect c => line1 "IF_CORRECT" (wordText c)
  | .seqExit => ascii "SEQ_EXIT"
  | .seqWaitDone => ascii "SEQ_WAIT_DONE"
  | .performCalibration => ascii "PERFORM_CALIBRATION"

/-- The bus access that performs an operation, for the operations that are one access (R84). The three pattern
operations are writes of their pattern, so their access decodes to CNT_CTRL_WR of it (R151). -/
def encodeAccess (cfg : Config) : Instr → Option Access
  | .ascCtrlWr v => some ⟨.write, cfg.ascCtrlAddr, 4, v⟩
  | .ascCtrlRd => some ⟨.read, cfg.ascCtrlAddr, 4, 0⟩
  | .cntCtrlWr v => some ⟨.write, cfg.cntCtrlAddr, 4, v⟩
  | .cntDisableAll => some ⟨.write, cfg.cntCtrlAddr, 4, cfg.patDisable⟩
  | .cntResetAll => some ⟨.write, cfg.cntCtrlAddr, 4, cfg.patReset⟩
  | .cntEnableAll => some ⟨.write, cfg.cntCtrlAddr, 4, cfg.patEnable⟩
  | .cntCtrlRd => some ⟨.read, cfg.cntCtrlAddr, 4, 0⟩
  | .cntRdLo i => some ⟨.read, cfg.cntLoAddr.get i, 4, 0⟩
  | .cntRdHi i => some ⟨.read, cfg.cntHiAddr.get i, 4, 0⟩
  | .ascMirrorWr _ _ | .ascMirrorRd _ | .ascSetBit _ | .ascClearBit _ | .ascReadBit _ | .ascWriteField _ _ _
  | .ascShiftBit _ | .ascShiftAll | .ascLoad | .ascCommit => none
  | .cntTick _ | .cntReadSnapshot | .cntResetAndEnable | .cntGateCycle => none
  | .dacGet _ | .dacSet _ _ | .hfFineDec | .hfFineInc | .ifFineInc | .ifFineDec | .rc2mCoarseInc
  | .rc2mCoarseDec | .rc2mFineInc | .rc2mFineDec | .rc2mSuperfineInc | .rc2mSuperfineDec | .lcInc | .lcDec
  | .lcExpand | .dacEncodeHf | .dacEncodeRc2m | .dacEncodeIf | .dacEncodeLc | .dacEncodeAll => none
  | .seqArm | .refDisable | .refEdge | .seqEnter | .seqTick | .hfCorrect _ | .lcCorrect _ | .rc2mCorrect _
  | .ifCorrect _ | .seqExit | .seqWaitDone | .performCalibration => none

end Sys2Proof
end

