-- ==== Sys2Proof/Machine/State.lean ====
section
/-! DEFINITION. The state of the block and of its client sequencer (10_state.md R20 to R36), the model's own
fields beside it, the reasons a step can stop, and the state after power-on (70_reset_and_hazards.md R301). -/

namespace Sys2Proof.Machine

/-- Memory of words by index, strictly rising, an unlisted index unwritten (log 15). It holds the mirror
`ASC[0..37]` of R24. -/
abbrev Memory := List (Nat × Word)

/-- CNT_MODE of R26. -/
inductive CntMode where
  | running
  | stopped
  | cleared
  | powerOn
  deriving DecidableEq, Repr

/-- SEQ_STATE of R29. -/
inductive SeqState where
  | idle
  | armed
  | converging
  | done
  deriving DecidableEq, Repr

/-- Whether each domain's count was inside its band (R254). -/
structure InBand where
  hf   : Bool
  lc   : Bool
  rc2m : Bool
  ifc  : Bool
  deriving DecidableEq, Repr

/-- The session result (R35, R254). -/
structure CalResult where
  counts    : Counts
  codes     : Codes
  inBand    : InBand
  converged : Bool
  deriving DecidableEq, Repr

/-- The five kinds of model fault (R280). -/
inductive FaultKind where
  | outOfRange
  | fieldRange
  | unwrittenMirror
  | codeRange
  | lcMapRange
  deriving DecidableEq, Repr

/-- What a fault records beside its kind (R280). -/
inductive FaultInfo where
  | position (p : Nat)
  | span (p n : Nat)
  | value (v n : Nat)
  | word (w : Nat)
  | field (f : Field)
  | lcCode (c : Nat)
  deriving DecidableEq, Repr

/-- One entry of FAULTS (R36). -/
structure FaultRec where
  kind : FaultKind
  info : FaultInfo
  deriving DecidableEq, Repr

/-- The seven reasons of refusal (R281). -/
inductive Reason where
  | reservedBits
  | resetAsserted
  | unknownPattern
  | badAccess
  | badSyntax
  | badConfig
  | busy
  deriving DecidableEq, Repr

/-- The value an operation returns to the CPU: a read word (R107, R109, R155, R159, R160), a mirror bit (R112),
a code (R191), the LC sub-codes (R206), a snapshot (R161, R163), the session result (R256). -/
inductive RetVal where
  | word (v : Word)
  | bit (b : Bool)
  | code (n : Nat)
  | subCodes (t : LcSub)
  | counts (c : Counts)
  | session (r : Option CalResult)
  deriving DecidableEq, Repr

/-- A step of another agent (R6): an edge of a counted clock, or a reference edge. -/
inductive Act where
  | tick (i : Counter)
  | edge
  deriving DecidableEq, Repr

/-- The state. The fields from `cfg` on are the model's own. -/
structure State where
  ascCtrlLast : Option Word
  a           : Chain
  b           : Chain
  l           : Chain
  mirror      : Memory
  cnt         : Counts
  cntMode     : CntMode
  settleLeft  : Nat
  code        : Codes
  seqState    : SeqState
  iter        : Nat
  doneFlag    : Bool
  refEn       : Bool
  refPending  : Bool
  inHandler   : Bool
  snap        : Option Counts
  prevCodes   : Option Codes
  result      : Option CalResult
  faults      : List FaultRec
  refused     : Bool
  /-- The parameters of R7 (log 1). -/
  cfg         : Config
  /-- The reason of the first refusal (log 6). -/
  refusedBy   : Option Reason
  /-- The value the last operation with a result returned (log 4). -/
  ret         : Option RetVal
  /-- How many draws have been taken (log 5). -/
  draws       : Nat
  /-- The operations still to be issued, oldest first (log 2). -/
  todo        : List Issue
  /-- What the other agents do before each coming CPU step, one entry a step (log 8). -/
  env         : List (List Act)
  /-- What is left of the handler body (log 9). -/
  hand        : List Instr
  /-- The main context is blocked in SEQ_WAIT_DONE (log 11). -/
  waiting     : Bool
  deriving DecidableEq, Repr

/-- Why the machine stops with a fault. -/
inductive Fault where
  /-- Raised by `step` alone, on a state whose FAULTS is not empty: the run ended at that fault (R36, R280).
  Safe: the machine stops where the chip would go on. -/
  | ended (f : FaultRec)
  deriving DecidableEq, Repr

/-- Why the machine refuses to go on. -/
inductive Refusal where
  /-- Raised by `exec` for an instruction without a meaning. Safe. No arm uses it. -/
  | notModelled (mnemonic : String)
  /-- Raised by `step` alone, on a state whose REFUSED is set: the run ended at that refusal (R36, R281).
  Safe: the machine stops where the chip would go on. -/
  | ended (r : Option Reason)
  deriving DecidableEq, Repr

/-- The state after power-on of a chip with these parameters (R301 and the rules it names): the store holds INIT_CODES
(R28). The model's own fields: log 21. -/
def State.powerOn (cfg : Config) : State where
  ascCtrlLast := none
  a := Chain.allX
  b := Chain.allX
  l := Chain.allX
  mirror := []
  cnt := ⟨Config.draw32 0, Config.draw32 1, Config.draw32 2, Config.draw32 3, Config.draw32 4⟩
  cntMode := .powerOn
  settleLeft := 0
  code := cfg.initCodes
  seqState := .idle
  iter := 0
  doneFlag := false
  refEn := false
  refPending := false
  inHandler := false
  snap := none
  prevCodes := none
  result := none
  faults := []
  refused := false
  cfg := cfg
  refusedBy := none
  ret := none
  draws := 5
  todo := []
  env := []
  hand := []
  waiting := false

/-- The state right after reset: power-on under the reference configuration. DESIGN CHOICE, unsafe: log 1. -/
def State.reset : State := State.powerOn Config.reference

end Sys2Proof.Machine
end

