-- ==== Sys2Proof/Machine/Flags.lean ====
section
/-! DEFINITION. The predicates the rules test: whether the counters may count, the guards of the agents' steps, the
in-band tests, the latch-race conditions and the cause codes. The block has no condition flags: every operation
of the spec says "Flags: none". -/

namespace Sys2Proof.Machine

/-- `counting()` of R156. -/
def counting (s : State) : Bool :=
  s.cntMode == .running || s.cntMode == .powerOn || (s.cntMode == .cleared && !s.cfg.resetHolds)
    || decide (0 < s.settleLeft)

/-- REF_EDGE is enabled (R243). -/
def edgeEnabled (s : State) : Bool := s.refEn && !s.refPending && !s.inHandler

/-- SEQ_ENTER is enabled (R244). -/
def entryEnabled (s : State) : Bool := s.refPending && !s.inHandler

/-- Both latch enables 1 after the write, or both changed by it (R102). -/
def phasesRace (before after : Levels) : Bool :=
  (after.ia == .one && after.ib == .one)
    || (Bit3.changed before.ia after.ia && Bit3.changed before.ib after.ib)

/-- The write closes the input latches and moves DATA (R103). -/
def dataRace (before after : Levels) : Bool :=
  before.ia != .zero && Bit3.changed before.d after.d

/-- HF is in band: the correction of R248 would change nothing (R254). -/
def hfInBand (c : Nat) : Bool := decide (hfLow ≤ c) && decide (c ≤ hfHigh)

/-- LC is in band (R249, R254). -/
def lcInBand (cfg : Config) (c : Nat) : Bool := c == cfg.lcTarget

/-- RC2M is in band: `|c - RC2M_TARGET| <= RC2M_T_SUPERFINE` (R250, R254). -/
def rc2mInBand (cfg : Config) (c : Nat) : Bool :=
  decide (((c : Int) - (rc2mTarget : Int)).natAbs ≤ cfg.rc2mTSuperfine)

/-- IF is in band: `|c - IF_TARGET| <= IF_BAND` (R251, R254). -/
def ifInBand (cfg : Config) (c : Nat) : Bool :=
  decide (((c : Int) - (cfg.ifTarget : Int)).natAbs ≤ ifBand)

/-- The four in-band flags of a snapshot (R254). -/
def inBandOf (cfg : Config) (s : Counts) : InBand :=
  ⟨hfInBand s.chf.toNat, lcInBand cfg s.clc.toNat, rc2mInBand cfg s.c2m.toNat, ifInBand cfg s.cif.toNat⟩

/-- `converged` of R254. -/
def InBand.all (r : InBand) : Bool := r.hf && r.lc && r.rc2m && r.ifc

/-- `mkResult(s, codes)` of R254. -/
def mkResult (cfg : Config) (s : Counts) (codes : Codes) : CalResult :=
  ⟨s, codes, inBandOf cfg s, (inBandOf cfg s).all⟩

/-- The termination check of R252 (FIXED_BUDGET) and R253 (CONVERGENCE_GATED) on this tick's snapshot. -/
def terminates (s : State) (snapshot : Counts) : Bool :=
  match s.cfg.terminationPolicy with
  | .fixedBudget => s.iter == warmup + budget
  | .convergenceGated => (inBandOf s.cfg snapshot).all || s.iter == warmup + budget

/-- Cause codes of the faults (R282). -/
def FaultKind.causeCode : FaultKind → Nat
  | .outOfRange => 1
  | .fieldRange => 2
  | .unwrittenMirror => 3
  | .codeRange => 4
  | .lcMapRange => 5

/-- Cause codes of the refusals (R282). -/
def Reason.causeCode : Reason → Nat
  | .reservedBits => 16
  | .resetAsserted => 17
  | .unknownPattern => 18
  | .badAccess => 19
  | .badSyntax => 20
  | .badConfig => 21
  | .busy => 22

end Sys2Proof.Machine
end

