-- ==== Sys2Proof/Machine/Ops.lean ====
section
/-! DEFINITION. The operations every meaning is built from: results of an operation and the recording of a fault
or a refusal (60_exceptions.md R280, R281), draws (R10), the mirror memory, the control-register write with its
latches (40_scan_chain.md R100 to R106), the counter accesses (41_counters.md R151 to R160), interrupt entry and
return (R244, R255), and the steps of the other agents. -/

namespace Sys2Proof.Machine

/-! ### Results of an operation -/

/-- How an operation ends: it completes with a value, it stops at a fault or it stops at a refusal. The state
holds the effects up to there: the operation "stops there and writes nothing more" (R10). -/
inductive Res (α : Type) where
  | ok (v : α) (s : State)
  | fault (f : FaultRec) (s : State)
  | refuse (r : Reason) (s : State)

/-- Run one operation and then another with its value; the first that stops stops both (R283). -/
def Res.bind {α β : Type} (x : Res α) (k : α → State → Res β) : Res β :=
  match x with
  | .ok v s => k v s
  | .fault f s => .fault f s
  | .refuse r s => .refuse r s

/-- Run one operation and then another. -/
def Res.andThen {α β : Type} (x : Res α) (k : State → Res β) : Res β := x.bind fun _ s => k s

/-- `raise Fault(kind, info)`: append it to FAULTS (R280). -/
def raiseFault (f : FaultRec) (s : State) : State := { s with faults := s.faults ++ [f] }

/-- `refuse(reason)`: set REFUSED, and keep the reason of the first refusal (R281, log 6). -/
def refuseWith (r : Reason) (s : State) : State :=
  { s with refused := true, refusedBy := s.refusedBy.or (some r) }

/-- The value an operation returns to the CPU (log 4). -/
def setRet (v : RetVal) (s : State) : State := { s with ret := some v }

/-- The next state of an operation without a result: a fault and a refusal are recorded in the state, with the
effects of the operations called before (R280, R281, R283; log 6). -/
def finish (x : Res Unit) : Host.Outcome State Fault Refusal :=
  match x with
  | .ok _ s => .next s
  | .fault f s => .next (raiseFault f s)
  | .refuse r s => .next (refuseWith r s)

/-- The next state of an operation with a result. -/
def finishWith {α : Type} (val : α → RetVal) (x : Res α) : Host.Outcome State Fault Refusal :=
  finish (x.bind fun v s => .ok () (setRet (val v) s))

/-! ### Draws (R10) -/

/-- Advance the counter behind the free values. -/
def nextDraw (s : State) : State := { s with draws := s.draws + 1 }

/-- `draw_32()`. -/
def draw32 (s : State) : Res Word := .ok (Config.draw32 s.draws) (nextDraw s)

/-- `draw_16()`. -/
def draw16 (s : State) : Res Half := .ok (Config.draw16 s.draws) (nextDraw s)

/-! ### The mirror (R24, log 15) -/

/-- The word at an index; none where it was never written. -/
def Memory.read (m : Memory) (w : Nat) : Option Word := (m.find? fun e => e.1 == w).map (·.2)

/-- Write a word, keeping the indices strictly rising. -/
def Memory.write : Memory → Nat → Word → Memory
  | [], w, v => [(w, v)]
  | e :: m, w, v =>
    if w < e.1 then (w, v) :: e :: m
    else if w = e.1 then (w, v) :: m
    else e :: Memory.write m w v

/-- The canonical form: indices strictly rising. -/
def Memory.rising : Memory → Bool
  | [] => true
  | [_] => true
  | e :: e' :: m => decide (e.1 < e'.1) && Memory.rising (e' :: m)

/-- The canonical form of the mirror: indices strictly rising, all below 38. -/
def Memory.wf (m : Memory) : Bool := Memory.rising m && m.all fun e => decide (e.1 < nWords)

/-- The value of position p in the mirror (R76); none where its word was never written. -/
def Memory.bit (m : Memory) (p : Nat) : Option Bool := (m.read (wordOf p)).map fun v => wordBit v (bitOf p)

def setMirror (m : Memory) (s : State) : State := { s with mirror := m }

/-- `raise Fault(OutOfRange, w)` for a word index of 38 or more. -/
def checkWord (w : Nat) (s : State) : Res Unit :=
  if w < nWords then .ok () s else .fault ⟨.outOfRange, .word w⟩ s

/-- `raise Fault(OutOfRange, p)` for a position of 1216 or more. -/
def checkPosition (p : Nat) (s : State) : Res Unit :=
  if p < nAsc then .ok () s else .fault ⟨.outOfRange, .position p⟩ s

/-- Read a mirror word, or `raise Fault(UnwrittenMirror, w)` (R109). -/
def readMirror (w : Nat) (s : State) : Res Word :=
  match s.mirror.read w with
  | some v => .ok v s
  | none => .fault ⟨.unwrittenMirror, .word w⟩ s

/-- Read-modify-write of the mirror word of a position (R110, R111). -/
def modifyBit (change : Word → Word → Word) (p : Nat) (s : State) : Res Unit :=
  (checkPosition p s).andThen fun s =>
  (readMirror (wordOf p) s).bind fun v s =>
  .ok () (setMirror (s.mirror.write (wordOf p) (change v (maskOf p))) s)

/-- R110. -/
def ascSetBit (p : Nat) (s : State) : Res Unit := modifyBit (fun v m => v ||| m) p s

/-- R111. -/
def ascClearBit (p : Nat) (s : State) : Res Unit := modifyBit (fun v m => v &&& ~~~m) p s

/-! ### One write to the control register (R100 to R106) -/

/-- The input latches after a write (R103); the overlap of R102 is excluded. -/
def inputLatches (before after : Levels) (a b : Chain) : Chain :=
  if after.ia = .one then Chain.ofFn fun s => if s = 0 then after.d else b.at (s - 1)
  else if dataRace before after then Chain.ofFn fun s => if s = 0 then .x else a.at s
  else a

/-- The output latches after a write (R104), from the input latches after it. -/
def outputLatches (after : Levels) (a b : Chain) : Chain :=
  if after.ib = .one then a else b

/-- One bit of the live configuration after a write (R105): `bold` and `b` are its stage before and after. Where
LOAD opens the bit is the stage's, where it is held high or closes the bit stays, and in both it is `X` if the
stage changed in this write. -/
def loadBit (ld0 ld bold b l : Bit3) : Bit3 :=
  if Bit3.changed bold b then .x
  else if ld = .one ∧ ld0 ≠ .one then b
  else l

/-- The live configuration after a write (R105); with LOAD low before and after, it is unchanged. -/
def loadStep (before after : Levels) (bold b l : Chain) : Chain :=
  if before.ld = .zero ∧ after.ld = .zero then l
  else Chain.ofFn fun p => loadBit before.ld after.ld (bold.at (stageOf p)) (b.at (stageOf p)) (l.at p)

def setChain (last : Option Word) (a b l : Chain) (s : State) : State :=
  { s with ascCtrlLast := last, a := a, b := b, l := l }

/-- The latches, the live configuration and ASC_CTRL_LAST after an admitted write (R101 to R106). -/
def latchWrite (v : Word) (s : State) : State :=
  let before := levelsBefore s.cfg s.ascCtrlLast
  let after := levelsOf s.cfg v
  let a := if phasesRace before after then Chain.allX else inputLatches before after s.a s.b
  let b := if phasesRace before after then Chain.allX else outputLatches after a s.b
  setChain (some v) a b (loadStep before after s.b b s.l) s

/-- One write to the control register, with its admission (R100). -/
def ascCtrlWrite (v : Word) (s : State) : Res Unit :=
  if v &&& ~~~(sigMask s.cfg) ≠ 0 then .refuse .reservedBits s
  else if wordBit v s.cfg.bitRst ≠ s.cfg.rstInactive then .refuse .resetAsserted s
  else .ok () (latchWrite v s)

/-! ### Counter accesses (R151 to R160) -/

def setCounters (cnt : Counts) (mode : CntMode) (settle : Nat) (s : State) : State :=
  { s with cnt := cnt, cntMode := mode, settleLeft := settle }

/-- The settling countdown of R157. -/
def settle (s : State) : State := setCounters s.cnt s.cntMode (s.settleLeft - 1) s

/-- CNT_DISABLE_ALL (R152). -/
def disableAll (s : State) : State := setCounters s.cnt .stopped s.cfg.disableSettle s

/-- CNT_RESET_ALL (R153), with R157. -/
def resetAll (s : State) : State := settle (setCounters ⟨0, 0, 0, 0, 0⟩ .cleared 0 s)

/-- CNT_ENABLE_ALL (R154), with R157. -/
def enableAll (s : State) : State := settle (setCounters s.cnt .running s.settleLeft s)

/-- A write to CNT_CTRL (R151): one of the three patterns, or refused. -/
def cntCtrlWrite (v : Word) (s : State) : Res Unit :=
  if v = s.cfg.patDisable then .ok () (disableAll s)
  else if v = s.cfg.patReset then .ok () (resetAll s)
  else if v = s.cfg.patEnable then .ok () (enableAll s)
  else .refuse .unknownPattern s

/-- The data half of a counter read: a draw while counting, else the half of the count (R159, R160). -/
def readHalf (half : Half) (s : State) : Res Half := if counting s then draw16 s else .ok half s

/-- Bits 31:16 of a half read (R74). -/
def readUpper (s : State) : Res Half :=
  match s.cfg.cntUpperRead with
  | .zero => .ok 0 s
  | .any => draw16 s

/-- A read of one half register, with R157. -/
def readHalfRegister (half : Half) (s : State) : Res Word :=
  (readHalf half s).bind fun lo s =>
  (readUpper s).bind fun up s =>
  .ok (up ++ lo) (settle s)

/-- CNT_RD_LO (R159). -/
def cntReadLo (i : Counter) (s : State) : Res Word := readHalfRegister ((s.cnt.get i).extractLsb' 0 16) s

/-- CNT_RD_HI (R160). -/
def cntReadHi (i : Counter) (s : State) : Res Word := readHalfRegister ((s.cnt.get i).extractLsb' 16 16) s

/-- CNT_TICK (R158): one edge of a counted clock. Where the counters may not count there is no step, and
nothing changes (log 10). -/
def tickCounter (i : Counter) (s : State) : State :=
  if counting s then
    if s.cnt.get i = BitVec.allOnes 32 then
      match s.cfg.counterOverflow with
      | .wrap => setCounters (s.cnt.set i 0) s.cntMode s.settleLeft s
      | .any => nextDraw (setCounters (s.cnt.set i (Config.draw32 s.draws)) s.cntMode s.settleLeft s)
    else setCounters (s.cnt.set i (s.cnt.get i + 1)) s.cntMode s.settleLeft s
  else s

/-! ### The reference-edge interrupt (R242 to R244, R255) -/

/-- REF_DISABLE (R242). -/
def refDisable (s : State) : State := { s with refEn := false, refPending := false }

/-- REF_EDGE (R243); no step where it is not enabled (log 10). -/
def refEdge (s : State) : State := if edgeEnabled s then { s with refPending := true } else s

/-- Interrupt entry: the state change of SEQ_ENTER (R244, R286). -/
def enterHandler (s : State) : State := { s with refPending := false, inHandler := true }

/-- Interrupt return: the state change of SEQ_EXIT (R255, R287). -/
def exitHandler (s : State) : State := { s with inHandler := false }

/-! ### The other agents (R6, R11, log 8) -/

/-- One step of another agent. -/
def actStep (s : State) : Act → State
  | .tick i => tickCounter i s
  | .edge => refEdge s

/-- What the other agents do before the next CPU step: the first entry of the schedule. -/
def agentsStep (s : State) : State :=
  match s.env with
  | [] => s
  | acts :: rest => acts.foldl actStep { s with env := rest }

/-- An access point inside the handler: the other agents step; no edge is enabled there (R243, R244). -/
def handlerPoint (s : State) : Res Unit := .ok () (agentsStep s)

end Sys2Proof.Machine
end

