-- ==== Sys2Proof/Machine/ChainOps.lean ====
section
/-! DEFINITION. The composite operations of the scan chain and of the mirror (40_scan_chain.md R108 to R118).
`pt` is the access point before each register access: what may happen there depends on whether the operation runs
in the main context or in the handler (R11, R244; log 8). -/

namespace Sys2Proof.Machine

/-- What happens before a register access of a composite operation. -/
abbrev AccessPoint := State → Res Unit

/-! ### The mirror -/

/-- R108. -/
def ascMirrorWrite (w : Nat) (v : Word) (s : State) : Res Unit :=
  (checkWord w s).andThen fun s => .ok () (setMirror (s.mirror.write w v) s)

/-- R109. -/
def ascMirrorRead (w : Nat) (s : State) : Res Word :=
  (checkWord w s).andThen fun s => readMirror w s

/-- R112. -/
def ascReadBit (p : Nat) (s : State) : Res Bool :=
  (checkPosition p s).andThen fun s =>
  (readMirror (wordOf p) s).bind fun v s => .ok (wordBit v (bitOf p)) s

/-- The first mirror word of `lo, lo+1, ...` (`count` of them) that was never written. -/
def firstUnwritten (m : Memory) (lo count : Nat) : Option Nat :=
  (List.range' lo count).find? fun w => (m.read w).isNone

/-- The bits `k-1` down to 0 of v, at the positions up to `last`: bit j goes to position `last - j` (R79). -/
def writeBits (last v : Nat) : Nat → State → Res Unit
  | 0, s => .ok () s
  | j + 1, s =>
    (if v.testBit j then ascSetBit (last - j) s else ascClearBit (last - j) s).andThen fun s =>
    writeBits last v j s

/-- R113: the checks, in their order, then the bits from the most significant on. -/
def ascWriteField (p n v : Nat) (s : State) : Res Unit :=
  if n = 0 ∨ nAsc < p + n then .fault ⟨.outOfRange, .span p n⟩ s
  else if 2 ^ n ≤ v then .fault ⟨.fieldRange, .value v n⟩ s
  else
    match firstUnwritten s.mirror (wordOf p) (wordOf (p + n - 1) - wordOf p + 1) with
    | some w => .fault ⟨.unwrittenMirror, .word w⟩ s
    | none => writeBits (p + n - 1) v n s

/-! ### Shifting, loading and committing -/

/-- One write of the control register inside a composite operation. -/
def writeAt (pt : AccessPoint) (v : Word) (s : State) : Res Unit :=
  (pt s).andThen fun s => ascCtrlWrite v s

/-- R114, from its first write on. -/
def shiftWrites (pt : AccessPoint) (d : Bool) (s : State) : Res Unit :=
  (ascCtrlWrite (ascw s.cfg d false false false) s).andThen fun s =>
  (writeAt pt (ascw s.cfg d false true false) s).andThen fun s =>
  (writeAt pt (ascw s.cfg d false false false) s).andThen fun s =>
  writeAt pt (ascw s.cfg d true false false) s

/-- R114. -/
def ascShiftBit (pt : AccessPoint) (d : Bool) (s : State) : Res Unit :=
  (pt s).andThen fun s => shiftWrites pt d s

/-- Shift the bits of the stages `n-1` down to 0: stage `32*w + j` takes value bit j of mirror word w. Each
mirror bit is read right before its first write, so a change made before that reaches it (R78, R116; log 24). -/
def shiftStages (pt : AccessPoint) : Nat → State → Res Unit
  | 0, s => .ok () s
  | m + 1, s =>
    (pt s).andThen fun s =>
    (readMirror (m / 32) s).bind fun v s =>
    (shiftWrites pt (wordBit v (m % 32)) s).andThen fun s =>
    shiftStages pt m s

/-- R116: word 37 down to word 0, bit 31 down to bit 0. -/
def ascShiftAll (pt : AccessPoint) (s : State) : Res Unit := shiftStages pt nAsc s

/-- The word that ASC_LOAD holds the other signals at (R117). -/
def loadBase (cfg : Config) : Option Word → Word
  | none => ascw cfg false true false false
  | some u => loadLow cfg u

/-- R117; the held signals are those right before the first write (log 24). -/
def ascLoad (pt : AccessPoint) (s : State) : Res Unit :=
  (pt s).andThen fun s =>
  let base := loadBase s.cfg s.ascCtrlLast
  (ascCtrlWrite (loadHigh s.cfg base) s).andThen fun s => writeAt pt base s

/-- R118. -/
def ascCommit (pt : AccessPoint) (s : State) : Res Unit :=
  (ascShiftAll pt s).andThen fun s => ascLoad pt s

end Sys2Proof.Machine
end

