-- ==== Sys2Proof/Machine/CounterOps.lean ====
section
/-! DEFINITION. The composite operations of the counter interface (41_counters.md R161 to R163). -/

namespace Sys2Proof.Machine

/-- Both halves of one counter, low before high, assembled (R161, R75). -/
def readCount (pt : AccessPoint) (i : Counter) (s : State) : Res Word :=
  (pt s).andThen fun s =>
  (cntReadLo i s).bind fun rl s =>
  (pt s).andThen fun s =>
  (cntReadHi i s).bind fun rh s =>
  .ok (assembleCount rl rh) s

/-- R161. -/
def readSnapshot (pt : AccessPoint) (s : State) : Res Counts :=
  (readCount pt .c2m s).bind fun c0 s =>
  (readCount pt .clc s).bind fun c1 s =>
  (readCount pt .cif s).bind fun c2 s =>
  (readCount pt .chf s).bind fun c3 s =>
  (readCount pt .c32k s).bind fun c4 s =>
  .ok ⟨c0, c1, c2, c3, c4⟩ s

/-- A pattern write inside a composite operation. -/
def patternAt (pt : AccessPoint) (pattern : State → State) (s : State) : Res Unit :=
  (pt s).andThen fun s => .ok () (pattern s)

/-- R162. -/
def resetAndEnable (pt : AccessPoint) (s : State) : Res Unit :=
  (patternAt pt resetAll s).andThen fun s => patternAt pt enableAll s

/-- R163. -/
def gateCycle (pt : AccessPoint) (s : State) : Res Counts :=
  (patternAt pt disableAll s).andThen fun s =>
  (readSnapshot pt s).bind fun snap s =>
  (resetAndEnable pt s).andThen fun s =>
  .ok snap s

end Sys2Proof.Machine
end

