-- ==== Sys2Proof/Machine/DacOps.lean ====
section
/-! DEFINITION. The code steps and the encoders of the DAC parameter store (42_dac_parameters.md R190 to R211). -/

namespace Sys2Proof.Machine

def setCode (c : Codes) (s : State) : State := { s with code := c }

/-- `CODE[f] <- v`. -/
def putCode (f : Field) (v : Nat) (s : State) : State := setCode (s.code.set f v) s

/-- `raise Fault(CodeRange, f)`. -/
def codeFault {α : Type} (f : Field) (s : State) : Res α := .fault ⟨.codeRange, .field f⟩ s

/-- `require inRange(f)` (R193). -/
def requireInRange (f : Field) (s : State) : Res Unit :=
  if inRange s.cfg s.code f then .ok () s else codeFault f s

/-- `CODE[f] <- CODE[f] + 1`, or CodeRange at the top of the range. -/
def stepUp (f : Field) (s : State) : Res Unit :=
  if s.code.get f = maxOf s.cfg f then codeFault f s else .ok () (putCode f (s.code.get f + 1) s)

/-- `CODE[f] <- CODE[f] - 1`, or CodeRange at the bottom of the range. -/
def stepDown (f : Field) (s : State) : Res Unit :=
  if s.code.get f = minOf s.cfg f then codeFault f s else .ok () (putCode f (s.code.get f - 1) s)

/-- A single-code step up (R198, R200, R202, R204). -/
def codeInc (f : Field) (s : State) : Res Unit := (requireInRange f s).andThen fun s => stepUp f s

/-- A single-code step down (R199, R201, R203, R205). -/
def codeDec (f : Field) (s : State) : Res Unit := (requireInRange f s).andThen fun s => stepDown f s

/-- R194. -/
def hfFineDec (s : State) : Res Unit :=
  (requireInRange .hfCoarse s).andThen fun s =>
  (requireInRange .hfFine s).andThen fun s =>
  if s.code.hfFine = 0 then
    if s.code.hfCoarse = 0 then codeFault .hfCoarse s
    else .ok () (setCode { s.code with hfFine := hfDecReset, hfCoarse := s.code.hfCoarse - 1 } s)
  else .ok () (setCode { s.code with hfFine := s.code.hfFine - 1 } s)

/-- R195. -/
def hfFineInc (s : State) : Res Unit :=
  (requireInRange .hfCoarse s).andThen fun s =>
  (requireInRange .hfFine s).andThen fun s =>
  if s.code.hfFine = hfFineMax then
    if s.code.hfCoarse = maxOf s.cfg .hfCoarse then codeFault .hfCoarse s
    else .ok () (setCode { s.code with hfFine := hfIncReset, hfCoarse := s.code.hfCoarse + 1 } s)
  else .ok () (setCode { s.code with hfFine := s.code.hfFine + 1 } s)

/-- R196. -/
def ifFineInc (s : State) : Res Unit :=
  (requireInRange .ifCoarse s).andThen fun s =>
  (requireInRange .ifFine s).andThen fun s =>
  if s.code.ifFine + 1 = ifFineOvf then
    if s.code.ifCoarse = maxOf s.cfg .ifCoarse then codeFault .ifCoarse s
    else
      .ok () (setCode { s.code with ifFine := s.code.ifFine + 1 - ifFineSub, ifCoarse := s.code.ifCoarse + 1 } s)
  else .ok () (setCode { s.code with ifFine := s.code.ifFine + 1 } s)

/-- IF_FINE_UNDERFLOW applied (R197): the default fault, or the named carry (log 13). -/
def ifUnderflow (s : State) : Res Unit :=
  match s.cfg.ifFineUnderflow with
  | .fault => codeFault .ifFine s
  | .carry fineReset =>
    if s.code.ifCoarse = 0 then codeFault .ifCoarse s
    else .ok () (setCode { s.code with ifFine := fineReset, ifCoarse := s.code.ifCoarse - 1 } s)

/-- R197. -/
def ifFineDec (s : State) : Res Unit :=
  (requireInRange .ifCoarse s).andThen fun s =>
  (requireInRange .ifFine s).andThen fun s =>
  if s.code.ifFine = 0 then ifUnderflow s
  else .ok () (setCode { s.code with ifFine := s.code.ifFine - 1 } s)

/-- R206. -/
def lcExpand (s : State) : Res LcSub :=
  (requireInRange .lcCode s).andThen fun s =>
  let t := s.cfg.lcMap.apply s.code.lcCode
  if t.fits s.cfg then .ok t s else .fault ⟨.lcMapRange, .lcCode s.code.lcCode⟩ s

/-- One code into its chain field of the mirror (R207 to R210). -/
def encodeField (f : ChainField) (v : Nat) (s : State) : Res Unit :=
  ascWriteField (s.cfg.fieldPos.get f) (s.cfg.width.get f) v s

/-- R207. -/
def encodeHf (s : State) : Res Unit :=
  (encodeField .hfCoarse s.code.hfCoarse s).andThen fun s => encodeField .hfFine s.code.hfFine s

/-- R208. -/
def encodeRc2m (s : State) : Res Unit :=
  (encodeField .rc2mCoarse s.code.rc2mCoarse s).andThen fun s =>
  (encodeField .rc2mFine s.code.rc2mFine s).andThen fun s =>
  encodeField .rc2mSuperfine s.code.rc2mSuperfine s

/-- R209. -/
def encodeIf (s : State) : Res Unit :=
  (encodeField .ifCoarse s.code.ifCoarse s).andThen fun s => encodeField .ifFine s.code.ifFine s

/-- R210. -/
def encodeLc (s : State) : Res Unit :=
  (lcExpand s).bind fun t s =>
  (encodeField .lcCoarse t.coarse s).andThen fun s =>
  (encodeField .lcMid t.mid s).andThen fun s =>
  encodeField .lcFine t.fine s

/-- R211. -/
def encodeAll (s : State) : Res Unit :=
  (encodeHf s).andThen fun s =>
  (encodeRc2m s).andThen fun s =>
  (encodeIf s).andThen fun s =>
  encodeLc s

end Sys2Proof.Machine
end

