-- ==== Sys2Proof/Machine/SeqOps.lean ====
section
/-! DEFINITION. The calibration sequencer (43_calibration_sequencer.md R240 to R257): corrections, ticks, the
handler, the access point of the main context, arming and waiting. -/

namespace Sys2Proof.Machine

/-! ### The four corrections -/

/-- R248. -/
def hfCorrect (c : Nat) (s : State) : Res Unit :=
  if c < hfLow then hfFineDec s else if hfHigh < c then hfFineInc s else .ok () s

/-- R249. -/
def lcCorrect (c : Nat) (s : State) : Res Unit :=
  if s.cfg.lcTarget < c then codeDec .lcCode s
  else if c < s.cfg.lcTarget then codeInc .lcCode s
  else .ok () s

/-- `up` of R250: the step that a high count makes. -/
def rc2mUp (f : Field) (s : State) : Res Unit :=
  match s.cfg.rc2mHighAction with
  | .inc => codeInc f s
  | .dec => codeDec f s

/-- `down` of R250: the opposite step. -/
def rc2mDown (f : Field) (s : State) : Res Unit :=
  match s.cfg.rc2mHighAction with
  | .inc => codeDec f s
  | .dec => codeInc f s

/-- R250, with `e = c - RC2M_TARGET` over the integers. -/
def rc2mCorrect (c : Nat) (s : State) : Res Unit :=
  let e : Int := (c : Int) - (rc2mTarget : Int)
  if (s.cfg.rc2mTCoarse : Int) < e then rc2mUp .rc2mCoarse s
  else if (s.cfg.rc2mTFine : Int) < e then rc2mUp .rc2mFine s
  else if (s.cfg.rc2mTSuperfine : Int) < e then rc2mUp .rc2mSuperfine s
  else if e < -(s.cfg.rc2mTCoarse : Int) then rc2mDown .rc2mCoarse s
  else if e < -(s.cfg.rc2mTFine : Int) then rc2mDown .rc2mFine s
  else if e < -(s.cfg.rc2mTSuperfine : Int) then rc2mDown .rc2mSuperfine s
  else .ok () s

/-- R251, over the integers. -/
def ifCorrect (c : Nat) (s : State) : Res Unit :=
  if (s.cfg.ifTarget : Int) + (ifBand : Int) < (c : Int) then ifFineInc s
  else if (c : Int) < (s.cfg.ifTarget : Int) - (ifBand : Int) then ifFineDec s
  else .ok () s

/-! ### One tick -/

/-- The first action of a tick (R245). -/
def countTick (s : State) : State := { s with iter := s.iter + 1 }

/-- The first two assignments of a correcting tick (R247). -/
def beginCorrecting (s : State) : State := { s with seqState := .converging, prevCodes := some s.code }

def setSnap (c : Counts) (s : State) : State := { s with snap := some c }

/-- The terminating tick's assignments, DONE_FLAG last (R252). -/
def endSession (snapshot : Counts) (s : State) : State :=
  { refDisable s with
    result := some (mkResult s.cfg snapshot s.code), seqState := .done, doneFlag := true }

/-- The termination check on the tick's own snapshot (R252, R253; log 26). -/
def checkTermination (snapshot : Counts) (s : State) : State :=
  if terminates s snapshot then endSession snapshot s else s

/-- R246. -/
def warmupTick (pt : AccessPoint) (s : State) : Res Unit := (gateCycle pt s).andThen fun s => .ok () s

/-- Step 3 of a correcting tick (R247). -/
def correctAll (c : Counts) (s : State) : Res Unit :=
  (hfCorrect c.chf.toNat s).andThen fun s =>
  (lcCorrect c.clc.toNat s).andThen fun s =>
  (rc2mCorrect c.c2m.toNat s).andThen fun s =>
  ifCorrect c.cif.toNat s

/-- R247. The corrections, the termination check and RESULT take the snapshot that this tick read in its step 2 (R252:
`SNAP` as read in the 12th tick's step 2; R253: this tick's snapshot), not SNAP read again at the check. The two differ
only where a SEQ_TICK issued in main context is preempted inside its commit by a handler tick. DEDUCED: log 26. -/
def correctingTick (pt : AccessPoint) (s : State) : Res Unit :=
  (gateCycle pt (beginCorrecting s)).bind fun c s =>
  (correctAll c (setSnap c s)).andThen fun s =>
  (encodeAll s).andThen fun s =>
  (ascCommit pt s).andThen fun s =>
  .ok () (checkTermination c s)

/-- SEQ_TICK (R245). -/
def seqTick (pt : AccessPoint) (s : State) : Res Unit :=
  if s.iter + 1 ≤ warmup then warmupTick pt (countTick s) else correctingTick pt (countTick s)

/-! ### The handler and the access point of the main context (R244, log 8, log 9) -/

/-- The whole handler: SEQ_ENTER, SEQ_TICK, SEQ_EXIT (R244). -/
def runHandler (s : State) : Res Unit :=
  (seqTick handlerPoint (enterHandler s)).andThen fun s => .ok () (exitHandler s)

/-- An access point of the main context: the other agents step, and while SEQ_ENTER is enabled the handler runs
first (R244, R289). `fuel` bounds the handlers taken here. -/
def mainPoint : Nat → State → Res Unit
  | 0, s => .ok () s
  | fuel + 1, s =>
    if entryEnabled (agentsStep s) then
      (runHandler (agentsStep s)).andThen fun s => mainPoint fuel s
    else .ok () (agentsStep s)

/-- The access point of whichever context runs: inside the handler no entry is enabled. Each handler taken here
but the first needs an edge from an entry of the schedule, so the schedule's length bounds them. -/
def accessPoint (s : State) : Res Unit := mainPoint (s.env.length + 1) s

/-! ### Arming and waiting -/

/-- SEQ_ARM (R241). -/
def seqArm (s : State) : Res Unit :=
  if s.seqState = .idle then
    .ok () { s with iter := 0, doneFlag := false, snap := none, prevCodes := none, result := none,
                    seqState := .armed, refEn := true }
  else .refuse .busy s

/-- SEQ_WAIT_DONE once DONE_FLAG is set: its assignments and its result (R256). -/
def endWait (s : State) : State :=
  setRet (.session s.result) { s with doneFlag := false, seqState := .idle, waiting := false }

/-- SEQ_WAIT_DONE (R256): while DONE_FLAG is false the main context has no step and the other agents and the
handler go on; where the schedule ends first, the main context stays blocked (R258, R293; log 11). -/
def waitDone : Nat → State → Res Unit
  | 0, s => .ok () (if s.doneFlag then endWait s else { s with waiting := true })
  | fuel + 1, s =>
    if s.doneFlag then .ok () (endWait s)
    else (accessPoint s).andThen fun s => waitDone fuel s

/-- SEQ_WAIT_DONE, over the whole schedule. -/
def seqWaitDone (s : State) : Res Unit := waitDone s.env.length s

/-- PERFORM_CALIBRATION (R257). -/
def performCalibration (s : State) : Res Unit := (seqArm s).andThen fun s => seqWaitDone s

end Sys2Proof.Machine
end

