-- ==== Sys2Proof/Machine/Counters.lean ====
section
/-! DEFINITION. The meaning of each operation of 41_counters.md R151 to R163, one definition each. -/

namespace Sys2Proof.Machine

/-- CNT_CTRL_WR, R151. -/
def execCntCtrlWr (v : Word) (s : State) : Host.Outcome State Fault Refusal :=
  finish (cntCtrlWrite v s)

/-- CNT_DISABLE_ALL, R152. -/
def execCntDisableAll (s : State) : Host.Outcome State Fault Refusal :=
  .next (disableAll s)

/-- CNT_RESET_ALL, R153. -/
def execCntResetAll (s : State) : Host.Outcome State Fault Refusal :=
  .next (resetAll s)

/-- CNT_ENABLE_ALL, R154. -/
def execCntEnableAll (s : State) : Host.Outcome State Fault Refusal :=
  .next (enableAll s)

/-- CNT_CTRL_RD, R155: a draw, and the countdown of R157. -/
def execCntCtrlRd (s : State) : Host.Outcome State Fault Refusal :=
  finishWith .word ((draw32 s).bind fun v s => .ok v (settle s))

/-- CNT_TICK, R158. -/
def execCntTick (i : Counter) (s : State) : Host.Outcome State Fault Refusal :=
  .next (tickCounter i s)

/-- CNT_RD_LO, R159. -/
def execCntRdLo (i : Counter) (s : State) : Host.Outcome State Fault Refusal :=
  finishWith .word (cntReadLo i s)

/-- CNT_RD_HI, R160. -/
def execCntRdHi (i : Counter) (s : State) : Host.Outcome State Fault Refusal :=
  finishWith .word (cntReadHi i s)

/-- CNT_READ_SNAPSHOT, R161. -/
def execCntReadSnapshot (s : State) : Host.Outcome State Fault Refusal :=
  finishWith .counts (readSnapshot accessPoint s)

/-- CNT_RESET_AND_ENABLE, R162. -/
def execCntResetAndEnable (s : State) : Host.Outcome State Fault Refusal :=
  finish (resetAndEnable accessPoint s)

/-- CNT_GATE_CYCLE, R163. -/
def execCntGateCycle (s : State) : Host.Outcome State Fault Refusal :=
  finishWith .counts (gateCycle accessPoint s)

end Sys2Proof.Machine
end

