-- ==== Sys2Proof/Machine/DacParameters.lean ====
section
/-! DEFINITION. The meaning of each operation of 42_dac_parameters.md R191 to R211, one definition each. -/

namespace Sys2Proof.Machine

/-- DAC_GET, R191. -/
def execDacGet (f : Field) (s : State) : Host.Outcome State Fault Refusal :=
  .next (setRet (.code (s.code.get f)) s)

/-- DAC_SET, R192: no validation. -/
def execDacSet (f : Field) (v : Word) (s : State) : Host.Outcome State Fault Refusal :=
  .next (putCode f v.toNat s)

/-- HF_FINE_DEC, R194. -/
def execHfFineDec (s : State) : Host.Outcome State Fault Refusal :=
  finish (hfFineDec s)

/-- HF_FINE_INC, R195. -/
def execHfFineInc (s : State) : Host.Outcome State Fault Refusal :=
  finish (hfFineInc s)

/-- IF_FINE_INC, R196. -/
def execIfFineInc (s : State) : Host.Outcome State Fault Refusal :=
  finish (ifFineInc s)

/-- IF_FINE_DEC, R197. -/
def execIfFineDec (s : State) : Host.Outcome State Fault Refusal :=
  finish (ifFineDec s)

/-- RC2M_COARSE_INC, R198. -/
def execRc2mCoarseInc (s : State) : Host.Outcome State Fault Refusal :=
  finish (codeInc .rc2mCoarse s)

/-- RC2M_COARSE_DEC, R199. -/
def execRc2mCoarseDec (s : State) : Host.Outcome State Fault Refusal :=
  finish (codeDec .rc2mCoarse s)

/-- RC2M_FINE_INC, R200. -/
def execRc2mFineInc (s : State) : Host.Outcome State Fault Refusal :=
  finish (codeInc .rc2mFine s)

/-- RC2M_FINE_DEC, R201. -/
def execRc2mFineDec (s : State) : Host.Outcome State Fault Refusal :=
  finish (codeDec .rc2mFine s)

/-- RC2M_SUPERFINE_INC, R202. -/
def execRc2mSuperfineInc (s : State) : Host.Outcome State Fault Refusal :=
  finish (codeInc .rc2mSuperfine s)

/-- RC2M_SUPERFINE_DEC, R203. -/
def execRc2mSuperfineDec (s : State) : Host.Outcome State Fault Refusal :=
  finish (codeDec .rc2mSuperfine s)

/-- LC_INC, R204. -/
def execLcInc (s : State) : Host.Outcome State Fault Refusal :=
  finish (codeInc .lcCode s)

/-- LC_DEC, R205. -/
def execLcDec (s : State) : Host.Outcome State Fault Refusal :=
  finish (codeDec .lcCode s)

/-- LC_EXPAND, R206. -/
def execLcExpand (s : State) : Host.Outcome State Fault Refusal :=
  finishWith .subCodes (lcExpand s)

/-- DAC_ENCODE_HF, R207. -/
def execDacEncodeHf (s : State) : Host.Outcome State Fault Refusal :=
  finish (encodeHf s)

/-- DAC_ENCODE_RC2M, R208. -/
def execDacEncodeRc2m (s : State) : Host.Outcome State Fault Refusal :=
  finish (encodeRc2m s)

/-- DAC_ENCODE_IF, R209. -/
def execDacEncodeIf (s : State) : Host.Outcome State Fault Refusal :=
  finish (encodeIf s)

/-- DAC_ENCODE_LC, R210. -/
def execDacEncodeLc (s : State) : Host.Outcome State Fault Refusal :=
  finish (encodeLc s)

/-- DAC_ENCODE_ALL, R211. -/
def execDacEncodeAll (s : State) : Host.Outcome State Fault Refusal :=
  finish (encodeAll s)

end Sys2Proof.Machine
end

