-- ==== Sys2Proof/Machine/ScanChain.lean ====
section
/-! DEFINITION. The meaning of each operation of 40_scan_chain.md R100 to R118, one definition each. -/

namespace Sys2Proof.Machine

/-- ASC_CTRL_WR, R100 to R106. -/
def execAscCtrlWr (v : Word) (s : State) : Host.Outcome State Fault Refusal :=
  finish (ascCtrlWrite v s)

/-- ASC_CTRL_RD, R107: a draw, nothing else changes. -/
def execAscCtrlRd (s : State) : Host.Outcome State Fault Refusal :=
  finishWith .word (draw32 s)

/-- ASC_MIRROR_WR, R108. -/
def execAscMirrorWr (w : Nat) (v : Word) (s : State) : Host.Outcome State Fault Refusal :=
  finish (ascMirrorWrite w v s)

/-- ASC_MIRROR_RD, R109. -/
def execAscMirrorRd (w : Nat) (s : State) : Host.Outcome State Fault Refusal :=
  finishWith .word (ascMirrorRead w s)

/-- ASC_SET_BIT, R110. -/
def execAscSetBit (p : Nat) (s : State) : Host.Outcome State Fault Refusal :=
  finish (ascSetBit p s)

/-- ASC_CLEAR_BIT, R111. -/
def execAscClearBit (p : Nat) (s : State) : Host.Outcome State Fault Refusal :=
  finish (ascClearBit p s)

/-- ASC_READ_BIT, R112. -/
def execAscReadBit (p : Nat) (s : State) : Host.Outcome State Fault Refusal :=
  finishWith .bit (ascReadBit p s)

/-- ASC_WRITE_FIELD, R113. -/
def execAscWriteField (p n v : Nat) (s : State) : Host.Outcome State Fault Refusal :=
  finish (ascWriteField p n v s)

/-- ASC_SHIFT_BIT, R114, R115. -/
def execAscShiftBit (d : Bool) (s : State) : Host.Outcome State Fault Refusal :=
  finish (ascShiftBit accessPoint d s)

/-- ASC_SHIFT_ALL, R116. -/
def execAscShiftAll (s : State) : Host.Outcome State Fault Refusal :=
  finish (ascShiftAll accessPoint s)

/-- ASC_LOAD, R117. -/
def execAscLoad (s : State) : Host.Outcome State Fault Refusal :=
  finish (ascLoad accessPoint s)

/-- ASC_COMMIT, R118 to R120. -/
def execAscCommit (s : State) : Host.Outcome State Fault Refusal :=
  finish (ascCommit accessPoint s)

end Sys2Proof.Machine
end

