-- ==== Sys2Proof/Machine/Sequencer.lean ====
section
/-! DEFINITION. The meaning of each operation of 43_calibration_sequencer.md R241 to R257, one definition each. -/

namespace Sys2Proof.Machine

/-- SEQ_ARM, R241. -/
def execSeqArm (s : State) : Host.Outcome State Fault Refusal :=
  finish (seqArm s)

/-- REF_DISABLE, R242. -/
def execRefDisable (s : State) : Host.Outcome State Fault Refusal :=
  .next (refDisable s)

/-- REF_EDGE, R243. -/
def execRefEdge (s : State) : Host.Outcome State Fault Refusal :=
  .next (refEdge s)

/-- SEQ_ENTER, R244: the entry, and the handler body that runs next; no step where it is not enabled (log 9, log 10). -/
def execSeqEnter (s : State) : Host.Outcome State Fault Refusal :=
  .next (if entryEnabled s then { enterHandler s with hand := [.seqTick, .seqExit] } else s)

/-- SEQ_TICK, R245 to R247, R252, R253. -/
def execSeqTick (s : State) : Host.Outcome State Fault Refusal :=
  finish (seqTick accessPoint s)

/-- HF_CORRECT, R248. -/
def execHfCorrect (c : Word) (s : State) : Host.Outcome State Fault Refusal :=
  finish (hfCorrect c.toNat s)

/-- LC_CORRECT, R249. -/
def execLcCorrect (c : Word) (s : State) : Host.Outcome State Fault Refusal :=
  finish (lcCorrect c.toNat s)

/-- RC2M_CORRECT, R250. -/
def execRc2mCorrect (c : Word) (s : State) : Host.Outcome State Fault Refusal :=
  finish (rc2mCorrect c.toNat s)

/-- IF_CORRECT, R251. -/
def execIfCorrect (c : Word) (s : State) : Host.Outcome State Fault Refusal :=
  finish (ifCorrect c.toNat s)

/-- SEQ_EXIT, R255: the return, which ends the handler body (log 9). -/
def execSeqExit (s : State) : Host.Outcome State Fault Refusal :=
  .next { exitHandler s with hand := [] }

/-- SEQ_WAIT_DONE, R256. -/
def execSeqWaitDone (s : State) : Host.Outcome State Fault Refusal :=
  finish (seqWaitDone s)

/-- PERFORM_CALIBRATION, R257. -/
def execPerformCalibration (s : State) : Host.Outcome State Fault Refusal :=
  finish (performCalibration s)

end Sys2Proof.Machine
end

