-- ==== Sys2Proof/Machine/Dispatch.lean ====
section
/-! DEFINITION. One arm per constructor of Instr, each one direct call of its meaning. -/

namespace Sys2Proof.Machine

def exec (i : Instr) (s : State) : Host.Outcome State Fault Refusal :=
  match i with
  | .ascCtrlWr v => Sys2Proof.Machine.execAscCtrlWr v s
  | .ascCtrlRd => Sys2Proof.Machine.execAscCtrlRd s
  | .ascMirrorWr w v => Sys2Proof.Machine.execAscMirrorWr w v s
  | .ascMirrorRd w => Sys2Proof.Machine.execAscMirrorRd w s
  | .ascSetBit p => Sys2Proof.Machine.execAscSetBit p s
  | .ascClearBit p => Sys2Proof.Machine.execAscClearBit p s
  | .ascReadBit p => Sys2Proof.Machine.execAscReadBit p s
  | .ascWriteField p n v => Sys2Proof.Machine.execAscWriteField p n v s
  | .ascShiftBit d => Sys2Proof.Machine.execAscShiftBit d s
  | .ascShiftAll => Sys2Proof.Machine.execAscShiftAll s
  | .ascLoad => Sys2Proof.Machine.execAscLoad s
  | .ascCommit => Sys2Proof.Machine.execAscCommit s
  | .cntCtrlWr v => Sys2Proof.Machine.execCntCtrlWr v s
  | .cntDisableAll => Sys2Proof.Machine.execCntDisableAll s
  | .cntResetAll => Sys2Proof.Machine.execCntResetAll s
  | .cntEnableAll => Sys2Proof.Machine.execCntEnableAll s
  | .cntCtrlRd => Sys2Proof.Machine.execCntCtrlRd s
  | .cntTick k => Sys2Proof.Machine.execCntTick k s
  | .cntRdLo k => Sys2Proof.Machine.execCntRdLo k s
  | .cntRdHi k => Sys2Proof.Machine.execCntRdHi k s
  | .cntReadSnapshot => Sys2Proof.Machine.execCntReadSnapshot s
  | .cntResetAndEnable => Sys2Proof.Machine.execCntResetAndEnable s
  | .cntGateCycle => Sys2Proof.Machine.execCntGateCycle s
  | .dacGet f => Sys2Proof.Machine.execDacGet f s
  | .dacSet f v => Sys2Proof.Machine.execDacSet f v s
  | .hfFineDec => Sys2Proof.Machine.execHfFineDec s
  | .hfFineInc => Sys2Proof.Machine.execHfFineInc s
  | .ifFineInc => Sys2Proof.Machine.execIfFineInc s
  | .ifFineDec => Sys2Proof.Machine.execIfFineDec s
  | .rc2mCoarseInc => Sys2Proof.Machine.execRc2mCoarseInc s
  | .rc2mCoarseDec => Sys2Proof.Machine.execRc2mCoarseDec s
  | .rc2mFineInc => Sys2Proof.Machine.execRc2mFineInc s
  | .rc2mFineDec => Sys2Proof.Machine.execRc2mFineDec s
  | .rc2mSuperfineInc => Sys2Proof.Machine.execRc2mSuperfineInc s
  | .rc2mSuperfineDec => Sys2Proof.Machine.execRc2mSuperfineDec s
  | .lcInc => Sys2Proof.Machine.execLcInc s
  | .lcDec => Sys2Proof.Machine.execLcDec s
  | .lcExpand => Sys2Proof.Machine.execLcExpand s
  | .dacEncodeHf => Sys2Proof.Machine.execDacEncodeHf s
  | .dacEncodeRc2m => Sys2Proof.Machine.execDacEncodeRc2m s
  | .dacEncodeIf => Sys2Proof.Machine.execDacEncodeIf s
  | .dacEncodeLc => Sys2Proof.Machine.execDacEncodeLc s
  | .dacEncodeAll => Sys2Proof.Machine.execDacEncodeAll s
  | .seqArm => Sys2Proof.Machine.execSeqArm s
  | .refDisable => Sys2Proof.Machine.execRefDisable s
  | .refEdge => Sys2Proof.Machine.execRefEdge s
  | .seqEnter => Sys2Proof.Machine.execSeqEnter s
  | .seqTick => Sys2Proof.Machine.execSeqTick s
  | .hfCorrect c => Sys2Proof.Machine.execHfCorrect c s
  | .lcCorrect c => Sys2Proof.Machine.execLcCorrect c s
  | .rc2mCorrect c => Sys2Proof.Machine.execRc2mCorrect c s
  | .ifCorrect c => Sys2Proof.Machine.execIfCorrect c s
  | .seqExit => Sys2Proof.Machine.execSeqExit s
  | .seqWaitDone => Sys2Proof.Machine.execSeqWaitDone s
  | .performCalibration => Sys2Proof.Machine.execPerformCalibration s

end Sys2Proof.Machine
end

