-- ==== Sys2Proof/Machine/Issue.lean ====
section
/-! DEFINITION. What the CPU does next: the handler, the blocked wait or the next operation of the program
(43_calibration_sequencer.md R244, R256; 60_exceptions.md R289), and the boot operations of 70_reset_and_hazards.md
R302. -/

namespace Sys2Proof.Machine

/-- The reason a decode refusal records (R52, R53, R81). -/
def reasonOf : DecodeError → Reason
  | .badAccess => .badAccess
  | .badSyntax => .badSyntax

/-- Issue the next operation of the program; with none left the CPU does nothing (log 22). -/
def issueNext (s : State) : Host.Outcome State Fault Refusal :=
  match s.todo with
  | [] => .next s
  | x :: rest =>
    match decode s.cfg x with
    | .ok i => exec i { s with todo := rest }
    | .error e => .next (refuseWith (reasonOf e) s)

/-- One step of the main context: the blocked wait of SEQ_WAIT_DONE, or the next operation (log 11). -/
def mainStep (s : State) : Host.Outcome State Fault Refusal :=
  if s.waiting then exec .seqWaitDone s else issueNext s

/-- One step of the CPU: interrupt entry has priority, then the handler body, then the main context
(R244, R289). -/
def cpuStep (s : State) : Host.Outcome State Fault Refusal :=
  if entryEnabled s then exec .seqEnter s
  else
    match s.hand with
    | i :: rest => exec i { s with hand := rest }
    | [] => mainStep s

/-- The DAC_SETs of a board that loads INIT_CODES at boot (R302, step 2). -/
def loadCodes (cfg : Config) : List Instr :=
  Field.all.map fun f => .dacSet f (BitVec.ofNat 32 (cfg.initCodes.get f))

/-- The boot operations of R302: write ASC_INIT into the mirror, encode every code, commit. The store holds
INIT_CODES from power-on; a board that loads them at boot (`loads`) does it before it encodes. -/
def bootOps (cfg : Config) (loads : Bool) : List Instr :=
  (List.range nWords).map (fun w => Instr.ascMirrorWr w (cfg.ascInit.toList.getD w 0))
    ++ (if loads then loadCodes cfg else []) ++ [.dacEncodeAll, .ascCommit]

end Sys2Proof.Machine
end

