-- ==== Sys2Proof/Machine/Step.lean ====
section
/-! DEFINITION. One step of the machine: a run that has ended stops (10_state.md R36), a configuration that breaks
a stated constraint is refused before the first step (60_exceptions.md R281), else the other agents and then the
CPU step. -/

namespace Sys2Proof.Machine

/-- One step of the machine. -/
def step (s : State) : Host.Outcome State Fault Refusal :=
  match s.faults with
  | f :: _ => .fault (.ended f)
  | [] =>
    if s.refused then .refused (.ended s.refusedBy)
    else if s.cfg.ok then cpuStep (agentsStep s)
    else .next (refuseWith .badConfig s)

/-- The state with the 32-bit word of the operation table placed as the next operation: a write of it to the
control register. The block fetches nothing; an operation comes from outside the machine, and this stands for
that (log 2). -/
def State.withFetchWord (s : State) (_nbits w : Nat) : State :=
  { s with
    todo := .access ⟨.write, s.cfg.ascCtrlAddr, 4, BitVec.ofNat 32 w⟩ :: s.todo
    env := []
    refPending := false
    hand := []
    waiting := false }

end Sys2Proof.Machine
end

