-- ==== Sys2Proof/Safety.lean ====
section
/-! DEFINITION. The terms the claims use: when a run goes on, when no reference edge disturbs an operation, what stays
unchanged, and the invariants. -/

namespace Sys2Proof.Machine

/-- The run has not ended and the configuration meets its constraints (R36, R281). -/
def State.running (s : State) : Prop := s.faults = [] ∧ s.refused = false ∧ s.cfg.ok = true

/-- No reference edge is taken inside an operation from here on: the CPU is in the handler, or nothing is pending
and either the source is disabled or the schedule holds no edge. Clock edges may come at any point. It is the
premise of R119 and R164 that no other access falls inside the operation. -/
def State.undisturbed (s : State) : Prop :=
  s.inHandler = true ∨ (s.refPending = false ∧ (s.refEn = false ∨ ∀ acts ∈ s.env, Act.edge ∉ acts))

/-! ### What stays unchanged -/

/-- The control register's last word, the latches and the live configuration. -/
def SameChain (s t : State) : Prop :=
  t.ascCtrlLast = s.ascCtrlLast ∧ t.a = s.a ∧ t.b = s.b ∧ t.l = s.l

/-- Every mirror word reads as before. -/
def SameMirror (s t : State) : Prop := ∀ w, t.mirror.read w = s.mirror.read w

/-- The counters and their gate. -/
def SameCounters (s t : State) : Prop :=
  t.cnt = s.cnt ∧ t.cntMode = s.cntMode ∧ t.settleLeft = s.settleLeft

/-- The gate of the counters is unchanged, and the counts too where the counters may not count: what a clock
edge between two register accesses leaves (R11, R158). -/
def SameGate (s t : State) : Prop :=
  t.cntMode = s.cntMode ∧ t.settleLeft = s.settleLeft ∧ (counting s = false → t.cnt = s.cnt)

/-- The sequencer, the interrupt state and the place in the handler and in the wait. -/
def SameSession (s t : State) : Prop :=
  t.seqState = s.seqState ∧ t.iter = s.iter ∧ t.doneFlag = s.doneFlag ∧ t.refEn = s.refEn
    ∧ t.refPending = s.refPending ∧ t.inHandler = s.inHandler ∧ t.snap = s.snap ∧ t.prevCodes = s.prevCodes
    ∧ t.result = s.result ∧ t.hand = s.hand ∧ t.waiting = s.waiting

/-- The record of faults and refusals, the parameters and the program. -/
def SameRecord (s t : State) : Prop :=
  t.faults = s.faults ∧ t.refused = s.refused ∧ t.refusedBy = s.refusedBy ∧ t.cfg = s.cfg ∧ t.todo = s.todo

/-- The model's own inputs and outputs: the returned value, the draws and the schedule. -/
def SameOwn (s t : State) : Prop := t.ret = s.ret ∧ t.draws = s.draws ∧ t.env = s.env

/-- All but the chain and what the other agents did at n access points: one entry of the schedule is used for each
register access (R11). -/
def OnlyChainIn (n : Nat) (s t : State) : Prop :=
  SameMirror s t ∧ SameGate s t ∧ t.code = s.code ∧ SameSession s t ∧ SameRecord s t ∧ t.ret = s.ret
    ∧ t.env = s.env.drop n

/-- All but the counters, the returned value and what the other agents did at n access points. -/
def OnlyCountersIn (n : Nat) (s t : State) : Prop :=
  SameChain s t ∧ SameMirror s t ∧ t.code = s.code ∧ SameSession s t ∧ SameRecord s t ∧ t.env = s.env.drop n

/-- All but the mirror. -/
def OnlyMirror (s t : State) : Prop :=
  SameChain s t ∧ SameCounters s t ∧ t.code = s.code ∧ SameSession s t ∧ SameRecord s t ∧ SameOwn s t

/-- All but the store. -/
def OnlyCode (s t : State) : Prop :=
  SameChain s t ∧ SameMirror s t ∧ SameCounters s t ∧ SameSession s t ∧ SameRecord s t ∧ SameOwn s t

/-- All but the session. -/
def OnlySession (s t : State) : Prop :=
  SameChain s t ∧ SameMirror s t ∧ SameCounters s t ∧ t.code = s.code ∧ SameRecord s t ∧ SameOwn s t

/-- The value of position p after an operation is the value before it. -/
def SameBit (s t : State) (p : Nat) : Prop := t.mirror.bit p = s.mirror.bit p

/-! ### Which operations write which part (R20 to R35) -/

/-- The operations that write the control register, so that reach the chain (R20 to R23). -/
def drivesChain : Instr → Bool
  | .ascCtrlWr _ | .ascShiftBit _ | .ascShiftAll | .ascLoad | .ascCommit => true
  | .seqTick | .seqWaitDone | .performCalibration => true
  | _ => false

/-- The operations that write the mirror (R24). -/
def writesMirror : Instr → Bool
  | .ascMirrorWr _ _ | .ascSetBit _ | .ascClearBit _ | .ascWriteField _ _ _ => true
  | .dacEncodeHf | .dacEncodeRc2m | .dacEncodeIf | .dacEncodeLc | .dacEncodeAll => true
  | .seqTick | .seqWaitDone | .performCalibration => true
  | _ => false

/-- The operations that access the counter registers (R26, R27). -/
def accessesCounters : Instr → Bool
  | .cntCtrlWr _ | .cntDisableAll | .cntResetAll | .cntEnableAll | .cntCtrlRd | .cntRdLo _ | .cntRdHi _ => true
  | .cntReadSnapshot | .cntResetAndEnable | .cntGateCycle => true
  | .seqTick | .seqWaitDone | .performCalibration => true
  | _ => false

/-- The operations that write the store (R28). -/
def writesStore : Instr → Bool
  | .dacSet _ _ | .hfFineDec | .hfFineInc | .ifFineInc | .ifFineDec | .rc2mCoarseInc | .rc2mCoarseDec
  | .rc2mFineInc | .rc2mFineDec | .rc2mSuperfineInc | .rc2mSuperfineDec | .lcInc | .lcDec => true
  | .hfCorrect _ | .lcCorrect _ | .rc2mCorrect _ | .ifCorrect _ => true
  | .seqTick | .seqWaitDone | .performCalibration => true
  | _ => false

/-- The operations that write the session (R29 to R35). -/
def writesSession : Instr → Bool
  | .seqArm | .refDisable | .refEdge | .seqEnter | .seqTick | .seqExit | .seqWaitDone | .performCalibration => true
  | _ => false

/-- Operations one after another, as a main-context program performs them with nothing in between. -/
def execAll : List Instr → State → Host.Outcome State Fault Refusal
  | [], s => .next s
  | i :: is, s =>
    match exec i s with
    | .next t => execAll is t
    | .fault f => .fault f
    | .refused r => .refused r

/-! ### The mirror, the fields and the codes -/

/-- Every mirror word has been written (R302, step 1). -/
def Memory.full (m : Memory) : Prop := ∀ w, w < nWords → m.read w ≠ none

/-- Position p lies in a chain field. -/
def inField (cfg : Config) (f : ChainField) (p : Nat) : Prop :=
  cfg.fieldPos.get f ≤ p ∧ p < cfg.fieldPos.get f + cfg.width.get f

/-- The mirror holds v in a chain field, most significant bit first (R79). -/
def mirrorHolds (s : State) (f : ChainField) (v : Nat) : Prop :=
  ∀ i, i < s.cfg.width.get f →
    s.mirror.bit (s.cfg.fieldPos.get f + i) = some (v.testBit (s.cfg.width.get f - 1 - i))

/-- The live configuration holds v in a chain field, most significant bit first (R79, R214). -/
def liveHolds (s : State) (f : ChainField) (v : Nat) : Prop :=
  ∀ i, i < s.cfg.width.get f →
    s.l.at (s.cfg.fieldPos.get f + i) = Bit3.ofBool (v.testBit (s.cfg.width.get f - 1 - i))

/-- A value fits a chain field that holds at least one bit. -/
def fitsField (cfg : Config) (f : ChainField) (v : Nat) : Prop := 1 ≤ cfg.width.get f ∧ v < 2 ^ cfg.width.get f

/-- The HF codes fit their fields. -/
def hfEncodable (s : State) : Prop :=
  fitsField s.cfg .hfCoarse s.code.hfCoarse ∧ fitsField s.cfg .hfFine s.code.hfFine

/-- The RC2M codes fit their fields. -/
def rc2mEncodable (s : State) : Prop :=
  fitsField s.cfg .rc2mCoarse s.code.rc2mCoarse ∧ fitsField s.cfg .rc2mFine s.code.rc2mFine
    ∧ fitsField s.cfg .rc2mSuperfine s.code.rc2mSuperfine

/-- The IF codes fit their fields. -/
def ifEncodable (s : State) : Prop :=
  fitsField s.cfg .ifCoarse s.code.ifCoarse ∧ fitsField s.cfg .ifFine s.code.ifFine

/-- The LC sub-codes of a code, by the configuration's map. -/
def lcSubOf (s : State) : LcSub := s.cfg.lcMap.apply s.code.lcCode

/-- The LC code is in range and its sub-codes fit their fields. -/
def lcEncodable (s : State) : Prop :=
  inRange s.cfg s.code .lcCode = true ∧ fitsField s.cfg .lcCoarse (lcSubOf s).coarse
    ∧ fitsField s.cfg .lcMid (lcSubOf s).mid ∧ fitsField s.cfg .lcFine (lcSubOf s).fine

/-- A code lies at least k steps inside its range. -/
def hasRoom (cfg : Config) (code : Codes) (f : Field) (k : Nat) : Prop :=
  minOf cfg f + k ≤ code.get f ∧ code.get f + k ≤ maxOf cfg f

/-- k correcting ticks can neither leave a range nor meet an unencodable code, whatever the counts are. -/
def calibrationRoom (s : State) (k : Nat) : Prop :=
  hasRoom s.cfg s.code .hfCoarse k ∧ inRange s.cfg s.code .hfFine = true
    ∧ hasRoom s.cfg s.code .rc2mCoarse k ∧ hasRoom s.cfg s.code .rc2mFine k
    ∧ hasRoom s.cfg s.code .rc2mSuperfine k
    ∧ s.code.ifCoarse + k ≤ maxOf s.cfg .ifCoarse ∧ k ≤ s.code.ifFine ∧ inRange s.cfg s.code .ifFine = true
    ∧ hasRoom s.cfg s.code .lcCode k
    ∧ ∀ c, s.code.lcCode ≤ c + k → c ≤ s.code.lcCode + k → (s.cfg.lcMap.apply c).fits s.cfg = true

/-- Every field holds at least one bit, and the fine fields of HF and IF hold their carry points (R80). -/
def fieldWidthsSuffice (cfg : Config) : Prop :=
  (∀ f, 1 ≤ cfg.width.get f) ∧ 5 ≤ cfg.width.hfFine ∧ 5 ≤ cfg.width.ifFine

/-- A tick can run to its end: the phases are the default ones, the configuration is sound, the mirror is
written, and the codes have room for k correcting ticks. -/
def tickReady (s : State) (k : Nat) : Prop :=
  s.cfg.ok = true ∧ s.cfg.phaseRole = .p2Input ∧ fieldWidthsSuffice s.cfg ∧ s.mirror.full ∧ calibrationRoom s k

/-- The last write left PHI1, PHI2 and LOAD all at 1 (R115's exception). -/
def overlapUnderLoad (s : State) : Prop :=
  ∃ u, s.ascCtrlLast = some u ∧ wordBit u s.cfg.bitPhi1 = true ∧ wordBit u s.cfg.bitPhi2 = true
    ∧ wordBit u s.cfg.bitLoad = true

/-! ### Invariants -/

/-- Every code lies below 2^32 (R28). -/
def Codes.bounded (c : Codes) : Prop := ∀ f, c.get f < codeBound

/-- The store holds codes below 2^32 (R28). -/
def codesBounded (s : State) : Prop := Codes.bounded s.code

/-- What every run leaves true of the chain (the reachable states of R115): before the first write everything is
`X`; with both latch enables up every latch is `X` (R102); while LOAD is up a position whose stage is `X` is `X`
(R105). -/
def chainInv (s : State) : Prop :=
  match s.ascCtrlLast with
  | none => s.a = Chain.allX ∧ s.b = Chain.allX ∧ s.l = Chain.allX
  | some u =>
    ((levelsOf s.cfg u).ia = .one → (levelsOf s.cfg u).ib = .one → s.a = Chain.allX ∧ s.b = Chain.allX)
      ∧ ((levelsOf s.cfg u).ld = .one → ∀ p, p < nAsc → s.b.at (stageOf p) = .x → s.l.at p = .x)

/-- The operations of the handler body that a main-context program does not issue: the tick, and the disabling of
the reference edge (R242, R245). -/
def handlerOnly (i : Instr) : Bool := i == .seqTick || i == .refDisable

/-- A main-context program: no line of it decodes to an operation of the handler body. -/
def mainProgram (s : State) : Prop :=
  ∀ x ∈ s.todo, ∀ i, decode s.cfg x = .ok i → handlerOnly i = false

/-- The place in the handler: outside it, after its tick, or before its tick with the source still enabled. -/
def handlerPlace (s : State) : Prop :=
  (s.hand = [] ∧ s.inHandler = false) ∨ (s.hand = [.seqExit] ∧ s.inHandler = true)
    ∨ (s.hand = [.seqTick, .seqExit] ∧ s.inHandler = true ∧ s.refEn = true)

/-- The session's invariant (R240, R243, R252, R255). -/
def sessionInv (s : State) : Prop :=
  (s.refPending = true → s.refEn = true)
    ∧ (s.inHandler = true → s.refPending = false)
    ∧ (s.refEn = true ↔ s.seqState = .armed ∨ s.seqState = .converging)
    ∧ (s.doneFlag = true ↔ s.seqState = .done)
    ∧ (s.doneFlag = true → s.result ≠ none)
    ∧ s.iter ≤ warmup + budget
    ∧ (s.seqState = .armed → s.iter ≤ warmup)
    ∧ (s.seqState = .converging → warmup < s.iter)
    ∧ (s.faults = [] → s.refused = false → s.seqState = .converging → s.iter < warmup + budget)

/-- The sequencer's invariant at every step of a main-context program. -/
def sequencerInv (s : State) : Prop :=
  sessionInv s ∧ mainProgram s ∧ (s.faults = [] → s.refused = false → handlerPlace s)

end Sys2Proof.Machine
end

