-- ==== Sys2Proof/Certificates/Slice0/Obligations.lean ====
section
/-! DEFINITION. The statements for the provers. Each docstring names the rule of spec/ it rests on; a clause that rests
on a choice of this model names the log entry. -/

section

open Sys2Proof Sys2Proof.Machine

/-! ### Encodings -/

/-- R71: the word `ascw(d, p1, p2, ld)`, the fields of it, and its value in the reference layout. -/
def Obligations.ControlWordCarriesItsSignals : Prop :=
  ∀ (cfg : Config) (d p1 p2 ld : Bool), cfg.ok = true →
    (∀ i, i < 32 → (wordBit (ascw cfg d p1 p2 ld) i = true ↔
        (i = cfg.bitData ∧ d = true) ∨ (i = cfg.bitPhi1 ∧ p1 = true) ∨ (i = cfg.bitPhi2 ∧ p2 = true)
          ∨ (i = cfg.bitLoad ∧ ld = true) ∨ (i = cfg.bitRst ∧ cfg.rstInactive = true)))
      ∧ wordBit (ascw cfg d p1 p2 ld) cfg.bitData = d ∧ wordBit (ascw cfg d p1 p2 ld) cfg.bitPhi1 = p1
      ∧ wordBit (ascw cfg d p1 p2 ld) cfg.bitPhi2 = p2 ∧ wordBit (ascw cfg d p1 p2 ld) cfg.bitLoad = ld
      ∧ wordBit (ascw cfg d p1 p2 ld) cfg.bitRst = cfg.rstInactive
      ∧ (ascw Config.reference d p1 p2 ld).toNat = d.toNat + 2 * p1.toNat + 4 * p2.toNat + 8 * ld.toNat

/-- R76, R77: the word, the offset, the value bit and the mask of a position, the position of a value bit, and the stage
of a position: it is a stage, the map is its own inverse, and stage `32*w + j` belongs to value bit j of word w. -/
def Obligations.PositionsMapToMirrorBitsAndStages : Prop :=
  (∀ p, p < nAsc → wordOf p = p >>> 5 ∧ wordOf p < nWords ∧ bitOf p = 31 - (p &&& 31)
      ∧ maskOf p = 0x80000000#32 >>> (p &&& 31)
      ∧ ∀ j, wordBit (maskOf p) j = decide (j = bitOf p))
    ∧ (∀ w j, w < nWords → j < 32 →
        wordOf (32 * w + 31 - j) = w ∧ bitOf (32 * w + 31 - j) = j ∧ 32 * w + 31 - j < nAsc
          ∧ stageOf (32 * w + 31 - j) = 32 * w + j)
    ∧ ∀ p, p < nAsc →
        stageOf p = 32 * (p >>> 5) + 31 - (p &&& 31) ∧ stageOf p < nAsc ∧ stageOf (stageOf p) = p

/-- R51, R52, R53, R60: which bus accesses the block takes, and as which operation. -/
def Obligations.BusAccessesDecodeByTheRegisterMap : Prop :=
  ∀ (cfg : Config) (a : Access), cfg.ok = true →
    (a.width ≠ 4 → decodeAccess cfg a = .error .badAccess)
      ∧ (a.addr % 4 ≠ 0 → decodeAccess cfg a = .error .badAccess)
      ∧ (a.addr ∉ cfg.addresses → decodeAccess cfg a = .error .badAccess)
      ∧ (a.dir = .fetch → decodeAccess cfg a = .error .badAccess)
      ∧ (∀ i : Counter, a.dir = .write → a.addr = cfg.cntLoAddr.get i → decodeAccess cfg a = .error .badAccess)
      ∧ (∀ i : Counter, a.dir = .write → a.addr = cfg.cntHiAddr.get i → decodeAccess cfg a = .error .badAccess)
      ∧ (a.width = 4 → a.dir = .write → a.addr = cfg.ascCtrlAddr → decodeAccess cfg a = .ok (.ascCtrlWr a.data))
      ∧ (a.width = 4 → a.dir = .write → a.addr = cfg.cntCtrlAddr → decodeAccess cfg a = .ok (.cntCtrlWr a.data))
      ∧ (a.width = 4 → a.dir = .read → a.addr = cfg.ascCtrlAddr → decodeAccess cfg a = .ok .ascCtrlRd)
      ∧ (a.width = 4 → a.dir = .read → a.addr = cfg.cntCtrlAddr → decodeAccess cfg a = .ok .cntCtrlRd)
      ∧ (∀ i : Counter, a.width = 4 → a.dir = .read → a.addr = cfg.cntLoAddr.get i →
          decodeAccess cfg a = .ok (.cntRdLo i))
      ∧ (∀ i : Counter, a.width = 4 → a.dir = .read → a.addr = cfg.cntHiAddr.get i →
          decodeAccess cfg a = .ok (.cntRdHi i))

/-- R81: the decoder reads from the text of every instruction exactly that instruction, operands at every value. -/
def Obligations.DecodeReadsTheEncodedLine : Prop :=
  ∀ (cfg : Config) (i : Instr), decodeLine cfg (encode i) = .ok i

/-- R84, R151: the bus access that performs an operation decodes to an operation with the same effect in every state. -/
def Obligations.DecodeReadsTheEncodedAccess : Prop :=
  ∀ (cfg : Config) (i : Instr) (a : Access), cfg.ok = true → encodeAccess cfg i = some a →
    ∃ j, decodeAccess cfg a = .ok j ∧ ∀ s : State, s.cfg = cfg → exec j s = exec i s

/-- R81: lines written out by hand from the syntax, one of each family, and spellings outside it. Spaces after a comma are
the model's reading (log 3). -/
def Obligations.WrittenOutLinesDecode : Prop :=
  decodeLine Config.reference (ascii "ASC_WRITE_FIELD 30, 4, 0x9") = .ok (.ascWriteField 30 4 9)
    ∧ decodeLine Config.reference (ascii "ASC_CTRL_WR 0x2") = .ok (.ascCtrlWr 2)
    ∧ decodeLine Config.reference
        (ascii "ASC_CTRL_WR " ++ 123#8 :: ascii "DATA=1, PHI1=0, PHI2=1, LOAD=0" ++ [125#8]) = .ok (.ascCtrlWr 5)
    ∧ decodeLine Config.reference (ascii "CNT_RD_HI CHF") = .ok (.cntRdHi .chf)
    ∧ decodeLine Config.reference (ascii "CNT_TICK 3") = .ok (.cntTick .chf)
    ∧ decodeLine Config.reference (ascii "DAC_SET RC2M.superfine, 9") = .ok (.dacSet .rc2mSuperfine 9)
    ∧ decodeLine Config.reference (ascii "HF_CORRECT 1990000") = .ok (.hfCorrect 1990000)
    ∧ decodeLine Config.reference (ascii "ASC_SET_BIT x") = .error .badSyntax
    ∧ decodeLine Config.reference (ascii "asc_load") = .error .badSyntax
    ∧ decodeLine Config.reference (ascii "ASC_CTRL_WR " ++ 123#8 :: ascii "DATA=1, PHI1=0, PHI2=1, LOAD=0"
        ++ 125#8 :: ascii " ") = .error .badSyntax
    ∧ decodeLine Config.reference (ascii "DAC_GET HF.superfine") = .error .badSyntax

/-! ### The step -/

/-- A step of a running machine with no entry enabled runs the next operation, after the other agents' moves (R6, R11;
log 8): of the handler body while it lasts (log 9), else the blocked wait (log 11), else the next operation of the
program, and nothing where none is left (log 22). An access or a line that does not decode is refused under its reason,
with no effect of its own (R52, R53, R81, R281). -/
def Obligations.StepRunsTheDecodedOperation : Prop :=
  ∀ s : State, s.running → entryEnabled (agentsStep s) = false →
    (∀ i rest, s.hand = i :: rest → step s = exec i { agentsStep s with hand := rest })
      ∧ (s.hand = [] → s.waiting = true → step s = exec .seqWaitDone (agentsStep s))
      ∧ (s.hand = [] → s.waiting = false → s.todo = [] → step s = .next (agentsStep s))
      ∧ ∀ x rest, s.hand = [] → s.waiting = false → s.todo = x :: rest →
          (∀ i, decode s.cfg x = .ok i → step s = exec i { agentsStep s with todo := rest })
            ∧ (decode s.cfg x = .error .badAccess → step s = .next (refuseWith .badAccess (agentsStep s)))
            ∧ (decode s.cfg x = .error .badSyntax → step s = .next (refuseWith .badSyntax (agentsStep s)))

/-- R244, R289: where SEQ_ENTER is enabled no step of the main context is taken first: the step enters the handler, and
the main context is left as it was. -/
def Obligations.StepTakesInterruptEntryFirst : Prop :=
  ∀ s : State, s.running → (agentsStep s).refPending = true → s.inHandler = false →
    ∃ t, step s = .next t ∧ t.refPending = false ∧ t.inHandler = true ∧ t.hand = [.seqTick, .seqExit]
      ∧ SameChain s t ∧ SameMirror s t ∧ t.code = s.code ∧ SameRecord s t ∧ t.ret = s.ret ∧ SameGate s t
      ∧ t.seqState = s.seqState ∧ t.iter = s.iter ∧ t.doneFlag = s.doneFlag ∧ t.refEn = s.refEn ∧ t.snap = s.snap
      ∧ t.prevCodes = s.prevCodes ∧ t.result = s.result ∧ t.waiting = s.waiting

/-- R36, R280, R281: a state with a fault or a refusal is never left: the run has ended there. -/
def Obligations.EndedRunTakesNoStep : Prop :=
  ∀ s : State,
    (∀ f fs, s.faults = f :: fs → step s = .fault (.ended f))
      ∧ (s.faults = [] → s.refused = true → step s = .refused (.ended s.refusedBy))

/-- R51, R212, R250, R281: a configuration that breaks a stated constraint is refused before the first step of a run. That
the constraints R7 puts on the signal bits and the patterns (R70, R73) are among these is the model's reading (log 7), and
so it is of a range, a starting code or a carry value past the codes of R28 (log 14). -/
def Obligations.BrokenConfigurationIsRefused : Prop :=
  ∀ s : State, s.faults = [] → s.refused = false →
    (¬ s.cfg.addresses.Nodup ∨ (∃ x ∈ s.cfg.addresses, x % 4 ≠ 0)
      ∨ (∃ f : ChainField, nAsc < s.cfg.fieldPos.get f + s.cfg.width.get f)
      ∨ (∃ (f g : ChainField) (p : Nat), f ≠ g ∧ inField s.cfg f p ∧ inField s.cfg g p)
      ∨ s.cfg.rc2mTCoarse ≤ s.cfg.rc2mTFine ∨ s.cfg.rc2mTFine ≤ s.cfg.rc2mTSuperfine
      ∨ ¬ s.cfg.signalBits.Nodup ∨ (∃ i ∈ s.cfg.signalBits, 32 ≤ i) ∨ ¬ s.cfg.patterns.Nodup
      ∨ (∃ f, 2 ^ 32 ≤ maxOf s.cfg f ∨ 2 ^ 32 ≤ s.cfg.initCodes.get f)
      ∨ ∃ k, s.cfg.ifFineUnderflow = .carry k ∧ 2 ^ 32 ≤ k) →
    step s = .next (refuseWith .badConfig s)

/-- R36: every operation, with any operands, in any state, ends in a next state, a fault or a refusal of the spec being
recorded in it (R280, R281; log 6); no operation takes a record back, and none changes the parameters. -/
def Obligations.EveryOperationAnswersANextState : Prop :=
  ∀ (i : Instr) (s : State), ∃ t, exec i s = .next t ∧ t.cfg = s.cfg ∧ s.faults <+: t.faults
    ∧ (s.refused = true → t.refused = true) ∧ (s.refusedBy ≠ none → t.refusedBy = s.refusedBy)

/-- R20 to R28: each part of the state is written only by the operations whose rules write it. -/
def Obligations.EachPartIsWrittenOnlyByItsOperations : Prop :=
  ∀ (i : Instr) (s t : State), s.undisturbed → exec i s = .next t →
    (drivesChain i = false → SameChain s t)
      ∧ (writesMirror i = false → SameMirror s t)
      ∧ (accessesCounters i = false → t.cntMode = s.cntMode ∧ t.settleLeft = s.settleLeft)
      ∧ (writesStore i = false → t.code = s.code)
      ∧ (writesSession i = false → SameSession s t)

/-! ### The scan chain: one write -/

/-- R72, R100: a control word with a bit outside the five signals set is refused, then one with RST at another level
than RST_INACTIVE; the refusal changes nothing else. -/
def Obligations.ControlWordIsAdmittedOrRefused : Prop :=
  ∀ (s : State) (v : Word),
    ((∃ i, wordBit v i = true ∧ i ∉ s.cfg.signalBits) →
        exec (.ascCtrlWr v) s = .next (refuseWith .reservedBits s))
      ∧ ((∀ i, wordBit v i = true → i ∈ s.cfg.signalBits) → wordBit v s.cfg.bitRst ≠ s.cfg.rstInactive →
        exec (.ascCtrlWr v) s = .next (refuseWith .resetAsserted s))
      ∧ ((∀ i, wordBit v i = true → i ∈ s.cfg.signalBits) → wordBit v s.cfg.bitRst = s.cfg.rstInactive →
        ∃ t, exec (.ascCtrlWr v) s = .next t ∧ t.ascCtrlLast = some v ∧ SameRecord s t)

/-- R101 to R104: the levels before and after an admitted write with the enables by PHASE_ROLE, the input and output
latches after it, and what the write leaves alone. -/
def Obligations.ControlWriteMovesTheLatches : Prop :=
  ∀ (s : State) (v : Word) (before after : Levels),
    (s.ascCtrlLast = none → before = ⟨.x, .x, .x, .x⟩) → (∀ u, s.ascCtrlLast = some u → before = levelsOf s.cfg u) →
    after.d = Bit3.ofBool (wordBit v s.cfg.bitData) → after.ld = Bit3.ofBool (wordBit v s.cfg.bitLoad) →
    (s.cfg.phaseRole = .p2Input → after.ia = Bit3.ofBool (wordBit v s.cfg.bitPhi2)
        ∧ after.ib = Bit3.ofBool (wordBit v s.cfg.bitPhi1)) →
    (s.cfg.phaseRole = .p1Input → after.ia = Bit3.ofBool (wordBit v s.cfg.bitPhi1)
        ∧ after.ib = Bit3.ofBool (wordBit v s.cfg.bitPhi2)) →
    (∀ i, wordBit v i = true → i ∈ s.cfg.signalBits) → wordBit v s.cfg.bitRst = s.cfg.rstInactive →
    after = levelsOf s.cfg v ∧ ∃ t, exec (.ascCtrlWr v) s = .next t ∧ t.ascCtrlLast = some v
      ∧ ((after.ia = .one ∧ after.ib = .one)
            ∨ (Bit3.changed before.ia after.ia = true ∧ Bit3.changed before.ib after.ib = true) →
          ∀ i, i < nAsc → t.a.at i = .x ∧ t.b.at i = .x)
      ∧ (¬ ((after.ia = .one ∧ after.ib = .one)
            ∨ (Bit3.changed before.ia after.ia = true ∧ Bit3.changed before.ib after.ib = true)) →
          (after.ia = .one → t.a.at 0 = after.d ∧ ∀ i, 0 < i → i < nAsc → t.a.at i = s.b.at (i - 1))
            ∧ (after.ia = .zero → before.ia ≠ .zero → Bit3.changed before.d after.d = true →
                t.a.at 0 = .x ∧ ∀ i, 0 < i → i < nAsc → t.a.at i = s.a.at i)
            ∧ (after.ia = .zero → before.ia = .zero ∨ Bit3.changed before.d after.d = false → t.a = s.a)
            ∧ (after.ib = .one → t.b = t.a)
            ∧ (after.ib = .zero → t.b = s.b))
      ∧ SameMirror s t ∧ SameCounters s t ∧ t.code = s.code ∧ SameSession s t ∧ SameRecord s t ∧ SameOwn s t

/-- R105: the live configuration after an admitted write, position by position. -/
def Obligations.ControlWriteLoadsTheLiveConfiguration : Prop :=
  ∀ (s : State) (v : Word), (∀ i, wordBit v i = true → i ∈ s.cfg.signalBits) →
    wordBit v s.cfg.bitRst = s.cfg.rstInactive →
    ∃ t, exec (.ascCtrlWr v) s = .next t ∧ ∀ p, p < nAsc →
      (Bit3.changed (s.b.at (stageOf p)) (t.b.at (stageOf p)) = false →
          ((levelsOf s.cfg v).ld = .one → (levelsBefore s.cfg s.ascCtrlLast).ld ≠ .one →
              t.l.at p = t.b.at (stageOf p))
            ∧ ((levelsOf s.cfg v).ld = .one → (levelsBefore s.cfg s.ascCtrlLast).ld = .one → t.l.at p = s.l.at p)
            ∧ ((levelsOf s.cfg v).ld = .zero → t.l.at p = s.l.at p))
        ∧ (Bit3.changed (s.b.at (stageOf p)) (t.b.at (stageOf p)) = true →
          ((levelsOf s.cfg v).ld = .one → t.l.at p = .x)
            ∧ ((levelsOf s.cfg v).ld = .zero → (levelsBefore s.cfg s.ascCtrlLast).ld ≠ .zero → t.l.at p = .x)
            ∧ ((levelsOf s.cfg v).ld = .zero → (levelsBefore s.cfg s.ascCtrlLast).ld = .zero → t.l.at p = s.l.at p))

/-! ### The scan chain: shifting, loading, committing -/

/-- What every step leaves true of the chain: before the first write all is X, an overlap makes every latch X, and a
position whose stage is X under a raised load line is X (R102, R105). -/
def Obligations.ChainInvariantIsKept : Prop :=
  ∀ s t : State, chainInv s → step s = .next t → chainInv t

/-- R115: ASC_SHIFT_BIT under P2_INPUT, from any state that meets the chain invariant. -/
def Obligations.ShiftBitShiftsByOne : Prop :=
  ∀ (s : State) (d : Bool), s.cfg.ok = true → s.cfg.phaseRole = .p2Input → chainInv s → s.undisturbed →
    ∃ t, exec (.ascShiftBit d) s = .next t
      ∧ t.b.at 0 = Bit3.ofBool d ∧ (∀ i, 0 < i → i < nAsc → t.b.at i = s.b.at (i - 1)) ∧ t.a = t.b
      ∧ t.ascCtrlLast = some (ascw s.cfg d true false false)
      ∧ (overlapUnderLoad s → ∀ p, p < nAsc → t.l.at p = .x)
      ∧ (¬ overlapUnderLoad s → t.l = s.l)
      ∧ OnlyChainIn 4 s t

/-- R121: under P1_INPUT the same four writes do not shift by one: after a bit e, the bit d leaves X at stage 0 where it
differs from e, the other stages take the stale inputs, and d stays in the first input latch alone. The five writes
that the rule gives for that role do shift by one. -/
def Obligations.ShiftingUnderTheOtherPhaseRole : Prop :=
  ∀ (s : State) (d e : Bool), s.cfg.ok = true → s.cfg.phaseRole = .p1Input →
    (s.undisturbed → s.ascCtrlLast = some (ascw s.cfg e true false false) →
        ∃ t, exec (.ascShiftBit d) s = .next t
          ∧ t.b.at 0 = (if d = e then s.a.at 0 else .x) ∧ (∀ i, 0 < i → i < nAsc → t.b.at i = s.a.at i)
          ∧ t.a.at 0 = Bit3.ofBool d ∧ (∀ i, 0 < i → i < nAsc → t.a.at i = t.b.at (i - 1))
          ∧ t.ascCtrlLast = some (ascw s.cfg d true false false) ∧ t.l = s.l ∧ OnlyChainIn 4 s t)
      ∧ (s.ascCtrlLast = some (ascw s.cfg e false false false) →
        ∃ t, execAll [.ascCtrlWr (ascw s.cfg d false false false), .ascCtrlWr (ascw s.cfg d true false false),
              .ascCtrlWr (ascw s.cfg d false false false), .ascCtrlWr (ascw s.cfg d false true false),
              .ascCtrlWr (ascw s.cfg d false false false)] s = .next t
          ∧ t.b.at 0 = Bit3.ofBool d ∧ (∀ i, 0 < i → i < nAsc → t.b.at i = s.b.at (i - 1)) ∧ t.a = t.b
          ∧ t.l = s.l ∧ t.ascCtrlLast = some (ascw s.cfg d false false false))

/-- R78, R116: ASC_SHIFT_ALL fills every stage from the mirror, value bit j of word w in stage `32*w + j`. -/
def Obligations.ShiftAllFillsTheChainFromTheMirror : Prop :=
  ∀ s : State, s.cfg.ok = true → s.cfg.phaseRole = .p2Input → chainInv s → s.undisturbed → s.mirror.full →
    ∃ t, exec .ascShiftAll s = .next t
      ∧ (∀ w j v, w < nWords → j < 32 → s.mirror.read w = some v →
          t.b.at (32 * w + j) = Bit3.ofBool (wordBit v j)) ∧ t.a = t.b
      ∧ (∀ v, s.mirror.read 0 = some v → t.ascCtrlLast = some (ascw s.cfg (wordBit v 0) true false false))
      ∧ (¬ overlapUnderLoad s → t.l = s.l)
      ∧ OnlyChainIn 4864 s t

/-- R117: ASC_LOAD copies the shadow into the live configuration where its two writes leave the shadow still; from an
unknown last word it leaves everything unknown. -/
def Obligations.LoadPulseCopiesTheShadow : Prop :=
  ∀ s : State, s.cfg.ok = true → s.undisturbed →
    (∀ u, s.ascCtrlLast = some u → (∀ i, wordBit u i = true → i ∈ s.cfg.signalBits) →
        wordBit u s.cfg.bitRst = s.cfg.rstInactive → wordBit u s.cfg.bitLoad = false →
        ¬ (wordBit u s.cfg.bitPhi1 = true ∧ wordBit u s.cfg.bitPhi2 = true) →
        ((levelsOf s.cfg u).ib = .one → s.a = s.b) →
        ∃ t, exec .ascLoad s = .next t ∧ (∀ p, p < nAsc → t.l.at p = s.b.at (stageOf p)) ∧ t.b = s.b
          ∧ ((levelsOf s.cfg u).ia = .zero → t.a = s.a) ∧ t.ascCtrlLast = some u ∧ OnlyChainIn 2 s t)
      ∧ (s.ascCtrlLast = none →
        ∃ t, exec .ascLoad s = .next t ∧ (∀ p, p < nAsc → t.l.at p = .x ∧ t.b.at p = .x)
          ∧ t.ascCtrlLast = some (ascw s.cfg false true false false) ∧ OnlyChainIn 2 s t)

/-- R119: after a commit the live configuration equals the mirror, bit for bit; the shadow and the input latches hold the
mirror too, and the last word is known. -/
def Obligations.CommitMakesTheLiveConfigurationEqualTheMirror : Prop :=
  ∀ s : State, s.cfg.ok = true → s.cfg.phaseRole = .p2Input → chainInv s → s.undisturbed → s.mirror.full →
    ∃ t, exec .ascCommit s = .next t
      ∧ (∀ p, p < nAsc → ∃ v, s.mirror.bit p = some v ∧ t.l.at p = Bit3.ofBool v
          ∧ t.b.at (stageOf p) = Bit3.ofBool v)
      ∧ t.a = t.b
      ∧ (∀ v, s.mirror.read 0 = some v → t.ascCtrlLast = some (ascw s.cfg (wordBit v 0) true false false))
      ∧ OnlyChainIn 4866 s t

/-- R283, R308: a commit stops at an unwritten mirror word with its fault; the words above it have been shifted, and the
live configuration is as it was. -/
def Obligations.CommitStopsAtAnUnwrittenWord : Prop :=
  ∀ (s : State) (w : Nat), s.cfg.ok = true → s.cfg.phaseRole = .p2Input → chainInv s → s.undisturbed →
    w < nWords → s.mirror.read w = none → (∀ w', w < w' → w' < nWords → s.mirror.read w' ≠ none) →
    ¬ overlapUnderLoad s →
    ∃ t, exec .ascCommit s = .next t ∧ t.faults = s.faults ++ [⟨.unwrittenMirror, .word w⟩] ∧ t.l = s.l
      ∧ (∀ i v, i < 32 * (37 - w) → s.mirror.read (w + 1 + i / 32) = some v →
          t.b.at i = Bit3.ofBool (wordBit v (i % 32)))
      ∧ (∀ i, 32 * (37 - w) ≤ i → i < nAsc → t.b.at i = s.b.at (i - 32 * (37 - w)))
      ∧ SameMirror s t ∧ SameGate s t ∧ t.code = s.code ∧ SameSession s t ∧ t.refused = s.refused
      ∧ t.env = s.env.drop (4 * (32 * (37 - w)) + 1)

/-! ### The mirror -/

/-- R108, R109, R62: a mirror word reads as the last write left it, and neither operation touches anything else. -/
def Obligations.MirrorWordsReadAsWritten : Prop :=
  ∀ (s : State) (w : Nat) (v : Word), w < nWords →
    (∃ t, exec (.ascMirrorWr w v) s = .next t ∧ t.mirror.read w = some v
        ∧ (∀ w', w' ≠ w → t.mirror.read w' = s.mirror.read w') ∧ OnlyMirror s t
        ∧ exec (.ascMirrorRd w) t = .next (setRet (.word v) t))
      ∧ (∀ u, s.mirror.read w = some u → exec (.ascMirrorRd w) s = .next (setRet (.word u) s))

/-- R110, R111, R112: setting and clearing a position changes its mirror bit and no other, and reading a position returns
its mirror bit and changes nothing. -/
def Obligations.SetClearAndReadOnePosition : Prop :=
  ∀ (s : State) (p : Nat) (v : Word), p < nAsc → s.mirror.read (wordOf p) = some v →
    (∃ t, exec (.ascSetBit p) s = .next t ∧ t.mirror.bit p = some true ∧ (∀ q, q ≠ p → SameBit s t q)
        ∧ t.mirror.read (wordOf p) = some (v ||| maskOf p)
        ∧ (∀ w, w ≠ wordOf p → t.mirror.read w = s.mirror.read w) ∧ OnlyMirror s t
        ∧ exec (.ascReadBit p) t = .next (setRet (.bit true) t))
      ∧ (∃ t, exec (.ascClearBit p) s = .next t ∧ t.mirror.bit p = some false ∧ (∀ q, q ≠ p → SameBit s t q)
        ∧ t.mirror.read (wordOf p) = some (v &&& ~~~(maskOf p))
        ∧ (∀ w, w ≠ wordOf p → t.mirror.read w = s.mirror.read w) ∧ OnlyMirror s t
        ∧ exec (.ascReadBit p) t = .next (setRet (.bit false) t))
      ∧ exec (.ascReadBit p) s = .next (setRet (.bit (wordBit (v >>> (31 - p % 32)) 0)) s)

/-- R79, R113: a field is written most significant bit first at consecutive positions, and nothing else changes. -/
def Obligations.WriteFieldPlacesBitsMostSignificantFirst : Prop :=
  ∀ (s : State) (p n v : Nat), 1 ≤ n → p + n ≤ nAsc → v < 2 ^ n →
    (∀ w, wordOf p ≤ w → w ≤ wordOf (p + n - 1) → s.mirror.read w ≠ none) →
    ∃ t, exec (.ascWriteField p n v) s = .next t
      ∧ (∀ i, i < n → t.mirror.bit (p + i) = some (v.testBit (n - 1 - i)))
      ∧ (∀ q, q < p ∨ p + n ≤ q → SameBit s t q) ∧ OnlyMirror s t

/-- R280, R283: which fault each mirror operation raises, in the order of its checks, with nothing else changed. -/
def Obligations.MirrorFaultsFollowTheOrderOfChecks : Prop :=
  ∀ s : State,
    (∀ w v, nWords ≤ w → exec (.ascMirrorWr w v) s = .next (raiseFault ⟨.outOfRange, .word w⟩ s))
      ∧ (∀ w, nWords ≤ w → exec (.ascMirrorRd w) s = .next (raiseFault ⟨.outOfRange, .word w⟩ s))
      ∧ (∀ w, w < nWords → s.mirror.read w = none →
          exec (.ascMirrorRd w) s = .next (raiseFault ⟨.unwrittenMirror, .word w⟩ s))
      ∧ (∀ p, nAsc ≤ p → exec (.ascSetBit p) s = .next (raiseFault ⟨.outOfRange, .position p⟩ s)
          ∧ exec (.ascClearBit p) s = .next (raiseFault ⟨.outOfRange, .position p⟩ s)
          ∧ exec (.ascReadBit p) s = .next (raiseFault ⟨.outOfRange, .position p⟩ s))
      ∧ (∀ p, p < nAsc → s.mirror.read (wordOf p) = none →
          exec (.ascSetBit p) s = .next (raiseFault ⟨.unwrittenMirror, .word (wordOf p)⟩ s)
          ∧ exec (.ascClearBit p) s = .next (raiseFault ⟨.unwrittenMirror, .word (wordOf p)⟩ s)
          ∧ exec (.ascReadBit p) s = .next (raiseFault ⟨.unwrittenMirror, .word (wordOf p)⟩ s))
      ∧ (∀ p n v, n = 0 ∨ nAsc < p + n →
          exec (.ascWriteField p n v) s = .next (raiseFault ⟨.outOfRange, .span p n⟩ s))
      ∧ (∀ p n v, 1 ≤ n → p + n ≤ nAsc → 2 ^ n ≤ v →
          exec (.ascWriteField p n v) s = .next (raiseFault ⟨.fieldRange, .value v n⟩ s))
      ∧ (∀ p n v w, 1 ≤ n → p + n ≤ nAsc → v < 2 ^ n → wordOf p ≤ w → w ≤ wordOf (p + n - 1) →
          s.mirror.read w = none → (∀ w', wordOf p ≤ w' → w' < w → s.mirror.read w' ≠ none) →
          exec (.ascWriteField p n v) s = .next (raiseFault ⟨.unwrittenMirror, .word w⟩ s))

/-- Every step keeps the mirror in its canonical form: word indices strictly rising and below 38 (log 15). -/
def Obligations.MirrorStaysCanonical : Prop :=
  ∀ s t : State, s.mirror.wf = true → step s = .next t → t.mirror.wf = true

/-! ### The counters -/

/-- R107, R155: reading a control register returns a draw, and the counters' one counts the settling down. -/
def Obligations.ControlRegisterReadsAreDraws : Prop :=
  ∀ s : State,
    (∃ t, exec .ascCtrlRd s = .next t ∧ t.ret = some (.word (Config.draw32 s.draws)) ∧ t.draws = s.draws + 1
        ∧ SameChain s t ∧ SameMirror s t ∧ SameCounters s t ∧ t.code = s.code ∧ SameSession s t ∧ SameRecord s t
        ∧ t.env = s.env)
      ∧ (∃ t, exec .cntCtrlRd s = .next t ∧ t.ret = some (.word (Config.draw32 s.draws)) ∧ t.draws = s.draws + 1
        ∧ t.cnt = s.cnt ∧ t.cntMode = s.cntMode ∧ t.settleLeft = s.settleLeft - 1 ∧ OnlyCountersIn 0 s t)

/-- R151 to R154, R157: what the three patterns do to the counts, the gate and the settling countdown; a write to
CNT_CTRL performs the operation of its pattern, and any other value is refused. -/
def Obligations.PatternWritesSetTheGate : Prop :=
  ∀ (s : State) (v : Word), s.cfg.ok = true →
    (∀ op, op = .cntDisableAll ∨ op = .cntCtrlWr s.cfg.patDisable →
        ∃ t, exec op s = .next t ∧ t.cntMode = .stopped ∧ t.settleLeft = s.cfg.disableSettle
          ∧ t.cnt = s.cnt ∧ t.ret = s.ret ∧ t.draws = s.draws ∧ OnlyCountersIn 0 s t)
      ∧ (∀ op, op = .cntResetAll ∨ op = .cntCtrlWr s.cfg.patReset →
        ∃ t, exec op s = .next t ∧ t.cntMode = .cleared ∧ t.settleLeft = 0
          ∧ (∀ i : Counter, t.cnt.get i = 0) ∧ t.ret = s.ret ∧ t.draws = s.draws ∧ OnlyCountersIn 0 s t)
      ∧ (∀ op, op = .cntEnableAll ∨ op = .cntCtrlWr s.cfg.patEnable →
        ∃ t, exec op s = .next t ∧ t.cntMode = .running ∧ t.settleLeft = s.settleLeft - 1
          ∧ t.cnt = s.cnt ∧ t.ret = s.ret ∧ t.draws = s.draws ∧ OnlyCountersIn 0 s t)
      ∧ (v ∉ s.cfg.patterns → exec (.cntCtrlWr v) s = .next (refuseWith .unknownPattern s))

/-- R156, R158: when the counters may be counting, and one edge of a counted clock. Where they may not, R158 has no step;
that a tick asked for there changes nothing is the model's choice (log 10). -/
def Obligations.TickAdvancesOneCounter : Prop :=
  ∀ (s : State) (i : Counter),
    (¬ (s.cntMode = .running ∨ s.cntMode = .powerOn ∨ (s.cntMode = .cleared ∧ s.cfg.resetHolds = false)
          ∨ 0 < s.settleLeft) → counting s = false ∧ exec (.cntTick i) s = .next s)
      ∧ (s.cntMode = .running ∨ s.cntMode = .powerOn ∨ (s.cntMode = .cleared ∧ s.cfg.resetHolds = false)
          ∨ 0 < s.settleLeft → counting s = true ∧ ∃ t, exec (.cntTick i) s = .next t
          ∧ ((s.cnt.get i).toNat < 2 ^ 32 - 1 → (t.cnt.get i).toNat = (s.cnt.get i).toNat + 1 ∧ t.draws = s.draws)
          ∧ ((s.cnt.get i).toNat = 2 ^ 32 - 1 → s.cfg.counterOverflow = .wrap →
              t.cnt.get i = 0 ∧ t.draws = s.draws)
          ∧ ((s.cnt.get i).toNat = 2 ^ 32 - 1 → s.cfg.counterOverflow = .any →
              t.cnt.get i = Config.draw32 s.draws ∧ t.draws = s.draws + 1)
          ∧ (∀ j : Counter, j ≠ i → t.cnt.get j = s.cnt.get j) ∧ t.cntMode = s.cntMode
          ∧ t.settleLeft = s.settleLeft ∧ t.ret = s.ret ∧ OnlyCountersIn 0 s t)

/-- R74, R159, R160: a read of a half register: the half, or a draw while the counters may count; the upper bits by
CNT_UPPER_READ; only the settling countdown changes (R57, R157). -/
def Obligations.HalfReadsReturnTheHalfOrADraw : Prop :=
  ∀ (s : State) (i : Counter) (k : Nat) (op : Instr),
    (op = .cntRdLo i ∧ k = 0) ∨ (op = .cntRdHi i ∧ k = 16) →
    ∃ t v, exec op s = .next t ∧ t.ret = some (.word v)
      ∧ (counting s = false → v.extractLsb' 0 16 = (s.cnt.get i).extractLsb' k 16)
      ∧ (counting s = true → v.extractLsb' 0 16 = Config.draw16 s.draws)
      ∧ (s.cfg.cntUpperRead = .zero → v.extractLsb' 16 16 = 0)
      ∧ (s.cfg.cntUpperRead = .any → counting s = false → v.extractLsb' 16 16 = Config.draw16 s.draws)
      ∧ (s.cfg.cntUpperRead = .any → counting s = true → v.extractLsb' 16 16 = Config.draw16 (s.draws + 1))
      ∧ t.cnt = s.cnt ∧ t.cntMode = s.cntMode ∧ t.settleLeft = s.settleLeft - 1 ∧ OnlyCountersIn 0 s t

/-- R161, R164: a snapshot of counters that do not count returns every count exactly, whatever the upper bits of the
reads hold, and can be repeated; in any case a snapshot completes. -/
def Obligations.SnapshotOfStoppedCountersIsExact : Prop :=
  ∀ s : State, s.undisturbed →
    (counting s = false → ∃ t, exec .cntReadSnapshot s = .next t ∧ t.ret = some (.counts s.cnt) ∧ t.cnt = s.cnt
        ∧ t.cntMode = s.cntMode ∧ counting t = false ∧ OnlyCountersIn 10 s t)
      ∧ ∃ t c, exec .cntReadSnapshot s = .next t ∧ t.ret = some (.counts c) ∧ t.cntMode = s.cntMode
          ∧ t.settleLeft = s.settleLeft - 10 ∧ OnlyCountersIn 10 s t

/-- R162: resetting and enabling leaves the counters running from 0; an edge between the two writes may already count
unless RESET_HOLDS. -/
def Obligations.ResetAndEnableStartsFromZero : Prop :=
  ∀ s : State, s.undisturbed →
    ∃ t, exec .cntResetAndEnable s = .next t ∧ t.cntMode = .running ∧ t.settleLeft = 0 ∧ t.ret = s.ret
      ∧ ((s.cfg.resetHolds = true ∨ ∀ acts ∈ s.env, ∀ i, Act.tick i ∉ acts) → ∀ i : Counter, t.cnt.get i = 0)
      ∧ OnlyCountersIn 2 s t

/-- R163, R164: a gate cycle returns what the counters held when the disable took effect, and leaves them running from 0 as
R162 has it. -/
def Obligations.GateCycleReturnsTheCountsAtTheDisable : Prop :=
  ∀ s : State, s.undisturbed →
    ∃ t c, exec .cntGateCycle s = .next t ∧ t.ret = some (.counts c)
      ∧ (s.cfg.disableSettle = 0 → c = (agentsStep s).cnt) ∧ t.cntMode = .running ∧ t.settleLeft = 0
      ∧ ((s.cfg.resetHolds = true ∨ ∀ acts ∈ s.env, ∀ i, Act.tick i ∉ acts) → ∀ i : Counter, t.cnt.get i = 0)
      ∧ OnlyCountersIn 13 s t

/-! ### The parameter store -/

/-- R191, R192: a code is returned as it is, and set without validation. -/
def Obligations.StoreReturnsWhatWasSet : Prop :=
  ∀ (s : State) (f : Field) (v : Word),
    exec (.dacGet f) s = .next (setRet (.code (s.code.get f)) s)
      ∧ ∃ t, exec (.dacSet f v) s = .next t ∧ t.code.get f = v.toNat ∧ (∀ g, g ≠ f → t.code.get g = s.code.get g)
        ∧ OnlyCode s t ∧ exec (.dacGet f) t = .next (setRet (.code v.toNat) t)

/-- R194, R195: the HF fine steps with their carries and their faults, a stored code out of range first; nothing but the
two HF codes changes. -/
def Obligations.HfStepsCarryAtZeroAndThirtyOne : Prop :=
  ∀ s : State,
    (inRange s.cfg s.code .hfCoarse = false →
        exec .hfFineDec s = .next (raiseFault ⟨.codeRange, .field .hfCoarse⟩ s)
          ∧ exec .hfFineInc s = .next (raiseFault ⟨.codeRange, .field .hfCoarse⟩ s))
      ∧ (inRange s.cfg s.code .hfCoarse = true → inRange s.cfg s.code .hfFine = false →
        exec .hfFineDec s = .next (raiseFault ⟨.codeRange, .field .hfFine⟩ s)
          ∧ exec .hfFineInc s = .next (raiseFault ⟨.codeRange, .field .hfFine⟩ s))
      ∧ (inRange s.cfg s.code .hfCoarse = true → inRange s.cfg s.code .hfFine = true →
        (0 < s.code.hfFine →
            exec .hfFineDec s = .next (setCode { s.code with hfFine := s.code.hfFine - 1 } s))
          ∧ (s.code.hfFine = 0 → 0 < s.code.hfCoarse →
            exec .hfFineDec s = .next (setCode { s.code with hfFine := 10, hfCoarse := s.code.hfCoarse - 1 } s))
          ∧ (s.code.hfFine = 0 → s.code.hfCoarse = 0 →
            exec .hfFineDec s = .next (raiseFault ⟨.codeRange, .field .hfCoarse⟩ s))
          ∧ (s.code.hfFine < 31 →
            exec .hfFineInc s = .next (setCode { s.code with hfFine := s.code.hfFine + 1 } s))
          ∧ (s.code.hfFine = 31 → s.code.hfCoarse < 2 ^ s.cfg.width.hfCoarse - 1 →
            exec .hfFineInc s = .next (setCode { s.code with hfFine := 23, hfCoarse := s.code.hfCoarse + 1 } s))
          ∧ (s.code.hfFine = 31 → s.code.hfCoarse = 2 ^ s.cfg.width.hfCoarse - 1 →
            exec .hfFineInc s = .next (raiseFault ⟨.codeRange, .field .hfCoarse⟩ s)))

/-- R196, R197: the IF fine steps: the carry at 32, and IF_FINE_UNDERFLOW at 0; the carry policy of the last clause is
this model's choice, not the spec's (log 13). -/
def Obligations.IfStepsCarryAtThirtyTwo : Prop :=
  ∀ s : State, inRange s.cfg s.code .ifCoarse = true → inRange s.cfg s.code .ifFine = true →
    (s.code.ifFine < 31 →
        exec .ifFineInc s = .next (setCode { s.code with ifFine := s.code.ifFine + 1 } s))
      ∧ (s.code.ifFine = 31 → s.code.ifCoarse < 2 ^ s.cfg.width.ifCoarse - 1 →
        exec .ifFineInc s = .next (setCode { s.code with ifFine := 24, ifCoarse := s.code.ifCoarse + 1 } s))
      ∧ (s.code.ifFine = 31 → s.code.ifCoarse = 2 ^ s.cfg.width.ifCoarse - 1 →
        exec .ifFineInc s = .next (raiseFault ⟨.codeRange, .field .ifCoarse⟩ s))
      ∧ (0 < s.code.ifFine →
        exec .ifFineDec s = .next (setCode { s.code with ifFine := s.code.ifFine - 1 } s))
      ∧ (s.code.ifFine = 0 → s.cfg.ifFineUnderflow = .fault →
        exec .ifFineDec s = .next (raiseFault ⟨.codeRange, .field .ifFine⟩ s))
      ∧ (∀ k, s.code.ifFine = 0 → s.cfg.ifFineUnderflow = .carry k → 0 < s.code.ifCoarse →
        exec .ifFineDec s = .next (setCode { s.code with ifFine := k, ifCoarse := s.code.ifCoarse - 1 } s))

/-- R198 to R205: a single-code step moves its code by one inside its range, faults at the end of it and out of it, and
touches no other code. -/
def Obligations.SingleCodeStepsMoveByOne : Prop :=
  ∀ (s : State) (f : Field) (up down : Instr),
    (f = .rc2mCoarse ∧ up = .rc2mCoarseInc ∧ down = .rc2mCoarseDec)
      ∨ (f = .rc2mFine ∧ up = .rc2mFineInc ∧ down = .rc2mFineDec)
      ∨ (f = .rc2mSuperfine ∧ up = .rc2mSuperfineInc ∧ down = .rc2mSuperfineDec)
      ∨ (f = .lcCode ∧ up = .lcInc ∧ down = .lcDec) →
    (inRange s.cfg s.code f = false → exec up s = .next (raiseFault ⟨.codeRange, .field f⟩ s)
        ∧ exec down s = .next (raiseFault ⟨.codeRange, .field f⟩ s))
      ∧ (inRange s.cfg s.code f = true →
        (s.code.get f < maxOf s.cfg f → ∃ t, exec up s = .next t ∧ t.code.get f = s.code.get f + 1
            ∧ (∀ g, g ≠ f → t.code.get g = s.code.get g) ∧ OnlyCode s t)
          ∧ (s.code.get f = maxOf s.cfg f → exec up s = .next (raiseFault ⟨.codeRange, .field f⟩ s))
          ∧ (minOf s.cfg f < s.code.get f → ∃ t, exec down s = .next t ∧ t.code.get f = s.code.get f - 1
            ∧ (∀ g, g ≠ f → t.code.get g = s.code.get g) ∧ OnlyCode s t)
          ∧ (s.code.get f = minOf s.cfg f → exec down s = .next (raiseFault ⟨.codeRange, .field f⟩ s)))

/-- R193, R283: the range of each field, and the fault of a step operation on a stored code out of its range: with that
field, the first of its pair first, and nothing else changed. -/
def Obligations.StoredCodeOutOfRangeFaults : Prop :=
  (∀ (cfg : Config) (code : Codes) (f : Field), inRange cfg code f = true ↔
    match f with
    | .hfCoarse => code.hfCoarse ≤ 2 ^ cfg.width.hfCoarse - 1
    | .hfFine => code.hfFine ≤ 31
    | .rc2mCoarse => code.rc2mCoarse ≤ 2 ^ cfg.width.rc2mCoarse - 1
    | .rc2mFine => code.rc2mFine ≤ 2 ^ cfg.width.rc2mFine - 1
    | .rc2mSuperfine => code.rc2mSuperfine ≤ 2 ^ cfg.width.rc2mSuperfine - 1
    | .ifCoarse => code.ifCoarse ≤ 2 ^ cfg.width.ifCoarse - 1
    | .ifFine => code.ifFine ≤ 31
    | .lcCode => cfg.lcMin ≤ code.lcCode ∧ code.lcCode ≤ cfg.lcMax) ∧
  ∀ s : State,
    (∀ f op, (f, op) ∈ [(Field.hfCoarse, Instr.hfFineDec), (.hfCoarse, .hfFineInc), (.ifCoarse, .ifFineInc),
          (.ifCoarse, .ifFineDec), (.rc2mCoarse, .rc2mCoarseInc), (.rc2mCoarse, .rc2mCoarseDec),
          (.rc2mFine, .rc2mFineInc), (.rc2mFine, .rc2mFineDec), (.rc2mSuperfine, .rc2mSuperfineInc),
          (.rc2mSuperfine, .rc2mSuperfineDec), (.lcCode, .lcInc), (.lcCode, .lcDec), (.lcCode, .lcExpand)] →
        inRange s.cfg s.code f = false → exec op s = .next (raiseFault ⟨.codeRange, .field f⟩ s))
      ∧ (∀ f g op, (f, g, op) ∈ [(Field.hfCoarse, Field.hfFine, Instr.hfFineDec), (.hfCoarse, .hfFine, .hfFineInc),
          (.ifCoarse, .ifFine, .ifFineInc), (.ifCoarse, .ifFine, .ifFineDec)] →
        inRange s.cfg s.code f = true → inRange s.cfg s.code g = false →
        exec op s = .next (raiseFault ⟨.codeRange, .field g⟩ s))

/-- R206: the LC code expands by the configured map, or faults where a sub-code is too wide. -/
def Obligations.LcExpandAppliesTheMap : Prop :=
  ∀ s : State, inRange s.cfg s.code .lcCode = true →
    ((lcSubOf s).fits s.cfg = true → exec .lcExpand s = .next (setRet (.subCodes (lcSubOf s)) s))
      ∧ ((lcSubOf s).fits s.cfg = false →
        exec .lcExpand s = .next (raiseFault ⟨.lcMapRange, .lcCode s.code.lcCode⟩ s))

/-- R207 to R211, R213: an encoder puts its domain's codes into their fields of the mirror and writes no other position,
and encoding all does so for the ten fields. -/
def Obligations.EncodersWriteTheirOwnFields : Prop :=
  ∀ s : State, s.cfg.ok = true → s.mirror.full →
    (hfEncodable s → ∃ t, exec .dacEncodeHf s = .next t ∧ mirrorHolds t .hfCoarse s.code.hfCoarse
        ∧ mirrorHolds t .hfFine s.code.hfFine ∧ OnlyMirror s t
        ∧ ∀ p, ¬ inField s.cfg .hfCoarse p → ¬ inField s.cfg .hfFine p → SameBit s t p)
      ∧ (rc2mEncodable s → ∃ t, exec .dacEncodeRc2m s = .next t ∧ mirrorHolds t .rc2mCoarse s.code.rc2mCoarse
        ∧ mirrorHolds t .rc2mFine s.code.rc2mFine ∧ mirrorHolds t .rc2mSuperfine s.code.rc2mSuperfine
        ∧ OnlyMirror s t
        ∧ ∀ p, ¬ inField s.cfg .rc2mCoarse p → ¬ inField s.cfg .rc2mFine p → ¬ inField s.cfg .rc2mSuperfine p →
            SameBit s t p)
      ∧ (ifEncodable s → ∃ t, exec .dacEncodeIf s = .next t ∧ mirrorHolds t .ifCoarse s.code.ifCoarse
        ∧ mirrorHolds t .ifFine s.code.ifFine ∧ OnlyMirror s t
        ∧ ∀ p, ¬ inField s.cfg .ifCoarse p → ¬ inField s.cfg .ifFine p → SameBit s t p)
      ∧ (lcEncodable s → ∃ t, exec .dacEncodeLc s = .next t ∧ mirrorHolds t .lcCoarse (lcSubOf s).coarse
        ∧ mirrorHolds t .lcMid (lcSubOf s).mid ∧ mirrorHolds t .lcFine (lcSubOf s).fine ∧ OnlyMirror s t
        ∧ ∀ p, ¬ inField s.cfg .lcCoarse p → ¬ inField s.cfg .lcMid p → ¬ inField s.cfg .lcFine p → SameBit s t p)
      ∧ (hfEncodable s → rc2mEncodable s → ifEncodable s → lcEncodable s →
        ∃ t, exec .dacEncodeAll s = .next t ∧ OnlyMirror s t
          ∧ mirrorHolds t .hfCoarse s.code.hfCoarse ∧ mirrorHolds t .hfFine s.code.hfFine
          ∧ mirrorHolds t .rc2mCoarse s.code.rc2mCoarse ∧ mirrorHolds t .rc2mFine s.code.rc2mFine
          ∧ mirrorHolds t .rc2mSuperfine s.code.rc2mSuperfine ∧ mirrorHolds t .ifCoarse s.code.ifCoarse
          ∧ mirrorHolds t .ifFine s.code.ifFine ∧ mirrorHolds t .lcCoarse (lcSubOf s).coarse
          ∧ mirrorHolds t .lcMid (lcSubOf s).mid ∧ mirrorHolds t .lcFine (lcSubOf s).fine
          ∧ ∀ p, (∀ f, ¬ inField s.cfg f p) → SameBit s t p)

/-- R192, R283: a code set past its width is found by the encoder, which keeps the fields written before it. -/
def Obligations.EncoderFaultKeepsEarlierFields : Prop :=
  ∀ s : State, s.cfg.ok = true → s.mirror.full → fitsField s.cfg .hfCoarse s.code.hfCoarse →
    1 ≤ s.cfg.width.hfFine → 2 ^ s.cfg.width.hfFine ≤ s.code.hfFine →
    ∀ op, op = .dacEncodeHf ∨ op = .dacEncodeAll →
      ∃ t, exec op s = .next t ∧ t.faults = s.faults ++ [⟨.fieldRange, .value s.code.hfFine s.cfg.width.hfFine⟩]
        ∧ mirrorHolds t .hfCoarse s.code.hfCoarse ∧ (∀ p, ¬ inField s.cfg .hfCoarse p → SameBit s t p)
        ∧ SameChain s t ∧ SameCounters s t ∧ t.code = s.code ∧ SameSession s t ∧ SameOwn s t ∧ t.refused = s.refused

/-- R214: encoding all and committing puts every code into its field of the live configuration, most significant bit
first. -/
def Obligations.StoreReachesTheChip : Prop :=
  ∀ s : State, s.cfg.ok = true → s.cfg.phaseRole = .p2Input → chainInv s → s.undisturbed → s.mirror.full →
    hfEncodable s → rc2mEncodable s → ifEncodable s → lcEncodable s →
    ∃ t, execAll [.dacEncodeAll, .ascCommit] s = .next t
      ∧ liveHolds t .hfCoarse s.code.hfCoarse ∧ liveHolds t .hfFine s.code.hfFine
      ∧ liveHolds t .rc2mCoarse s.code.rc2mCoarse ∧ liveHolds t .rc2mFine s.code.rc2mFine
      ∧ liveHolds t .rc2mSuperfine s.code.rc2mSuperfine ∧ liveHolds t .ifCoarse s.code.ifCoarse
      ∧ liveHolds t .ifFine s.code.ifFine ∧ liveHolds t .lcCoarse (lcSubOf s).coarse
      ∧ liveHolds t .lcMid (lcSubOf s).mid ∧ liveHolds t .lcFine (lcSubOf s).fine
      ∧ (∀ p, p < nAsc → (∀ f, ¬ inField s.cfg f p) → ∃ v, s.mirror.bit p = some v ∧ t.l.at p = Bit3.ofBool v)
      ∧ t.code = s.code ∧ SameRecord s t

/-- R302: the boot operations, from any state whose chain obeys the invariant, leave the live configuration equal to the
mirror, which is ASC_INIT outside the code fields, with every code and LC sub-code in its field, and no bit unknown. The
codes are those of the store, or INIT_CODES on a board that loads them at boot. -/
def Obligations.BootLeavesNoUnknownBit : Prop :=
  ∀ (s : State) (loads : Bool) (codes : Codes), s.cfg.ok = true → s.cfg.phaseRole = .p2Input → chainInv s →
    s.undisturbed → codes = (if loads then s.cfg.initCodes else s.code) →
    hfEncodable { s with code := codes } → rc2mEncodable { s with code := codes } →
    ifEncodable { s with code := codes } → lcEncodable { s with code := codes } →
    ∃ t, execAll (bootOps s.cfg loads) s = .next t ∧ SameRecord s t ∧ t.code = codes
      ∧ (∀ p, p < nAsc → ∃ v, t.mirror.bit p = some v ∧ t.l.at p = Bit3.ofBool v)
      ∧ (∀ p (h : wordOf p < 38), p < nAsc → (∀ f, ¬ inField s.cfg f p) →
          t.l.at p = Bit3.ofBool (wordBit (s.cfg.ascInit[wordOf p]) (bitOf p)))
      ∧ liveHolds t .hfCoarse t.code.hfCoarse ∧ liveHolds t .hfFine t.code.hfFine
      ∧ liveHolds t .rc2mCoarse t.code.rc2mCoarse ∧ liveHolds t .rc2mFine t.code.rc2mFine
      ∧ liveHolds t .rc2mSuperfine t.code.rc2mSuperfine ∧ liveHolds t .ifCoarse t.code.ifCoarse
      ∧ liveHolds t .ifFine t.code.ifFine ∧ liveHolds t .lcCoarse (lcSubOf t).coarse
      ∧ liveHolds t .lcMid (lcSubOf t).mid ∧ liveHolds t .lcFine (lcSubOf t).fine

/-! ### The sequencer -/

/-- R240, R241: arming starts a session from IDLE, and is refused in every other state. -/
def Obligations.ArmingStartsASession : Prop :=
  ∀ s : State,
    (s.seqState = .idle → ∃ t, exec .seqArm s = .next t ∧ t.seqState = .armed ∧ t.iter = 0 ∧ t.doneFlag = false
        ∧ t.snap = none ∧ t.prevCodes = none ∧ t.result = none ∧ t.refEn = true ∧ t.refPending = s.refPending
        ∧ t.inHandler = s.inHandler ∧ t.hand = s.hand ∧ t.waiting = s.waiting
        ∧ SameChain s t ∧ SameMirror s t ∧ SameCounters s t ∧ t.code = s.code ∧ SameRecord s t ∧ SameOwn s t)
      ∧ (s.seqState ≠ .idle → exec .seqArm s = .next (refuseWith .busy s))

/-- R242, R243, R244, R255: disabling the source, a reference edge, entry and return. An edge or an entry that is not
enabled changes nothing (log 10); the entry starts the handler body and the return ends it (log 9). -/
def Obligations.InterruptControlFollowsItsGuards : Prop :=
  ∀ s : State,
    (∃ t, exec .refDisable s = .next t ∧ t.refEn = false ∧ t.refPending = false ∧ t.inHandler = s.inHandler
        ∧ t.seqState = s.seqState ∧ t.iter = s.iter ∧ t.doneFlag = s.doneFlag ∧ t.result = s.result
        ∧ t.snap = s.snap ∧ t.prevCodes = s.prevCodes ∧ t.waiting = s.waiting
        ∧ t.hand = s.hand ∧ OnlySession s t ∧ exec .refEdge t = .next t)
      ∧ (s.refEn = true → s.refPending = false → s.inHandler = false →
        ∃ t, exec .refEdge s = .next t ∧ t.refPending = true ∧ t.refEn = true ∧ t.inHandler = false
          ∧ t.seqState = s.seqState ∧ t.iter = s.iter ∧ t.doneFlag = s.doneFlag ∧ t.result = s.result
          ∧ t.snap = s.snap ∧ t.prevCodes = s.prevCodes ∧ t.waiting = s.waiting
          ∧ t.hand = s.hand ∧ OnlySession s t)
      ∧ (s.refEn = false ∨ s.refPending = true ∨ s.inHandler = true → exec .refEdge s = .next s)
      ∧ (s.refPending = true → s.inHandler = false →
        ∃ t, exec .seqEnter s = .next t ∧ t.refPending = false ∧ t.inHandler = true ∧ t.refEn = s.refEn
          ∧ t.hand = [.seqTick, .seqExit] ∧ t.seqState = s.seqState ∧ t.iter = s.iter ∧ t.doneFlag = s.doneFlag
          ∧ t.result = s.result ∧ t.snap = s.snap ∧ t.prevCodes = s.prevCodes ∧ t.waiting = s.waiting
          ∧ OnlySession s t)
      ∧ (s.refPending = false ∨ s.inHandler = true → exec .seqEnter s = .next s)
      ∧ (∃ t, exec .seqExit s = .next t ∧ t.inHandler = false ∧ t.hand = [] ∧ t.refEn = s.refEn
        ∧ t.refPending = s.refPending ∧ t.seqState = s.seqState ∧ t.iter = s.iter ∧ t.doneFlag = s.doneFlag
        ∧ t.result = s.result ∧ t.snap = s.snap ∧ t.prevCodes = s.prevCodes ∧ t.waiting = s.waiting
        ∧ OnlySession s t)

/-- R248, R249, R251: which step the HF, LC and IF corrections take on a count. -/
def Obligations.CorrectionsStepTowardsTheBand : Prop :=
  ∀ (s : State) (c : Word),
    (c.toNat < 1997000 → exec (.hfCorrect c) s = exec .hfFineDec s)
      ∧ (2003000 < c.toNat → exec (.hfCorrect c) s = exec .hfFineInc s)
      ∧ (1997000 ≤ c.toNat → c.toNat ≤ 2003000 → exec (.hfCorrect c) s = .next s)
      ∧ (s.cfg.lcTarget < c.toNat → exec (.lcCorrect c) s = exec .lcDec s)
      ∧ (c.toNat < s.cfg.lcTarget → exec (.lcCorrect c) s = exec .lcInc s)
      ∧ (c.toNat = s.cfg.lcTarget → exec (.lcCorrect c) s = .next s)
      ∧ (s.cfg.ifTarget + 1400 < c.toNat → exec (.ifCorrect c) s = exec .ifFineInc s)
      ∧ (c.toNat + 1400 < s.cfg.ifTarget → exec (.ifCorrect c) s = exec .ifFineDec s)
      ∧ (c.toNat ≤ s.cfg.ifTarget + 1400 → s.cfg.ifTarget ≤ c.toNat + 1400 → exec (.ifCorrect c) s = .next s)

/-- R250: at most one RC2M tier fires, the coarsest first, in the direction of RC2M_HIGH_ACTION. -/
def Obligations.Rc2mCorrectionSelectsOneTier : Prop :=
  ∀ (s : State) (c : Word) (e : Int), s.cfg.ok = true → e = (c.toNat : Int) - 200000 →
    (e.natAbs ≤ s.cfg.rc2mTSuperfine → exec (.rc2mCorrect c) s = .next s)
      ∧ ∀ up : Bool, (up = true ↔ (0 < e ↔ s.cfg.rc2mHighAction = .inc)) →
        (s.cfg.rc2mTCoarse < e.natAbs →
            exec (.rc2mCorrect c) s = exec (if up then .rc2mCoarseInc else .rc2mCoarseDec) s)
          ∧ (s.cfg.rc2mTFine < e.natAbs → e.natAbs ≤ s.cfg.rc2mTCoarse →
            exec (.rc2mCorrect c) s = exec (if up then .rc2mFineInc else .rc2mFineDec) s)
          ∧ (s.cfg.rc2mTSuperfine < e.natAbs → e.natAbs ≤ s.cfg.rc2mTFine →
            exec (.rc2mCorrect c) s = exec (if up then .rc2mSuperfineInc else .rc2mSuperfineDec) s)

/-- R254: a domain is in band exactly when its correction would change nothing, and converged is all four. -/
def Obligations.InBandMeansNothingToCorrect : Prop :=
  ∀ (s : State) (c : Counts) (codes : Codes), s.cfg.ok = true →
    (mkResult s.cfg c codes).counts = c ∧ (mkResult s.cfg c codes).codes = codes
      ∧ ((mkResult s.cfg c codes).inBand.hf = true ↔ exec (.hfCorrect c.chf) s = .next s)
      ∧ ((mkResult s.cfg c codes).inBand.lc = true ↔ exec (.lcCorrect c.clc) s = .next s)
      ∧ ((mkResult s.cfg c codes).inBand.rc2m = true ↔ exec (.rc2mCorrect c.c2m) s = .next s)
      ∧ ((mkResult s.cfg c codes).inBand.ifc = true ↔ exec (.ifCorrect c.cif) s = .next s)
      ∧ ((mkResult s.cfg c codes).converged = true ↔ exec (.hfCorrect c.chf) s = .next s
          ∧ exec (.lcCorrect c.clc) s = .next s ∧ exec (.rc2mCorrect c.c2m) s = .next s
          ∧ exec (.ifCorrect c.cif) s = .next s)

/-- R259: the corrections of two domains can be taken in either order, where neither faults. -/
def Obligations.CorrectionsOfTwoDomainsCommute : Prop :=
  ∀ (s t u : State) (i j : Instr) (c d e f : Word),
    (i ∈ [Instr.hfCorrect c, .lcCorrect d, .rc2mCorrect e, .ifCorrect f]) →
    (j ∈ [Instr.hfCorrect c, .lcCorrect d, .rc2mCorrect e, .ifCorrect f]) → i ≠ j →
    exec i s = .next t → t.faults = s.faults → exec j s = .next u → u.faults = s.faults →
    execAll [i, j] s = execAll [j, i] s

/-- R260: an HF or IF correction outside its band moves the pair (coarse, fine) strictly in lexicographic order, across
a carry too, an LC correction moves its code by one, and an RC2M correction moves exactly one of its three codes by one, in
the one direction that its side of the window gives. The IF clause leaves out a decrement from fine 0. -/
def Obligations.CorrectionsMoveMonotonically : Prop :=
  ∀ (s t : State) (c : Word), t.faults = s.faults →
    (exec (.hfCorrect c) s = .next t → c.toNat < 1997000 →
        t.code.hfCoarse < s.code.hfCoarse ∨ (t.code.hfCoarse = s.code.hfCoarse ∧ t.code.hfFine + 1 = s.code.hfFine))
      ∧ (exec (.hfCorrect c) s = .next t → 2003000 < c.toNat →
        s.code.hfCoarse < t.code.hfCoarse ∨ (t.code.hfCoarse = s.code.hfCoarse ∧ t.code.hfFine = s.code.hfFine + 1))
      ∧ (exec (.ifCorrect c) s = .next t → s.cfg.ifTarget + 1400 < c.toNat →
        s.code.ifCoarse < t.code.ifCoarse ∨ (t.code.ifCoarse = s.code.ifCoarse ∧ t.code.ifFine = s.code.ifFine + 1))
      ∧ (exec (.ifCorrect c) s = .next t → c.toNat + 1400 < s.cfg.ifTarget → 0 < s.code.ifFine →
        t.code.ifCoarse = s.code.ifCoarse ∧ t.code.ifFine + 1 = s.code.ifFine)
      ∧ (exec (.lcCorrect c) s = .next t → s.cfg.lcTarget < c.toNat → t.code.lcCode + 1 = s.code.lcCode)
      ∧ (exec (.lcCorrect c) s = .next t → c.toNat < s.cfg.lcTarget → t.code.lcCode = s.code.lcCode + 1)
      ∧ (exec (.rc2mCorrect c) s = .next t →
        200000 + s.cfg.rc2mTSuperfine < c.toNat ∨ c.toNat + s.cfg.rc2mTSuperfine < 200000 →
        ∃ f, (f = .rc2mCoarse ∨ f = .rc2mFine ∨ f = .rc2mSuperfine) ∧ (∀ g, g ≠ f → t.code.get g = s.code.get g)
          ∧ ((200000 < c.toNat ↔ s.cfg.rc2mHighAction = .inc) → t.code.get f = s.code.get f + 1)
          ∧ (¬ (200000 < c.toNat ↔ s.cfg.rc2mHighAction = .inc) → t.code.get f + 1 = s.code.get f))

/-- R245, R246: a warm-up tick counts itself and runs one gate cycle, which resets the counters (R163); codes, mirror, chain
and the session's records stay as they are. -/
def Obligations.WarmupTickOnlyCyclesTheGate : Prop :=
  ∀ s : State, s.undisturbed → s.iter + 1 ≤ 2 →
    ∃ t, exec .seqTick s = .next t ∧ t.iter = s.iter + 1 ∧ t.cntMode = .running ∧ t.settleLeft = 0
      ∧ ((s.cfg.resetHolds = true ∨ ∀ acts ∈ s.env, ∀ i, Act.tick i ∉ acts) → ∀ i : Counter, t.cnt.get i = 0)
      ∧ SameChain s t ∧ SameMirror s t ∧ t.code = s.code ∧ SameRecord s t ∧ t.ret = s.ret
      ∧ t.seqState = s.seqState ∧ t.doneFlag = s.doneFlag ∧ t.refEn = s.refEn ∧ t.refPending = s.refPending
      ∧ t.inHandler = s.inHandler ∧ t.snap = s.snap ∧ t.prevCodes = s.prevCodes ∧ t.result = s.result
      ∧ t.hand = s.hand ∧ t.waiting = s.waiting ∧ t.env = s.env.drop 13

/-- R245, R247: a correcting tick records the old codes and the snapshot, applies the four corrections, encodes, commits
and checks for termination; the live configuration then holds the new codes. -/
def Obligations.CorrectingTickCorrectsAndCommits : Prop :=
  ∀ s : State, tickReady s 1 → chainInv s → s.undisturbed → 2 ≤ s.iter → s.cfg.disableSettle = 0 →
    ∃ s1 s2 s3 s4 t, exec (.hfCorrect (agentsStep s).cnt.chf) s = .next s1
      ∧ exec (.lcCorrect (agentsStep s).cnt.clc) s1 = .next s2
      ∧ exec (.rc2mCorrect (agentsStep s).cnt.c2m) s2 = .next s3
      ∧ exec (.ifCorrect (agentsStep s).cnt.cif) s3 = .next s4
      ∧ exec .seqTick s = .next t
      ∧ t.iter = s.iter + 1 ∧ t.prevCodes = some s.code ∧ t.snap = some (agentsStep s).cnt ∧ t.code = s4.code
      ∧ (∀ p, p < nAsc → ∃ v, t.mirror.bit p = some v ∧ t.l.at p = Bit3.ofBool v)
      ∧ (∀ p, (∀ f, ¬ inField s.cfg f p) → SameBit s t p)
      ∧ liveHolds t .hfCoarse t.code.hfCoarse ∧ liveHolds t .hfFine t.code.hfFine
      ∧ liveHolds t .rc2mCoarse t.code.rc2mCoarse ∧ liveHolds t .rc2mFine t.code.rc2mFine
      ∧ liveHolds t .rc2mSuperfine t.code.rc2mSuperfine ∧ liveHolds t .ifCoarse t.code.ifCoarse
      ∧ liveHolds t .ifFine t.code.ifFine ∧ liveHolds t .lcCoarse (lcSubOf t).coarse
      ∧ liveHolds t .lcMid (lcSubOf t).mid ∧ liveHolds t .lcFine (lcSubOf t).fine
      ∧ t.cntMode = .running ∧ SameRecord s t ∧ t.ret = s.ret ∧ t.inHandler = s.inHandler ∧ t.hand = s.hand
      ∧ t.waiting = s.waiting ∧ t.env = s.env.drop 4879

/-- R252, R253: a correcting tick that runs to its end terminates the session exactly at the twelfth tick, or under
CONVERGENCE_GATED also when its snapshot is in band; it then disables the source, records the result and sets the flag,
and otherwise leaves the session converging. -/
def Obligations.SessionEndsAtTheTwelfthTick : Prop :=
  ∀ s : State, tickReady s 1 → chainInv s → s.undisturbed → 2 ≤ s.iter → s.cfg.disableSettle = 0 →
    ∃ t, exec .seqTick s = .next t
      ∧ ((s.iter + 1 = 12 ∨ (s.cfg.terminationPolicy = .convergenceGated
            ∧ (mkResult s.cfg (agentsStep s).cnt s.code).converged = true)) →
          t.seqState = .done ∧ t.doneFlag = true ∧ t.refEn = false ∧ t.refPending = false
            ∧ t.result = some (mkResult s.cfg (agentsStep s).cnt t.code))
      ∧ (¬ (s.iter + 1 = 12 ∨ (s.cfg.terminationPolicy = .convergenceGated
            ∧ (mkResult s.cfg (agentsStep s).cnt s.code).converged = true)) →
          t.seqState = .converging ∧ t.doneFlag = s.doneFlag ∧ t.refEn = s.refEn ∧ t.refPending = s.refPending
            ∧ t.result = s.result)

/-- R256, R258: the wait returns the result once the flag is set; while it is not, and no edge comes, the main context
stays blocked and the flag stays clear. -/
def Obligations.WaitReturnsOnlyWhenDone : Prop :=
  ∀ s : State,
    (s.doneFlag = true → ∃ t, exec .seqWaitDone s = .next t ∧ t.doneFlag = false ∧ t.seqState = .idle
        ∧ t.ret = some (.session s.result) ∧ t.waiting = false ∧ t.result = s.result ∧ t.iter = s.iter
        ∧ t.refEn = s.refEn ∧ t.refPending = s.refPending ∧ t.inHandler = s.inHandler ∧ t.snap = s.snap
        ∧ t.prevCodes = s.prevCodes ∧ t.hand = s.hand ∧ SameChain s t ∧ SameMirror s t ∧ SameCounters s t
        ∧ t.code = s.code ∧ SameRecord s t ∧ t.env = s.env)
      ∧ (s.doneFlag = false → s.refPending = false → (∀ acts ∈ s.env, Act.edge ∉ acts) →
        ∃ t, exec .seqWaitDone s = .next t ∧ t.doneFlag = false ∧ t.waiting = true ∧ t.seqState = s.seqState
          ∧ t.ret = s.ret ∧ SameChain s t ∧ SameMirror s t ∧ SameGate s t ∧ t.code = s.code ∧ SameRecord s t)

/-- R244, R286: an edge that is pending when a composite operation of the main context comes to its first register access
is handled before that access; here a warm-up tick runs whole, and the operation then completes. A gate cycle shows the
order: it returns the zeros of the tick's reset, not the counts that stood before the edge was taken. -/
def Obligations.PendingEdgeIsHandledBeforeTheNextAccess : Prop :=
  ∀ (s : State) (op : Instr), s.env = [] → s.refPending = true → s.inHandler = false → s.iter + 1 ≤ 2 →
    op = .cntResetAndEnable ∨ op = .cntGateCycle →
    ∃ t, exec op s = .next t ∧ (op = .cntResetAndEnable → t.ret = s.ret)
      ∧ (op = .cntGateCycle → s.cfg.disableSettle = 0 → t.ret = some (.counts ⟨0, 0, 0, 0, 0⟩))
      ∧ t.iter = s.iter + 1 ∧ t.refPending = false ∧ t.inHandler = false
      ∧ t.cntMode = .running ∧ t.settleLeft = 0 ∧ (∀ i : Counter, t.cnt.get i = 0) ∧ SameChain s t ∧ SameMirror s t ∧ t.code = s.code
      ∧ SameRecord s t ∧ t.seqState = s.seqState ∧ t.refEn = s.refEn ∧ t.hand = s.hand

/-- R252, R257, R258: with an edge before every CPU step and room for ten corrections, PERFORM_CALIBRATION runs its
ticks to the end and returns: IDLE, source disabled, result recorded and returned, all ten codes in their fields of the live
configuration. The wait over the schedule is the model's form (log 11): twelve ticks make 12 entries and 156 counter
accesses, and ten commits 48660 control writes (R318). -/
def Obligations.CalibrationRunsToDone : Prop :=
  ∀ s : State, tickReady s 10 → chainInv s → s.seqState = .idle → s.refPending = false → s.inHandler = false →
    s.cfg.disableSettle = 0 → s.cfg.terminationPolicy = .fixedBudget → 48828 ≤ s.env.length →
    (∀ acts ∈ s.env, Act.edge ∈ acts) →
    ∃ t r, exec .performCalibration s = .next t ∧ t.seqState = .idle ∧ t.iter = 12 ∧ t.doneFlag = false
      ∧ t.refEn = false ∧ t.refPending = false ∧ t.inHandler = false ∧ t.waiting = false
      ∧ t.result = some r ∧ t.ret = some (.session (some r)) ∧ r.codes = t.code ∧ t.snap = some r.counts
      ∧ (∀ p, p < nAsc → ∃ v, t.mirror.bit p = some v ∧ t.l.at p = Bit3.ofBool v)
      ∧ (∀ p, (∀ f, ¬ inField s.cfg f p) → SameBit s t p)
      ∧ liveHolds t .hfCoarse t.code.hfCoarse ∧ liveHolds t .hfFine t.code.hfFine
      ∧ liveHolds t .rc2mCoarse t.code.rc2mCoarse ∧ liveHolds t .rc2mFine t.code.rc2mFine
      ∧ liveHolds t .rc2mSuperfine t.code.rc2mSuperfine ∧ liveHolds t .ifCoarse t.code.ifCoarse
      ∧ liveHolds t .ifFine t.code.ifFine ∧ liveHolds t .lcCoarse (lcSubOf t).coarse
      ∧ liveHolds t .lcMid (lcSubOf t).mid ∧ liveHolds t .lcFine (lcSubOf t).fine
      ∧ t.cntMode = .running ∧ SameRecord s t

/-! ### Invariants and reset -/

/-- R240, R243, R252, R255: the session's invariant, at every step of a main-context program: the source is enabled
exactly while a session runs, an edge is pending only then, the flag stands exactly in DONE with a result, and the
tick count keeps its bounds. -/
def Obligations.SequencerInvariantIsKept : Prop :=
  ∀ s t : State, sequencerInv s → step s = .next t → sequencerInv t

/-- R301: the state after power-on, under any parameters: the store holds INIT_CODES (R28). The invariants hold in it, and
a machine whose configuration is sound runs from it. State.reset is that state under the reference configuration, whose
parameters are the model's choice (log 1). -/
def Obligations.ResetIsThePowerOnState : Prop :=
  (∀ (cfg : Config) (s : State), s = State.powerOn cfg →
    s.ascCtrlLast = none ∧ (∀ i, i < nAsc → s.a.at i = .x ∧ s.b.at i = .x ∧ s.l.at i = .x)
      ∧ (∀ w, s.mirror.read w = none) ∧ s.cntMode = .powerOn ∧ s.settleLeft = 0 ∧ counting s = true
      ∧ s.cfg = cfg ∧ s.code = cfg.initCodes ∧ s.seqState = .idle ∧ s.iter = 0 ∧ s.doneFlag = false
      ∧ s.refEn = false ∧ s.refPending = false ∧ s.inHandler = false ∧ s.snap = none ∧ s.prevCodes = none
      ∧ s.result = none ∧ s.faults = [] ∧ s.refused = false
      ∧ chainInv s ∧ sequencerInv s ∧ s.mirror.wf = true ∧ (cfg.ok = true → codesBounded s ∧ s.running))
    ∧ State.reset = State.powerOn Config.reference ∧ Config.reference.ok = true

/-- R28: every code of the store is a natural number below 2^32, at every step. That a configuration whose ranges or
starting codes reach that bound is refused is the model's reading (log 14). -/
def Obligations.CodesStayBelowTheirBound : Prop :=
  ∀ s t : State, codesBounded s → step s = .next t → codesBounded t

end
end

