-- ==== Sys2Proof/Laws/State.lean ====
section
/-! SUPPORT. What each named update of the state leaves in each field: one lemma per field per update. -/

namespace Sys2Proof.Machine

/-! ### powerOn -/

@[simp] theorem powerOn_ascCtrlLast (cfg : Config) : (State.powerOn cfg).ascCtrlLast = none := rfl
@[simp] theorem powerOn_a (cfg : Config) : (State.powerOn cfg).a = Chain.allX := rfl
@[simp] theorem powerOn_b (cfg : Config) : (State.powerOn cfg).b = Chain.allX := rfl
@[simp] theorem powerOn_l (cfg : Config) : (State.powerOn cfg).l = Chain.allX := rfl
@[simp] theorem powerOn_mirror (cfg : Config) : (State.powerOn cfg).mirror = [] := rfl
@[simp] theorem powerOn_cnt (cfg : Config) : (State.powerOn cfg).cnt =
    ⟨Config.draw32 0, Config.draw32 1, Config.draw32 2, Config.draw32 3, Config.draw32 4⟩ := rfl
@[simp] theorem powerOn_cntMode (cfg : Config) : (State.powerOn cfg).cntMode = .powerOn := rfl
@[simp] theorem powerOn_settleLeft (cfg : Config) : (State.powerOn cfg).settleLeft = 0 := rfl
@[simp] theorem powerOn_code (cfg : Config) : (State.powerOn cfg).code = cfg.initCodes := rfl
@[simp] theorem powerOn_seqState (cfg : Config) : (State.powerOn cfg).seqState = .idle := rfl
@[simp] theorem powerOn_iter (cfg : Config) : (State.powerOn cfg).iter = 0 := rfl
@[simp] theorem powerOn_doneFlag (cfg : Config) : (State.powerOn cfg).doneFlag = false := rfl
@[simp] theorem powerOn_refEn (cfg : Config) : (State.powerOn cfg).refEn = false := rfl
@[simp] theorem powerOn_refPending (cfg : Config) : (State.powerOn cfg).refPending = false := rfl
@[simp] theorem powerOn_inHandler (cfg : Config) : (State.powerOn cfg).inHandler = false := rfl
@[simp] theorem powerOn_snap (cfg : Config) : (State.powerOn cfg).snap = none := rfl
@[simp] theorem powerOn_prevCodes (cfg : Config) : (State.powerOn cfg).prevCodes = none := rfl
@[simp] theorem powerOn_result (cfg : Config) : (State.powerOn cfg).result = none := rfl
@[simp] theorem powerOn_faults (cfg : Config) : (State.powerOn cfg).faults = [] := rfl
@[simp] theorem powerOn_refused (cfg : Config) : (State.powerOn cfg).refused = false := rfl
@[simp] theorem powerOn_cfg (cfg : Config) : (State.powerOn cfg).cfg = cfg := rfl
@[simp] theorem powerOn_refusedBy (cfg : Config) : (State.powerOn cfg).refusedBy = none := rfl
@[simp] theorem powerOn_ret (cfg : Config) : (State.powerOn cfg).ret = none := rfl
@[simp] theorem powerOn_draws (cfg : Config) : (State.powerOn cfg).draws = 5 := rfl
@[simp] theorem powerOn_todo (cfg : Config) : (State.powerOn cfg).todo = [] := rfl
@[simp] theorem powerOn_env (cfg : Config) : (State.powerOn cfg).env = [] := rfl
@[simp] theorem powerOn_hand (cfg : Config) : (State.powerOn cfg).hand = [] := rfl
@[simp] theorem powerOn_waiting (cfg : Config) : (State.powerOn cfg).waiting = false := rfl

/-! ### raiseFault -/

@[simp] theorem raiseFault_ascCtrlLast (f : FaultRec) (s : State) : (raiseFault f s).ascCtrlLast = s.ascCtrlLast := rfl
@[simp] theorem raiseFault_a (f : FaultRec) (s : State) : (raiseFault f s).a = s.a := rfl
@[simp] theorem raiseFault_b (f : FaultRec) (s : State) : (raiseFault f s).b = s.b := rfl
@[simp] theorem raiseFault_l (f : FaultRec) (s : State) : (raiseFault f s).l = s.l := rfl
@[simp] theorem raiseFault_mirror (f : FaultRec) (s : State) : (raiseFault f s).mirror = s.mirror := rfl
@[simp] theorem raiseFault_cnt (f : FaultRec) (s : State) : (raiseFault f s).cnt = s.cnt := rfl
@[simp] theorem raiseFault_cntMode (f : FaultRec) (s : State) : (raiseFault f s).cntMode = s.cntMode := rfl
@[simp] theorem raiseFault_settleLeft (f : FaultRec) (s : State) : (raiseFault f s).settleLeft = s.settleLeft := rfl
@[simp] theorem raiseFault_code (f : FaultRec) (s : State) : (raiseFault f s).code = s.code := rfl
@[simp] theorem raiseFault_seqState (f : FaultRec) (s : State) : (raiseFault f s).seqState = s.seqState := rfl
@[simp] theorem raiseFault_iter (f : FaultRec) (s : State) : (raiseFault f s).iter = s.iter := rfl
@[simp] theorem raiseFault_doneFlag (f : FaultRec) (s : State) : (raiseFault f s).doneFlag = s.doneFlag := rfl
@[simp] theorem raiseFault_refEn (f : FaultRec) (s : State) : (raiseFault f s).refEn = s.refEn := rfl
@[simp] theorem raiseFault_refPending (f : FaultRec) (s : State) : (raiseFault f s).refPending = s.refPending := rfl
@[simp] theorem raiseFault_inHandler (f : FaultRec) (s : State) : (raiseFault f s).inHandler = s.inHandler := rfl
@[simp] theorem raiseFault_snap (f : FaultRec) (s : State) : (raiseFault f s).snap = s.snap := rfl
@[simp] theorem raiseFault_prevCodes (f : FaultRec) (s : State) : (raiseFault f s).prevCodes = s.prevCodes := rfl
@[simp] theorem raiseFault_result (f : FaultRec) (s : State) : (raiseFault f s).result = s.result := rfl
@[simp] theorem raiseFault_faults (f : FaultRec) (s : State) : (raiseFault f s).faults = s.faults ++ [f] := rfl
@[simp] theorem raiseFault_refused (f : FaultRec) (s : State) : (raiseFault f s).refused = s.refused := rfl
@[simp] theorem raiseFault_cfg (f : FaultRec) (s : State) : (raiseFault f s).cfg = s.cfg := rfl
@[simp] theorem raiseFault_refusedBy (f : FaultRec) (s : State) : (raiseFault f s).refusedBy = s.refusedBy := rfl
@[simp] theorem raiseFault_ret (f : FaultRec) (s : State) : (raiseFault f s).ret = s.ret := rfl
@[simp] theorem raiseFault_draws (f : FaultRec) (s : State) : (raiseFault f s).draws = s.draws := rfl
@[simp] theorem raiseFault_todo (f : FaultRec) (s : State) : (raiseFault f s).todo = s.todo := rfl
@[simp] theorem raiseFault_env (f : FaultRec) (s : State) : (raiseFault f s).env = s.env := rfl
@[simp] theorem raiseFault_hand (f : FaultRec) (s : State) : (raiseFault f s).hand = s.hand := rfl
@[simp] theorem raiseFault_waiting (f : FaultRec) (s : State) : (raiseFault f s).waiting = s.waiting := rfl

/-! ### refuseWith -/

@[simp] theorem refuseWith_ascCtrlLast (r : Reason) (s : State) : (refuseWith r s).ascCtrlLast = s.ascCtrlLast := rfl
@[simp] theorem refuseWith_a (r : Reason) (s : State) : (refuseWith r s).a = s.a := rfl
@[simp] theorem refuseWith_b (r : Reason) (s : State) : (refuseWith r s).b = s.b := rfl
@[simp] theorem refuseWith_l (r : Reason) (s : State) : (refuseWith r s).l = s.l := rfl
@[simp] theorem refuseWith_mirror (r : Reason) (s : State) : (refuseWith r s).mirror = s.mirror := rfl
@[simp] theorem refuseWith_cnt (r : Reason) (s : State) : (refuseWith r s).cnt = s.cnt := rfl
@[simp] theorem refuseWith_cntMode (r : Reason) (s : State) : (refuseWith r s).cntMode = s.cntMode := rfl
@[simp] theorem refuseWith_settleLeft (r : Reason) (s : State) : (refuseWith r s).settleLeft = s.settleLeft := rfl
@[simp] theorem refuseWith_code (r : Reason) (s : State) : (refuseWith r s).code = s.code := rfl
@[simp] theorem refuseWith_seqState (r : Reason) (s : State) : (refuseWith r s).seqState = s.seqState := rfl
@[simp] theorem refuseWith_iter (r : Reason) (s : State) : (refuseWith r s).iter = s.iter := rfl
@[simp] theorem refuseWith_doneFlag (r : Reason) (s : State) : (refuseWith r s).doneFlag = s.doneFlag := rfl
@[simp] theorem refuseWith_refEn (r : Reason) (s : State) : (refuseWith r s).refEn = s.refEn := rfl
@[simp] theorem refuseWith_refPending (r : Reason) (s : State) : (refuseWith r s).refPending = s.refPending := rfl
@[simp] theorem refuseWith_inHandler (r : Reason) (s : State) : (refuseWith r s).inHandler = s.inHandler := rfl
@[simp] theorem refuseWith_snap (r : Reason) (s : State) : (refuseWith r s).snap = s.snap := rfl
@[simp] theorem refuseWith_prevCodes (r : Reason) (s : State) : (refuseWith r s).prevCodes = s.prevCodes := rfl
@[simp] theorem refuseWith_result (r : Reason) (s : State) : (refuseWith r s).result = s.result := rfl
@[simp] theorem refuseWith_faults (r : Reason) (s : State) : (refuseWith r s).faults = s.faults := rfl
@[simp] theorem refuseWith_refused (r : Reason) (s : State) : (refuseWith r s).refused = true := rfl
@[simp] theorem refuseWith_cfg (r : Reason) (s : State) : (refuseWith r s).cfg = s.cfg := rfl
@[simp] theorem refuseWith_refusedBy (r : Reason) (s : State) : (refuseWith r s).refusedBy = s.refusedBy.or (some r) := rfl
@[simp] theorem refuseWith_ret (r : Reason) (s : State) : (refuseWith r s).ret = s.ret := rfl
@[simp] theorem refuseWith_draws (r : Reason) (s : State) : (refuseWith r s).draws = s.draws := rfl
@[simp] theorem refuseWith_todo (r : Reason) (s : State) : (refuseWith r s).todo = s.todo := rfl
@[simp] theorem refuseWith_env (r : Reason) (s : State) : (refuseWith r s).env = s.env := rfl
@[simp] theorem refuseWith_hand (r : Reason) (s : State) : (refuseWith r s).hand = s.hand := rfl
@[simp] theorem refuseWith_waiting (r : Reason) (s : State) : (refuseWith r s).waiting = s.waiting := rfl

/-! ### setRet -/

@[simp] theorem setRet_ascCtrlLast (v : RetVal) (s : State) : (setRet v s).ascCtrlLast = s.ascCtrlLast := rfl
@[simp] theorem setRet_a (v : RetVal) (s : State) : (setRet v s).a = s.a := rfl
@[simp] theorem setRet_b (v : RetVal) (s : State) : (setRet v s).b = s.b := rfl
@[simp] theorem setRet_l (v : RetVal) (s : State) : (setRet v s).l = s.l := rfl
@[simp] theorem setRet_mirror (v : RetVal) (s : State) : (setRet v s).mirror = s.mirror := rfl
@[simp] theorem setRet_cnt (v : RetVal) (s : State) : (setRet v s).cnt = s.cnt := rfl
@[simp] theorem setRet_cntMode (v : RetVal) (s : State) : (setRet v s).cntMode = s.cntMode := rfl
@[simp] theorem setRet_settleLeft (v : RetVal) (s : State) : (setRet v s).settleLeft = s.settleLeft := rfl
@[simp] theorem setRet_code (v : RetVal) (s : State) : (setRet v s).code = s.code := rfl
@[simp] theorem setRet_seqState (v : RetVal) (s : State) : (setRet v s).seqState = s.seqState := rfl
@[simp] theorem setRet_iter (v : RetVal) (s : State) : (setRet v s).iter = s.iter := rfl
@[simp] theorem setRet_doneFlag (v : RetVal) (s : State) : (setRet v s).doneFlag = s.doneFlag := rfl
@[simp] theorem setRet_refEn (v : RetVal) (s : State) : (setRet v s).refEn = s.refEn := rfl
@[simp] theorem setRet_refPending (v : RetVal) (s : State) : (setRet v s).refPending = s.refPending := rfl
@[simp] theorem setRet_inHandler (v : RetVal) (s : State) : (setRet v s).inHandler = s.inHandler := rfl
@[simp] theorem setRet_snap (v : RetVal) (s : State) : (setRet v s).snap = s.snap := rfl
@[simp] theorem setRet_prevCodes (v : RetVal) (s : State) : (setRet v s).prevCodes = s.prevCodes := rfl
@[simp] theorem setRet_result (v : RetVal) (s : State) : (setRet v s).result = s.result := rfl
@[simp] theorem setRet_faults (v : RetVal) (s : State) : (setRet v s).faults = s.faults := rfl
@[simp] theorem setRet_refused (v : RetVal) (s : State) : (setRet v s).refused = s.refused := rfl
@[simp] theorem setRet_cfg (v : RetVal) (s : State) : (setRet v s).cfg = s.cfg := rfl
@[simp] theorem setRet_refusedBy (v : RetVal) (s : State) : (setRet v s).refusedBy = s.refusedBy := rfl
@[simp] theorem setRet_ret (v : RetVal) (s : State) : (setRet v s).ret = some v := rfl
@[simp] theorem setRet_draws (v : RetVal) (s : State) : (setRet v s).draws = s.draws := rfl
@[simp] theorem setRet_todo (v : RetVal) (s : State) : (setRet v s).todo = s.todo := rfl
@[simp] theorem setRet_env (v : RetVal) (s : State) : (setRet v s).env = s.env := rfl
@[simp] theorem setRet_hand (v : RetVal) (s : State) : (setRet v s).hand = s.hand := rfl
@[simp] theorem setRet_waiting (v : RetVal) (s : State) : (setRet v s).waiting = s.waiting := rfl

/-! ### nextDraw -/

@[simp] theorem nextDraw_ascCtrlLast (s : State) : (nextDraw s).ascCtrlLast = s.ascCtrlLast := rfl
@[simp] theorem nextDraw_a (s : State) : (nextDraw s).a = s.a := rfl
@[simp] theorem nextDraw_b (s : State) : (nextDraw s).b = s.b := rfl
@[simp] theorem nextDraw_l (s : State) : (nextDraw s).l = s.l := rfl
@[simp] theorem nextDraw_mirror (s : State) : (nextDraw s).mirror = s.mirror := rfl
@[simp] theorem nextDraw_cnt (s : State) : (nextDraw s).cnt = s.cnt := rfl
@[simp] theorem nextDraw_cntMode (s : State) : (nextDraw s).cntMode = s.cntMode := rfl
@[simp] theorem nextDraw_settleLeft (s : State) : (nextDraw s).settleLeft = s.settleLeft := rfl
@[simp] theorem nextDraw_code (s : State) : (nextDraw s).code = s.code := rfl
@[simp] theorem nextDraw_seqState (s : State) : (nextDraw s).seqState = s.seqState := rfl
@[simp] theorem nextDraw_iter (s : State) : (nextDraw s).iter = s.iter := rfl
@[simp] theorem nextDraw_doneFlag (s : State) : (nextDraw s).doneFlag = s.doneFlag := rfl
@[simp] theorem nextDraw_refEn (s : State) : (nextDraw s).refEn = s.refEn := rfl
@[simp] theorem nextDraw_refPending (s : State) : (nextDraw s).refPending = s.refPending := rfl
@[simp] theorem nextDraw_inHandler (s : State) : (nextDraw s).inHandler = s.inHandler := rfl
@[simp] theorem nextDraw_snap (s : State) : (nextDraw s).snap = s.snap := rfl
@[simp] theorem nextDraw_prevCodes (s : State) : (nextDraw s).prevCodes = s.prevCodes := rfl
@[simp] theorem nextDraw_result (s : State) : (nextDraw s).result = s.result := rfl
@[simp] theorem nextDraw_faults (s : State) : (nextDraw s).faults = s.faults := rfl
@[simp] theorem nextDraw_refused (s : State) : (nextDraw s).refused = s.refused := rfl
@[simp] theorem nextDraw_cfg (s : State) : (nextDraw s).cfg = s.cfg := rfl
@[simp] theorem nextDraw_refusedBy (s : State) : (nextDraw s).refusedBy = s.refusedBy := rfl
@[simp] theorem nextDraw_ret (s : State) : (nextDraw s).ret = s.ret := rfl
@[simp] theorem nextDraw_draws (s : State) : (nextDraw s).draws = s.draws + 1 := rfl
@[simp] theorem nextDraw_todo (s : State) : (nextDraw s).todo = s.todo := rfl
@[simp] theorem nextDraw_env (s : State) : (nextDraw s).env = s.env := rfl
@[simp] theorem nextDraw_hand (s : State) : (nextDraw s).hand = s.hand := rfl
@[simp] theorem nextDraw_waiting (s : State) : (nextDraw s).waiting = s.waiting := rfl

/-! ### setMirror -/

@[simp] theorem setMirror_ascCtrlLast (m : Memory) (s : State) : (setMirror m s).ascCtrlLast = s.ascCtrlLast := rfl
@[simp] theorem setMirror_a (m : Memory) (s : State) : (setMirror m s).a = s.a := rfl
@[simp] theorem setMirror_b (m : Memory) (s : State) : (setMirror m s).b = s.b := rfl
@[simp] theorem setMirror_l (m : Memory) (s : State) : (setMirror m s).l = s.l := rfl
@[simp] theorem setMirror_mirror (m : Memory) (s : State) : (setMirror m s).mirror = m := rfl
@[simp] theorem setMirror_cnt (m : Memory) (s : State) : (setMirror m s).cnt = s.cnt := rfl
@[simp] theorem setMirror_cntMode (m : Memory) (s : State) : (setMirror m s).cntMode = s.cntMode := rfl
@[simp] theorem setMirror_settleLeft (m : Memory) (s : State) : (setMirror m s).settleLeft = s.settleLeft := rfl
@[simp] theorem setMirror_code (m : Memory) (s : State) : (setMirror m s).code = s.code := rfl
@[simp] theorem setMirror_seqState (m : Memory) (s : State) : (setMirror m s).seqState = s.seqState := rfl
@[simp] theorem setMirror_iter (m : Memory) (s : State) : (setMirror m s).iter = s.iter := rfl
@[simp] theorem setMirror_doneFlag (m : Memory) (s : State) : (setMirror m s).doneFlag = s.doneFlag := rfl
@[simp] theorem setMirror_refEn (m : Memory) (s : State) : (setMirror m s).refEn = s.refEn := rfl
@[simp] theorem setMirror_refPending (m : Memory) (s : State) : (setMirror m s).refPending = s.refPending := rfl
@[simp] theorem setMirror_inHandler (m : Memory) (s : State) : (setMirror m s).inHandler = s.inHandler := rfl
@[simp] theorem setMirror_snap (m : Memory) (s : State) : (setMirror m s).snap = s.snap := rfl
@[simp] theorem setMirror_prevCodes (m : Memory) (s : State) : (setMirror m s).prevCodes = s.prevCodes := rfl
@[simp] theorem setMirror_result (m : Memory) (s : State) : (setMirror m s).result = s.result := rfl
@[simp] theorem setMirror_faults (m : Memory) (s : State) : (setMirror m s).faults = s.faults := rfl
@[simp] theorem setMirror_refused (m : Memory) (s : State) : (setMirror m s).refused = s.refused := rfl
@[simp] theorem setMirror_cfg (m : Memory) (s : State) : (setMirror m s).cfg = s.cfg := rfl
@[simp] theorem setMirror_refusedBy (m : Memory) (s : State) : (setMirror m s).refusedBy = s.refusedBy := rfl
@[simp] theorem setMirror_ret (m : Memory) (s : State) : (setMirror m s).ret = s.ret := rfl
@[simp] theorem setMirror_draws (m : Memory) (s : State) : (setMirror m s).draws = s.draws := rfl
@[simp] theorem setMirror_todo (m : Memory) (s : State) : (setMirror m s).todo = s.todo := rfl
@[simp] theorem setMirror_env (m : Memory) (s : State) : (setMirror m s).env = s.env := rfl
@[simp] theorem setMirror_hand (m : Memory) (s : State) : (setMirror m s).hand = s.hand := rfl
@[simp] theorem setMirror_waiting (m : Memory) (s : State) : (setMirror m s).waiting = s.waiting := rfl

/-! ### setChain -/

@[simp] theorem setChain_ascCtrlLast (u : Option Word) (x y z : Chain) (s : State) : (setChain u x y z s).ascCtrlLast = u := rfl
@[simp] theorem setChain_a (u : Option Word) (x y z : Chain) (s : State) : (setChain u x y z s).a = x := rfl
@[simp] theorem setChain_b (u : Option Word) (x y z : Chain) (s : State) : (setChain u x y z s).b = y := rfl
@[simp] theorem setChain_l (u : Option Word) (x y z : Chain) (s : State) : (setChain u x y z s).l = z := rfl
@[simp] theorem setChain_mirror (u : Option Word) (x y z : Chain) (s : State) : (setChain u x y z s).mirror = s.mirror := rfl
@[simp] theorem setChain_cnt (u : Option Word) (x y z : Chain) (s : State) : (setChain u x y z s).cnt = s.cnt := rfl
@[simp] theorem setChain_cntMode (u : Option Word) (x y z : Chain) (s : State) : (setChain u x y z s).cntMode = s.cntMode := rfl
@[simp] theorem setChain_settleLeft (u : Option Word) (x y z : Chain) (s : State) : (setChain u x y z s).settleLeft = s.settleLeft := rfl
@[simp] theorem setChain_code (u : Option Word) (x y z : Chain) (s : State) : (setChain u x y z s).code = s.code := rfl
@[simp] theorem setChain_seqState (u : Option Word) (x y z : Chain) (s : State) : (setChain u x y z s).seqState = s.seqState := rfl
@[simp] theorem setChain_iter (u : Option Word) (x y z : Chain) (s : State) : (setChain u x y z s).iter = s.iter := rfl
@[simp] theorem setChain_doneFlag (u : Option Word) (x y z : Chain) (s : State) : (setChain u x y z s).doneFlag = s.doneFlag := rfl
@[simp] theorem setChain_refEn (u : Option Word) (x y z : Chain) (s : State) : (setChain u x y z s).refEn = s.refEn := rfl
@[simp] theorem setChain_refPending (u : Option Word) (x y z : Chain) (s : State) : (setChain u x y z s).refPending = s.refPending := rfl
@[simp] theorem setChain_inHandler (u : Option Word) (x y z : Chain) (s : State) : (setChain u x y z s).inHandler = s.inHandler := rfl
@[simp] theorem setChain_snap (u : Option Word) (x y z : Chain) (s : State) : (setChain u x y z s).snap = s.snap := rfl
@[simp] theorem setChain_prevCodes (u : Option Word) (x y z : Chain) (s : State) : (setChain u x y z s).prevCodes = s.prevCodes := rfl
@[simp] theorem setChain_result (u : Option Word) (x y z : Chain) (s : State) : (setChain u x y z s).result = s.result := rfl
@[simp] theorem setChain_faults (u : Option Word) (x y z : Chain) (s : State) : (setChain u x y z s).faults = s.faults := rfl
@[simp] theorem setChain_refused (u : Option Word) (x y z : Chain) (s : State) : (setChain u x y z s).refused = s.refused := rfl
@[simp] theorem setChain_cfg (u : Option Word) (x y z : Chain) (s : State) : (setChain u x y z s).cfg = s.cfg := rfl
@[simp] theorem setChain_refusedBy (u : Option Word) (x y z : Chain) (s : State) : (setChain u x y z s).refusedBy = s.refusedBy := rfl
@[simp] theorem setChain_ret (u : Option Word) (x y z : Chain) (s : State) : (setChain u x y z s).ret = s.ret := rfl
@[simp] theorem setChain_draws (u : Option Word) (x y z : Chain) (s : State) : (setChain u x y z s).draws = s.draws := rfl
@[simp] theorem setChain_todo (u : Option Word) (x y z : Chain) (s : State) : (setChain u x y z s).todo = s.todo := rfl
@[simp] theorem setChain_env (u : Option Word) (x y z : Chain) (s : State) : (setChain u x y z s).env = s.env := rfl
@[simp] theorem setChain_hand (u : Option Word) (x y z : Chain) (s : State) : (setChain u x y z s).hand = s.hand := rfl
@[simp] theorem setChain_waiting (u : Option Word) (x y z : Chain) (s : State) : (setChain u x y z s).waiting = s.waiting := rfl

/-! ### setCounters -/

@[simp] theorem setCounters_ascCtrlLast (c : Counts) (m : CntMode) (k : Nat) (s : State) : (setCounters c m k s).ascCtrlLast = s.ascCtrlLast := rfl
@[simp] theorem setCounters_a (c : Counts) (m : CntMode) (k : Nat) (s : State) : (setCounters c m k s).a = s.a := rfl
@[simp] theorem setCounters_b (c : Counts) (m : CntMode) (k : Nat) (s : State) : (setCounters c m k s).b = s.b := rfl
@[simp] theorem setCounters_l (c : Counts) (m : CntMode) (k : Nat) (s : State) : (setCounters c m k s).l = s.l := rfl
@[simp] theorem setCounters_mirror (c : Counts) (m : CntMode) (k : Nat) (s : State) : (setCounters c m k s).mirror = s.mirror := rfl
@[simp] theorem setCounters_cnt (c : Counts) (m : CntMode) (k : Nat) (s : State) : (setCounters c m k s).cnt = c := rfl
@[simp] theorem setCounters_cntMode (c : Counts) (m : CntMode) (k : Nat) (s : State) : (setCounters c m k s).cntMode = m := rfl
@[simp] theorem setCounters_settleLeft (c : Counts) (m : CntMode) (k : Nat) (s : State) : (setCounters c m k s).settleLeft = k := rfl
@[simp] theorem setCounters_code (c : Counts) (m : CntMode) (k : Nat) (s : State) : (setCounters c m k s).code = s.code := rfl
@[simp] theorem setCounters_seqState (c : Counts) (m : CntMode) (k : Nat) (s : State) : (setCounters c m k s).seqState = s.seqState := rfl
@[simp] theorem setCounters_iter (c : Counts) (m : CntMode) (k : Nat) (s : State) : (setCounters c m k s).iter = s.iter := rfl
@[simp] theorem setCounters_doneFlag (c : Counts) (m : CntMode) (k : Nat) (s : State) : (setCounters c m k s).doneFlag = s.doneFlag := rfl
@[simp] theorem setCounters_refEn (c : Counts) (m : CntMode) (k : Nat) (s : State) : (setCounters c m k s).refEn = s.refEn := rfl
@[simp] theorem setCounters_refPending (c : Counts) (m : CntMode) (k : Nat) (s : State) : (setCounters c m k s).refPending = s.refPending := rfl
@[simp] theorem setCounters_inHandler (c : Counts) (m : CntMode) (k : Nat) (s : State) : (setCounters c m k s).inHandler = s.inHandler := rfl
@[simp] theorem setCounters_snap (c : Counts) (m : CntMode) (k : Nat) (s : State) : (setCounters c m k s).snap = s.snap := rfl
@[simp] theorem setCounters_prevCodes (c : Counts) (m : CntMode) (k : Nat) (s : State) : (setCounters c m k s).prevCodes = s.prevCodes := rfl
@[simp] theorem setCounters_result (c : Counts) (m : CntMode) (k : Nat) (s : State) : (setCounters c m k s).result = s.result := rfl
@[simp] theorem setCounters_faults (c : Counts) (m : CntMode) (k : Nat) (s : State) : (setCounters c m k s).faults = s.faults := rfl
@[simp] theorem setCounters_refused (c : Counts) (m : CntMode) (k : Nat) (s : State) : (setCounters c m k s).refused = s.refused := rfl
@[simp] theorem setCounters_cfg (c : Counts) (m : CntMode) (k : Nat) (s : State) : (setCounters c m k s).cfg = s.cfg := rfl
@[simp] theorem setCounters_refusedBy (c : Counts) (m : CntMode) (k : Nat) (s : State) : (setCounters c m k s).refusedBy = s.refusedBy := rfl
@[simp] theorem setCounters_ret (c : Counts) (m : CntMode) (k : Nat) (s : State) : (setCounters c m k s).ret = s.ret := rfl
@[simp] theorem setCounters_draws (c : Counts) (m : CntMode) (k : Nat) (s : State) : (setCounters c m k s).draws = s.draws := rfl
@[simp] theorem setCounters_todo (c : Counts) (m : CntMode) (k : Nat) (s : State) : (setCounters c m k s).todo = s.todo := rfl
@[simp] theorem setCounters_env (c : Counts) (m : CntMode) (k : Nat) (s : State) : (setCounters c m k s).env = s.env := rfl
@[simp] theorem setCounters_hand (c : Counts) (m : CntMode) (k : Nat) (s : State) : (setCounters c m k s).hand = s.hand := rfl
@[simp] theorem setCounters_waiting (c : Counts) (m : CntMode) (k : Nat) (s : State) : (setCounters c m k s).waiting = s.waiting := rfl

/-! ### setCode -/

@[simp] theorem setCode_ascCtrlLast (c : Codes) (s : State) : (setCode c s).ascCtrlLast = s.ascCtrlLast := rfl
@[simp] theorem setCode_a (c : Codes) (s : State) : (setCode c s).a = s.a := rfl
@[simp] theorem setCode_b (c : Codes) (s : State) : (setCode c s).b = s.b := rfl
@[simp] theorem setCode_l (c : Codes) (s : State) : (setCode c s).l = s.l := rfl
@[simp] theorem setCode_mirror (c : Codes) (s : State) : (setCode c s).mirror = s.mirror := rfl
@[simp] theorem setCode_cnt (c : Codes) (s : State) : (setCode c s).cnt = s.cnt := rfl
@[simp] theorem setCode_cntMode (c : Codes) (s : State) : (setCode c s).cntMode = s.cntMode := rfl
@[simp] theorem setCode_settleLeft (c : Codes) (s : State) : (setCode c s).settleLeft = s.settleLeft := rfl
@[simp] theorem setCode_code (c : Codes) (s : State) : (setCode c s).code = c := rfl
@[simp] theorem setCode_seqState (c : Codes) (s : State) : (setCode c s).seqState = s.seqState := rfl
@[simp] theorem setCode_iter (c : Codes) (s : State) : (setCode c s).iter = s.iter := rfl
@[simp] theorem setCode_doneFlag (c : Codes) (s : State) : (setCode c s).doneFlag = s.doneFlag := rfl
@[simp] theorem setCode_refEn (c : Codes) (s : State) : (setCode c s).refEn = s.refEn := rfl
@[simp] theorem setCode_refPending (c : Codes) (s : State) : (setCode c s).refPending = s.refPending := rfl
@[simp] theorem setCode_inHandler (c : Codes) (s : State) : (setCode c s).inHandler = s.inHandler := rfl
@[simp] theorem setCode_snap (c : Codes) (s : State) : (setCode c s).snap = s.snap := rfl
@[simp] theorem setCode_prevCodes (c : Codes) (s : State) : (setCode c s).prevCodes = s.prevCodes := rfl
@[simp] theorem setCode_result (c : Codes) (s : State) : (setCode c s).result = s.result := rfl
@[simp] theorem setCode_faults (c : Codes) (s : State) : (setCode c s).faults = s.faults := rfl
@[simp] theorem setCode_refused (c : Codes) (s : State) : (setCode c s).refused = s.refused := rfl
@[simp] theorem setCode_cfg (c : Codes) (s : State) : (setCode c s).cfg = s.cfg := rfl
@[simp] theorem setCode_refusedBy (c : Codes) (s : State) : (setCode c s).refusedBy = s.refusedBy := rfl
@[simp] theorem setCode_ret (c : Codes) (s : State) : (setCode c s).ret = s.ret := rfl
@[simp] theorem setCode_draws (c : Codes) (s : State) : (setCode c s).draws = s.draws := rfl
@[simp] theorem setCode_todo (c : Codes) (s : State) : (setCode c s).todo = s.todo := rfl
@[simp] theorem setCode_env (c : Codes) (s : State) : (setCode c s).env = s.env := rfl
@[simp] theorem setCode_hand (c : Codes) (s : State) : (setCode c s).hand = s.hand := rfl
@[simp] theorem setCode_waiting (c : Codes) (s : State) : (setCode c s).waiting = s.waiting := rfl

/-! ### refDisable -/

@[simp] theorem refDisable_ascCtrlLast (s : State) : (refDisable s).ascCtrlLast = s.ascCtrlLast := rfl
@[simp] theorem refDisable_a (s : State) : (refDisable s).a = s.a := rfl
@[simp] theorem refDisable_b (s : State) : (refDisable s).b = s.b := rfl
@[simp] theorem refDisable_l (s : State) : (refDisable s).l = s.l := rfl
@[simp] theorem refDisable_mirror (s : State) : (refDisable s).mirror = s.mirror := rfl
@[simp] theorem refDisable_cnt (s : State) : (refDisable s).cnt = s.cnt := rfl
@[simp] theorem refDisable_cntMode (s : State) : (refDisable s).cntMode = s.cntMode := rfl
@[simp] theorem refDisable_settleLeft (s : State) : (refDisable s).settleLeft = s.settleLeft := rfl
@[simp] theorem refDisable_code (s : State) : (refDisable s).code = s.code := rfl
@[simp] theorem refDisable_seqState (s : State) : (refDisable s).seqState = s.seqState := rfl
@[simp] theorem refDisable_iter (s : State) : (refDisable s).iter = s.iter := rfl
@[simp] theorem refDisable_doneFlag (s : State) : (refDisable s).doneFlag = s.doneFlag := rfl
@[simp] theorem refDisable_refEn (s : State) : (refDisable s).refEn = false := rfl
@[simp] theorem refDisable_refPending (s : State) : (refDisable s).refPending = false := rfl
@[simp] theorem refDisable_inHandler (s : State) : (refDisable s).inHandler = s.inHandler := rfl
@[simp] theorem refDisable_snap (s : State) : (refDisable s).snap = s.snap := rfl
@[simp] theorem refDisable_prevCodes (s : State) : (refDisable s).prevCodes = s.prevCodes := rfl
@[simp] theorem refDisable_result (s : State) : (refDisable s).result = s.result := rfl
@[simp] theorem refDisable_faults (s : State) : (refDisable s).faults = s.faults := rfl
@[simp] theorem refDisable_refused (s : State) : (refDisable s).refused = s.refused := rfl
@[simp] theorem refDisable_cfg (s : State) : (refDisable s).cfg = s.cfg := rfl
@[simp] theorem refDisable_refusedBy (s : State) : (refDisable s).refusedBy = s.refusedBy := rfl
@[simp] theorem refDisable_ret (s : State) : (refDisable s).ret = s.ret := rfl
@[simp] theorem refDisable_draws (s : State) : (refDisable s).draws = s.draws := rfl
@[simp] theorem refDisable_todo (s : State) : (refDisable s).todo = s.todo := rfl
@[simp] theorem refDisable_env (s : State) : (refDisable s).env = s.env := rfl
@[simp] theorem refDisable_hand (s : State) : (refDisable s).hand = s.hand := rfl
@[simp] theorem refDisable_waiting (s : State) : (refDisable s).waiting = s.waiting := rfl

/-! ### enterHandler -/

@[simp] theorem enterHandler_ascCtrlLast (s : State) : (enterHandler s).ascCtrlLast = s.ascCtrlLast := rfl
@[simp] theorem enterHandler_a (s : State) : (enterHandler s).a = s.a := rfl
@[simp] theorem enterHandler_b (s : State) : (enterHandler s).b = s.b := rfl
@[simp] theorem enterHandler_l (s : State) : (enterHandler s).l = s.l := rfl
@[simp] theorem enterHandler_mirror (s : State) : (enterHandler s).mirror = s.mirror := rfl
@[simp] theorem enterHandler_cnt (s : State) : (enterHandler s).cnt = s.cnt := rfl
@[simp] theorem enterHandler_cntMode (s : State) : (enterHandler s).cntMode = s.cntMode := rfl
@[simp] theorem enterHandler_settleLeft (s : State) : (enterHandler s).settleLeft = s.settleLeft := rfl
@[simp] theorem enterHandler_code (s : State) : (enterHandler s).code = s.code := rfl
@[simp] theorem enterHandler_seqState (s : State) : (enterHandler s).seqState = s.seqState := rfl
@[simp] theorem enterHandler_iter (s : State) : (enterHandler s).iter = s.iter := rfl
@[simp] theorem enterHandler_doneFlag (s : State) : (enterHandler s).doneFlag = s.doneFlag := rfl
@[simp] theorem enterHandler_refEn (s : State) : (enterHandler s).refEn = s.refEn := rfl
@[simp] theorem enterHandler_refPending (s : State) : (enterHandler s).refPending = false := rfl
@[simp] theorem enterHandler_inHandler (s : State) : (enterHandler s).inHandler = true := rfl
@[simp] theorem enterHandler_snap (s : State) : (enterHandler s).snap = s.snap := rfl
@[simp] theorem enterHandler_prevCodes (s : State) : (enterHandler s).prevCodes = s.prevCodes := rfl
@[simp] theorem enterHandler_result (s : State) : (enterHandler s).result = s.result := rfl
@[simp] theorem enterHandler_faults (s : State) : (enterHandler s).faults = s.faults := rfl
@[simp] theorem enterHandler_refused (s : State) : (enterHandler s).refused = s.refused := rfl
@[simp] theorem enterHandler_cfg (s : State) : (enterHandler s).cfg = s.cfg := rfl
@[simp] theorem enterHandler_refusedBy (s : State) : (enterHandler s).refusedBy = s.refusedBy := rfl
@[simp] theorem enterHandler_ret (s : State) : (enterHandler s).ret = s.ret := rfl
@[simp] theorem enterHandler_draws (s : State) : (enterHandler s).draws = s.draws := rfl
@[simp] theorem enterHandler_todo (s : State) : (enterHandler s).todo = s.todo := rfl
@[simp] theorem enterHandler_env (s : State) : (enterHandler s).env = s.env := rfl
@[simp] theorem enterHandler_hand (s : State) : (enterHandler s).hand = s.hand := rfl
@[simp] theorem enterHandler_waiting (s : State) : (enterHandler s).waiting = s.waiting := rfl

/-! ### exitHandler -/

@[simp] theorem exitHandler_ascCtrlLast (s : State) : (exitHandler s).ascCtrlLast = s.ascCtrlLast := rfl
@[simp] theorem exitHandler_a (s : State) : (exitHandler s).a = s.a := rfl
@[simp] theorem exitHandler_b (s : State) : (exitHandler s).b = s.b := rfl
@[simp] theorem exitHandler_l (s : State) : (exitHandler s).l = s.l := rfl
@[simp] theorem exitHandler_mirror (s : State) : (exitHandler s).mirror = s.mirror := rfl
@[simp] theorem exitHandler_cnt (s : State) : (exitHandler s).cnt = s.cnt := rfl
@[simp] theorem exitHandler_cntMode (s : State) : (exitHandler s).cntMode = s.cntMode := rfl
@[simp] theorem exitHandler_settleLeft (s : State) : (exitHandler s).settleLeft = s.settleLeft := rfl
@[simp] theorem exitHandler_code (s : State) : (exitHandler s).code = s.code := rfl
@[simp] theorem exitHandler_seqState (s : State) : (exitHandler s).seqState = s.seqState := rfl
@[simp] theorem exitHandler_iter (s : State) : (exitHandler s).iter = s.iter := rfl
@[simp] theorem exitHandler_doneFlag (s : State) : (exitHandler s).doneFlag = s.doneFlag := rfl
@[simp] theorem exitHandler_refEn (s : State) : (exitHandler s).refEn = s.refEn := rfl
@[simp] theorem exitHandler_refPending (s : State) : (exitHandler s).refPending = s.refPending := rfl
@[simp] theorem exitHandler_inHandler (s : State) : (exitHandler s).inHandler = false := rfl
@[simp] theorem exitHandler_snap (s : State) : (exitHandler s).snap = s.snap := rfl
@[simp] theorem exitHandler_prevCodes (s : State) : (exitHandler s).prevCodes = s.prevCodes := rfl
@[simp] theorem exitHandler_result (s : State) : (exitHandler s).result = s.result := rfl
@[simp] theorem exitHandler_faults (s : State) : (exitHandler s).faults = s.faults := rfl
@[simp] theorem exitHandler_refused (s : State) : (exitHandler s).refused = s.refused := rfl
@[simp] theorem exitHandler_cfg (s : State) : (exitHandler s).cfg = s.cfg := rfl
@[simp] theorem exitHandler_refusedBy (s : State) : (exitHandler s).refusedBy = s.refusedBy := rfl
@[simp] theorem exitHandler_ret (s : State) : (exitHandler s).ret = s.ret := rfl
@[simp] theorem exitHandler_draws (s : State) : (exitHandler s).draws = s.draws := rfl
@[simp] theorem exitHandler_todo (s : State) : (exitHandler s).todo = s.todo := rfl
@[simp] theorem exitHandler_env (s : State) : (exitHandler s).env = s.env := rfl
@[simp] theorem exitHandler_hand (s : State) : (exitHandler s).hand = s.hand := rfl
@[simp] theorem exitHandler_waiting (s : State) : (exitHandler s).waiting = s.waiting := rfl

/-! ### countTick -/

@[simp] theorem countTick_ascCtrlLast (s : State) : (countTick s).ascCtrlLast = s.ascCtrlLast := rfl
@[simp] theorem countTick_a (s : State) : (countTick s).a = s.a := rfl
@[simp] theorem countTick_b (s : State) : (countTick s).b = s.b := rfl
@[simp] theorem countTick_l (s : State) : (countTick s).l = s.l := rfl
@[simp] theorem countTick_mirror (s : State) : (countTick s).mirror = s.mirror := rfl
@[simp] theorem countTick_cnt (s : State) : (countTick s).cnt = s.cnt := rfl
@[simp] theorem countTick_cntMode (s : State) : (countTick s).cntMode = s.cntMode := rfl
@[simp] theorem countTick_settleLeft (s : State) : (countTick s).settleLeft = s.settleLeft := rfl
@[simp] theorem countTick_code (s : State) : (countTick s).code = s.code := rfl
@[simp] theorem countTick_seqState (s : State) : (countTick s).seqState = s.seqState := rfl
@[simp] theorem countTick_iter (s : State) : (countTick s).iter = s.iter + 1 := rfl
@[simp] theorem countTick_doneFlag (s : State) : (countTick s).doneFlag = s.doneFlag := rfl
@[simp] theorem countTick_refEn (s : State) : (countTick s).refEn = s.refEn := rfl
@[simp] theorem countTick_refPending (s : State) : (countTick s).refPending = s.refPending := rfl
@[simp] theorem countTick_inHandler (s : State) : (countTick s).inHandler = s.inHandler := rfl
@[simp] theorem countTick_snap (s : State) : (countTick s).snap = s.snap := rfl
@[simp] theorem countTick_prevCodes (s : State) : (countTick s).prevCodes = s.prevCodes := rfl
@[simp] theorem countTick_result (s : State) : (countTick s).result = s.result := rfl
@[simp] theorem countTick_faults (s : State) : (countTick s).faults = s.faults := rfl
@[simp] theorem countTick_refused (s : State) : (countTick s).refused = s.refused := rfl
@[simp] theorem countTick_cfg (s : State) : (countTick s).cfg = s.cfg := rfl
@[simp] theorem countTick_refusedBy (s : State) : (countTick s).refusedBy = s.refusedBy := rfl
@[simp] theorem countTick_ret (s : State) : (countTick s).ret = s.ret := rfl
@[simp] theorem countTick_draws (s : State) : (countTick s).draws = s.draws := rfl
@[simp] theorem countTick_todo (s : State) : (countTick s).todo = s.todo := rfl
@[simp] theorem countTick_env (s : State) : (countTick s).env = s.env := rfl
@[simp] theorem countTick_hand (s : State) : (countTick s).hand = s.hand := rfl
@[simp] theorem countTick_waiting (s : State) : (countTick s).waiting = s.waiting := rfl

/-! ### beginCorrecting -/

@[simp] theorem beginCorrecting_ascCtrlLast (s : State) : (beginCorrecting s).ascCtrlLast = s.ascCtrlLast := rfl
@[simp] theorem beginCorrecting_a (s : State) : (beginCorrecting s).a = s.a := rfl
@[simp] theorem beginCorrecting_b (s : State) : (beginCorrecting s).b = s.b := rfl
@[simp] theorem beginCorrecting_l (s : State) : (beginCorrecting s).l = s.l := rfl
@[simp] theorem beginCorrecting_mirror (s : State) : (beginCorrecting s).mirror = s.mirror := rfl
@[simp] theorem beginCorrecting_cnt (s : State) : (beginCorrecting s).cnt = s.cnt := rfl
@[simp] theorem beginCorrecting_cntMode (s : State) : (beginCorrecting s).cntMode = s.cntMode := rfl
@[simp] theorem beginCorrecting_settleLeft (s : State) : (beginCorrecting s).settleLeft = s.settleLeft := rfl
@[simp] theorem beginCorrecting_code (s : State) : (beginCorrecting s).code = s.code := rfl
@[simp] theorem beginCorrecting_seqState (s : State) : (beginCorrecting s).seqState = .converging := rfl
@[simp] theorem beginCorrecting_iter (s : State) : (beginCorrecting s).iter = s.iter := rfl
@[simp] theorem beginCorrecting_doneFlag (s : State) : (beginCorrecting s).doneFlag = s.doneFlag := rfl
@[simp] theorem beginCorrecting_refEn (s : State) : (beginCorrecting s).refEn = s.refEn := rfl
@[simp] theorem beginCorrecting_refPending (s : State) : (beginCorrecting s).refPending = s.refPending := rfl
@[simp] theorem beginCorrecting_inHandler (s : State) : (beginCorrecting s).inHandler = s.inHandler := rfl
@[simp] theorem beginCorrecting_snap (s : State) : (beginCorrecting s).snap = s.snap := rfl
@[simp] theorem beginCorrecting_prevCodes (s : State) : (beginCorrecting s).prevCodes = some s.code := rfl
@[simp] theorem beginCorrecting_result (s : State) : (beginCorrecting s).result = s.result := rfl
@[simp] theorem beginCorrecting_faults (s : State) : (beginCorrecting s).faults = s.faults := rfl
@[simp] theorem beginCorrecting_refused (s : State) : (beginCorrecting s).refused = s.refused := rfl
@[simp] theorem beginCorrecting_cfg (s : State) : (beginCorrecting s).cfg = s.cfg := rfl
@[simp] theorem beginCorrecting_refusedBy (s : State) : (beginCorrecting s).refusedBy = s.refusedBy := rfl
@[simp] theorem beginCorrecting_ret (s : State) : (beginCorrecting s).ret = s.ret := rfl
@[simp] theorem beginCorrecting_draws (s : State) : (beginCorrecting s).draws = s.draws := rfl
@[simp] theorem beginCorrecting_todo (s : State) : (beginCorrecting s).todo = s.todo := rfl
@[simp] theorem beginCorrecting_env (s : State) : (beginCorrecting s).env = s.env := rfl
@[simp] theorem beginCorrecting_hand (s : State) : (beginCorrecting s).hand = s.hand := rfl
@[simp] theorem beginCorrecting_waiting (s : State) : (beginCorrecting s).waiting = s.waiting := rfl

/-! ### setSnap -/

@[simp] theorem setSnap_ascCtrlLast (c : Counts) (s : State) : (setSnap c s).ascCtrlLast = s.ascCtrlLast := rfl
@[simp] theorem setSnap_a (c : Counts) (s : State) : (setSnap c s).a = s.a := rfl
@[simp] theorem setSnap_b (c : Counts) (s : State) : (setSnap c s).b = s.b := rfl
@[simp] theorem setSnap_l (c : Counts) (s : State) : (setSnap c s).l = s.l := rfl
@[simp] theorem setSnap_mirror (c : Counts) (s : State) : (setSnap c s).mirror = s.mirror := rfl
@[simp] theorem setSnap_cnt (c : Counts) (s : State) : (setSnap c s).cnt = s.cnt := rfl
@[simp] theorem setSnap_cntMode (c : Counts) (s : State) : (setSnap c s).cntMode = s.cntMode := rfl
@[simp] theorem setSnap_settleLeft (c : Counts) (s : State) : (setSnap c s).settleLeft = s.settleLeft := rfl
@[simp] theorem setSnap_code (c : Counts) (s : State) : (setSnap c s).code = s.code := rfl
@[simp] theorem setSnap_seqState (c : Counts) (s : State) : (setSnap c s).seqState = s.seqState := rfl
@[simp] theorem setSnap_iter (c : Counts) (s : State) : (setSnap c s).iter = s.iter := rfl
@[simp] theorem setSnap_doneFlag (c : Counts) (s : State) : (setSnap c s).doneFlag = s.doneFlag := rfl
@[simp] theorem setSnap_refEn (c : Counts) (s : State) : (setSnap c s).refEn = s.refEn := rfl
@[simp] theorem setSnap_refPending (c : Counts) (s : State) : (setSnap c s).refPending = s.refPending := rfl
@[simp] theorem setSnap_inHandler (c : Counts) (s : State) : (setSnap c s).inHandler = s.inHandler := rfl
@[simp] theorem setSnap_snap (c : Counts) (s : State) : (setSnap c s).snap = some c := rfl
@[simp] theorem setSnap_prevCodes (c : Counts) (s : State) : (setSnap c s).prevCodes = s.prevCodes := rfl
@[simp] theorem setSnap_result (c : Counts) (s : State) : (setSnap c s).result = s.result := rfl
@[simp] theorem setSnap_faults (c : Counts) (s : State) : (setSnap c s).faults = s.faults := rfl
@[simp] theorem setSnap_refused (c : Counts) (s : State) : (setSnap c s).refused = s.refused := rfl
@[simp] theorem setSnap_cfg (c : Counts) (s : State) : (setSnap c s).cfg = s.cfg := rfl
@[simp] theorem setSnap_refusedBy (c : Counts) (s : State) : (setSnap c s).refusedBy = s.refusedBy := rfl
@[simp] theorem setSnap_ret (c : Counts) (s : State) : (setSnap c s).ret = s.ret := rfl
@[simp] theorem setSnap_draws (c : Counts) (s : State) : (setSnap c s).draws = s.draws := rfl
@[simp] theorem setSnap_todo (c : Counts) (s : State) : (setSnap c s).todo = s.todo := rfl
@[simp] theorem setSnap_env (c : Counts) (s : State) : (setSnap c s).env = s.env := rfl
@[simp] theorem setSnap_hand (c : Counts) (s : State) : (setSnap c s).hand = s.hand := rfl
@[simp] theorem setSnap_waiting (c : Counts) (s : State) : (setSnap c s).waiting = s.waiting := rfl

/-! ### endSession -/

@[simp] theorem endSession_ascCtrlLast (c : Counts) (s : State) : (endSession c s).ascCtrlLast = s.ascCtrlLast := rfl
@[simp] theorem endSession_a (c : Counts) (s : State) : (endSession c s).a = s.a := rfl
@[simp] theorem endSession_b (c : Counts) (s : State) : (endSession c s).b = s.b := rfl
@[simp] theorem endSession_l (c : Counts) (s : State) : (endSession c s).l = s.l := rfl
@[simp] theorem endSession_mirror (c : Counts) (s : State) : (endSession c s).mirror = s.mirror := rfl
@[simp] theorem endSession_cnt (c : Counts) (s : State) : (endSession c s).cnt = s.cnt := rfl
@[simp] theorem endSession_cntMode (c : Counts) (s : State) : (endSession c s).cntMode = s.cntMode := rfl
@[simp] theorem endSession_settleLeft (c : Counts) (s : State) : (endSession c s).settleLeft = s.settleLeft := rfl
@[simp] theorem endSession_code (c : Counts) (s : State) : (endSession c s).code = s.code := rfl
@[simp] theorem endSession_seqState (c : Counts) (s : State) : (endSession c s).seqState = .done := rfl
@[simp] theorem endSession_iter (c : Counts) (s : State) : (endSession c s).iter = s.iter := rfl
@[simp] theorem endSession_doneFlag (c : Counts) (s : State) : (endSession c s).doneFlag = true := rfl
@[simp] theorem endSession_refEn (c : Counts) (s : State) : (endSession c s).refEn = false := rfl
@[simp] theorem endSession_refPending (c : Counts) (s : State) : (endSession c s).refPending = false := rfl
@[simp] theorem endSession_inHandler (c : Counts) (s : State) : (endSession c s).inHandler = s.inHandler := rfl
@[simp] theorem endSession_snap (c : Counts) (s : State) : (endSession c s).snap = s.snap := rfl
@[simp] theorem endSession_prevCodes (c : Counts) (s : State) : (endSession c s).prevCodes = s.prevCodes := rfl
@[simp] theorem endSession_result (c : Counts) (s : State) : (endSession c s).result = some (mkResult s.cfg c s.code) := rfl
@[simp] theorem endSession_faults (c : Counts) (s : State) : (endSession c s).faults = s.faults := rfl
@[simp] theorem endSession_refused (c : Counts) (s : State) : (endSession c s).refused = s.refused := rfl
@[simp] theorem endSession_cfg (c : Counts) (s : State) : (endSession c s).cfg = s.cfg := rfl
@[simp] theorem endSession_refusedBy (c : Counts) (s : State) : (endSession c s).refusedBy = s.refusedBy := rfl
@[simp] theorem endSession_ret (c : Counts) (s : State) : (endSession c s).ret = s.ret := rfl
@[simp] theorem endSession_draws (c : Counts) (s : State) : (endSession c s).draws = s.draws := rfl
@[simp] theorem endSession_todo (c : Counts) (s : State) : (endSession c s).todo = s.todo := rfl
@[simp] theorem endSession_env (c : Counts) (s : State) : (endSession c s).env = s.env := rfl
@[simp] theorem endSession_hand (c : Counts) (s : State) : (endSession c s).hand = s.hand := rfl
@[simp] theorem endSession_waiting (c : Counts) (s : State) : (endSession c s).waiting = s.waiting := rfl

/-! ### endWait -/

@[simp] theorem endWait_ascCtrlLast (s : State) : (endWait s).ascCtrlLast = s.ascCtrlLast := rfl
@[simp] theorem endWait_a (s : State) : (endWait s).a = s.a := rfl
@[simp] theorem endWait_b (s : State) : (endWait s).b = s.b := rfl
@[simp] theorem endWait_l (s : State) : (endWait s).l = s.l := rfl
@[simp] theorem endWait_mirror (s : State) : (endWait s).mirror = s.mirror := rfl
@[simp] theorem endWait_cnt (s : State) : (endWait s).cnt = s.cnt := rfl
@[simp] theorem endWait_cntMode (s : State) : (endWait s).cntMode = s.cntMode := rfl
@[simp] theorem endWait_settleLeft (s : State) : (endWait s).settleLeft = s.settleLeft := rfl
@[simp] theorem endWait_code (s : State) : (endWait s).code = s.code := rfl
@[simp] theorem endWait_seqState (s : State) : (endWait s).seqState = .idle := rfl
@[simp] theorem endWait_iter (s : State) : (endWait s).iter = s.iter := rfl
@[simp] theorem endWait_doneFlag (s : State) : (endWait s).doneFlag = false := rfl
@[simp] theorem endWait_refEn (s : State) : (endWait s).refEn = s.refEn := rfl
@[simp] theorem endWait_refPending (s : State) : (endWait s).refPending = s.refPending := rfl
@[simp] theorem endWait_inHandler (s : State) : (endWait s).inHandler = s.inHandler := rfl
@[simp] theorem endWait_snap (s : State) : (endWait s).snap = s.snap := rfl
@[simp] theorem endWait_prevCodes (s : State) : (endWait s).prevCodes = s.prevCodes := rfl
@[simp] theorem endWait_result (s : State) : (endWait s).result = s.result := rfl
@[simp] theorem endWait_faults (s : State) : (endWait s).faults = s.faults := rfl
@[simp] theorem endWait_refused (s : State) : (endWait s).refused = s.refused := rfl
@[simp] theorem endWait_cfg (s : State) : (endWait s).cfg = s.cfg := rfl
@[simp] theorem endWait_refusedBy (s : State) : (endWait s).refusedBy = s.refusedBy := rfl
@[simp] theorem endWait_ret (s : State) : (endWait s).ret = some (.session s.result) := rfl
@[simp] theorem endWait_draws (s : State) : (endWait s).draws = s.draws := rfl
@[simp] theorem endWait_todo (s : State) : (endWait s).todo = s.todo := rfl
@[simp] theorem endWait_env (s : State) : (endWait s).env = s.env := rfl
@[simp] theorem endWait_hand (s : State) : (endWait s).hand = s.hand := rfl
@[simp] theorem endWait_waiting (s : State) : (endWait s).waiting = false := rfl

/-! ### putCode -/

@[simp] theorem putCode_ascCtrlLast (f : Field) (v : Nat) (s : State) : (putCode f v s).ascCtrlLast = s.ascCtrlLast := rfl
@[simp] theorem putCode_a (f : Field) (v : Nat) (s : State) : (putCode f v s).a = s.a := rfl
@[simp] theorem putCode_b (f : Field) (v : Nat) (s : State) : (putCode f v s).b = s.b := rfl
@[simp] theorem putCode_l (f : Field) (v : Nat) (s : State) : (putCode f v s).l = s.l := rfl
@[simp] theorem putCode_mirror (f : Field) (v : Nat) (s : State) : (putCode f v s).mirror = s.mirror := rfl
@[simp] theorem putCode_cnt (f : Field) (v : Nat) (s : State) : (putCode f v s).cnt = s.cnt := rfl
@[simp] theorem putCode_cntMode (f : Field) (v : Nat) (s : State) : (putCode f v s).cntMode = s.cntMode := rfl
@[simp] theorem putCode_settleLeft (f : Field) (v : Nat) (s : State) : (putCode f v s).settleLeft = s.settleLeft := rfl
@[simp] theorem putCode_seqState (f : Field) (v : Nat) (s : State) : (putCode f v s).seqState = s.seqState := rfl
@[simp] theorem putCode_iter (f : Field) (v : Nat) (s : State) : (putCode f v s).iter = s.iter := rfl
@[simp] theorem putCode_doneFlag (f : Field) (v : Nat) (s : State) : (putCode f v s).doneFlag = s.doneFlag := rfl
@[simp] theorem putCode_refEn (f : Field) (v : Nat) (s : State) : (putCode f v s).refEn = s.refEn := rfl
@[simp] theorem putCode_refPending (f : Field) (v : Nat) (s : State) : (putCode f v s).refPending = s.refPending := rfl
@[simp] theorem putCode_inHandler (f : Field) (v : Nat) (s : State) : (putCode f v s).inHandler = s.inHandler := rfl
@[simp] theorem putCode_snap (f : Field) (v : Nat) (s : State) : (putCode f v s).snap = s.snap := rfl
@[simp] theorem putCode_prevCodes (f : Field) (v : Nat) (s : State) : (putCode f v s).prevCodes = s.prevCodes := rfl
@[simp] theorem putCode_result (f : Field) (v : Nat) (s : State) : (putCode f v s).result = s.result := rfl
@[simp] theorem putCode_faults (f : Field) (v : Nat) (s : State) : (putCode f v s).faults = s.faults := rfl
@[simp] theorem putCode_refused (f : Field) (v : Nat) (s : State) : (putCode f v s).refused = s.refused := rfl
@[simp] theorem putCode_cfg (f : Field) (v : Nat) (s : State) : (putCode f v s).cfg = s.cfg := rfl
@[simp] theorem putCode_refusedBy (f : Field) (v : Nat) (s : State) : (putCode f v s).refusedBy = s.refusedBy := rfl
@[simp] theorem putCode_ret (f : Field) (v : Nat) (s : State) : (putCode f v s).ret = s.ret := rfl
@[simp] theorem putCode_draws (f : Field) (v : Nat) (s : State) : (putCode f v s).draws = s.draws := rfl
@[simp] theorem putCode_todo (f : Field) (v : Nat) (s : State) : (putCode f v s).todo = s.todo := rfl
@[simp] theorem putCode_env (f : Field) (v : Nat) (s : State) : (putCode f v s).env = s.env := rfl
@[simp] theorem putCode_hand (f : Field) (v : Nat) (s : State) : (putCode f v s).hand = s.hand := rfl
@[simp] theorem putCode_waiting (f : Field) (v : Nat) (s : State) : (putCode f v s).waiting = s.waiting := rfl

/-! ### settle -/

@[simp] theorem settle_ascCtrlLast (s : State) : (settle s).ascCtrlLast = s.ascCtrlLast := rfl
@[simp] theorem settle_a (s : State) : (settle s).a = s.a := rfl
@[simp] theorem settle_b (s : State) : (settle s).b = s.b := rfl
@[simp] theorem settle_l (s : State) : (settle s).l = s.l := rfl
@[simp] theorem settle_mirror (s : State) : (settle s).mirror = s.mirror := rfl
@[simp] theorem settle_cnt (s : State) : (settle s).cnt = s.cnt := rfl
@[simp] theorem settle_cntMode (s : State) : (settle s).cntMode = s.cntMode := rfl
@[simp] theorem settle_code (s : State) : (settle s).code = s.code := rfl
@[simp] theorem settle_seqState (s : State) : (settle s).seqState = s.seqState := rfl
@[simp] theorem settle_iter (s : State) : (settle s).iter = s.iter := rfl
@[simp] theorem settle_doneFlag (s : State) : (settle s).doneFlag = s.doneFlag := rfl
@[simp] theorem settle_refEn (s : State) : (settle s).refEn = s.refEn := rfl
@[simp] theorem settle_refPending (s : State) : (settle s).refPending = s.refPending := rfl
@[simp] theorem settle_inHandler (s : State) : (settle s).inHandler = s.inHandler := rfl
@[simp] theorem settle_snap (s : State) : (settle s).snap = s.snap := rfl
@[simp] theorem settle_prevCodes (s : State) : (settle s).prevCodes = s.prevCodes := rfl
@[simp] theorem settle_result (s : State) : (settle s).result = s.result := rfl
@[simp] theorem settle_faults (s : State) : (settle s).faults = s.faults := rfl
@[simp] theorem settle_refused (s : State) : (settle s).refused = s.refused := rfl
@[simp] theorem settle_cfg (s : State) : (settle s).cfg = s.cfg := rfl
@[simp] theorem settle_refusedBy (s : State) : (settle s).refusedBy = s.refusedBy := rfl
@[simp] theorem settle_ret (s : State) : (settle s).ret = s.ret := rfl
@[simp] theorem settle_draws (s : State) : (settle s).draws = s.draws := rfl
@[simp] theorem settle_todo (s : State) : (settle s).todo = s.todo := rfl
@[simp] theorem settle_env (s : State) : (settle s).env = s.env := rfl
@[simp] theorem settle_hand (s : State) : (settle s).hand = s.hand := rfl
@[simp] theorem settle_waiting (s : State) : (settle s).waiting = s.waiting := rfl

/-! ### disableAll -/

@[simp] theorem disableAll_ascCtrlLast (s : State) : (disableAll s).ascCtrlLast = s.ascCtrlLast := rfl
@[simp] theorem disableAll_a (s : State) : (disableAll s).a = s.a := rfl
@[simp] theorem disableAll_b (s : State) : (disableAll s).b = s.b := rfl
@[simp] theorem disableAll_l (s : State) : (disableAll s).l = s.l := rfl
@[simp] theorem disableAll_mirror (s : State) : (disableAll s).mirror = s.mirror := rfl
@[simp] theorem disableAll_cnt (s : State) : (disableAll s).cnt = s.cnt := rfl
@[simp] theorem disableAll_code (s : State) : (disableAll s).code = s.code := rfl
@[simp] theorem disableAll_seqState (s : State) : (disableAll s).seqState = s.seqState := rfl
@[simp] theorem disableAll_iter (s : State) : (disableAll s).iter = s.iter := rfl
@[simp] theorem disableAll_doneFlag (s : State) : (disableAll s).doneFlag = s.doneFlag := rfl
@[simp] theorem disableAll_refEn (s : State) : (disableAll s).refEn = s.refEn := rfl
@[simp] theorem disableAll_refPending (s : State) : (disableAll s).refPending = s.refPending := rfl
@[simp] theorem disableAll_inHandler (s : State) : (disableAll s).inHandler = s.inHandler := rfl
@[simp] theorem disableAll_snap (s : State) : (disableAll s).snap = s.snap := rfl
@[simp] theorem disableAll_prevCodes (s : State) : (disableAll s).prevCodes = s.prevCodes := rfl
@[simp] theorem disableAll_result (s : State) : (disableAll s).result = s.result := rfl
@[simp] theorem disableAll_faults (s : State) : (disableAll s).faults = s.faults := rfl
@[simp] theorem disableAll_refused (s : State) : (disableAll s).refused = s.refused := rfl
@[simp] theorem disableAll_cfg (s : State) : (disableAll s).cfg = s.cfg := rfl
@[simp] theorem disableAll_refusedBy (s : State) : (disableAll s).refusedBy = s.refusedBy := rfl
@[simp] theorem disableAll_ret (s : State) : (disableAll s).ret = s.ret := rfl
@[simp] theorem disableAll_draws (s : State) : (disableAll s).draws = s.draws := rfl
@[simp] theorem disableAll_todo (s : State) : (disableAll s).todo = s.todo := rfl
@[simp] theorem disableAll_env (s : State) : (disableAll s).env = s.env := rfl
@[simp] theorem disableAll_hand (s : State) : (disableAll s).hand = s.hand := rfl
@[simp] theorem disableAll_waiting (s : State) : (disableAll s).waiting = s.waiting := rfl

/-! ### resetAll -/

@[simp] theorem resetAll_ascCtrlLast (s : State) : (resetAll s).ascCtrlLast = s.ascCtrlLast := rfl
@[simp] theorem resetAll_a (s : State) : (resetAll s).a = s.a := rfl
@[simp] theorem resetAll_b (s : State) : (resetAll s).b = s.b := rfl
@[simp] theorem resetAll_l (s : State) : (resetAll s).l = s.l := rfl
@[simp] theorem resetAll_mirror (s : State) : (resetAll s).mirror = s.mirror := rfl
@[simp] theorem resetAll_code (s : State) : (resetAll s).code = s.code := rfl
@[simp] theorem resetAll_seqState (s : State) : (resetAll s).seqState = s.seqState := rfl
@[simp] theorem resetAll_iter (s : State) : (resetAll s).iter = s.iter := rfl
@[simp] theorem resetAll_doneFlag (s : State) : (resetAll s).doneFlag = s.doneFlag := rfl
@[simp] theorem resetAll_refEn (s : State) : (resetAll s).refEn = s.refEn := rfl
@[simp] theorem resetAll_refPending (s : State) : (resetAll s).refPending = s.refPending := rfl
@[simp] theorem resetAll_inHandler (s : State) : (resetAll s).inHandler = s.inHandler := rfl
@[simp] theorem resetAll_snap (s : State) : (resetAll s).snap = s.snap := rfl
@[simp] theorem resetAll_prevCodes (s : State) : (resetAll s).prevCodes = s.prevCodes := rfl
@[simp] theorem resetAll_result (s : State) : (resetAll s).result = s.result := rfl
@[simp] theorem resetAll_faults (s : State) : (resetAll s).faults = s.faults := rfl
@[simp] theorem resetAll_refused (s : State) : (resetAll s).refused = s.refused := rfl
@[simp] theorem resetAll_cfg (s : State) : (resetAll s).cfg = s.cfg := rfl
@[simp] theorem resetAll_refusedBy (s : State) : (resetAll s).refusedBy = s.refusedBy := rfl
@[simp] theorem resetAll_ret (s : State) : (resetAll s).ret = s.ret := rfl
@[simp] theorem resetAll_draws (s : State) : (resetAll s).draws = s.draws := rfl
@[simp] theorem resetAll_todo (s : State) : (resetAll s).todo = s.todo := rfl
@[simp] theorem resetAll_env (s : State) : (resetAll s).env = s.env := rfl
@[simp] theorem resetAll_hand (s : State) : (resetAll s).hand = s.hand := rfl
@[simp] theorem resetAll_waiting (s : State) : (resetAll s).waiting = s.waiting := rfl

/-! ### enableAll -/

@[simp] theorem enableAll_ascCtrlLast (s : State) : (enableAll s).ascCtrlLast = s.ascCtrlLast := rfl
@[simp] theorem enableAll_a (s : State) : (enableAll s).a = s.a := rfl
@[simp] theorem enableAll_b (s : State) : (enableAll s).b = s.b := rfl
@[simp] theorem enableAll_l (s : State) : (enableAll s).l = s.l := rfl
@[simp] theorem enableAll_mirror (s : State) : (enableAll s).mirror = s.mirror := rfl
@[simp] theorem enableAll_cnt (s : State) : (enableAll s).cnt = s.cnt := rfl
@[simp] theorem enableAll_code (s : State) : (enableAll s).code = s.code := rfl
@[simp] theorem enableAll_seqState (s : State) : (enableAll s).seqState = s.seqState := rfl
@[simp] theorem enableAll_iter (s : State) : (enableAll s).iter = s.iter := rfl
@[simp] theorem enableAll_doneFlag (s : State) : (enableAll s).doneFlag = s.doneFlag := rfl
@[simp] theorem enableAll_refEn (s : State) : (enableAll s).refEn = s.refEn := rfl
@[simp] theorem enableAll_refPending (s : State) : (enableAll s).refPending = s.refPending := rfl
@[simp] theorem enableAll_inHandler (s : State) : (enableAll s).inHandler = s.inHandler := rfl
@[simp] theorem enableAll_snap (s : State) : (enableAll s).snap = s.snap := rfl
@[simp] theorem enableAll_prevCodes (s : State) : (enableAll s).prevCodes = s.prevCodes := rfl
@[simp] theorem enableAll_result (s : State) : (enableAll s).result = s.result := rfl
@[simp] theorem enableAll_faults (s : State) : (enableAll s).faults = s.faults := rfl
@[simp] theorem enableAll_refused (s : State) : (enableAll s).refused = s.refused := rfl
@[simp] theorem enableAll_cfg (s : State) : (enableAll s).cfg = s.cfg := rfl
@[simp] theorem enableAll_refusedBy (s : State) : (enableAll s).refusedBy = s.refusedBy := rfl
@[simp] theorem enableAll_ret (s : State) : (enableAll s).ret = s.ret := rfl
@[simp] theorem enableAll_draws (s : State) : (enableAll s).draws = s.draws := rfl
@[simp] theorem enableAll_todo (s : State) : (enableAll s).todo = s.todo := rfl
@[simp] theorem enableAll_env (s : State) : (enableAll s).env = s.env := rfl
@[simp] theorem enableAll_hand (s : State) : (enableAll s).hand = s.hand := rfl
@[simp] theorem enableAll_waiting (s : State) : (enableAll s).waiting = s.waiting := rfl

/-! ### latchWrite -/

@[simp] theorem latchWrite_mirror (v : Word) (s : State) : (latchWrite v s).mirror = s.mirror := rfl
@[simp] theorem latchWrite_cnt (v : Word) (s : State) : (latchWrite v s).cnt = s.cnt := rfl
@[simp] theorem latchWrite_cntMode (v : Word) (s : State) : (latchWrite v s).cntMode = s.cntMode := rfl
@[simp] theorem latchWrite_settleLeft (v : Word) (s : State) : (latchWrite v s).settleLeft = s.settleLeft := rfl
@[simp] theorem latchWrite_code (v : Word) (s : State) : (latchWrite v s).code = s.code := rfl
@[simp] theorem latchWrite_seqState (v : Word) (s : State) : (latchWrite v s).seqState = s.seqState := rfl
@[simp] theorem latchWrite_iter (v : Word) (s : State) : (latchWrite v s).iter = s.iter := rfl
@[simp] theorem latchWrite_doneFlag (v : Word) (s : State) : (latchWrite v s).doneFlag = s.doneFlag := rfl
@[simp] theorem latchWrite_refEn (v : Word) (s : State) : (latchWrite v s).refEn = s.refEn := rfl
@[simp] theorem latchWrite_refPending (v : Word) (s : State) : (latchWrite v s).refPending = s.refPending := rfl
@[simp] theorem latchWrite_inHandler (v : Word) (s : State) : (latchWrite v s).inHandler = s.inHandler := rfl
@[simp] theorem latchWrite_snap (v : Word) (s : State) : (latchWrite v s).snap = s.snap := rfl
@[simp] theorem latchWrite_prevCodes (v : Word) (s : State) : (latchWrite v s).prevCodes = s.prevCodes := rfl
@[simp] theorem latchWrite_result (v : Word) (s : State) : (latchWrite v s).result = s.result := rfl
@[simp] theorem latchWrite_faults (v : Word) (s : State) : (latchWrite v s).faults = s.faults := rfl
@[simp] theorem latchWrite_refused (v : Word) (s : State) : (latchWrite v s).refused = s.refused := rfl
@[simp] theorem latchWrite_cfg (v : Word) (s : State) : (latchWrite v s).cfg = s.cfg := rfl
@[simp] theorem latchWrite_refusedBy (v : Word) (s : State) : (latchWrite v s).refusedBy = s.refusedBy := rfl
@[simp] theorem latchWrite_ret (v : Word) (s : State) : (latchWrite v s).ret = s.ret := rfl
@[simp] theorem latchWrite_draws (v : Word) (s : State) : (latchWrite v s).draws = s.draws := rfl
@[simp] theorem latchWrite_todo (v : Word) (s : State) : (latchWrite v s).todo = s.todo := rfl
@[simp] theorem latchWrite_env (v : Word) (s : State) : (latchWrite v s).env = s.env := rfl
@[simp] theorem latchWrite_hand (v : Word) (s : State) : (latchWrite v s).hand = s.hand := rfl
@[simp] theorem latchWrite_waiting (v : Word) (s : State) : (latchWrite v s).waiting = s.waiting := rfl

@[simp] theorem putCode_code (f : Field) (v : Nat) (s : State) : (putCode f v s).code = s.code.set f v := rfl
@[simp] theorem settle_settleLeft (s : State) : (settle s).settleLeft = s.settleLeft - 1 := rfl
@[simp] theorem disableAll_cntMode (s : State) : (disableAll s).cntMode = .stopped := rfl
@[simp] theorem disableAll_settleLeft (s : State) : (disableAll s).settleLeft = s.cfg.disableSettle := rfl
@[simp] theorem resetAll_cnt (s : State) : (resetAll s).cnt = ⟨0, 0, 0, 0, 0⟩ := rfl
@[simp] theorem resetAll_cntMode (s : State) : (resetAll s).cntMode = .cleared := rfl
@[simp] theorem resetAll_settleLeft (s : State) : (resetAll s).settleLeft = 0 := rfl
@[simp] theorem enableAll_cntMode (s : State) : (enableAll s).cntMode = .running := rfl
@[simp] theorem enableAll_settleLeft (s : State) : (enableAll s).settleLeft = s.settleLeft - 1 := rfl
@[simp] theorem latchWrite_ascCtrlLast (v : Word) (s : State) : (latchWrite v s).ascCtrlLast = some v := rfl

/-! ### refEdge -/

@[simp] theorem refEdge_ascCtrlLast (s : State) : (refEdge s).ascCtrlLast = s.ascCtrlLast := by unfold refEdge; split <;> rfl
@[simp] theorem refEdge_a (s : State) : (refEdge s).a = s.a := by unfold refEdge; split <;> rfl
@[simp] theorem refEdge_b (s : State) : (refEdge s).b = s.b := by unfold refEdge; split <;> rfl
@[simp] theorem refEdge_l (s : State) : (refEdge s).l = s.l := by unfold refEdge; split <;> rfl
@[simp] theorem refEdge_mirror (s : State) : (refEdge s).mirror = s.mirror := by unfold refEdge; split <;> rfl
@[simp] theorem refEdge_cnt (s : State) : (refEdge s).cnt = s.cnt := by unfold refEdge; split <;> rfl
@[simp] theorem refEdge_cntMode (s : State) : (refEdge s).cntMode = s.cntMode := by unfold refEdge; split <;> rfl
@[simp] theorem refEdge_settleLeft (s : State) : (refEdge s).settleLeft = s.settleLeft := by unfold refEdge; split <;> rfl
@[simp] theorem refEdge_code (s : State) : (refEdge s).code = s.code := by unfold refEdge; split <;> rfl
@[simp] theorem refEdge_seqState (s : State) : (refEdge s).seqState = s.seqState := by unfold refEdge; split <;> rfl
@[simp] theorem refEdge_iter (s : State) : (refEdge s).iter = s.iter := by unfold refEdge; split <;> rfl
@[simp] theorem refEdge_doneFlag (s : State) : (refEdge s).doneFlag = s.doneFlag := by unfold refEdge; split <;> rfl
@[simp] theorem refEdge_refEn (s : State) : (refEdge s).refEn = s.refEn := by unfold refEdge; split <;> rfl
@[simp] theorem refEdge_inHandler (s : State) : (refEdge s).inHandler = s.inHandler := by unfold refEdge; split <;> rfl
@[simp] theorem refEdge_snap (s : State) : (refEdge s).snap = s.snap := by unfold refEdge; split <;> rfl
@[simp] theorem refEdge_prevCodes (s : State) : (refEdge s).prevCodes = s.prevCodes := by unfold refEdge; split <;> rfl
@[simp] theorem refEdge_result (s : State) : (refEdge s).result = s.result := by unfold refEdge; split <;> rfl
@[simp] theorem refEdge_faults (s : State) : (refEdge s).faults = s.faults := by unfold refEdge; split <;> rfl
@[simp] theorem refEdge_refused (s : State) : (refEdge s).refused = s.refused := by unfold refEdge; split <;> rfl
@[simp] theorem refEdge_cfg (s : State) : (refEdge s).cfg = s.cfg := by unfold refEdge; split <;> rfl
@[simp] theorem refEdge_refusedBy (s : State) : (refEdge s).refusedBy = s.refusedBy := by unfold refEdge; split <;> rfl
@[simp] theorem refEdge_ret (s : State) : (refEdge s).ret = s.ret := by unfold refEdge; split <;> rfl
@[simp] theorem refEdge_draws (s : State) : (refEdge s).draws = s.draws := by unfold refEdge; split <;> rfl
@[simp] theorem refEdge_todo (s : State) : (refEdge s).todo = s.todo := by unfold refEdge; split <;> rfl
@[simp] theorem refEdge_env (s : State) : (refEdge s).env = s.env := by unfold refEdge; split <;> rfl
@[simp] theorem refEdge_hand (s : State) : (refEdge s).hand = s.hand := by unfold refEdge; split <;> rfl
@[simp] theorem refEdge_waiting (s : State) : (refEdge s).waiting = s.waiting := by unfold refEdge; split <;> rfl

/-! ### tickCounter -/

@[simp] theorem tickCounter_ascCtrlLast (i : Counter) (s : State) : (tickCounter i s).ascCtrlLast = s.ascCtrlLast := by unfold tickCounter; split <;> (try split) <;> (try split) <;> rfl
@[simp] theorem tickCounter_a (i : Counter) (s : State) : (tickCounter i s).a = s.a := by unfold tickCounter; split <;> (try split) <;> (try split) <;> rfl
@[simp] theorem tickCounter_b (i : Counter) (s : State) : (tickCounter i s).b = s.b := by unfold tickCounter; split <;> (try split) <;> (try split) <;> rfl
@[simp] theorem tickCounter_l (i : Counter) (s : State) : (tickCounter i s).l = s.l := by unfold tickCounter; split <;> (try split) <;> (try split) <;> rfl
@[simp] theorem tickCounter_mirror (i : Counter) (s : State) : (tickCounter i s).mirror = s.mirror := by unfold tickCounter; split <;> (try split) <;> (try split) <;> rfl
@[simp] theorem tickCounter_cntMode (i : Counter) (s : State) : (tickCounter i s).cntMode = s.cntMode := by unfold tickCounter; split <;> (try split) <;> (try split) <;> rfl
@[simp] theorem tickCounter_settleLeft (i : Counter) (s : State) : (tickCounter i s).settleLeft = s.settleLeft := by unfold tickCounter; split <;> (try split) <;> (try split) <;> rfl
@[simp] theorem tickCounter_code (i : Counter) (s : State) : (tickCounter i s).code = s.code := by unfold tickCounter; split <;> (try split) <;> (try split) <;> rfl
@[simp] theorem tickCounter_seqState (i : Counter) (s : State) : (tickCounter i s).seqState = s.seqState := by unfold tickCounter; split <;> (try split) <;> (try split) <;> rfl
@[simp] theorem tickCounter_iter (i : Counter) (s : State) : (tickCounter i s).iter = s.iter := by unfold tickCounter; split <;> (try split) <;> (try split) <;> rfl
@[simp] theorem tickCounter_doneFlag (i : Counter) (s : State) : (tickCounter i s).doneFlag = s.doneFlag := by unfold tickCounter; split <;> (try split) <;> (try split) <;> rfl
@[simp] theorem tickCounter_refEn (i : Counter) (s : State) : (tickCounter i s).refEn = s.refEn := by unfold tickCounter; split <;> (try split) <;> (try split) <;> rfl
@[simp] theorem tickCounter_refPending (i : Counter) (s : State) : (tickCounter i s).refPending = s.refPending := by unfold tickCounter; split <;> (try split) <;> (try split) <;> rfl
@[simp] theorem tickCounter_inHandler (i : Counter) (s : State) : (tickCounter i s).inHandler = s.inHandler := by unfold tickCounter; split <;> (try split) <;> (try split) <;> rfl
@[simp] theorem tickCounter_snap (i : Counter) (s : State) : (tickCounter i s).snap = s.snap := by unfold tickCounter; split <;> (try split) <;> (try split) <;> rfl
@[simp] theorem tickCounter_prevCodes (i : Counter) (s : State) : (tickCounter i s).prevCodes = s.prevCodes := by unfold tickCounter; split <;> (try split) <;> (try split) <;> rfl
@[simp] theorem tickCounter_result (i : Counter) (s : State) : (tickCounter i s).result = s.result := by unfold tickCounter; split <;> (try split) <;> (try split) <;> rfl
@[simp] theorem tickCounter_faults (i : Counter) (s : State) : (tickCounter i s).faults = s.faults := by unfold tickCounter; split <;> (try split) <;> (try split) <;> rfl
@[simp] theorem tickCounter_refused (i : Counter) (s : State) : (tickCounter i s).refused = s.refused := by unfold tickCounter; split <;> (try split) <;> (try split) <;> rfl
@[simp] theorem tickCounter_cfg (i : Counter) (s : State) : (tickCounter i s).cfg = s.cfg := by unfold tickCounter; split <;> (try split) <;> (try split) <;> rfl
@[simp] theorem tickCounter_refusedBy (i : Counter) (s : State) : (tickCounter i s).refusedBy = s.refusedBy := by unfold tickCounter; split <;> (try split) <;> (try split) <;> rfl
@[simp] theorem tickCounter_ret (i : Counter) (s : State) : (tickCounter i s).ret = s.ret := by unfold tickCounter; split <;> (try split) <;> (try split) <;> rfl
@[simp] theorem tickCounter_todo (i : Counter) (s : State) : (tickCounter i s).todo = s.todo := by unfold tickCounter; split <;> (try split) <;> (try split) <;> rfl
@[simp] theorem tickCounter_env (i : Counter) (s : State) : (tickCounter i s).env = s.env := by unfold tickCounter; split <;> (try split) <;> (try split) <;> rfl
@[simp] theorem tickCounter_hand (i : Counter) (s : State) : (tickCounter i s).hand = s.hand := by unfold tickCounter; split <;> (try split) <;> (try split) <;> rfl
@[simp] theorem tickCounter_waiting (i : Counter) (s : State) : (tickCounter i s).waiting = s.waiting := by unfold tickCounter; split <;> (try split) <;> (try split) <;> rfl

/-! ### actStep -/

@[simp] theorem actStep_ascCtrlLast (x : Act) (s : State) : (actStep s x).ascCtrlLast = s.ascCtrlLast := by cases x <;> simp [actStep]
@[simp] theorem actStep_a (x : Act) (s : State) : (actStep s x).a = s.a := by cases x <;> simp [actStep]
@[simp] theorem actStep_b (x : Act) (s : State) : (actStep s x).b = s.b := by cases x <;> simp [actStep]
@[simp] theorem actStep_l (x : Act) (s : State) : (actStep s x).l = s.l := by cases x <;> simp [actStep]
@[simp] theorem actStep_mirror (x : Act) (s : State) : (actStep s x).mirror = s.mirror := by cases x <;> simp [actStep]
@[simp] theorem actStep_cntMode (x : Act) (s : State) : (actStep s x).cntMode = s.cntMode := by cases x <;> simp [actStep]
@[simp] theorem actStep_settleLeft (x : Act) (s : State) : (actStep s x).settleLeft = s.settleLeft := by cases x <;> simp [actStep]
@[simp] theorem actStep_code (x : Act) (s : State) : (actStep s x).code = s.code := by cases x <;> simp [actStep]
@[simp] theorem actStep_seqState (x : Act) (s : State) : (actStep s x).seqState = s.seqState := by cases x <;> simp [actStep]
@[simp] theorem actStep_iter (x : Act) (s : State) : (actStep s x).iter = s.iter := by cases x <;> simp [actStep]
@[simp] theorem actStep_doneFlag (x : Act) (s : State) : (actStep s x).doneFlag = s.doneFlag := by cases x <;> simp [actStep]
@[simp] theorem actStep_refEn (x : Act) (s : State) : (actStep s x).refEn = s.refEn := by cases x <;> simp [actStep]
@[simp] theorem actStep_inHandler (x : Act) (s : State) : (actStep s x).inHandler = s.inHandler := by cases x <;> simp [actStep]
@[simp] theorem actStep_snap (x : Act) (s : State) : (actStep s x).snap = s.snap := by cases x <;> simp [actStep]
@[simp] theorem actStep_prevCodes (x : Act) (s : State) : (actStep s x).prevCodes = s.prevCodes := by cases x <;> simp [actStep]
@[simp] theorem actStep_result (x : Act) (s : State) : (actStep s x).result = s.result := by cases x <;> simp [actStep]
@[simp] theorem actStep_faults (x : Act) (s : State) : (actStep s x).faults = s.faults := by cases x <;> simp [actStep]
@[simp] theorem actStep_refused (x : Act) (s : State) : (actStep s x).refused = s.refused := by cases x <;> simp [actStep]
@[simp] theorem actStep_cfg (x : Act) (s : State) : (actStep s x).cfg = s.cfg := by cases x <;> simp [actStep]
@[simp] theorem actStep_refusedBy (x : Act) (s : State) : (actStep s x).refusedBy = s.refusedBy := by cases x <;> simp [actStep]
@[simp] theorem actStep_ret (x : Act) (s : State) : (actStep s x).ret = s.ret := by cases x <;> simp [actStep]
@[simp] theorem actStep_todo (x : Act) (s : State) : (actStep s x).todo = s.todo := by cases x <;> simp [actStep]
@[simp] theorem actStep_env (x : Act) (s : State) : (actStep s x).env = s.env := by cases x <;> simp [actStep]
@[simp] theorem actStep_hand (x : Act) (s : State) : (actStep s x).hand = s.hand := by cases x <;> simp [actStep]
@[simp] theorem actStep_waiting (x : Act) (s : State) : (actStep s x).waiting = s.waiting := by cases x <;> simp [actStep]

/-! ### checkTermination -/

@[simp] theorem checkTermination_ascCtrlLast (c : Counts) (s : State) : (checkTermination c s).ascCtrlLast = s.ascCtrlLast := by unfold checkTermination; split <;> rfl
@[simp] theorem checkTermination_a (c : Counts) (s : State) : (checkTermination c s).a = s.a := by unfold checkTermination; split <;> rfl
@[simp] theorem checkTermination_b (c : Counts) (s : State) : (checkTermination c s).b = s.b := by unfold checkTermination; split <;> rfl
@[simp] theorem checkTermination_l (c : Counts) (s : State) : (checkTermination c s).l = s.l := by unfold checkTermination; split <;> rfl
@[simp] theorem checkTermination_mirror (c : Counts) (s : State) : (checkTermination c s).mirror = s.mirror := by unfold checkTermination; split <;> rfl
@[simp] theorem checkTermination_cnt (c : Counts) (s : State) : (checkTermination c s).cnt = s.cnt := by unfold checkTermination; split <;> rfl
@[simp] theorem checkTermination_cntMode (c : Counts) (s : State) : (checkTermination c s).cntMode = s.cntMode := by unfold checkTermination; split <;> rfl
@[simp] theorem checkTermination_settleLeft (c : Counts) (s : State) : (checkTermination c s).settleLeft = s.settleLeft := by unfold checkTermination; split <;> rfl
@[simp] theorem checkTermination_code (c : Counts) (s : State) : (checkTermination c s).code = s.code := by unfold checkTermination; split <;> rfl
@[simp] theorem checkTermination_iter (c : Counts) (s : State) : (checkTermination c s).iter = s.iter := by unfold checkTermination; split <;> rfl
@[simp] theorem checkTermination_inHandler (c : Counts) (s : State) : (checkTermination c s).inHandler = s.inHandler := by unfold checkTermination; split <;> rfl
@[simp] theorem checkTermination_snap (c : Counts) (s : State) : (checkTermination c s).snap = s.snap := by unfold checkTermination; split <;> rfl
@[simp] theorem checkTermination_prevCodes (c : Counts) (s : State) : (checkTermination c s).prevCodes = s.prevCodes := by unfold checkTermination; split <;> rfl
@[simp] theorem checkTermination_faults (c : Counts) (s : State) : (checkTermination c s).faults = s.faults := by unfold checkTermination; split <;> rfl
@[simp] theorem checkTermination_refused (c : Counts) (s : State) : (checkTermination c s).refused = s.refused := by unfold checkTermination; split <;> rfl
@[simp] theorem checkTermination_cfg (c : Counts) (s : State) : (checkTermination c s).cfg = s.cfg := by unfold checkTermination; split <;> rfl
@[simp] theorem checkTermination_refusedBy (c : Counts) (s : State) : (checkTermination c s).refusedBy = s.refusedBy := by unfold checkTermination; split <;> rfl
@[simp] theorem checkTermination_ret (c : Counts) (s : State) : (checkTermination c s).ret = s.ret := by unfold checkTermination; split <;> rfl
@[simp] theorem checkTermination_draws (c : Counts) (s : State) : (checkTermination c s).draws = s.draws := by unfold checkTermination; split <;> rfl
@[simp] theorem checkTermination_todo (c : Counts) (s : State) : (checkTermination c s).todo = s.todo := by unfold checkTermination; split <;> rfl
@[simp] theorem checkTermination_env (c : Counts) (s : State) : (checkTermination c s).env = s.env := by unfold checkTermination; split <;> rfl
@[simp] theorem checkTermination_hand (c : Counts) (s : State) : (checkTermination c s).hand = s.hand := by unfold checkTermination; split <;> rfl
@[simp] theorem checkTermination_waiting (c : Counts) (s : State) : (checkTermination c s).waiting = s.waiting := by unfold checkTermination; split <;> rfl

/-! ### The other agents -/

@[simp] theorem foldl_actStep_env (acts : List Act) (s : State) : (acts.foldl actStep s).env = s.env := by
  induction acts generalizing s with
  | nil => rfl
  | cons x xs ih => simp [ih]

@[simp] theorem agentsStep_env (s : State) : (agentsStep s).env = s.env.tail := by
  unfold agentsStep; split <;> simp_all

theorem foldl_actStep_ascCtrlLast (acts : List Act) (s : State) : (acts.foldl actStep s).ascCtrlLast = s.ascCtrlLast := by
  induction acts generalizing s with
  | nil => rfl
  | cons x xs ih => simp [ih]

@[simp] theorem agentsStep_ascCtrlLast (s : State) : (agentsStep s).ascCtrlLast = s.ascCtrlLast := by
  unfold agentsStep; split <;> simp [foldl_actStep_ascCtrlLast]

theorem foldl_actStep_a (acts : List Act) (s : State) : (acts.foldl actStep s).a = s.a := by
  induction acts generalizing s with
  | nil => rfl
  | cons x xs ih => simp [ih]

@[simp] theorem agentsStep_a (s : State) : (agentsStep s).a = s.a := by
  unfold agentsStep; split <;> simp [foldl_actStep_a]

theorem foldl_actStep_b (acts : List Act) (s : State) : (acts.foldl actStep s).b = s.b := by
  induction acts generalizing s with
  | nil => rfl
  | cons x xs ih => simp [ih]

@[simp] theorem agentsStep_b (s : State) : (agentsStep s).b = s.b := by
  unfold agentsStep; split <;> simp [foldl_actStep_b]

theorem foldl_actStep_l (acts : List Act) (s : State) : (acts.foldl actStep s).l = s.l := by
  induction acts generalizing s with
  | nil => rfl
  | cons x xs ih => simp [ih]

@[simp] theorem agentsStep_l (s : State) : (agentsStep s).l = s.l := by
  unfold agentsStep; split <;> simp [foldl_actStep_l]

theorem foldl_actStep_mirror (acts : List Act) (s : State) : (acts.foldl actStep s).mirror = s.mirror := by
  induction acts generalizing s with
  | nil => rfl
  | cons x xs ih => simp [ih]

@[simp] theorem agentsStep_mirror (s : State) : (agentsStep s).mirror = s.mirror := by
  unfold agentsStep; split <;> simp [foldl_actStep_mirror]

theorem foldl_actStep_cntMode (acts : List Act) (s : State) : (acts.foldl actStep s).cntMode = s.cntMode := by
  induction acts generalizing s with
  | nil => rfl
  | cons x xs ih => simp [ih]

@[simp] theorem agentsStep_cntMode (s : State) : (agentsStep s).cntMode = s.cntMode := by
  unfold agentsStep; split <;> simp [foldl_actStep_cntMode]

theorem foldl_actStep_settleLeft (acts : List Act) (s : State) : (acts.foldl actStep s).settleLeft = s.settleLeft := by
  induction acts generalizing s with
  | nil => rfl
  | cons x xs ih => simp [ih]

@[simp] theorem agentsStep_settleLeft (s : State) : (agentsStep s).settleLeft = s.settleLeft := by
  unfold agentsStep; split <;> simp [foldl_actStep_settleLeft]

theorem foldl_actStep_code (acts : List Act) (s : State) : (acts.foldl actStep s).code = s.code := by
  induction acts generalizing s with
  | nil => rfl
  | cons x xs ih => simp [ih]

@[simp] theorem agentsStep_code (s : State) : (agentsStep s).code = s.code := by
  unfold agentsStep; split <;> simp [foldl_actStep_code]

theorem foldl_actStep_seqState (acts : List Act) (s : State) : (acts.foldl actStep s).seqState = s.seqState := by
  induction acts generalizing s with
  | nil => rfl
  | cons x xs ih => simp [ih]

@[simp] theorem agentsStep_seqState (s : State) : (agentsStep s).seqState = s.seqState := by
  unfold agentsStep; split <;> simp [foldl_actStep_seqState]

theorem foldl_actStep_iter (acts : List Act) (s : State) : (acts.foldl actStep s).iter = s.iter := by
  induction acts generalizing s with
  | nil => rfl
  | cons x xs ih => simp [ih]

@[simp] theorem agentsStep_iter (s : State) : (agentsStep s).iter = s.iter := by
  unfold agentsStep; split <;> simp [foldl_actStep_iter]

theorem foldl_actStep_doneFlag (acts : List Act) (s : State) : (acts.foldl actStep s).doneFlag = s.doneFlag := by
  induction acts generalizing s with
  | nil => rfl
  | cons x xs ih => simp [ih]

@[simp] theorem agentsStep_doneFlag (s : State) : (agentsStep s).doneFlag = s.doneFlag := by
  unfold agentsStep; split <;> simp [foldl_actStep_doneFlag]

theorem foldl_actStep_refEn (acts : List Act) (s : State) : (acts.foldl actStep s).refEn = s.refEn := by
  induction acts generalizing s with
  | nil => rfl
  | cons x xs ih => simp [ih]

@[simp] theorem agentsStep_refEn (s : State) : (agentsStep s).refEn = s.refEn := by
  unfold agentsStep; split <;> simp [foldl_actStep_refEn]

theorem foldl_actStep_inHandler (acts : List Act) (s : State) : (acts.foldl actStep s).inHandler = s.inHandler := by
  induction acts generalizing s with
  | nil => rfl
  | cons x xs ih => simp [ih]

@[simp] theorem agentsStep_inHandler (s : State) : (agentsStep s).inHandler = s.inHandler := by
  unfold agentsStep; split <;> simp [foldl_actStep_inHandler]

theorem foldl_actStep_snap (acts : List Act) (s : State) : (acts.foldl actStep s).snap = s.snap := by
  induction acts generalizing s with
  | nil => rfl
  | cons x xs ih => simp [ih]

@[simp] theorem agentsStep_snap (s : State) : (agentsStep s).snap = s.snap := by
  unfold agentsStep; split <;> simp [foldl_actStep_snap]

theorem foldl_actStep_prevCodes (acts : List Act) (s : State) : (acts.foldl actStep s).prevCodes = s.prevCodes := by
  induction acts generalizing s with
  | nil => rfl
  | cons x xs ih => simp [ih]

@[simp] theorem agentsStep_prevCodes (s : State) : (agentsStep s).prevCodes = s.prevCodes := by
  unfold agentsStep; split <;> simp [foldl_actStep_prevCodes]

theorem foldl_actStep_result (acts : List Act) (s : State) : (acts.foldl actStep s).result = s.result := by
  induction acts generalizing s with
  | nil => rfl
  | cons x xs ih => simp [ih]

@[simp] theorem agentsStep_result (s : State) : (agentsStep s).result = s.result := by
  unfold agentsStep; split <;> simp [foldl_actStep_result]

theorem foldl_actStep_faults (acts : List Act) (s : State) : (acts.foldl actStep s).faults = s.faults := by
  induction acts generalizing s with
  | nil => rfl
  | cons x xs ih => simp [ih]

@[simp] theorem agentsStep_faults (s : State) : (agentsStep s).faults = s.faults := by
  unfold agentsStep; split <;> simp [foldl_actStep_faults]

theorem foldl_actStep_refused (acts : List Act) (s : State) : (acts.foldl actStep s).refused = s.refused := by
  induction acts generalizing s with
  | nil => rfl
  | cons x xs ih => simp [ih]

@[simp] theorem agentsStep_refused (s : State) : (agentsStep s).refused = s.refused := by
  unfold agentsStep; split <;> simp [foldl_actStep_refused]

theorem foldl_actStep_cfg (acts : List Act) (s : State) : (acts.foldl actStep s).cfg = s.cfg := by
  induction acts generalizing s with
  | nil => rfl
  | cons x xs ih => simp [ih]

@[simp] theorem agentsStep_cfg (s : State) : (agentsStep s).cfg = s.cfg := by
  unfold agentsStep; split <;> simp [foldl_actStep_cfg]

theorem foldl_actStep_refusedBy (acts : List Act) (s : State) : (acts.foldl actStep s).refusedBy = s.refusedBy := by
  induction acts generalizing s with
  | nil => rfl
  | cons x xs ih => simp [ih]

@[simp] theorem agentsStep_refusedBy (s : State) : (agentsStep s).refusedBy = s.refusedBy := by
  unfold agentsStep; split <;> simp [foldl_actStep_refusedBy]

theorem foldl_actStep_ret (acts : List Act) (s : State) : (acts.foldl actStep s).ret = s.ret := by
  induction acts generalizing s with
  | nil => rfl
  | cons x xs ih => simp [ih]

@[simp] theorem agentsStep_ret (s : State) : (agentsStep s).ret = s.ret := by
  unfold agentsStep; split <;> simp [foldl_actStep_ret]

theorem foldl_actStep_todo (acts : List Act) (s : State) : (acts.foldl actStep s).todo = s.todo := by
  induction acts generalizing s with
  | nil => rfl
  | cons x xs ih => simp [ih]

@[simp] theorem agentsStep_todo (s : State) : (agentsStep s).todo = s.todo := by
  unfold agentsStep; split <;> simp [foldl_actStep_todo]

theorem foldl_actStep_hand (acts : List Act) (s : State) : (acts.foldl actStep s).hand = s.hand := by
  induction acts generalizing s with
  | nil => rfl
  | cons x xs ih => simp [ih]

@[simp] theorem agentsStep_hand (s : State) : (agentsStep s).hand = s.hand := by
  unfold agentsStep; split <;> simp [foldl_actStep_hand]

theorem foldl_actStep_waiting (acts : List Act) (s : State) : (acts.foldl actStep s).waiting = s.waiting := by
  induction acts generalizing s with
  | nil => rfl
  | cons x xs ih => simp [ih]

@[simp] theorem agentsStep_waiting (s : State) : (agentsStep s).waiting = s.waiting := by
  unfold agentsStep; split <;> simp [foldl_actStep_waiting]

end Sys2Proof.Machine
end

