-- ==== Sys2Proof/Laws/Words.lean ====
section
/-! SUPPORT. The control word bit by bit, its admission, the constraints of a sound configuration, and the bit maps of
positions and stages. -/

namespace Sys2Proof.Machine

/-! ### Single bits -/

theorem wordBit_bitAt (b : Bool) (i j : Nat) :
    wordBit (bitAt b i) j = (b && decide (j = i) && decide (i < 32)) := by
  unfold wordBit bitAt
  cases b
  · simp
  · simp only [if_true, BitVec.getLsbD_shiftLeft, BitVec.getLsbD_one, Bool.true_and]
    by_cases hji : j = i
    · subst hji
      by_cases h : j < 32 <;> simp [h]
    · have hne : decide (j = i) = false := by simp [hji]
      rw [hne]
      by_cases hlt : j < i
      · simp [hlt]
      · have : j - i ≠ 0 := by omega
        simp [this]

@[simp] theorem wordBit_or (v w : Word) (i : Nat) : wordBit (v ||| w) i = (wordBit v i || wordBit w i) := by
  simp [wordBit]

theorem wordBit_lt {v : Word} {i : Nat} (h : wordBit v i = true) : i < 32 := by
  rcases Nat.lt_or_ge i 32 with hi | hi
  · exact hi
  · simp [wordBit, BitVec.getLsbD_of_ge v i hi] at h

theorem word_ext {v w : Word} (h : ∀ i, i < 32 → wordBit v i = wordBit w i) : v = w :=
  BitVec.eq_of_getLsbD_eq fun i hi => h i hi

theorem wordBit_ascw (cfg : Config) (d p1 p2 ld : Bool) (i : Nat) :
    wordBit (ascw cfg d p1 p2 ld) i =
      ((d && decide (i = cfg.bitData) && decide (cfg.bitData < 32))
        || (p1 && decide (i = cfg.bitPhi1) && decide (cfg.bitPhi1 < 32))
        || (p2 && decide (i = cfg.bitPhi2) && decide (cfg.bitPhi2 < 32))
        || (ld && decide (i = cfg.bitLoad) && decide (cfg.bitLoad < 32))
        || (cfg.rstInactive && decide (i = cfg.bitRst) && decide (cfg.bitRst < 32))) := by
  simp only [ascw, wordBit_or, wordBit_bitAt]

theorem wordBit_sigMask (cfg : Config) (i : Nat) :
    wordBit (sigMask cfg) i = (decide (i < 32) && decide (i ∈ cfg.signalBits)) := by
  simp only [sigMask, wordBit_or, wordBit_bitAt, Config.signalBits, Bool.true_and]
  rw [Bool.eq_iff_iff]
  simp only [Bool.or_eq_true, Bool.and_eq_true, decide_eq_true_eq, List.mem_cons, List.not_mem_nil, or_false]
  constructor
  · rintro ((((⟨rfl, h⟩ | ⟨rfl, h⟩) | ⟨rfl, h⟩) | ⟨rfl, h⟩) | ⟨rfl, h⟩) <;> exact ⟨h, by simp⟩
  · rintro ⟨h, rfl | rfl | rfl | rfl | rfl⟩ <;> simp [h]

/-- A control word is admitted by its reserved bits exactly when its set bits are signal bits (R72, R100). -/
theorem admitted_iff (cfg : Config) (v : Word) :
    v &&& ~~~(sigMask cfg) = 0 ↔ ∀ i, wordBit v i = true → i ∈ cfg.signalBits := by
  constructor
  · intro h i hi
    have hlt := wordBit_lt hi
    have h2 : wordBit (v &&& ~~~(sigMask cfg)) i = wordBit (0 : Word) i := by rw [h]
    have h3 := wordBit_sigMask cfg i
    have h4 : wordBit (v &&& ~~~(sigMask cfg)) i = !(wordBit (sigMask cfg) i) := by
      simp only [wordBit] at hi ⊢
      simp only [BitVec.getLsbD_and, BitVec.getLsbD_not, hi, hlt, decide_true, Bool.true_and]
    rw [h4, h3] at h2
    simpa [wordBit, hlt] using h2
  · intro h
    apply word_ext
    intro i hi
    have h3 := wordBit_sigMask cfg i
    have h4 := h i
    simp only [wordBit] at h3 h4 ⊢
    by_cases hv : v.getLsbD i = true
    · simp [hi, hv, h3, h4 hv]
    · simp [Bool.eq_false_iff.mpr hv]

/-! ### A sound configuration -/

/-- What `Config.ok` gives of the signal bits. -/
structure SoundSignals (cfg : Config) : Prop where
  data : cfg.bitData < 32
  phi1 : cfg.bitPhi1 < 32
  phi2 : cfg.bitPhi2 < 32
  load : cfg.bitLoad < 32
  rst : cfg.bitRst < 32
  nodup : cfg.signalBits.Nodup

theorem Config.ok_signals {cfg : Config} (h : cfg.ok = true) : SoundSignals cfg := by
  simp only [Config.ok, Bool.and_eq_true, decide_eq_true_eq, List.all_eq_true] at h
  have hb := h.1.1.1.1.1.1.2
  have hn := h.1.1.1.1.1.1.1.2
  exact ⟨hb _ (by simp [Config.signalBits]), hb _ (by simp [Config.signalBits]), hb _ (by simp [Config.signalBits]),
    hb _ (by simp [Config.signalBits]), hb _ (by simp [Config.signalBits]), hn⟩

theorem Config.ok_addresses {cfg : Config} (h : cfg.ok = true) :
    cfg.addresses.Nodup ∧ ∀ x ∈ cfg.addresses, x % 4 = 0 := by
  simp only [Config.ok, Bool.and_eq_true, decide_eq_true_eq, List.all_eq_true, beq_iff_eq] at h
  exact ⟨h.1.1.1.1.1.1.1.1.1, h.1.1.1.1.1.1.1.1.2⟩

theorem Config.ok_patterns {cfg : Config} (h : cfg.ok = true) : cfg.patterns.Nodup := by
  simp only [Config.ok, Bool.and_eq_true, decide_eq_true_eq] at h
  exact h.1.1.1.1.1.2

theorem Config.ok_thresholds {cfg : Config} (h : cfg.ok = true) :
    cfg.rc2mTFine < cfg.rc2mTCoarse ∧ cfg.rc2mTSuperfine < cfg.rc2mTFine := by
  simp only [Config.ok, Bool.and_eq_true, decide_eq_true_eq] at h
  exact ⟨h.1.1.2, h.1.2⟩

theorem ChainField.mem_all (f : ChainField) : f ∈ ChainField.all := by cases f <;> decide

theorem Field.mem_all (f : Field) : f ∈ Field.all := by cases f <;> decide

/-- What `Config.ok` gives of the store's range (R28). -/
theorem Config.ok_codes {cfg : Config} (h : cfg.ok = true) :
    (∀ f, maxOf cfg f < codeBound ∧ cfg.initCodes.get f < codeBound)
      ∧ ∀ k, cfg.ifFineUnderflow = .carry k → k < codeBound := by
  simp only [Config.ok, Config.codesFit, Bool.and_eq_true, List.all_eq_true, decide_eq_true_eq] at h
  refine ⟨fun f => h.2.1 f (Field.mem_all f), fun k hk => ?_⟩
  simpa [IfUnderflow.reset?, hk] using h.2.2

theorem Config.ok_field {cfg : Config} (h : cfg.ok = true) (f : ChainField) :
    cfg.fieldPos.get f + cfg.width.get f ≤ nAsc := by
  simp only [Config.ok, Bool.and_eq_true, List.all_eq_true] at h
  have := h.1.1.1.1.2 (cfg.fieldPos.get f, cfg.width.get f)
    (by unfold Config.fields; exact List.mem_map.mpr ⟨f, ChainField.mem_all f, rfl⟩)
  simpa using this

theorem disjointSpans_symm {x y : Nat × Nat} (h : disjointSpans x y = true) : disjointSpans y x = true := by
  simp only [disjointSpans, Bool.or_eq_true, decide_eq_true_eq] at h ⊢
  omega

theorem allDisjoint_pairwise {l : List (Nat × Nat)} :
    allDisjoint l = true ↔ l.Pairwise fun x y => disjointSpans x y = true := by
  induction l with
  | nil => simp [allDisjoint]
  | cons x xs ih => simp [allDisjoint, List.pairwise_cons, ih]

/-- Two code fields share no position (R212). -/
theorem Config.ok_disjoint {cfg : Config} (h : cfg.ok = true) {f g : ChainField} (hfg : f ≠ g) :
    disjointSpans (cfg.fieldPos.get f, cfg.width.get f) (cfg.fieldPos.get g, cfg.width.get g) = true := by
  simp only [Config.ok, Bool.and_eq_true] at h
  have hp := allDisjoint_pairwise.mp h.1.1.1.2
  unfold Config.fields at hp
  rw [List.pairwise_map] at hp
  have hsym : Std.Symm fun x y : ChainField => disjointSpans (cfg.fieldPos.get x, cfg.width.get x)
      (cfg.fieldPos.get y, cfg.width.get y) = true := ⟨fun _ _ hxy => disjointSpans_symm hxy⟩
  exact hp.forall (ChainField.mem_all f) (ChainField.mem_all g) hfg

/-! ### The word of given signal levels (R71) -/

theorem ascw_fields {cfg : Config} (h : cfg.ok = true) (d p1 p2 ld : Bool) :
    wordBit (ascw cfg d p1 p2 ld) cfg.bitData = d ∧ wordBit (ascw cfg d p1 p2 ld) cfg.bitPhi1 = p1
      ∧ wordBit (ascw cfg d p1 p2 ld) cfg.bitPhi2 = p2 ∧ wordBit (ascw cfg d p1 p2 ld) cfg.bitLoad = ld
      ∧ wordBit (ascw cfg d p1 p2 ld) cfg.bitRst = cfg.rstInactive := by
  obtain ⟨h1, h2, h3, h4, h5, hn⟩ := Config.ok_signals h
  simp only [Config.signalBits, List.nodup_cons, List.mem_cons, List.not_mem_nil, not_or, or_false] at hn
  obtain ⟨⟨n1, n2, n3, n4⟩, ⟨n5, n6, n7⟩, ⟨n8, n9⟩, n10, -⟩ := hn
  simp only [wordBit_ascw, h1, h2, h3, h4, h5, n1, n2, n3, n4, n5, n6, n7, n8, n9, n10, Ne.symm n1, Ne.symm n2,
    Ne.symm n3, Ne.symm n4, Ne.symm n5, Ne.symm n6, Ne.symm n7, Ne.symm n8, Ne.symm n9, Ne.symm n10, decide_true,
    decide_false, Bool.and_true, Bool.and_false, Bool.or_false, Bool.false_or, and_self]

theorem ascw_admitted (cfg : Config) (d p1 p2 ld : Bool) : ascw cfg d p1 p2 ld &&& ~~~(sigMask cfg) = 0 := by
  rw [admitted_iff]
  intro i hi
  rw [wordBit_ascw] at hi
  simp only [Bool.or_eq_true, Bool.and_eq_true, decide_eq_true_eq] at hi
  simp only [Config.signalBits, List.mem_cons, List.not_mem_nil, or_false]
  rcases hi with (((h | h) | h) | h) | h <;> simp [h.1.2]

theorem levelsOf_ascw {cfg : Config} (h : cfg.ok = true) (d p1 p2 ld : Bool) :
    levelsOf cfg (ascw cfg d p1 p2 ld) =
      { d := Bit3.ofBool d
        ia := match cfg.phaseRole with | .p2Input => Bit3.ofBool p2 | .p1Input => Bit3.ofBool p1
        ib := match cfg.phaseRole with | .p2Input => Bit3.ofBool p1 | .p1Input => Bit3.ofBool p2
        ld := Bit3.ofBool ld } := by
  obtain ⟨e1, e2, e3, e4, -⟩ := ascw_fields h d p1 p2 ld
  cases hr : cfg.phaseRole <;> simp only [levelsOf, hr, e1, e2, e3, e4]

/-! ### Holding every signal but LOAD (R117) -/

theorem wordBit_loadHigh (cfg : Config) (v : Word) (i : Nat) :
    wordBit (loadHigh cfg v) i = (wordBit v i || (decide (i = cfg.bitLoad) && decide (cfg.bitLoad < 32))) := by
  simp [loadHigh, wordBit_bitAt]

theorem wordBit_loadLow (cfg : Config) (v : Word) (i : Nat) :
    wordBit (loadLow cfg v) i = (wordBit v i && !(decide (i = cfg.bitLoad) && decide (cfg.bitLoad < 32))) := by
  rcases Nat.lt_or_ge i 32 with hi | hi
  · have := wordBit_bitAt true cfg.bitLoad i
    simp only [wordBit, loadLow, BitVec.getLsbD_and, BitVec.getLsbD_not] at this ⊢
    rw [this]
    simp [hi]
  · have h1 : ∀ w : Word, wordBit w i = false := fun w => by
      simp [wordBit, BitVec.getLsbD_of_ge w i hi]
    simp [h1]

/-! ### Positions and stages (R76, R77) -/

theorem wordOf_lt {p : Nat} (h : p < nAsc) : wordOf p < nWords := by unfold wordOf nWords; unfold nAsc at h; omega

theorem stageOf_lt {p : Nat} (h : p < nAsc) : stageOf p < nAsc := by unfold stageOf nAsc; unfold nAsc at h; omega

theorem stageOf_stageOf (p : Nat) : stageOf (stageOf p) = p := by unfold stageOf; omega

theorem stageOf_div (p : Nat) : stageOf p / 32 = wordOf p := by unfold stageOf wordOf; omega

theorem stageOf_mod (p : Nat) : stageOf p % 32 = bitOf p := by unfold stageOf bitOf; omega

theorem bitOf_lt (p : Nat) : bitOf p < 32 := by unfold bitOf; omega

theorem wordBit_maskOf (p j : Nat) : wordBit (maskOf p) j = decide (j = bitOf p) := by
  have h : ∀ (o : Fin 32) (k : Fin 32), (0x80000000#32 >>> o.val).getLsbD k.val = decide (k.val = 31 - o.val) := by
    decide
  rcases Nat.lt_or_ge j 32 with hj | hj
  · exact h ⟨p % 32, Nat.mod_lt _ (by decide)⟩ ⟨j, hj⟩
  · have hb := bitOf_lt p
    have hne : j ≠ bitOf p := by omega
    simp only [wordBit, BitVec.getLsbD_of_ge _ j hj, hne, decide_false]

/-- Positions of one word are told apart by their bit. -/
theorem bitOf_inj {p q : Nat} (hw : wordOf p = wordOf q) (hb : bitOf p = bitOf q) : p = q := by
  unfold wordOf at hw; unfold bitOf at hb; omega

theorem wordBit_set (v : Word) (p j : Nat) :
    wordBit (v ||| maskOf p) j = (decide (j = bitOf p) || wordBit v j) := by
  rw [wordBit_or, wordBit_maskOf, Bool.or_comm]

theorem wordBit_clear (v : Word) (p j : Nat) (hj : j < 32) :
    wordBit (v &&& ~~~(maskOf p)) j = (!decide (j = bitOf p) && wordBit v j) := by
  have := wordBit_maskOf p j
  simp only [wordBit, BitVec.getLsbD_and, BitVec.getLsbD_not] at this ⊢
  rw [this]
  simp [hj, Bool.and_comm]

end Sys2Proof.Machine
end

