-- ==== Sys2Proof/Laws/Chain.lean ====
section
/-! SUPPORT. One write of the control register: the latches and the live configuration after it, element by element
(40_scan_chain.md R101 to R106), and the chain invariant. -/

namespace Sys2Proof.Machine

/-! ### Chains by element -/

@[simp] theorem chain_at_ofFn (f : Nat → Bit3) {i : Nat} (h : i < nAsc) : (Chain.ofFn f).at i = f i := by
  unfold nAsc at h
  simp [Chain.ofFn, Chain.at, h]

@[simp] theorem chain_at_allX (i : Nat) : Chain.allX.at i = .x := by
  unfold Chain.at Chain.allX
  rcases Nat.lt_or_ge i 1216 with h | h
  · simp [h]
  · simp [Nat.not_lt.mpr h]

theorem chain_ext {x y : Chain} (h : ∀ i, i < nAsc → x.at i = y.at i) : x = y := by
  apply Vector.ext
  intro i hi
  have := h i hi
  simpa [Chain.at, hi] using this

/-! ### Three-valued bits -/

@[simp] theorem bit3_ofBool_ne_x (b : Bool) : Bit3.ofBool b ≠ .x := by cases b <;> decide
@[simp] theorem bit3_changed_ofBool (a b : Bool) : Bit3.changed (Bit3.ofBool a) (Bit3.ofBool b) = (a != b) := by
  cases a <;> cases b <;> rfl
@[simp] theorem bit3_changed_x_left (b : Bit3) : Bit3.changed .x b = true := by cases b <;> rfl
@[simp] theorem bit3_changed_x_right (b : Bit3) : Bit3.changed b .x = true := by cases b <;> rfl
@[simp] theorem bit3_ofBool_eq_one (b : Bool) : Bit3.ofBool b = .one ↔ b = true := by cases b <;> decide
@[simp] theorem bit3_ofBool_eq_zero (b : Bool) : Bit3.ofBool b = .zero ↔ b = false := by cases b <;> decide

theorem bit3_changed_self (b : Bit3) : Bit3.changed b b = decide (b = .x) := by cases b <;> rfl

theorem bit3_changed_false {a b : Bit3} (h : Bit3.changed a b = false) : a = b := by
  cases a <;> cases b <;> simp_all [Bit3.changed, Bit3.same]

/-! ### The parts of a write -/

theorem latchWrite_a (v : Word) (s : State) : (latchWrite v s).a =
    if phasesRace (levelsBefore s.cfg s.ascCtrlLast) (levelsOf s.cfg v) then Chain.allX
    else inputLatches (levelsBefore s.cfg s.ascCtrlLast) (levelsOf s.cfg v) s.a s.b := rfl

theorem latchWrite_b (v : Word) (s : State) : (latchWrite v s).b =
    if phasesRace (levelsBefore s.cfg s.ascCtrlLast) (levelsOf s.cfg v) then Chain.allX
    else outputLatches (levelsOf s.cfg v) (latchWrite v s).a s.b := by
  rw [latchWrite_a]
  by_cases h : phasesRace (levelsBefore s.cfg s.ascCtrlLast) (levelsOf s.cfg v) = true <;>
    simp [latchWrite, setChain, h]

theorem latchWrite_l (v : Word) (s : State) : (latchWrite v s).l =
    loadStep (levelsBefore s.cfg s.ascCtrlLast) (levelsOf s.cfg v) s.b (latchWrite v s).b s.l := rfl

theorem levelsOf_known (cfg : Config) (v : Word) :
    (levelsOf cfg v).d ≠ .x ∧ (levelsOf cfg v).ia ≠ .x ∧ (levelsOf cfg v).ib ≠ .x ∧ (levelsOf cfg v).ld ≠ .x := by
  cases h : cfg.phaseRole <;> simp [levelsOf, h]

theorem levelsOf_ia (cfg : Config) (v : Word) : (levelsOf cfg v).ia = .one ∨ (levelsOf cfg v).ia = .zero := by
  have := (levelsOf_known cfg v).2.1
  cases h : (levelsOf cfg v).ia <;> simp_all

theorem levelsOf_ib (cfg : Config) (v : Word) : (levelsOf cfg v).ib = .one ∨ (levelsOf cfg v).ib = .zero := by
  have := (levelsOf_known cfg v).2.2.1
  cases h : (levelsOf cfg v).ib <;> simp_all

theorem levelsOf_ld (cfg : Config) (v : Word) : (levelsOf cfg v).ld = .one ∨ (levelsOf cfg v).ld = .zero := by
  have := (levelsOf_known cfg v).2.2.2
  cases h : (levelsOf cfg v).ld <;> simp_all

/-- The overlap of R102: every latch is X. -/
theorem latchWrite_race {v : Word} {s : State}
    (h : phasesRace (levelsBefore s.cfg s.ascCtrlLast) (levelsOf s.cfg v) = true) :
    (latchWrite v s).a = Chain.allX ∧ (latchWrite v s).b = Chain.allX := by
  rw [latchWrite_b, latchWrite_a]; simp [h]

/-- Open input latches (R103): DATA enters stage 0 and every other stage takes its neighbour's output. -/
theorem inputLatches_open {before after : Levels} (a b : Chain) (h : after.ia = .one) {i : Nat} (hi : i < nAsc) :
    (inputLatches before after a b).at i = if i = 0 then after.d else b.at (i - 1) := by
  simp [inputLatches, h, hi]

/-- Closed input latches whose closing edge moved DATA (R103, R305). -/
theorem inputLatches_race {before after : Levels} (a b : Chain) (h : after.ia ≠ .one)
    (hd : dataRace before after = true) {i : Nat} (hi : i < nAsc) :
    (inputLatches before after a b).at i = if i = 0 then .x else a.at i := by
  simp [inputLatches, h, hd, hi]

/-- Input latches that hold (R103). -/
theorem inputLatches_hold {before after : Levels} (a b : Chain) (h : after.ia ≠ .one)
    (hd : dataRace before after = false) : inputLatches before after a b = a := by
  simp [inputLatches, h, hd]

/-- The live configuration, position by position (R105). -/
theorem loadStep_at (before after : Levels) (bold b l : Chain) {p : Nat} (hp : p < nAsc) :
    (loadStep before after bold b l).at p =
      if before.ld = .zero ∧ after.ld = .zero then l.at p
      else loadBit before.ld after.ld (bold.at (stageOf p)) (b.at (stageOf p)) (l.at p) := by
  unfold loadStep
  split
  · rfl
  · simp [hp]

/-- With LOAD low before and after, the live configuration stays (R105). -/
theorem loadStep_low {before after : Levels} (bold b l : Chain) (h0 : before.ld = .zero) (h : after.ld = .zero) :
    loadStep before after bold b l = l := by
  simp [loadStep, h0, h]

/-! ### The chain invariant (the reachable states of R115) -/

theorem chainInv_latchWrite (v : Word) (s : State) : chainInv (latchWrite v s) := by
  have hl : (latchWrite v s).ascCtrlLast = some v := rfl
  unfold chainInv
  rw [hl, latchWrite_cfg]
  refine ⟨fun ha hb => latchWrite_race ?_, fun hld p hp hx => ?_⟩
  · simp [phasesRace, ha, hb]
  · rw [latchWrite_l, loadStep_at _ _ _ _ _ hp, hld, hx]
    simp [loadBit]

theorem chainInv_congr {s t : State} (h1 : t.ascCtrlLast = s.ascCtrlLast) (h2 : t.a = s.a) (h3 : t.b = s.b)
    (h4 : t.l = s.l) (h5 : t.cfg = s.cfg) (h : chainInv s) : chainInv t := by
  unfold chainInv at h ⊢
  rw [h1, h2, h3, h4, h5]
  exact h

end Sys2Proof.Machine
end

