-- ==== Sys2Proof/Laws/Mirror.lean ====
section
/-! SUPPORT. The mirror: reads after writes, the canonical form, single positions and fields (40_scan_chain.md R108 to
R113, 30_encoding.md R76, R79). -/

namespace Sys2Proof.Machine

/-! ### Words -/

theorem memory_read_write_same (m : Memory) (w : Nat) (v : Word) : (m.write w v).read w = some v := by
  induction m with
  | nil => simp [Memory.write, Memory.read]
  | cons e m ih =>
    unfold Memory.write
    split
    · simp [Memory.read]
    · split
      · simp [Memory.read]
      · next h1 h2 =>
        have hne : (e.1 == w) = false := by simp; omega
        simpa [Memory.read, List.find?_cons, hne] using ih

theorem memory_read_write_other (m : Memory) {w w' : Nat} (v : Word) (h : w' ≠ w) :
    (m.write w v).read w' = m.read w' := by
  induction m with
  | nil =>
    have : (w == w') = false := by simp; omega
    simp [Memory.write, Memory.read, this]
  | cons e m ih =>
    have hne : (w == w') = false := by simp; omega
    unfold Memory.write
    split
    · simp [Memory.read, List.find?_cons, hne]
    · split
      · next h1 h2 =>
        have he : (e.1 == w') = false := by simp; omega
        simp [Memory.read, hne, he]
      · cases he : (e.1 == w')
        · simpa [Memory.read, List.find?_cons, he] using ih
        · simp [Memory.read, he]

theorem memory_read_write (m : Memory) (w w' : Nat) (v : Word) :
    (m.write w v).read w' = if w' = w then some v else m.read w' := by
  split
  · next h => rw [h, memory_read_write_same]
  · next h => exact memory_read_write_other m v h

/-! ### The canonical form -/

theorem memory_rising_cons {e : Nat × Word} {m : Memory} :
    Memory.rising (e :: m) = true ↔ (∀ x ∈ m, e.1 < x.1) ∧ Memory.rising m = true := by
  induction m generalizing e with
  | nil => simp [Memory.rising]
  | cons y m ih =>
    have h := @ih y
    simp only [Memory.rising, Bool.and_eq_true, decide_eq_true_eq, List.forall_mem_cons]
    constructor
    · rintro ⟨h1, h2⟩
      exact ⟨⟨h1, fun x hx => Nat.lt_trans h1 ((h.mp h2).1 x hx)⟩, h2⟩
    · rintro ⟨⟨h1, -⟩, h2⟩
      exact ⟨h1, h2⟩

theorem memory_mem_write {m : Memory} {w : Nat} {v : Word} {x : Nat × Word} (h : x ∈ m.write w v) :
    x = (w, v) ∨ x ∈ m := by
  induction m with
  | nil => simpa [Memory.write] using h
  | cons e m ih =>
    unfold Memory.write at h
    split at h
    · simpa using h
    · split at h
      · rcases List.mem_cons.mp h with h | h
        · exact .inl h
        · exact .inr (List.mem_cons_of_mem _ h)
      · rcases List.mem_cons.mp h with h | h
        · exact .inr (by simp [h])
        · rcases ih h with h | h
          · exact .inl h
          · exact .inr (List.mem_cons_of_mem _ h)

theorem memory_rising_write {m : Memory} (w : Nat) (v : Word) (h : Memory.rising m = true) :
    Memory.rising (m.write w v) = true := by
  induction m with
  | nil => rfl
  | cons e m ih =>
    obtain ⟨h1, h2⟩ := memory_rising_cons.mp h
    unfold Memory.write
    split
    · next hlt =>
      refine memory_rising_cons.mpr ⟨fun x hx => ?_, h⟩
      rcases List.mem_cons.mp hx with hx | hx
      · rw [hx]; exact hlt
      · exact Nat.lt_trans hlt (h1 x hx)
    · split
      · next _ heq => exact memory_rising_cons.mpr ⟨fun x hx => by rw [heq]; exact h1 x hx, h2⟩
      · next hlt hne =>
        refine memory_rising_cons.mpr ⟨fun x hx => ?_, ih h2⟩
        rcases memory_mem_write hx with hx | hx
        · rw [hx]; show e.1 < w; omega
        · exact h1 x hx

/-- Writing a word of the mirror keeps the canonical form. -/
theorem memory_wf_write {m : Memory} {w : Nat} (v : Word) (hw : w < nWords) (h : m.wf = true) :
    (m.write w v).wf = true := by
  simp only [Memory.wf, Bool.and_eq_true, List.all_eq_true, decide_eq_true_eq] at h ⊢
  refine ⟨memory_rising_write w v h.1, fun x hx => ?_⟩
  rcases memory_mem_write hx with hx | hx
  · rw [hx]; exact hw
  · exact h.2 x hx

/-! ### Positions -/

theorem memory_bit_of_read {m : Memory} {p : Nat} {v : Word} (h : m.read (wordOf p) = some v) :
    m.bit p = some (wordBit v (bitOf p)) := by simp [Memory.bit, h]

theorem memory_bit_congr {m m' : Memory} (h : ∀ w, m'.read w = m.read w) (p : Nat) : m'.bit p = m.bit p := by
  simp [Memory.bit, h]

/-- What a change of one word's bit p does to every position. -/
theorem memory_bit_write {m : Memory} {p : Nat} {v v' : Word} {b : Bool} (h : m.read (wordOf p) = some v)
    (hb : ∀ j, j < 32 → wordBit v' j = if j = bitOf p then b else wordBit v j) (q : Nat) :
    (m.write (wordOf p) v').bit q = if q = p then some b else m.bit q := by
  unfold Memory.bit
  rw [memory_read_write]
  by_cases hw : wordOf q = wordOf p
  · rw [if_pos hw, hw, h]
    simp only [Option.map_some, hb (bitOf q) (bitOf_lt q)]
    by_cases hq : q = p
    · simp [hq]
    · have : bitOf q ≠ bitOf p := fun hbit => hq (bitOf_inj hw hbit)
      simp [hq, this]
  · have : q ≠ p := fun hq => hw (by rw [hq])
    rw [if_neg hw, if_neg this]

theorem memory_full_read {m : Memory} (h : m.full) {p : Nat} (hp : p < nAsc) : ∃ v, m.read (wordOf p) = some v :=
  Option.ne_none_iff_exists'.mp (h _ (wordOf_lt hp))

theorem memory_full_write {m : Memory} (h : m.full) (w : Nat) (v : Word) : (m.write w v).full := by
  intro w' hw'
  rw [memory_read_write]
  split
  · simp
  · exact h w' hw'

/-! ### The single-position operations -/

theorem ascSetBit_ok {s : State} {p : Nat} {v : Word} (hp : p < nAsc) (h : s.mirror.read (wordOf p) = some v) :
    ascSetBit p s = .ok () (setMirror (s.mirror.write (wordOf p) (v ||| maskOf p)) s) := by
  simp [ascSetBit, modifyBit, checkPosition, readMirror, Res.andThen, Res.bind, hp, h]

theorem ascClearBit_ok {s : State} {p : Nat} {v : Word} (hp : p < nAsc) (h : s.mirror.read (wordOf p) = some v) :
    ascClearBit p s = .ok () (setMirror (s.mirror.write (wordOf p) (v &&& ~~~(maskOf p))) s) := by
  simp [ascClearBit, modifyBit, checkPosition, readMirror, Res.andThen, Res.bind, hp, h]

/-- Setting or clearing one position, by the level wanted. -/
theorem writeBit_ok {s : State} {p : Nat} (b : Bool) (hp : p < nAsc) (h : s.mirror.read (wordOf p) ≠ none) :
    ∃ m, (if b then ascSetBit p s else ascClearBit p s) = .ok () (setMirror m s)
      ∧ (∀ q, m.bit q = if q = p then some b else s.mirror.bit q)
      ∧ (∀ w, m.read w = none ↔ s.mirror.read w = none) := by
  obtain ⟨v, hv⟩ := Option.ne_none_iff_exists'.mp h
  have hnone : ∀ v' w, (s.mirror.write (wordOf p) v').read w = none ↔ s.mirror.read w = none := by
    intro v' w
    rw [memory_read_write]
    split
    · next heq => rw [heq, hv]; simp
    · rfl
  cases b
  · refine ⟨_, by simpa using ascClearBit_ok hp hv, memory_bit_write hv fun j hj => ?_, hnone _⟩
    rw [wordBit_clear v p j hj]
    by_cases hjb : j = bitOf p <;> simp [hjb]
  · refine ⟨_, by simpa using ascSetBit_ok hp hv, memory_bit_write hv fun j _ => ?_, hnone _⟩
    rw [wordBit_set v p j]
    by_cases hjb : j = bitOf p <;> simp [hjb]

/-! ### Fields -/

theorem writeBits_ok (last v : Nat) {s : State} (n : Nat) (hn : n ≤ last + 1) (hlast : last < nAsc)
    (h : ∀ j, j < n → s.mirror.read (wordOf (last - j)) ≠ none) :
    ∃ m, writeBits last v n s = .ok () (setMirror m s)
      ∧ (∀ j, j < n → m.bit (last - j) = some (v.testBit j))
      ∧ (∀ q, (q + n ≤ last ∨ last < q) → m.bit q = s.mirror.bit q)
      ∧ (∀ w, m.read w = none ↔ s.mirror.read w = none) := by
  induction n generalizing s with
  | zero => exact ⟨s.mirror, rfl, by simp, fun _ _ => rfl, fun _ => Iff.rfl⟩
  | succ n ih =>
    obtain ⟨m, hm, hbit, hnone⟩ := writeBit_ok (s := s) (p := last - n) (v.testBit n) (by omega) (h n (by omega))
    have hread : ∀ j, j < n → (setMirror m s).mirror.read (wordOf (last - j)) ≠ none := fun j hj hc =>
      h j (by omega) ((hnone _).mp hc)
    obtain ⟨m', hm', h1, h2, h3⟩ := ih (s := setMirror m s) (by omega) hread
    refine ⟨m', ?_, ?_, ?_, ?_⟩
    · unfold writeBits
      rw [hm]
      simpa [Res.andThen, Res.bind, setMirror] using hm'
    · intro j hj
      rcases Nat.lt_or_ge j n with hjn | hjn
      · exact h1 j hjn
      · have : j = n := by omega
        subst this
        rw [h2 _ (by omega)]
        simp [hbit]
    · intro q hq
      rw [h2 q (by omega)]
      have : q ≠ last - n := by omega
      simp [hbit, this]
    · intro w
      rw [h3 w]
      exact hnone w

theorem firstUnwritten_none {m : Memory} {lo count : Nat} (h : ∀ w, lo ≤ w → w < lo + count → m.read w ≠ none) :
    firstUnwritten m lo count = none := by
  unfold firstUnwritten
  rw [List.find?_eq_none]
  intro w hw
  rw [List.mem_range'_1] at hw
  simpa using h w hw.1 hw.2

theorem firstUnwritten_some {m : Memory} {lo count w : Nat} (h1 : lo ≤ w) (h2 : w < lo + count)
    (h3 : m.read w = none) (h4 : ∀ w', lo ≤ w' → w' < w → m.read w' ≠ none) :
    firstUnwritten m lo count = some w := by
  induction count generalizing lo with
  | zero => omega
  | succ n ih =>
    unfold firstUnwritten
    rw [List.range'_succ, List.find?_cons]
    by_cases hlo : lo = w
    · subst hlo; simp [h3]
    · have hne := h4 lo (by omega) (by omega)
      have : (m.read lo).isNone = false := by
        cases hr : m.read lo with
        | none => exact absurd hr hne
        | some v => rfl
      rw [this]
      have := ih (lo := lo + 1) (by omega) (by omega) (fun w' ha hb => h4 w' (by omega) hb)
      simpa [firstUnwritten] using this

/-- ASC_WRITE_FIELD inside its ranges, on written words (R79, R113). -/
theorem ascWriteField_ok {s : State} {p n v : Nat} (hn : 1 ≤ n) (hp : p + n ≤ nAsc) (hv : v < 2 ^ n)
    (h : ∀ w, wordOf p ≤ w → w ≤ wordOf (p + n - 1) → s.mirror.read w ≠ none) :
    ∃ m, ascWriteField p n v s = .ok () (setMirror m s)
      ∧ (∀ i, i < n → m.bit (p + i) = some (v.testBit (n - 1 - i)))
      ∧ (∀ q, q < p ∨ p + n ≤ q → m.bit q = s.mirror.bit q)
      ∧ (∀ w, m.read w = none ↔ s.mirror.read w = none) := by
  obtain ⟨m, hm, h1, h2, h3⟩ := writeBits_ok (p + n - 1) v (s := s) n (by omega) (by omega) (fun j hj => by
    apply h
    · unfold wordOf; omega
    · unfold wordOf; omega)
  refine ⟨m, ?_, fun i hi => ?_, fun q hq => h2 q (by omega), h3⟩
  · have hfu : firstUnwritten s.mirror (wordOf p) (wordOf (p + n - 1) - wordOf p + 1) = none :=
      firstUnwritten_none fun w hw1 hw2 => h w hw1 (by unfold wordOf at hw2 ⊢; unfold wordOf at hw1; omega)
    unfold ascWriteField
    rw [if_neg (by omega), if_neg (by omega), hfu]
    exact hm
  · have := h1 (n - 1 - i) (by omega)
    have he : p + n - 1 - (n - 1 - i) = p + i := by omega
    rwa [he] at this

end Sys2Proof.Machine
end

