-- ==== Sys2Proof/Laws/Agents.lean ====
section
/-! SUPPORT. The steps of the other agents and the access points: what they leave unchanged where no reference edge is
taken (R11, R243, R244), and how frames compose. -/

namespace Sys2Proof.Machine

/-! ### The other agents where nothing disturbs -/

theorem undisturbed_congr {s t : State} (h1 : t.inHandler = s.inHandler) (h2 : t.refPending = s.refPending)
    (h3 : t.refEn = s.refEn) (h4 : t.env = s.env) (h : s.undisturbed) : t.undisturbed := by
  unfold State.undisturbed at h ⊢
  rw [h1, h2, h3, h4]
  exact h

theorem undisturbed_entry {s : State} (h : s.undisturbed) : entryEnabled s = false := by
  rcases h with h | ⟨h, -⟩ <;> simp [entryEnabled, h]

/-- A step of another agent that is no edge, or an edge that is not enabled, leaves the pending bit. -/
theorem foldl_actStep_quiet {acts : List Act} {s : State}
    (h : s.inHandler = true ∨ s.refEn = false ∨ Act.edge ∉ acts) :
    (acts.foldl actStep s).refPending = s.refPending := by
  induction acts generalizing s with
  | nil => rfl
  | cons x xs ih =>
    rw [List.foldl_cons, ih]
    · cases x with
      | tick i => exact tickCounter_refPending i s
      | edge =>
        rcases h with h | h | h
        · simp [actStep, refEdge, edgeEnabled, h]
        · simp [actStep, refEdge, edgeEnabled, h]
        · simp at h
    · rcases h with h | h | h
      · exact .inl (by simpa using h)
      · exact .inr (.inl (by simpa using h))
      · exact .inr (.inr fun hc => h (List.mem_cons_of_mem _ hc))

theorem agentsStep_refPending {s : State} (h : s.undisturbed) : (agentsStep s).refPending = s.refPending := by
  unfold agentsStep
  split
  · rfl
  · next acts rest henv =>
    rw [foldl_actStep_quiet]
    rcases h with h | ⟨-, h | h⟩
    · exact .inl h
    · exact .inr (.inl h)
    · exact .inr (.inr (h acts (by simp [henv])))

theorem undisturbed_agentsStep {s : State} (h : s.undisturbed) : (agentsStep s).undisturbed := by
  have hp := agentsStep_refPending h
  unfold State.undisturbed at h ⊢
  rw [hp, agentsStep_inHandler, agentsStep_refEn, agentsStep_env]
  rcases h with h | ⟨h, h' | h'⟩
  · exact .inl h
  · exact .inr ⟨h, .inl h'⟩
  · exact .inr ⟨h, .inr fun acts ha => h' acts (List.mem_of_mem_tail ha)⟩

theorem undisturbed_update {s : State} (h : s.undisturbed) (n : Nat) :
    ∀ t : State, t.inHandler = s.inHandler → t.refPending = s.refPending → t.refEn = s.refEn →
      t.env = s.env.drop n → t.undisturbed := by
  intro t h1 h2 h3 h4
  unfold State.undisturbed at h ⊢
  rw [h1, h2, h3, h4]
  rcases h with h | ⟨h, h' | h'⟩
  · exact .inl h
  · exact .inr ⟨h, .inl h'⟩
  · exact .inr ⟨h, .inr fun acts ha => h' acts (List.mem_of_mem_drop ha)⟩

/-! ### The counters under the other agents -/

theorem tickCounter_counting (i : Counter) (s : State) : counting (tickCounter i s) = counting s := by
  simp [counting]

theorem tickCounter_stopped {i : Counter} {s : State} (h : counting s = false) : tickCounter i s = s := by
  simp [tickCounter, h]

theorem counting_congr {s t : State} (h1 : t.cntMode = s.cntMode) (h2 : t.settleLeft = s.settleLeft)
    (h3 : t.cfg = s.cfg) : counting t = counting s := by simp [counting, h1, h2, h3]

theorem foldl_actStep_cnt {acts : List Act} {s : State}
    (h : counting s = false ∨ ∀ i, Act.tick i ∉ acts) : (acts.foldl actStep s).cnt = s.cnt := by
  induction acts generalizing s with
  | nil => rfl
  | cons x xs ih =>
    rw [List.foldl_cons, ih]
    · cases x with
      | tick i =>
        rcases h with h | h
        · exact congrArg State.cnt (tickCounter_stopped h)
        · exact absurd (List.mem_cons_self) (h i)
      | edge => exact refEdge_cnt s
    · rcases h with h | h
      · refine .inl ?_
        rw [← h]
        exact counting_congr (by simp) (by simp) (by simp)
      · exact .inr fun i hi => h i (List.mem_cons_of_mem _ hi)

theorem agentsStep_cnt {s : State} (h : counting s = false ∨ ∀ acts ∈ s.env, ∀ i, Act.tick i ∉ acts) :
    (agentsStep s).cnt = s.cnt := by
  unfold agentsStep
  split
  · rfl
  · next acts rest henv =>
    rw [foldl_actStep_cnt]
    rcases h with h | h
    · exact .inl h
    · exact .inr (h acts (by simp [henv]))

theorem agentsStep_counting (s : State) : counting (agentsStep s) = counting s :=
  counting_congr (by simp) (by simp) (by simp)

theorem sameGate_agentsStep (s : State) : SameGate s (agentsStep s) :=
  ⟨by simp, by simp, fun h => agentsStep_cnt (.inl h)⟩

theorem agentsStep_nil {s : State} (h : s.env = []) : agentsStep s = s := by simp [agentsStep, h]

/-! ### Access points -/

/-- An access point takes no entry where nothing disturbs. -/
def Quiet (pt : AccessPoint) : Prop := ∀ s : State, s.undisturbed → pt s = .ok () (agentsStep s)

theorem quiet_accessPoint : Quiet accessPoint := by
  intro s h
  simp [accessPoint, mainPoint, undisturbed_entry (undisturbed_agentsStep h)]

theorem quiet_handlerPoint : Quiet handlerPoint := fun _ _ => rfl

/-! ### Composing frames -/

theorem sameSession_agentsStep {s : State} (h : s.undisturbed) : SameSession s (agentsStep s) :=
  ⟨by simp, by simp, by simp, by simp, agentsStep_refPending h, by simp, by simp, by simp, by simp, by simp, by simp⟩

theorem SameSession.trans {s t u : State} (h : SameSession s t) (h' : SameSession t u) : SameSession s u := by
  obtain ⟨a1, a2, a3, a4, a5, a6, a7, a8, a9, a10, a11⟩ := h
  obtain ⟨b1, b2, b3, b4, b5, b6, b7, b8, b9, b10, b11⟩ := h'
  exact ⟨b1.trans a1, b2.trans a2, b3.trans a3, b4.trans a4, b5.trans a5, b6.trans a6, b7.trans a7, b8.trans a8,
    b9.trans a9, b10.trans a10, b11.trans a11⟩

theorem SameRecord.trans {s t u : State} (h : SameRecord s t) (h' : SameRecord t u) : SameRecord s u := by
  obtain ⟨a1, a2, a3, a4, a5⟩ := h
  obtain ⟨b1, b2, b3, b4, b5⟩ := h'
  exact ⟨b1.trans a1, b2.trans a2, b3.trans a3, b4.trans a4, b5.trans a5⟩

theorem SameChain.trans {s t u : State} (h : SameChain s t) (h' : SameChain t u) : SameChain s u := by
  obtain ⟨a1, a2, a3, a4⟩ := h
  obtain ⟨b1, b2, b3, b4⟩ := h'
  exact ⟨b1.trans a1, b2.trans a2, b3.trans a3, b4.trans a4⟩

theorem SameGate.trans {s t u : State} (hc : t.cfg = s.cfg) (h : SameGate s t) (h' : SameGate t u) : SameGate s u := by
  obtain ⟨a1, a2, a3⟩ := h
  obtain ⟨b1, b2, b3⟩ := h'
  refine ⟨b1.trans a1, b2.trans a2, fun hs => (b3 ?_).trans (a3 hs)⟩
  rw [counting_congr a1 a2 hc, hs]

theorem OnlyChainIn.trans {m n : Nat} {s t u : State} (h : OnlyChainIn m s t) (h' : OnlyChainIn n t u) :
    OnlyChainIn (m + n) s u := by
  obtain ⟨a1, a2, a3, a4, a5, a6, a7⟩ := h
  obtain ⟨b1, b2, b3, b4, b5, b6, b7⟩ := h'
  exact ⟨fun w => (b1 w).trans (a1 w), a2.trans a5.2.2.2.1 b2, b3.trans a3, a4.trans b4, a5.trans b5, b6.trans a6,
    by rw [b7, a7, List.drop_drop]⟩

theorem OnlyCountersIn.trans {m n : Nat} {s t u : State} (h : OnlyCountersIn m s t) (h' : OnlyCountersIn n t u) :
    OnlyCountersIn (m + n) s u := by
  obtain ⟨a1, a2, a3, a4, a5, a6⟩ := h
  obtain ⟨b1, b2, b3, b4, b5, b6⟩ := h'
  exact ⟨a1.trans b1, fun w => (b2 w).trans (a2 w), b3.trans a3, a4.trans b4, a5.trans b5,
    by rw [b6, a6, List.drop_drop]⟩

theorem OnlyMirror.trans {s t u : State} (h : OnlyMirror s t) (h' : OnlyMirror t u) : OnlyMirror s u := by
  obtain ⟨a1, ⟨a2, a3, a4⟩, a5, a6, a7, a8, a9, a10⟩ := h
  obtain ⟨b1, ⟨b2, b3, b4⟩, b5, b6, b7, b8, b9, b10⟩ := h'
  exact ⟨a1.trans b1, ⟨b2.trans a2, b3.trans a3, b4.trans a4⟩, b5.trans a5, a6.trans b6, a7.trans b7,
    b8.trans a8, b9.trans a9, b10.trans a10⟩

theorem onlyMirror_setMirror (m : Memory) (s : State) : OnlyMirror s (setMirror m s) := by
  simp [OnlyMirror, SameChain, SameCounters, SameSession, SameRecord, SameOwn]

theorem onlyCode_setCode (c : Codes) (s : State) : OnlyCode s (setCode c s) := by
  simp [OnlyCode, SameChain, SameMirror, SameCounters, SameSession, SameRecord, SameOwn]

theorem undisturbed_of_session {n : Nat} {s t : State} (h : s.undisturbed) (hs : SameSession s t)
    (he : t.env = s.env.drop n) : t.undisturbed :=
  undisturbed_update h n t hs.2.2.2.2.2.1 hs.2.2.2.2.1 hs.2.2.2.1 he

end Sys2Proof.Machine
end

