-- ==== Sys2Proof/Laws/Bus.lean ====
section
/-! SUPPORT. Bus accesses under a sound register map (20_memory.md R51 to R53). -/

namespace Sys2Proof.Machine

theorem Counter.mem_all (i : Counter) : i ∈ Counter.all := by cases i <;> decide

/-- What `Config.ok` gives of the register addresses. -/
structure SoundMap (cfg : Config) : Prop where
  ctrls : cfg.cntCtrlAddr ≠ cfg.ascCtrlAddr
  ascLo : ∀ i, cfg.cntLoAddr.get i ≠ cfg.ascCtrlAddr
  ascHi : ∀ i, cfg.cntHiAddr.get i ≠ cfg.ascCtrlAddr
  cntLo : ∀ i, cfg.cntLoAddr.get i ≠ cfg.cntCtrlAddr
  cntHi : ∀ i, cfg.cntHiAddr.get i ≠ cfg.cntCtrlAddr
  lo : ∀ i j, i ≠ j → cfg.cntLoAddr.get i ≠ cfg.cntLoAddr.get j
  hi : ∀ i j, i ≠ j → cfg.cntHiAddr.get i ≠ cfg.cntHiAddr.get j
  loHi : ∀ i j, cfg.cntLoAddr.get i ≠ cfg.cntHiAddr.get j
  aligned : ∀ x ∈ cfg.addresses, x % 4 = 0

theorem Config.ok_map {cfg : Config} (h : cfg.ok = true) : SoundMap cfg := by
  obtain ⟨hn, ha⟩ := Config.ok_addresses h
  simp only [Config.addresses, List.nodup_append, List.mem_append, List.mem_map, List.nodup_cons, List.mem_cons,
    List.not_mem_nil, or_false] at hn
  obtain ⟨⟨⟨h0, -⟩, h2, h3⟩, h4, h5⟩ := hn
  have inj : ∀ r : PerCounter Nat, (Counter.all.map r.get).Nodup → ∀ i j, i ≠ j → r.get i ≠ r.get j := by
    intro r hr i j hij he
    exact hij (List.inj_on_of_nodup_map hr (Counter.mem_all i) (Counter.mem_all j) he)
  exact ⟨fun e => h0 e.symm, fun i e => h3 _ (.inl rfl) _ ⟨i, Counter.mem_all i, rfl⟩ e.symm,
    fun i e => h5 _ (.inl (.inl rfl)) _ ⟨i, Counter.mem_all i, rfl⟩ e.symm,
    fun i e => h3 _ (.inr rfl) _ ⟨i, Counter.mem_all i, rfl⟩ e.symm,
    fun i e => h5 _ (.inl (.inr rfl)) _ ⟨i, Counter.mem_all i, rfl⟩ e.symm, inj _ h2, inj _ h4,
    fun i j e => h5 _ (.inr ⟨i, Counter.mem_all i, rfl⟩) _ ⟨j, Counter.mem_all j, rfl⟩ e, ha⟩

theorem Config.mem_addresses (cfg : Config) (x : Nat) : x ∈ cfg.addresses ↔
    x = cfg.ascCtrlAddr ∨ x = cfg.cntCtrlAddr ∨ (∃ i, x = cfg.cntLoAddr.get i) ∨ ∃ i, x = cfg.cntHiAddr.get i := by
  simp only [Config.addresses, List.mem_append, List.mem_map, List.mem_cons, List.not_mem_nil, or_false]
  constructor
  · rintro (((h | h) | ⟨i, -, h⟩) | ⟨i, -, h⟩)
    · exact .inl h
    · exact .inr (.inl h)
    · exact .inr (.inr (.inl ⟨i, h.symm⟩))
    · exact .inr (.inr (.inr ⟨i, h.symm⟩))
  · rintro (h | h | ⟨i, h⟩ | ⟨i, h⟩)
    · exact .inl (.inl (.inl h))
    · exact .inl (.inl (.inr h))
    · exact .inl (.inr ⟨i, Counter.mem_all i, h.symm⟩)
    · exact .inr ⟨i, Counter.mem_all i, h.symm⟩

theorem counterAt_some {addrs : PerCounter Nat} (h : ∀ i j, i ≠ j → addrs.get i ≠ addrs.get j) (i : Counter) :
    counterAt addrs (addrs.get i) = some i := by
  unfold counterAt
  cases hf : Counter.all.find? (fun j => addrs.get j == addrs.get i) with
  | none => exact absurd (List.find?_eq_none.mp hf i (Counter.mem_all i)) (by simp)
  | some j =>
    have hj : addrs.get j = addrs.get i := by simpa using List.find?_some hf
    by_cases hij : j = i
    · rw [hij]
    · exact absurd hj (h j i hij)

theorem counterAt_none {addrs : PerCounter Nat} {x : Nat} (h : ∀ i, x ≠ addrs.get i) : counterAt addrs x = none := by
  unfold counterAt
  rw [List.find?_eq_none]
  intro i _
  simpa using (h i).symm

theorem decodeRead_lo {cfg : Config} (h : cfg.ok = true) (i : Counter) :
    decodeRead cfg (cfg.cntLoAddr.get i) = .ok (.cntRdLo i) := by
  have m := Config.ok_map h
  simp only [decodeRead, m.ascLo i, m.cntLo i, if_false, counterAt_some m.lo i]

theorem decodeRead_hi {cfg : Config} (h : cfg.ok = true) (i : Counter) :
    decodeRead cfg (cfg.cntHiAddr.get i) = .ok (.cntRdHi i) := by
  have m := Config.ok_map h
  simp only [decodeRead, m.ascHi i, m.cntHi i, if_false, counterAt_some m.hi i,
    counterAt_none fun j => (m.loHi j i).symm]

theorem decodeRead_asc (cfg : Config) : decodeRead cfg cfg.ascCtrlAddr = .ok .ascCtrlRd := by simp [decodeRead]

theorem decodeRead_cnt {cfg : Config} (h : cfg.ok = true) : decodeRead cfg cfg.cntCtrlAddr = .ok .cntCtrlRd := by
  simp [decodeRead, (Config.ok_map h).ctrls]

theorem decodeRead_other {cfg : Config} {x : Nat} (h : x ∉ cfg.addresses) : decodeRead cfg x = .error .badAccess := by
  rw [Config.mem_addresses] at h
  simp only [not_or, not_exists] at h
  simp only [decodeRead, h.1, h.2.1, if_false, counterAt_none h.2.2.1, counterAt_none h.2.2.2]

theorem decodeWrite_asc (cfg : Config) (v : Word) : decodeWrite cfg cfg.ascCtrlAddr v = .ok (.ascCtrlWr v) := by
  simp [decodeWrite]

theorem decodeWrite_cnt {cfg : Config} (h : cfg.ok = true) (v : Word) :
    decodeWrite cfg cfg.cntCtrlAddr v = .ok (.cntCtrlWr v) := by simp [decodeWrite, (Config.ok_map h).ctrls]

theorem decodeWrite_other {cfg : Config} {x : Nat} (h1 : x ≠ cfg.ascCtrlAddr) (h2 : x ≠ cfg.cntCtrlAddr) (v : Word) :
    decodeWrite cfg x v = .error .badAccess := by simp [decodeWrite, h1, h2]

/-- A 32-bit access at a register's address is decoded by its direction. -/
theorem decodeAccess_at {cfg : Config} (h : cfg.ok = true) {a : Access} (hw : a.width = 4) (ha : a.addr ∈ cfg.addresses) :
    decodeAccess cfg a = match a.dir with
      | .read => decodeRead cfg a.addr
      | .write => decodeWrite cfg a.addr a.data
      | .fetch => .error .badAccess := by
  unfold decodeAccess
  have := (Config.ok_map h).aligned _ ha
  refine (if_neg (show ¬ (a.width ≠ 4 ∨ a.addr % 4 ≠ 0) by omega)).trans ?_
  cases a.dir <;> rfl

end Sys2Proof.Machine
end

