-- ==== Sys2Proof/Laws/Store.lean ====
section
/-! SUPPORT. The parameter store: steps, encoders and corrections (42_dac_parameters.md R190 to R213,
43_calibration_sequencer.md R248 to R251). -/

namespace Sys2Proof.Machine

/-! ### Codes by field -/

@[simp] theorem codes_get_set_same (r : Codes) (f : Field) (v : Nat) : (r.set f v).get f = v := by cases f <;> rfl

theorem codes_get_set_other (r : Codes) {f g : Field} (v : Nat) (h : g ≠ f) : (r.set f v).get g = r.get g := by
  cases f <;> cases g <;> first | rfl | exact absurd rfl h

theorem codes_ext {r r' : Codes} (h : ∀ f, r.get f = r'.get f) : r = r' := by
  have h0 := h .hfCoarse
  have h1 := h .hfFine
  have h2 := h .rc2mCoarse
  have h3 := h .rc2mFine
  have h4 := h .rc2mSuperfine
  have h5 := h .ifCoarse
  have h6 := h .ifFine
  have h7 := h .lcCode
  cases r; cases r'
  simp only [Codes.get] at h0 h1 h2 h3 h4 h5 h6 h7
  subst h0 h1 h2 h3 h4 h5 h6 h7
  rfl

theorem inRange_iff (cfg : Config) (code : Codes) (f : Field) :
    inRange cfg code f = true ↔ minOf cfg f ≤ code.get f ∧ code.get f ≤ maxOf cfg f := by
  simp [inRange]

/-! ### Single-code steps (R198 to R205) -/

theorem codeInc_ok {s : State} {f : Field} (hr : inRange s.cfg s.code f = true) (h : s.code.get f < maxOf s.cfg f) :
    codeInc f s = .ok () (putCode f (s.code.get f + 1) s) := by
  simp [codeInc, requireInRange, hr, stepUp, Nat.ne_of_lt h, Res.andThen, Res.bind]

theorem codeDec_ok {s : State} {f : Field} (hr : inRange s.cfg s.code f = true) (h : minOf s.cfg f < s.code.get f) :
    codeDec f s = .ok () (putCode f (s.code.get f - 1) s) := by
  simp [codeDec, requireInRange, hr, stepDown, Nat.ne_of_gt h, Res.andThen, Res.bind]

theorem codeInc_end {s : State} {f : Field} (hr : inRange s.cfg s.code f = true) (h : s.code.get f = maxOf s.cfg f) :
    codeInc f s = .fault ⟨.codeRange, .field f⟩ s := by
  simp [codeInc, requireInRange, hr, stepUp, h, codeFault, Res.andThen, Res.bind]

theorem codeDec_end {s : State} {f : Field} (hr : inRange s.cfg s.code f = true) (h : s.code.get f = minOf s.cfg f) :
    codeDec f s = .fault ⟨.codeRange, .field f⟩ s := by
  simp [codeDec, requireInRange, hr, stepDown, h, codeFault, Res.andThen, Res.bind]

theorem codeInc_out {s : State} {f : Field} (hr : inRange s.cfg s.code f = false) :
    codeInc f s = .fault ⟨.codeRange, .field f⟩ s := by
  simp [codeInc, requireInRange, hr, codeFault, Res.andThen, Res.bind]

theorem codeDec_out {s : State} {f : Field} (hr : inRange s.cfg s.code f = false) :
    codeDec f s = .fault ⟨.codeRange, .field f⟩ s := by
  simp [codeDec, requireInRange, hr, codeFault, Res.andThen, Res.bind]

/-! ### Encoding (R207 to R213) -/

/-- Some fields of the mirror have been written: they hold the values, and no other position has changed. -/
def Encoded (fs : List (ChainField × Nat)) (s t : State) : Prop :=
  (∃ m, t = setMirror m s) ∧ (s.mirror.full → t.mirror.full) ∧ (∀ e ∈ fs, mirrorHolds t e.1 e.2)
    ∧ ∀ p, (∀ e ∈ fs, ¬ inField s.cfg e.1 p) → t.mirror.bit p = s.mirror.bit p

theorem Encoded.cfg {fs : List (ChainField × Nat)} {s t : State} (h : Encoded fs s t) : t.cfg = s.cfg := by
  obtain ⟨⟨m, rfl⟩, -⟩ := h; rfl

theorem Encoded.code {fs : List (ChainField × Nat)} {s t : State} (h : Encoded fs s t) : t.code = s.code := by
  obtain ⟨⟨m, rfl⟩, -⟩ := h; rfl

theorem Encoded.onlyMirror {fs : List (ChainField × Nat)} {s t : State} (h : Encoded fs s t) : OnlyMirror s t := by
  obtain ⟨⟨m, rfl⟩, -⟩ := h; exact onlyMirror_setMirror m s

theorem not_inField_of_disjoint {cfg : Config} (hok : cfg.ok = true) {f g : ChainField} (h : f ≠ g) {p : Nat}
    (hp : inField cfg f p) : ¬ inField cfg g p := by
  have := Config.ok_disjoint hok h
  simp only [disjointSpans, Bool.or_eq_true, decide_eq_true_eq] at this
  unfold inField at hp ⊢
  omega

theorem Encoded.trans {fs gs : List (ChainField × Nat)} {s t u : State} (hok : s.cfg.ok = true)
    (hd : ∀ e ∈ fs, ∀ e' ∈ gs, e.1 ≠ e'.1) (h : Encoded fs s t) (h' : Encoded gs t u) : Encoded (fs ++ gs) s u := by
  have hc := h.cfg
  obtain ⟨⟨m, rfl⟩, hf, hh, hp⟩ := h
  obtain ⟨⟨m', rfl⟩, hf', hh', hp'⟩ := h'
  refine ⟨⟨m', rfl⟩, fun hs => hf' (hf hs), fun e he => ?_, fun p hpe => ?_⟩
  · rcases List.mem_append.mp he with he | he
    · intro i hi
      have := hh e he i hi
      rw [hp']
      · exact this
      · intro e' he'
        exact not_inField_of_disjoint hok (hd e he e' he') ⟨Nat.le_add_right _ _, Nat.add_lt_add_left hi _⟩
    · exact hh' e he
  · rw [hp' p fun e he => hpe e (List.mem_append_right _ he), hp p fun e he => hpe e (List.mem_append_left _ he)]

theorem encodeField_ok {s : State} (hok : s.cfg.ok = true) (hfull : s.mirror.full) {f : ChainField} {v : Nat}
    (h : fitsField s.cfg f v) : ∃ t, encodeField f v s = .ok () t ∧ Encoded [(f, v)] s t := by
  have hfld := Config.ok_field hok f
  obtain ⟨m, hm, h1, h2, h3⟩ := ascWriteField_ok h.1 hfld h.2 (s := s) (fun w _ hw => hfull w (by
    have h4 := h.1
    have := wordOf_lt (p := s.cfg.fieldPos.get f + s.cfg.width.get f - 1) (by omega)
    omega))
  refine ⟨setMirror m s, hm, ⟨m, rfl⟩, fun _ w hw hc => hfull w hw ((h3 w).mp hc), ?_, ?_⟩
  · intro e he i hi
    rw [List.mem_singleton] at he
    subst he
    exact h1 i hi
  · intro p hp
    apply h2
    have := hp (f, v) (by simp)
    unfold inField at this
    simp only at this
    omega

theorem Encoded.full {fs : List (ChainField × Nat)} {s t : State} (h : Encoded fs s t) (hf : s.mirror.full) :
    t.mirror.full := h.2.1 hf

theorem encodeHf_ok {s : State} (hok : s.cfg.ok = true) (hfull : s.mirror.full) (h : hfEncodable s) :
    ∃ t, encodeHf s = .ok () t ∧ Encoded [(.hfCoarse, s.code.hfCoarse), (.hfFine, s.code.hfFine)] s t := by
  obtain ⟨s1, e1, h1⟩ := encodeField_ok hok hfull h.1
  obtain ⟨s2, e2, h2⟩ := encodeField_ok (s := s1) (by rw [h1.cfg]; exact hok) (h1.full hfull)
    (v := s.code.hfFine) (by rw [h1.cfg]; exact h.2)
  refine ⟨s2, ?_, h1.trans hok (by simp) h2⟩
  simp only [encodeHf, e1, Res.andThen, Res.bind, h1.code, e2]

theorem encodeIf_ok {s : State} (hok : s.cfg.ok = true) (hfull : s.mirror.full) (h : ifEncodable s) :
    ∃ t, encodeIf s = .ok () t ∧ Encoded [(.ifCoarse, s.code.ifCoarse), (.ifFine, s.code.ifFine)] s t := by
  obtain ⟨s1, e1, h1⟩ := encodeField_ok hok hfull h.1
  obtain ⟨s2, e2, h2⟩ := encodeField_ok (s := s1) (by rw [h1.cfg]; exact hok) (h1.full hfull)
    (v := s.code.ifFine) (by rw [h1.cfg]; exact h.2)
  refine ⟨s2, ?_, h1.trans hok (by simp) h2⟩
  simp only [encodeIf, e1, Res.andThen, Res.bind, h1.code, e2]

theorem encodeRc2m_ok {s : State} (hok : s.cfg.ok = true) (hfull : s.mirror.full) (h : rc2mEncodable s) :
    ∃ t, encodeRc2m s = .ok () t ∧ Encoded [(.rc2mCoarse, s.code.rc2mCoarse), (.rc2mFine, s.code.rc2mFine),
      (.rc2mSuperfine, s.code.rc2mSuperfine)] s t := by
  obtain ⟨s1, e1, h1⟩ := encodeField_ok hok hfull h.1
  obtain ⟨s2, e2, h2⟩ := encodeField_ok (s := s1) (by rw [h1.cfg]; exact hok) (h1.full hfull)
    (v := s.code.rc2mFine) (by rw [h1.cfg]; exact h.2.1)
  have h12 := h1.trans hok (by simp) h2
  obtain ⟨s3, e3, h3⟩ := encodeField_ok (s := s2) (by rw [h12.cfg]; exact hok) (h12.full hfull)
    (v := s.code.rc2mSuperfine) (by rw [h12.cfg]; exact h.2.2)
  refine ⟨s3, ?_, h12.trans hok (by simp) h3⟩
  simp only [encodeRc2m, e1, Res.andThen, Res.bind, h1.code, e2, h2.code, e3]

theorem lcExpand_ok {s : State} (hr : inRange s.cfg s.code .lcCode = true) (hf : (lcSubOf s).fits s.cfg = true) :
    lcExpand s = .ok (lcSubOf s) s := by
  unfold lcSubOf at hf ⊢
  simp [lcExpand, requireInRange, hr, hf, Res.andThen, Res.bind]

theorem lcSub_fits_of_encodable {s : State} (h : lcEncodable s) : (lcSubOf s).fits s.cfg = true := by
  obtain ⟨-, h1, h2, h3⟩ := h
  have h1 := h1.2
  have h2 := h2.2
  have h3 := h3.2
  simp only [PerField.get] at h1 h2 h3
  simp only [LcSub.fits, Bool.and_eq_true, decide_eq_true_eq]
  omega

theorem encodeLc_ok {s : State} (hok : s.cfg.ok = true) (hfull : s.mirror.full) (h : lcEncodable s) :
    ∃ t, encodeLc s = .ok () t ∧ Encoded [(.lcCoarse, (lcSubOf s).coarse), (.lcMid, (lcSubOf s).mid),
      (.lcFine, (lcSubOf s).fine)] s t := by
  have hx := lcExpand_ok h.1 (lcSub_fits_of_encodable h)
  obtain ⟨s1, e1, h1⟩ := encodeField_ok hok hfull h.2.1
  obtain ⟨s2, e2, h2⟩ := encodeField_ok (s := s1) (by rw [h1.cfg]; exact hok) (h1.full hfull)
    (v := (lcSubOf s).mid) (by rw [h1.cfg]; exact h.2.2.1)
  have h12 := h1.trans hok (by simp) h2
  obtain ⟨s3, e3, h3⟩ := encodeField_ok (s := s2) (by rw [h12.cfg]; exact hok) (h12.full hfull)
    (v := (lcSubOf s).fine) (by rw [h12.cfg]; exact h.2.2.2)
  refine ⟨s3, ?_, h12.trans hok (by simp) h3⟩
  simp only [encodeLc, hx, e1, Res.andThen, Res.bind, e2, e3]

/-- What the ten fields are encoded to. -/
def allFields (s : State) : List (ChainField × Nat) :=
  [(.hfCoarse, s.code.hfCoarse), (.hfFine, s.code.hfFine), (.rc2mCoarse, s.code.rc2mCoarse),
    (.rc2mFine, s.code.rc2mFine), (.rc2mSuperfine, s.code.rc2mSuperfine), (.ifCoarse, s.code.ifCoarse),
    (.ifFine, s.code.ifFine), (.lcCoarse, (lcSubOf s).coarse), (.lcMid, (lcSubOf s).mid), (.lcFine, (lcSubOf s).fine)]

theorem encodeAll_ok {s : State} (hok : s.cfg.ok = true) (hfull : s.mirror.full) (h1 : hfEncodable s)
    (h2 : rc2mEncodable s) (h3 : ifEncodable s) (h4 : lcEncodable s) :
    ∃ t, encodeAll s = .ok () t ∧ Encoded (allFields s) s t := by
  obtain ⟨s1, e1, x1⟩ := encodeHf_ok hok hfull h1
  have y1 := x1.cfg
  have z1 := x1.code
  obtain ⟨s2, e2, x2⟩ := encodeRc2m_ok (s := s1) (by rw [y1]; exact hok) (x1.full hfull)
    (by unfold rc2mEncodable; rw [y1, z1]; exact h2)
  rw [z1] at x2
  have x12 := x1.trans hok (by simp) x2
  have y2 := x12.cfg
  have z2 := x12.code
  obtain ⟨s3, e3, x3⟩ := encodeIf_ok (s := s2) (by rw [y2]; exact hok) (x12.full hfull)
    (by unfold ifEncodable; rw [y2, z2]; exact h3)
  rw [z2] at x3
  have x123 := x12.trans hok (by simp) x3
  have y3 := x123.cfg
  have z3 := x123.code
  have hlc : lcSubOf s3 = lcSubOf s := by unfold lcSubOf; rw [y3, z3]
  obtain ⟨s4, e4, x4⟩ := encodeLc_ok (s := s3) (by rw [y3]; exact hok) (x123.full hfull)
    (by unfold lcEncodable; rw [hlc, y3, z3]; exact h4)
  rw [hlc] at x4
  exact ⟨s4, by simp only [encodeAll, e1, Res.andThen, Res.bind, e2, e3, e4], x123.trans hok (by simp) x4⟩

/-! ### Corrections with room (R248 to R251) -/

theorem hfCorrect_ok {s : State} {k : Nat} (c : Nat) (hc : hasRoom s.cfg s.code .hfCoarse (k + 1))
    (hf : inRange s.cfg s.code .hfFine = true) :
    ∃ x y, hfCorrect c s = .ok () (setCode { s.code with hfCoarse := x, hfFine := y } s)
      ∧ x ≤ s.code.hfCoarse + 1 ∧ s.code.hfCoarse ≤ x + 1 ∧ y ≤ hfFineMax := by
  have hr : inRange s.cfg s.code .hfCoarse = true := by
    rw [inRange_iff]; unfold hasRoom at hc; omega
  have hy := (inRange_iff _ _ _).mp hf
  simp only [Codes.get, maxOf] at hy
  unfold hasRoom at hc
  simp only [Codes.get, minOf] at hc
  unfold hfCorrect
  split
  · by_cases h0 : s.code.hfFine = 0
    · have hne : s.code.hfCoarse ≠ 0 := by omega
      refine ⟨s.code.hfCoarse - 1, hfDecReset, ?_, by omega, by omega, by decide⟩
      simp [hfFineDec, requireInRange, hr, hf, Res.andThen, Res.bind, h0, hne]
    · refine ⟨s.code.hfCoarse, s.code.hfFine - 1, ?_, by omega, by omega, by omega⟩
      simp [hfFineDec, requireInRange, hr, hf, Res.andThen, Res.bind, h0]
  · split
    · by_cases h0 : s.code.hfFine = hfFineMax
      · have hne : s.code.hfCoarse ≠ maxOf s.cfg .hfCoarse := by omega
        refine ⟨s.code.hfCoarse + 1, hfIncReset, ?_, by omega, by omega, by decide⟩
        simp [hfFineInc, requireInRange, hr, hf, Res.andThen, Res.bind, h0, hne]
      · refine ⟨s.code.hfCoarse, s.code.hfFine + 1, ?_, by omega, by omega, by omega⟩
        simp [hfFineInc, requireInRange, hr, hf, Res.andThen, Res.bind, h0]
    · exact ⟨s.code.hfCoarse, s.code.hfFine, rfl, by omega, by omega, hy.2⟩

theorem lcCorrect_ok {s : State} {k : Nat} (c : Nat) (h : hasRoom s.cfg s.code .lcCode (k + 1)) :
    ∃ x, lcCorrect c s = .ok () (setCode { s.code with lcCode := x } s)
      ∧ x ≤ s.code.lcCode + 1 ∧ s.code.lcCode ≤ x + 1 := by
  have hr : inRange s.cfg s.code .lcCode = true := by
    rw [inRange_iff]; unfold hasRoom at h; omega
  unfold hasRoom at h
  unfold lcCorrect
  split
  · refine ⟨s.code.lcCode - 1, ?_, by omega, by omega⟩
    rw [codeDec_ok hr (by omega)]
    rfl
  · split
    · refine ⟨s.code.lcCode + 1, ?_, by omega, by omega⟩
      rw [codeInc_ok hr (by omega)]
      rfl
    · exact ⟨s.code.lcCode, rfl, by omega, by omega⟩

theorem rc2mStep_ok {s : State} {f : Field} {k : Nat} (h : hasRoom s.cfg s.code f (k + 1)) :
    (∃ x, rc2mUp f s = .ok () (putCode f x s) ∧ x ≤ s.code.get f + 1 ∧ s.code.get f ≤ x + 1)
      ∧ ∃ x, rc2mDown f s = .ok () (putCode f x s) ∧ x ≤ s.code.get f + 1 ∧ s.code.get f ≤ x + 1 := by
  have hr : inRange s.cfg s.code f = true := by
    rw [inRange_iff]; unfold hasRoom at h; omega
  unfold hasRoom at h
  have hi := codeInc_ok hr (by omega)
  have hd := codeDec_ok hr (by omega)
  unfold rc2mUp rc2mDown
  cases s.cfg.rc2mHighAction
  · exact ⟨⟨_, hi, by omega, by omega⟩, ⟨_, hd, by omega, by omega⟩⟩
  · exact ⟨⟨_, hd, by omega, by omega⟩, ⟨_, hi, by omega, by omega⟩⟩

theorem rc2mCorrect_ok {s : State} {k : Nat} (c : Nat) (h1 : hasRoom s.cfg s.code .rc2mCoarse (k + 1))
    (h2 : hasRoom s.cfg s.code .rc2mFine (k + 1)) (h3 : hasRoom s.cfg s.code .rc2mSuperfine (k + 1)) :
    ∃ x y z, rc2mCorrect c s
        = .ok () (setCode { s.code with rc2mCoarse := x, rc2mFine := y, rc2mSuperfine := z } s)
      ∧ x ≤ s.code.rc2mCoarse + 1 ∧ s.code.rc2mCoarse ≤ x + 1
      ∧ y ≤ s.code.rc2mFine + 1 ∧ s.code.rc2mFine ≤ y + 1
      ∧ z ≤ s.code.rc2mSuperfine + 1 ∧ s.code.rc2mSuperfine ≤ z + 1 := by
  obtain ⟨⟨xu, eu, a1, a2⟩, ⟨xd, ed, a3, a4⟩⟩ := rc2mStep_ok h1
  obtain ⟨⟨yu, fu, b1, b2⟩, ⟨yd, fd, b3, b4⟩⟩ := rc2mStep_ok h2
  obtain ⟨⟨zu, gu, c1, c2⟩, ⟨zd, gd, c3, c4⟩⟩ := rc2mStep_ok h3
  simp only [Codes.get] at a1 a2 a3 a4 b1 b2 b3 b4 c1 c2 c3 c4
  unfold rc2mCorrect
  dsimp only
  split
  · exact ⟨xu, s.code.rc2mFine, s.code.rc2mSuperfine, eu, by omega⟩
  · split
    · exact ⟨s.code.rc2mCoarse, yu, s.code.rc2mSuperfine, fu, by omega⟩
    · split
      · exact ⟨s.code.rc2mCoarse, s.code.rc2mFine, zu, gu, by omega⟩
      · split
        · exact ⟨xd, s.code.rc2mFine, s.code.rc2mSuperfine, ed, by omega⟩
        · split
          · exact ⟨s.code.rc2mCoarse, yd, s.code.rc2mSuperfine, fd, by omega⟩
          · split
            · exact ⟨s.code.rc2mCoarse, s.code.rc2mFine, zd, gd, by omega⟩
            · exact ⟨s.code.rc2mCoarse, s.code.rc2mFine, s.code.rc2mSuperfine, rfl, by omega⟩

theorem ifCorrect_ok {s : State} {k : Nat} (c : Nat) (hk : k ≤ 24)
    (hc : s.code.ifCoarse + (k + 1) ≤ maxOf s.cfg .ifCoarse) (h0 : k + 1 ≤ s.code.ifFine)
    (hf : inRange s.cfg s.code .ifFine = true) :
    ∃ x y, ifCorrect c s = .ok () (setCode { s.code with ifCoarse := x, ifFine := y } s)
      ∧ x ≤ s.code.ifCoarse + 1 ∧ k ≤ y ∧ y ≤ 31 := by
  have hr : inRange s.cfg s.code .ifCoarse = true := by
    rw [inRange_iff]
    simp only [Codes.get, minOf]
    omega
  have hy := (inRange_iff _ _ _).mp hf
  simp only [Codes.get, maxOf, ifFineOvf] at hy
  unfold ifCorrect
  split
  · by_cases ho : s.code.ifFine + 1 = ifFineOvf
    · have hne : s.code.ifCoarse ≠ maxOf s.cfg .ifCoarse := by omega
      refine ⟨s.code.ifCoarse + 1, s.code.ifFine + 1 - ifFineSub, ?_, by omega, ?_, ?_⟩
      · simp [ifFineInc, requireInRange, hr, hf, Res.andThen, Res.bind, ho, hne]
      · rw [ho]; unfold ifFineOvf ifFineSub; omega
      · rw [ho]; decide
    · refine ⟨s.code.ifCoarse, s.code.ifFine + 1, ?_, by omega, by omega, ?_⟩
      · simp [ifFineInc, requireInRange, hr, hf, Res.andThen, Res.bind, ho]
      · unfold ifFineOvf at ho; omega
  · split
    · have hne : s.code.ifFine ≠ 0 := by omega
      refine ⟨s.code.ifCoarse, s.code.ifFine - 1, ?_, by omega, by omega, by omega⟩
      simp [ifFineDec, requireInRange, hr, hf, Res.andThen, Res.bind, hne]
    · exact ⟨s.code.ifCoarse, s.code.ifFine, rfl, by omega, by omega, by omega⟩

end Sys2Proof.Machine
end

