-- ==== Sys2Proof/Laws/Corrections.lean ====
section
/-! SUPPORT. The four corrections by their bands, and that each reads and writes the codes of its own domain alone
(43_calibration_sequencer.md R248 to R251, R259). -/

namespace Sys2Proof.Machine

/-! ### By the bands -/

theorem hfCorrect_low {c : Nat} (h : c < 1997000) (s : State) : hfCorrect c s = hfFineDec s := by
  unfold hfCorrect; rw [if_pos (show c < hfLow from h)]

theorem hfCorrect_high {c : Nat} (h : 2003000 < c) (s : State) : hfCorrect c s = hfFineInc s := by
  unfold hfCorrect
  rw [if_neg (show ¬ c < hfLow by unfold hfLow; omega), if_pos (show hfHigh < c from h)]

theorem hfCorrect_band {c : Nat} (h : 1997000 ≤ c) (h' : c ≤ 2003000) (s : State) : hfCorrect c s = .ok () s := by
  unfold hfCorrect
  rw [if_neg (show ¬ c < hfLow by unfold hfLow; omega), if_neg (show ¬ hfHigh < c by unfold hfHigh; omega)]

theorem lcCorrect_high {c : Nat} {s : State} (h : s.cfg.lcTarget < c) : lcCorrect c s = codeDec .lcCode s := by
  unfold lcCorrect; rw [if_pos h]

theorem lcCorrect_low {c : Nat} {s : State} (h : c < s.cfg.lcTarget) : lcCorrect c s = codeInc .lcCode s := by
  unfold lcCorrect; rw [if_neg (by omega), if_pos h]

theorem lcCorrect_at {c : Nat} {s : State} (h : c = s.cfg.lcTarget) : lcCorrect c s = .ok () s := by
  unfold lcCorrect; rw [if_neg (by omega), if_neg (by omega)]

theorem ifCorrect_high {c : Nat} {s : State} (h : s.cfg.ifTarget + 1400 < c) : ifCorrect c s = ifFineInc s := by
  unfold ifCorrect
  rw [if_pos (show (s.cfg.ifTarget : Int) + (ifBand : Int) < (c : Int) by unfold ifBand; omega)]

theorem ifCorrect_low {c : Nat} {s : State} (h : c + 1400 < s.cfg.ifTarget) : ifCorrect c s = ifFineDec s := by
  unfold ifCorrect
  rw [if_neg (show ¬ (s.cfg.ifTarget : Int) + (ifBand : Int) < (c : Int) by unfold ifBand; omega),
    if_pos (show (c : Int) < (s.cfg.ifTarget : Int) - (ifBand : Int) by unfold ifBand; omega)]

theorem ifCorrect_band {c : Nat} {s : State} (h : c ≤ s.cfg.ifTarget + 1400) (h' : s.cfg.ifTarget ≤ c + 1400) :
    ifCorrect c s = .ok () s := by
  unfold ifCorrect
  rw [if_neg (show ¬ (s.cfg.ifTarget : Int) + (ifBand : Int) < (c : Int) by unfold ifBand; omega),
    if_neg (show ¬ (c : Int) < (s.cfg.ifTarget : Int) - (ifBand : Int) by unfold ifBand; omega)]

/-- The step of an RC2M code for a count at distance e from the target. -/
def rc2mStep (e : Int) (f : Field) (s : State) : Res Unit := if 0 < e then rc2mUp f s else rc2mDown f s

/-- The tiers of R250, the coarsest first, with sound thresholds. -/
theorem rc2mCorrect_tiers {c : Nat} {s : State} (h1 : s.cfg.rc2mTFine < s.cfg.rc2mTCoarse)
    (_h2 : s.cfg.rc2mTSuperfine < s.cfg.rc2mTFine) (e : Int) (he : e = (c : Int) - 200000) :
    rc2mCorrect c s =
      if s.cfg.rc2mTCoarse < e.natAbs then rc2mStep e .rc2mCoarse s
      else if s.cfg.rc2mTFine < e.natAbs then rc2mStep e .rc2mFine s
      else if s.cfg.rc2mTSuperfine < e.natAbs then rc2mStep e .rc2mSuperfine s
      else .ok () s := by
  have he' : (c : Int) - (rc2mTarget : Int) = e := he.symm
  unfold rc2mCorrect rc2mStep
  rw [he']
  dsimp only
  by_cases hp : 0 < e
  · simp only [hp, if_true]
    by_cases a : s.cfg.rc2mTCoarse < e.natAbs
    · rw [if_pos (by omega), if_pos a]
    · rw [if_neg (by omega), if_neg a]
      by_cases b : s.cfg.rc2mTFine < e.natAbs
      · rw [if_pos (by omega), if_pos b]
      · rw [if_neg (by omega), if_neg b]
        by_cases d : s.cfg.rc2mTSuperfine < e.natAbs
        · rw [if_pos (by omega), if_pos d]
        · rw [if_neg (by omega), if_neg d, if_neg (by omega), if_neg (by omega), if_neg (by omega)]
  · simp only [hp, if_false]
    rw [if_neg (by omega), if_neg (by omega), if_neg (by omega)]
    by_cases a : s.cfg.rc2mTCoarse < e.natAbs
    · rw [if_pos (by omega), if_pos a]
    · rw [if_neg (by omega), if_neg a]
      by_cases b : s.cfg.rc2mTFine < e.natAbs
      · rw [if_pos (by omega), if_pos b]
      · rw [if_neg (by omega), if_neg b]
        by_cases d : s.cfg.rc2mTSuperfine < e.natAbs
        · rw [if_pos (by omega), if_pos d]
        · rw [if_neg (by omega), if_neg d]

/-! ### By the domain -/

/-- The codes of the fields `own` agree. -/
def Agree (own : Field → Bool) (x y : Codes) : Prop := ∀ f, own f = true → x.get f = y.get f

/-- An operation on the codes that reads and writes the codes of the fields `own` alone, and never refuses. -/
def Local (own : Field → Bool) (op : State → Res Unit) : Prop :=
  ∀ s : State, (∀ t, op s = .ok () t → t = setCode t.code s ∧ Agree (fun f => !own f) t.code s.code
      ∧ ∀ u : State, u.cfg = s.cfg → Agree own u.code s.code →
        ∃ x, op u = .ok () (setCode x u) ∧ Agree own x t.code ∧ Agree (fun f => !own f) x u.code)
    ∧ ∀ r t, op s ≠ .refuse r t

def hfField (f : Field) : Bool := f == .hfCoarse || f == .hfFine
def lcField (f : Field) : Bool := f == .lcCode
def rc2mField (f : Field) : Bool := f == .rc2mCoarse || f == .rc2mFine || f == .rc2mSuperfine
def ifField (f : Field) : Bool := f == .ifCoarse || f == .ifFine

theorem local_nothing (own : Field → Bool) : Local own fun s => .ok () s := by
  refine fun s => ⟨fun t h => ?_, by simp⟩
  simp only [Res.ok.injEq, true_and] at h
  subst h
  exact ⟨rfl, fun _ _ => rfl, fun u _ ha => ⟨u.code, rfl, ha, fun _ _ => rfl⟩⟩

theorem Local.of_fields {own : Field → Bool} {op op' : State → Res Unit} (h : Local own op') (s : State)
    (hs : ∀ u : State, u.cfg = s.cfg → op u = op' u) :
    (∀ t, op s = .ok () t → t = setCode t.code s ∧ Agree (fun f => !own f) t.code s.code
      ∧ ∀ u : State, u.cfg = s.cfg → Agree own u.code s.code →
        ∃ x, op u = .ok () (setCode x u) ∧ Agree own x t.code ∧ Agree (fun f => !own f) x u.code)
    ∧ ∀ r t, op s ≠ .refuse r t := by
  obtain ⟨h1, h2⟩ := h s
  rw [hs s rfl]
  refine ⟨fun t ht => ?_, h2⟩
  obtain ⟨a, b, c⟩ := h1 t ht
  refine ⟨a, b, fun u hu ha => ?_⟩
  rw [hs u hu]
  exact c u hu ha

theorem inRange_agree {cfg : Config} {x y : Codes} {f : Field} (h : x.get f = y.get f) : inRange cfg x f = inRange cfg y f := by
  simp [inRange, h]

theorem local_codeInc {own : Field → Bool} {f : Field} (hf : own f = true) : Local own (codeInc f) := by
  intro s
  by_cases hr : inRange s.cfg s.code f = true
  · by_cases he : s.code.get f = maxOf s.cfg f
    · rw [codeInc_end hr he]; simp
    · have key : ∀ u : State, u.cfg = s.cfg → u.code.get f = s.code.get f →
          codeInc f u = .ok () (putCode f (s.code.get f + 1) u) := by
        intro u hu hg
        rw [codeInc_ok (by rw [hu, inRange_agree hg]; exact hr)
          (by rw [hu, hg]; have := (inRange_iff _ _ _).mp hr; omega), hg]
      rw [key s rfl rfl]
      refine ⟨fun t ht => ?_, by simp⟩
      simp only [Res.ok.injEq, true_and] at ht
      subst ht
      refine ⟨rfl, fun g hg => ?_, fun u hu ha => ⟨_, key u hu (ha f hf), fun g hg => ?_, fun g hg => ?_⟩⟩
      · exact codes_get_set_other _ _ (by rintro rfl; simp [hf] at hg)
      · by_cases hgf : g = f
        · subst hgf; simp [putCode]
        · simp only [putCode, setCode_code]
          rw [codes_get_set_other _ _ hgf, codes_get_set_other _ _ hgf]
          exact ha g hg
      · exact codes_get_set_other _ _ (by rintro rfl; simp [hf] at hg)
  · rw [codeInc_out (Bool.eq_false_iff.mpr hr)]; simp

theorem local_codeDec {own : Field → Bool} {f : Field} (hf : own f = true) : Local own (codeDec f) := by
  intro s
  by_cases hr : inRange s.cfg s.code f = true
  · by_cases he : s.code.get f = minOf s.cfg f
    · rw [codeDec_end hr he]; simp
    · have key : ∀ u : State, u.cfg = s.cfg → u.code.get f = s.code.get f →
          codeDec f u = .ok () (putCode f (s.code.get f - 1) u) := by
        intro u hu hg
        rw [codeDec_ok (by rw [hu, inRange_agree hg]; exact hr)
          (by rw [hu, hg]; have := (inRange_iff _ _ _).mp hr; omega), hg]
      rw [key s rfl rfl]
      refine ⟨fun t ht => ?_, by simp⟩
      simp only [Res.ok.injEq, true_and] at ht
      subst ht
      refine ⟨rfl, fun g hg => ?_, fun u hu ha => ⟨_, key u hu (ha f hf), fun g hg => ?_, fun g hg => ?_⟩⟩
      · exact codes_get_set_other _ _ (by rintro rfl; simp [hf] at hg)
      · by_cases hgf : g = f
        · subst hgf; simp [putCode]
        · simp only [putCode, setCode_code]
          rw [codes_get_set_other _ _ hgf, codes_get_set_other _ _ hgf]
          exact ha g hg
      · exact codes_get_set_other _ _ (by rintro rfl; simp [hf] at hg)
  · rw [codeDec_out (Bool.eq_false_iff.mpr hr)]; simp

/-- The pair steps of HF and IF. -/
theorem local_of_pair {own : Field → Bool} {f g : Field} (hf : own f = true) (hg : own g = true)
    (step : Config → Nat → Nat → Option (Nat × Nat)) {op : State → Res Unit}
    (hop : ∀ s : State, match step s.cfg (s.code.get f) (s.code.get g) with
      | some (x, y) => op s = .ok () (setCode ((s.code.set f x).set g y) s)
      | none => ∃ e t, op s = .fault e t) (hfg : f ≠ g) : Local own op := by
  intro s
  have hs := hop s
  cases hstep : step s.cfg (s.code.get f) (s.code.get g) with
  | none =>
    rw [hstep] at hs
    obtain ⟨e, t, h⟩ := hs
    rw [h]; simp
  | some xy =>
    obtain ⟨x, y⟩ := xy
    rw [hstep] at hs
    simp only at hs
    rw [hs]
    refine ⟨fun t ht => ?_, by simp⟩
    simp only [Res.ok.injEq, true_and] at ht
    subst ht
    have hout : ∀ (r : Codes) (k : Field), (!own k) = true → ((r.set f x).set g y).get k = r.get k := by
      intro r k hk
      rw [codes_get_set_other _ _ (by rintro rfl; simp [hg] at hk), codes_get_set_other _ _ (by rintro rfl; simp [hf] at hk)]
    refine ⟨rfl, fun k hk => hout _ k hk, fun u hu ha => ?_⟩
    have hu' := hop u
    rw [hu, ha f hf, ha g hg, hstep] at hu'
    refine ⟨_, hu', fun k hk => ?_, fun k hk => hout _ k hk⟩
    simp only [setCode_code]
    by_cases h1 : k = g
    · subst h1; rw [codes_get_set_same, codes_get_set_same]
    · rw [codes_get_set_other _ _ h1, codes_get_set_other _ _ h1]
      by_cases h2 : k = f
      · subst h2; rw [codes_get_set_same, codes_get_set_same]
      · rw [codes_get_set_other _ _ h2, codes_get_set_other _ _ h2]
        exact ha k hk

theorem inRange_le (cfg : Config) (code : Codes) (f : Field) (h : f ≠ .lcCode) :
    inRange cfg code f = true ↔ code.get f ≤ maxOf cfg f := by
  rw [inRange_iff]
  cases f <;> simp_all [minOf]

theorem local_hfFineDec : Local hfField hfFineDec := by
  refine local_of_pair (f := .hfCoarse) (g := .hfFine) rfl rfl (fun cfg x y =>
    if x ≤ maxOf cfg .hfCoarse ∧ y ≤ maxOf cfg .hfFine then
      if y = 0 then if x = 0 then none else some (x - 1, hfDecReset) else some (x, y - 1)
    else none) (fun s => ?_) (by decide)
  have r1 : inRange s.cfg s.code .hfCoarse = true ↔ s.code.hfCoarse ≤ maxOf s.cfg .hfCoarse := inRange_le _ _ _ (by decide)
  have r2 : inRange s.cfg s.code .hfFine = true ↔ s.code.hfFine ≤ maxOf s.cfg .hfFine := inRange_le _ _ _ (by decide)
  simp only [hfFineDec, requireInRange, codeFault, Res.andThen, Res.bind, ← r1, ← r2, Codes.get, Codes.set]
  by_cases h1 : inRange s.cfg s.code .hfCoarse = true <;> by_cases h2 : inRange s.cfg s.code .hfFine = true <;>
    by_cases h3 : s.code.hfFine = 0 <;> by_cases h4 : s.code.hfCoarse = 0 <;> simp [h1, h2, h3, h4]

theorem local_hfFineInc : Local hfField hfFineInc := by
  refine local_of_pair (f := .hfCoarse) (g := .hfFine) rfl rfl (fun cfg x y =>
    if x ≤ maxOf cfg .hfCoarse ∧ y ≤ maxOf cfg .hfFine then
      if y = hfFineMax then if x = maxOf cfg .hfCoarse then none else some (x + 1, hfIncReset) else some (x, y + 1)
    else none) (fun s => ?_) (by decide)
  have r1 : inRange s.cfg s.code .hfCoarse = true ↔ s.code.hfCoarse ≤ maxOf s.cfg .hfCoarse := inRange_le _ _ _ (by decide)
  have r2 : inRange s.cfg s.code .hfFine = true ↔ s.code.hfFine ≤ maxOf s.cfg .hfFine := inRange_le _ _ _ (by decide)
  simp only [hfFineInc, requireInRange, codeFault, Res.andThen, Res.bind, ← r1, ← r2, Codes.get, Codes.set]
  by_cases h1 : inRange s.cfg s.code .hfCoarse = true <;> by_cases h2 : inRange s.cfg s.code .hfFine = true <;>
    by_cases h3 : s.code.hfFine = hfFineMax <;> by_cases h4 : s.code.hfCoarse = maxOf s.cfg .hfCoarse <;>
    simp [h1, h2, h3, h4]

theorem local_ifFineInc : Local ifField ifFineInc := by
  refine local_of_pair (f := .ifCoarse) (g := .ifFine) rfl rfl (fun cfg x y =>
    if x ≤ maxOf cfg .ifCoarse ∧ y ≤ maxOf cfg .ifFine then
      if y + 1 = ifFineOvf then if x = maxOf cfg .ifCoarse then none else some (x + 1, y + 1 - ifFineSub)
      else some (x, y + 1)
    else none) (fun s => ?_) (by decide)
  have r1 : inRange s.cfg s.code .ifCoarse = true ↔ s.code.ifCoarse ≤ maxOf s.cfg .ifCoarse := inRange_le _ _ _ (by decide)
  have r2 : inRange s.cfg s.code .ifFine = true ↔ s.code.ifFine ≤ maxOf s.cfg .ifFine := inRange_le _ _ _ (by decide)
  simp only [ifFineInc, requireInRange, codeFault, Res.andThen, Res.bind, ← r1, ← r2, Codes.get, Codes.set]
  by_cases h1 : inRange s.cfg s.code .ifCoarse = true <;> by_cases h2 : inRange s.cfg s.code .ifFine = true <;>
    by_cases h3 : s.code.ifFine + 1 = ifFineOvf <;> by_cases h4 : s.code.ifCoarse = maxOf s.cfg .ifCoarse <;>
    simp [h1, h2, h3, h4]

theorem local_ifFineDec : Local ifField ifFineDec := by
  refine local_of_pair (f := .ifCoarse) (g := .ifFine) rfl rfl (fun cfg x y =>
    if x ≤ maxOf cfg .ifCoarse ∧ y ≤ maxOf cfg .ifFine then
      if y = 0 then
        match cfg.ifFineUnderflow with
        | .fault => none
        | .carry k => if x = 0 then none else some (x - 1, k)
      else some (x, y - 1)
    else none) (fun s => ?_) (by decide)
  have r1 : inRange s.cfg s.code .ifCoarse = true ↔ s.code.ifCoarse ≤ maxOf s.cfg .ifCoarse := inRange_le _ _ _ (by decide)
  have r2 : inRange s.cfg s.code .ifFine = true ↔ s.code.ifFine ≤ maxOf s.cfg .ifFine := inRange_le _ _ _ (by decide)
  simp only [ifFineDec, ifUnderflow, requireInRange, codeFault, Res.andThen, Res.bind, ← r1, ← r2, Codes.get, Codes.set]
  by_cases h1 : inRange s.cfg s.code .ifCoarse = true <;> by_cases h2 : inRange s.cfg s.code .ifFine = true <;>
    by_cases h3 : s.code.ifFine = 0 <;> by_cases h4 : s.code.ifCoarse = 0 <;> cases h5 : s.cfg.ifFineUnderflow <;>
    simp [h1, h2, h3, h4, h5]

theorem local_hfCorrect (c : Nat) : Local hfField (hfCorrect c) := by
  unfold hfCorrect
  by_cases h1 : c < hfLow
  · simpa only [h1, if_true] using local_hfFineDec
  · by_cases h2 : hfHigh < c
    · simpa only [h1, h2, if_false, if_true] using local_hfFineInc
    · simpa only [h1, h2, if_false] using local_nothing _

theorem local_lcCorrect (c : Nat) : Local lcField (lcCorrect c) := by
  intro s
  rcases Nat.lt_trichotomy c s.cfg.lcTarget with h | h | h
  · exact (local_codeInc rfl).of_fields s fun u hu => lcCorrect_low (by rw [hu]; exact h)
  · exact (local_nothing _).of_fields s fun u hu => lcCorrect_at (by rw [hu]; exact h)
  · exact (local_codeDec rfl).of_fields s fun u hu => lcCorrect_high (by rw [hu]; exact h)

theorem local_ifCorrect (c : Nat) : Local ifField (ifCorrect c) := by
  intro s
  by_cases h : s.cfg.ifTarget + 1400 < c
  · exact local_ifFineInc.of_fields s fun u hu => ifCorrect_high (by rw [hu]; exact h)
  · by_cases h' : c + 1400 < s.cfg.ifTarget
    · exact local_ifFineDec.of_fields s fun u hu => ifCorrect_low (by rw [hu]; exact h')
    · exact (local_nothing _).of_fields s fun u hu => ifCorrect_band (by rw [hu]; omega) (by rw [hu]; omega)

theorem local_rc2mStep (e : Int) {f : Field} (hf : rc2mField f = true) (s : State) :
    ∃ op, Local rc2mField op ∧ ∀ u : State, u.cfg = s.cfg → rc2mStep e f u = op u := by
  unfold rc2mStep rc2mUp rc2mDown
  by_cases hp : 0 < e <;> cases hq : s.cfg.rc2mHighAction <;> simp only [hp, if_true, if_false]
  · exact ⟨_, local_codeInc hf, fun u hu => by rw [hu, hq]⟩
  · exact ⟨_, local_codeDec hf, fun u hu => by rw [hu, hq]⟩
  · exact ⟨_, local_codeDec hf, fun u hu => by rw [hu, hq]⟩
  · exact ⟨_, local_codeInc hf, fun u hu => by rw [hu, hq]⟩

/-- Two operations on the codes of different domains can be taken in either order. -/
theorem Local.comm {own own' : Field → Bool} {op op' : State → Res Unit} (h : Local own op) (h' : Local own' op')
    (hd : ∀ f, ¬ (own f = true ∧ own' f = true)) {s t u : State} (ht : op s = .ok () t) (hu : op' s = .ok () u) :
    ∃ v, op' t = .ok () v ∧ op u = .ok () v := by
  obtain ⟨e1, k1, g1⟩ := (h s).1 t ht
  obtain ⟨e2, k2, g2⟩ := (h' s).1 u hu
  have c1 : t.cfg = s.cfg := by rw [e1]; rfl
  have c2 : u.cfg = s.cfg := by rw [e2]; rfl
  obtain ⟨x, hx, x1, x2⟩ := g1 u c2 fun f hf => k2 f (by
    have := hd f
    simp only [hf, true_and, Bool.not_eq_true] at this
    simp [this])
  obtain ⟨y, hy, y1, y2⟩ := g2 t c1 fun f hf => k1 f (by
    have := hd f
    simp only [hf, and_true, Bool.not_eq_true] at this
    simp [this])
  have hxy : x = y := by
    apply codes_ext
    intro f
    cases hf : own f
    · have hx := x2 f (by simp [hf])
      cases hf' : own' f
      · rw [hx, y2 f (by simp [hf']), k2 f (by simp [hf']), k1 f (by simp [hf])]
      · rw [hx, y1 f hf']
    · have hf' : own' f = false := by
        have := hd f
        simpa [hf] using this
      rw [x1 f hf, y2 f (by simp [hf'])]
  refine ⟨setCode y t, hy, ?_⟩
  rw [hx, hxy, e1, e2]
  rfl

end Sys2Proof.Machine
end

