-- ==== Sys2Proof/Laws/Counters.lean ====
section
/-! SUPPORT. Half reads, snapshots and gate cycles where nothing disturbs (41_counters.md R158 to R164). -/

namespace Sys2Proof.Machine

/-! ### Records by counter -/

@[simp] theorem perCounter_get_set_same {α : Type} (r : PerCounter α) (i : Counter) (v : α) : (r.set i v).get i = v := by
  cases i <;> rfl

theorem perCounter_get_set_other {α : Type} (r : PerCounter α) {i j : Counter} (v : α) (h : j ≠ i) :
    (r.set i v).get j = r.get j := by
  cases i <;> cases j <;> first | rfl | exact absurd rfl h

theorem perCounter_ext {α : Type} {r r' : PerCounter α} (h : ∀ i, r.get i = r'.get i) : r = r' := by
  have h0 := h .c2m
  have h1 := h .clc
  have h2 := h .cif
  have h3 := h .chf
  have h4 := h .c32k
  cases r; cases r'
  simp only [PerCounter.get] at h0 h1 h2 h3 h4
  subst h0 h1 h2 h3 h4
  rfl

/-! ### Halves -/

theorem extract_append_low (up lo : Half) : (up ++ lo : Word).extractLsb' 0 16 = lo := by
  apply BitVec.eq_of_getLsbD_eq
  intro i hi
  have h : (up ++ lo : Word).getLsbD i = lo.getLsbD i := BitVec.getLsbD_append.trans (by simp [hi])
  simpa [hi] using h

theorem extract_append_high (up lo : Half) : (up ++ lo : Word).extractLsb' 16 16 = up := by
  apply BitVec.eq_of_getLsbD_eq
  intro i hi
  have h : (up ++ lo : Word).getLsbD (16 + i) = up.getLsbD i := BitVec.getLsbD_append.trans (by simp)
  simpa [hi] using h

/-- A count put together from its halves, whatever the upper bits of the two reads hold (R75). -/
theorem assembleCount_halves {rl rh c : Word} (hl : rl.extractLsb' 0 16 = c.extractLsb' 0 16)
    (hh : rh.extractLsb' 0 16 = c.extractLsb' 16 16) : assembleCount rl rh = c := by
  unfold assembleCount
  rw [hl, hh]
  apply BitVec.eq_of_getLsbD_eq
  intro i hi
  rw [BitVec.getLsbD_append]
  by_cases h : i < 16
  · simp [h]
  · have h16 : i - 16 < 16 := by omega
    have : 16 + (i - 16) = i := by omega
    simp [h, h16, this]

theorem counting_false_settle {s : State} (h : counting s = false) : s.settleLeft = 0 := by
  simp only [counting, Bool.or_eq_false_iff, decide_eq_false_iff_not] at h
  omega

theorem onlyCounters_agentsStep {s : State} (hu : s.undisturbed) : OnlyCountersIn 1 s (agentsStep s) :=
  ⟨by simp [SameChain], fun w => by simp, by simp, sameSession_agentsStep hu, by simp [SameRecord],
    by simp [List.drop_one]⟩

/-- A read of a half register (R74, R159, R160). -/
theorem readHalfRegister_ok (half : Half) (s : State) :
    ∃ v t, readHalfRegister half s = .ok v t
      ∧ (counting s = false → v.extractLsb' 0 16 = half)
      ∧ (counting s = true → v.extractLsb' 0 16 = Config.draw16 s.draws)
      ∧ (s.cfg.cntUpperRead = .zero → v.extractLsb' 16 16 = 0)
      ∧ (s.cfg.cntUpperRead = .any → counting s = false → v.extractLsb' 16 16 = Config.draw16 s.draws)
      ∧ (s.cfg.cntUpperRead = .any → counting s = true → v.extractLsb' 16 16 = Config.draw16 (s.draws + 1))
      ∧ t.cnt = s.cnt ∧ t.cntMode = s.cntMode ∧ t.settleLeft = s.settleLeft - 1 ∧ t.ret = s.ret
      ∧ OnlyCountersIn 0 s t := by
  have hfr : ∀ t : State, t = settle s ∨ t = settle (nextDraw s) ∨ t = settle (nextDraw (nextDraw s)) →
      t.cnt = s.cnt ∧ t.cntMode = s.cntMode ∧ t.settleLeft = s.settleLeft - 1 ∧ t.ret = s.ret
        ∧ OnlyCountersIn 0 s t := by
    rintro t (rfl | rfl | rfl) <;>
      simp [OnlyCountersIn, SameChain, SameMirror, SameSession, SameRecord]
  cases hc : counting s <;> cases hup : s.cfg.cntUpperRead
  · refine ⟨(0 : Half) ++ half, settle s, ?_, ?_, ?_, ?_, ?_, ?_, hfr _ (.inl rfl)⟩
    · simp [readHalfRegister, readHalf, readUpper, hc, hup, Res.bind]
    all_goals simp [extract_append_low, extract_append_high]
  · refine ⟨Config.draw16 s.draws ++ half, settle (nextDraw s), ?_, ?_, ?_, ?_, ?_, ?_, hfr _ (.inr (.inl rfl))⟩
    · simp [readHalfRegister, readHalf, readUpper, hc, hup, Res.bind, draw16]
    all_goals simp [extract_append_low, extract_append_high]
  · refine ⟨(0 : Half) ++ Config.draw16 s.draws, settle (nextDraw s), ?_, ?_, ?_, ?_, ?_, ?_, hfr _ (.inr (.inl rfl))⟩
    · simp [readHalfRegister, readHalf, readUpper, hc, hup, Res.bind, draw16]
    all_goals simp [extract_append_low, extract_append_high]
  · refine ⟨Config.draw16 (s.draws + 1) ++ Config.draw16 s.draws, settle (nextDraw (nextDraw s)), ?_, ?_, ?_, ?_, ?_, ?_,
      hfr _ (.inr (.inr rfl))⟩
    · simp [readHalfRegister, readHalf, readUpper, hc, hup, Res.bind, draw16]
    all_goals simp [extract_append_low, extract_append_high]

/-- Both halves of one counter (R161). -/
theorem readCount_ok {pt : AccessPoint} (hpt : Quiet pt) {s : State} (hu : s.undisturbed) (i : Counter) :
    ∃ v t, readCount pt i s = .ok v t
      ∧ (counting s = false → v = s.cnt.get i ∧ t.cnt = s.cnt ∧ counting t = false)
      ∧ t.cntMode = s.cntMode ∧ t.settleLeft = s.settleLeft - 2 ∧ t.ret = s.ret ∧ t.undisturbed
      ∧ OnlyCountersIn 2 s t := by
  have u1 := undisturbed_agentsStep hu
  obtain ⟨rl, s1, h1, l1, -, -, -, -, n1, m1, k1, r1, f1⟩ :=
    readHalfRegister_ok (((agentsStep s).cnt.get i).extractLsb' 0 16) (agentsStep s)
  have us1 : s1.undisturbed := undisturbed_of_session u1 f1.2.2.2.1 f1.2.2.2.2.2
  have u2 := undisturbed_agentsStep us1
  obtain ⟨rh, s2, h2, l2, -, -, -, -, n2, m2, k2, r2, f2⟩ :=
    readHalfRegister_ok (((agentsStep s1).cnt.get i).extractLsb' 16 16) (agentsStep s1)
  have f : OnlyCountersIn 2 s s2 := (onlyCounters_agentsStep hu).trans (f1.trans ((onlyCounters_agentsStep us1).trans f2))
  have hmode : s2.cntMode = s.cntMode := by rw [m2, agentsStep_cntMode, m1, agentsStep_cntMode]
  have hset : s2.settleLeft = s.settleLeft - 2 := by
    rw [k2, agentsStep_settleLeft, k1, agentsStep_settleLeft]; omega
  refine ⟨assembleCount rl rh, s2, ?_, fun hc => ?_, hmode, hset, ?_,
    undisturbed_of_session hu f.2.2.2.1 f.2.2.2.2.2, f⟩
  · simp only [readCount, hpt s hu, Res.andThen, Res.bind, cntReadLo, h1, hpt s1 us1, cntReadHi, h2]
  · have hc0 : counting (agentsStep s) = false := by rw [agentsStep_counting]; exact hc
    have hcfg1 : s1.cfg = s.cfg := by rw [f1.2.2.2.2.1.2.2.2.1, agentsStep_cfg]
    have hs0 := counting_false_settle hc
    have hc1 : counting s1 = false := by
      rw [← hc]
      refine counting_congr (by rw [m1, agentsStep_cntMode]) ?_ hcfg1
      rw [k1, agentsStep_settleLeft]; omega
    have hc2 : counting (agentsStep s1) = false := by rw [agentsStep_counting]; exact hc1
    have e0 := agentsStep_cnt (s := s) (.inl hc)
    have e1 := agentsStep_cnt (s := s1) (.inl hc1)
    refine ⟨assembleCount_halves ?_ ?_, by rw [n2, e1, n1, e0], ?_⟩
    · rw [l1 hc0, e0]
    · rw [l2 hc2, e1, n1, e0]
    · rw [← hc]
      exact counting_congr hmode (by rw [hset]; omega) f.2.2.2.2.1.2.2.2.1
  · rw [r2, agentsStep_ret, r1, agentsStep_ret]

/-- A snapshot (R161, R164). -/
theorem readSnapshot_ok {pt : AccessPoint} (hpt : Quiet pt) {s : State} (hu : s.undisturbed) :
    ∃ v t, readSnapshot pt s = .ok v t
      ∧ (counting s = false → v = s.cnt ∧ t.cnt = s.cnt ∧ counting t = false)
      ∧ t.cntMode = s.cntMode ∧ t.settleLeft = s.settleLeft - 10 ∧ t.ret = s.ret ∧ t.undisturbed
      ∧ OnlyCountersIn 10 s t := by
  obtain ⟨v0, s1, e1, c1, m1, k1, r1, u1, f1⟩ := readCount_ok hpt hu .c2m
  obtain ⟨v1, s2, e2, c2, m2, k2, r2, u2, f2⟩ := readCount_ok hpt u1 .clc
  obtain ⟨v2, s3, e3, c3, m3, k3, r3, u3, f3⟩ := readCount_ok hpt u2 .cif
  obtain ⟨v3, s4, e4, c4, m4, k4, r4, u4, f4⟩ := readCount_ok hpt u3 .chf
  obtain ⟨v4, s5, e5, c5, m5, k5, r5, u5, f5⟩ := readCount_ok hpt u4 .c32k
  refine ⟨⟨v0, v1, v2, v3, v4⟩, s5, ?_, fun hc => ?_, by rw [m5, m4, m3, m2, m1], by omega, by rw [r5, r4, r3, r2, r1], u5,
    (((f1.trans f2).trans f3).trans f4).trans f5⟩
  · simp only [readSnapshot, e1, e2, e3, e4, e5, Res.bind]
  · obtain ⟨w0, n1, d1⟩ := c1 hc
    obtain ⟨w1, n2, d2⟩ := c2 d1
    obtain ⟨w2, n3, d3⟩ := c3 d2
    obtain ⟨w3, n4, d4⟩ := c4 d3
    obtain ⟨w4, n5, d5⟩ := c5 d4
    refine ⟨?_, by rw [n5, n4, n3, n2, n1], d5⟩
    rw [w0, w1, w2, w3, w4, n4, n3, n2, n1]
    rfl

/-- Resetting and enabling (R162). -/
theorem resetAndEnable_ok {pt : AccessPoint} (hpt : Quiet pt) {s : State} (hu : s.undisturbed) :
    ∃ t, resetAndEnable pt s = .ok () t ∧ t.cntMode = .running ∧ t.settleLeft = 0 ∧ t.ret = s.ret
      ∧ ((s.cfg.resetHolds = true ∨ ∀ acts ∈ s.env, ∀ i, Act.tick i ∉ acts) → ∀ i : Counter, t.cnt.get i = 0)
      ∧ t.undisturbed ∧ OnlyCountersIn 2 s t := by
  have u1 : (resetAll (agentsStep s)).undisturbed :=
    undisturbed_congr (by simp) (by simp) (by simp) (by simp) (undisturbed_agentsStep hu)
  have f0 : OnlyCountersIn 0 (agentsStep s) (resetAll (agentsStep s)) := by
    simp [OnlyCountersIn, SameChain, SameMirror, SameSession, SameRecord]
  have f1 : ∀ x : State, OnlyCountersIn 0 x (enableAll x) := fun x => by
    simp [OnlyCountersIn, SameChain, SameMirror, SameSession, SameRecord]
  have f : OnlyCountersIn 2 s (enableAll (agentsStep (resetAll (agentsStep s)))) :=
    (onlyCounters_agentsStep hu).trans (f0.trans ((onlyCounters_agentsStep u1).trans (f1 _)))
  refine ⟨_, ?_, rfl, by simp, by simp, fun h i => ?_, undisturbed_of_session hu f.2.2.2.1 f.2.2.2.2.2, f⟩
  · simp only [resetAndEnable, patternAt, hpt s hu, Res.andThen, Res.bind, hpt _ u1]
  · rw [enableAll_cnt, agentsStep_cnt, resetAll_cnt]
    · cases i <;> rfl
    · rcases h with h | h
      · left
        simp [counting, h]
      · right
        intro acts ha
        simp only [resetAll_env, agentsStep_env] at ha
        exact h acts (List.mem_of_mem_tail ha)

/-- A gate cycle (R163, R164). -/
theorem gateCycle_ok {pt : AccessPoint} (hpt : Quiet pt) {s : State} (hu : s.undisturbed) :
    ∃ v t, gateCycle pt s = .ok v t ∧ (s.cfg.disableSettle = 0 → v = (agentsStep s).cnt)
      ∧ t.cntMode = .running ∧ t.settleLeft = 0 ∧ t.ret = s.ret
      ∧ ((s.cfg.resetHolds = true ∨ ∀ acts ∈ s.env, ∀ i, Act.tick i ∉ acts) → ∀ i : Counter, t.cnt.get i = 0)
      ∧ t.undisturbed ∧ OnlyCountersIn 13 s t := by
  have u1 : (disableAll (agentsStep s)).undisturbed :=
    undisturbed_congr (by simp) (by simp) (by simp) (by simp) (undisturbed_agentsStep hu)
  have f0 : OnlyCountersIn 0 (agentsStep s) (disableAll (agentsStep s)) := by
    simp [OnlyCountersIn, SameChain, SameMirror, SameSession, SameRecord]
  obtain ⟨v, s2, e2, c2, -, -, r2, u2, f2⟩ := readSnapshot_ok hpt u1
  obtain ⟨t, e3, m3, k3, r3, z3, u3, f3⟩ := resetAndEnable_ok hpt u2
  have f := (onlyCounters_agentsStep hu).trans (f0.trans f2)
  refine ⟨v, t, ?_, fun h => ?_, m3, k3, ?_, fun h => z3 (h.imp (fun h => ?_) fun h acts ha => ?_), u3, f.trans f3⟩
  · simp only [gateCycle, patternAt, hpt s hu, Res.andThen, Res.bind, e2, e3]
  · have := (c2 (by simp [counting, h])).1
    simpa using this
  · rw [r3, r2]; simp
  · rw [f.2.2.2.2.1.2.2.2.1]; exact h
  · rw [f.2.2.2.2.2] at ha; exact h acts (List.mem_of_mem_drop ha)

end Sys2Proof.Machine
end

