-- ==== Sys2Proof/Laws/Kept.lean ====
section
/-! SUPPORT. What every outcome of an operation leaves true, from the updates it is built of: one lemma per shared
operation, which takes only the updates that the operation makes. -/

namespace Sys2Proof.Machine

/-- Every completion meets P, every stop leaves a state that meets Q. -/
def Res.Sat {α : Type} (P Q : State → Prop) : Res α → Prop
  | .ok _ s => P s
  | .fault _ s => Q s
  | .refuse _ s => Q s

theorem Res.Sat.bind {α β : Type} {P P' Q : State → Prop} {x : Res α} {k : α → State → Res β} (hx : x.Sat P Q)
    (hk : ∀ v s, P s → (k v s).Sat P' Q) : (x.bind k).Sat P' Q := by
  cases x with
  | ok v s => exact hk v s hx
  | fault f s => exact hx
  | refuse r s => exact hx

theorem Res.Sat.andThen {α β : Type} {P P' Q : State → Prop} {x : Res α} {k : State → Res β} (hx : x.Sat P Q)
    (hk : ∀ s, P s → (k s).Sat P' Q) : (x.andThen k).Sat P' Q := hx.bind fun _ s h => hk s h

theorem Res.Sat.mono {α : Type} {P P' Q Q' : State → Prop} {x : Res α} (hx : x.Sat P Q) (hp : ∀ s, P s → P' s)
    (hq : ∀ s, Q s → Q' s) : x.Sat P' Q' := by
  cases x with
  | ok v s => exact hp s hx
  | fault f s => exact hq s hx
  | refuse r s => exact hq s hx

/-- The next state of an operation meets what its completions meet, or what its recorded stops meet. -/
theorem finish_sat {P Q R : State → Prop} {x : Res Unit} (hx : x.Sat P Q) (hp : ∀ s, P s → R s)
    (hf : ∀ f s, Q s → R (raiseFault f s)) (hr : ∀ r s, Q s → R (refuseWith r s)) : ∃ t, finish x = .next t ∧ R t := by
  cases x with
  | ok v s => exact ⟨s, rfl, hp s hx⟩
  | fault f s => exact ⟨_, rfl, hf f s hx⟩
  | refuse r s => exact ⟨_, rfl, hr r s hx⟩

/-- The same of an operation with a result. -/
theorem finishWith_sat {α : Type} {P Q R : State → Prop} {val : α → RetVal} {x : Res α} (hx : x.Sat P Q)
    (hp : ∀ v s, P s → R (setRet v s)) (hf : ∀ f s, Q s → R (raiseFault f s)) (hr : ∀ r s, Q s → R (refuseWith r s)) :
    ∃ t, finishWith val x = .next t ∧ R t := by
  cases x with
  | ok v s => exact ⟨_, rfl, hp (val v) s hx⟩
  | fault f s => exact ⟨_, rfl, hf f s hx⟩
  | refuse r s => exact ⟨_, rfl, hr r s hx⟩

section

variable {P : State → Prop}

/-! ### The mirror -/

theorem sat_checkWord (w : Nat) {s : State} (h : P s) : (checkWord w s).Sat P P := by
  unfold checkWord; split <;> exact h

theorem sat_checkPosition (p : Nat) {s : State} (h : P s) :
    (checkPosition p s).Sat (fun t => P t ∧ p < nAsc) P := by
  unfold checkPosition; split
  · exact ⟨h, ‹_›⟩
  · exact h

theorem sat_readMirror (w : Nat) {s : State} (h : P s) : (readMirror w s).Sat P P := by
  unfold readMirror; split <;> exact h

theorem sat_ascMirrorWrite (hm : ∀ w v s, w < nWords → P s → P (setMirror (s.mirror.write w v) s)) (w : Nat) (v : Word)
    {s : State} (h : P s) : (ascMirrorWrite w v s).Sat P P := by
  unfold ascMirrorWrite checkWord
  split
  · next hw => exact hm w v s hw h
  · exact h

theorem sat_modifyBit (hm : ∀ w v s, w < nWords → P s → P (setMirror (s.mirror.write w v) s)) (f : Word → Word → Word)
    (p : Nat) {s : State} (h : P s) : (modifyBit f p s).Sat P P :=
  (sat_checkPosition p h).andThen fun _ h => (sat_readMirror _ h.1).bind (P := P) fun _ _ h' => hm _ _ _ (wordOf_lt h.2) h'

theorem sat_writeBits (hm : ∀ w v s, w < nWords → P s → P (setMirror (s.mirror.write w v) s)) (last v n : Nat)
    {s : State} (h : P s) : (writeBits last v n s).Sat P P := by
  induction n generalizing s with
  | zero => exact h
  | succ j ih =>
    refine Res.Sat.andThen (P := P) ?_ fun s h => ih h
    split <;> exact sat_modifyBit hm _ _ h

theorem sat_ascWriteField (hm : ∀ w v s, w < nWords → P s → P (setMirror (s.mirror.write w v) s)) (p n v : Nat)
    {s : State} (h : P s) : (ascWriteField p n v s).Sat P P := by
  unfold ascWriteField
  split
  · exact h
  · split
    · exact h
    · split
      · exact h
      · exact sat_writeBits hm _ _ _ h

/-! ### The chain -/

theorem sat_ascCtrlWrite (hw : ∀ v s, P s → P (latchWrite v s)) (v : Word) {s : State} (h : P s) :
    (ascCtrlWrite v s).Sat P P := by
  unfold ascCtrlWrite
  split
  · exact h
  · split
    · exact h
    · exact hw v s h

variable {Q : State → Prop} {pt : AccessPoint}

theorem sat_writeAt (hq : ∀ s, P s → Q s) (hpt : ∀ s, P s → (pt s).Sat P Q) (hw : ∀ v s, P s → P (latchWrite v s))
    (v : Word) {s : State} (h : P s) : (writeAt pt v s).Sat P Q :=
  (hpt s h).andThen fun _ h => (sat_ascCtrlWrite hw v h).mono (fun _ h => h) hq

theorem sat_shiftWrites (hq : ∀ s, P s → Q s) (hpt : ∀ s, P s → (pt s).Sat P Q) (hw : ∀ v s, P s → P (latchWrite v s))
    (d : Bool) {s : State} (h : P s) : (shiftWrites pt d s).Sat P Q :=
  ((sat_ascCtrlWrite hw _ h).mono (fun _ h => h) hq).andThen fun _ h => (sat_writeAt hq hpt hw _ h).andThen fun _ h =>
    (sat_writeAt hq hpt hw _ h).andThen fun _ h => sat_writeAt hq hpt hw _ h

theorem sat_ascShiftBit (hq : ∀ s, P s → Q s) (hpt : ∀ s, P s → (pt s).Sat P Q) (hw : ∀ v s, P s → P (latchWrite v s))
    (d : Bool) {s : State} (h : P s) : (ascShiftBit pt d s).Sat P Q :=
  (hpt s h).andThen fun _ h => sat_shiftWrites hq hpt hw d h

theorem sat_shiftStages (hq : ∀ s, P s → Q s) (hpt : ∀ s, P s → (pt s).Sat P Q) (hw : ∀ v s, P s → P (latchWrite v s))
    (m : Nat) {s : State} (h : P s) : (shiftStages pt m s).Sat P Q := by
  induction m generalizing s with
  | zero => exact h
  | succ m ih =>
    exact (hpt s h).andThen fun _ h => ((sat_readMirror _ h).mono (fun _ h => h) hq).bind fun _ _ h =>
      (sat_shiftWrites hq hpt hw _ h).andThen fun _ h => ih h

theorem sat_ascLoad (hq : ∀ s, P s → Q s) (hpt : ∀ s, P s → (pt s).Sat P Q) (hw : ∀ v s, P s → P (latchWrite v s))
    {s : State} (h : P s) : (ascLoad pt s).Sat P Q :=
  (hpt s h).andThen fun _ h => ((sat_ascCtrlWrite hw _ h).mono (fun _ h => h) hq).andThen fun _ h =>
    sat_writeAt hq hpt hw _ h

theorem sat_ascCommit (hq : ∀ s, P s → Q s) (hpt : ∀ s, P s → (pt s).Sat P Q) (hw : ∀ v s, P s → P (latchWrite v s))
    {s : State} (h : P s) : (ascCommit pt s).Sat P Q :=
  (sat_shiftStages hq hpt hw nAsc h).andThen fun _ h => sat_ascLoad hq hpt hw h

/-! ### The counters -/

theorem sat_cntCtrlWrite (hc : ∀ c m k s, P s → P (setCounters c m k s)) (v : Word) {s : State} (h : P s) :
    (cntCtrlWrite v s).Sat P P := by
  unfold cntCtrlWrite
  split
  · exact hc _ _ _ _ h
  · split
    · exact hc _ _ _ _ (hc _ _ _ _ h)
    · split
      · exact hc _ _ _ _ (hc _ _ _ _ h)
      · exact h

theorem sat_readHalfRegister (hc : ∀ c m k s, P s → P (setCounters c m k s)) (hd : ∀ s, P s → P (nextDraw s)) (x : Half)
    {s : State} (h : P s) : (readHalfRegister x s).Sat P Q := by
  refine Res.Sat.bind (P := P) ?_ fun v s h => Res.Sat.bind (P := P) ?_ fun u s h => hc _ _ _ _ h
  · unfold readHalf
    split
    · exact hd s h
    · exact h
  · unfold readUpper
    split
    · exact h
    · exact hd s h

theorem sat_readCount (hpt : ∀ s, P s → (pt s).Sat P Q) (hc : ∀ c m k s, P s → P (setCounters c m k s))
    (hd : ∀ s, P s → P (nextDraw s)) (i : Counter) {s : State} (h : P s) : (readCount pt i s).Sat P Q :=
  (hpt s h).andThen fun _ h => (sat_readHalfRegister hc hd _ h).bind fun _ s h => (hpt s h).andThen fun _ h =>
    (sat_readHalfRegister hc hd _ h).bind fun _ _ h => h

theorem sat_readSnapshot (hpt : ∀ s, P s → (pt s).Sat P Q) (hc : ∀ c m k s, P s → P (setCounters c m k s))
    (hd : ∀ s, P s → P (nextDraw s)) {s : State} (h : P s) : (readSnapshot pt s).Sat P Q :=
  (sat_readCount hpt hc hd _ h).bind fun _ _ h => (sat_readCount hpt hc hd _ h).bind fun _ _ h =>
    (sat_readCount hpt hc hd _ h).bind fun _ _ h => (sat_readCount hpt hc hd _ h).bind fun _ _ h =>
      (sat_readCount hpt hc hd _ h).bind fun _ _ h => h

theorem sat_resetAndEnable (hpt : ∀ s, P s → (pt s).Sat P Q) (hc : ∀ c m k s, P s → P (setCounters c m k s)) {s : State}
    (h : P s) : (resetAndEnable pt s).Sat P Q :=
  Res.Sat.andThen (P := P) ((hpt s h).andThen fun _ h => hc _ _ _ _ (hc _ _ _ _ h)) fun s h =>
    (hpt s h).andThen fun _ h => hc _ _ _ _ (hc _ _ _ _ h)

theorem sat_gateCycle (hpt : ∀ s, P s → (pt s).Sat P Q) (hc : ∀ c m k s, P s → P (setCounters c m k s))
    (hd : ∀ s, P s → P (nextDraw s)) {s : State} (h : P s) : (gateCycle pt s).Sat P Q :=
  Res.Sat.andThen (P := P) ((hpt s h).andThen fun _ h => hc _ _ _ _ h) fun _ h =>
    (sat_readSnapshot hpt hc hd h).bind fun _ _ h => (sat_resetAndEnable hpt hc h).andThen fun _ h => h

/-! ### The store -/

/-- A write of the store that keeps its bound in a sound configuration (R28). -/
def BoundedStep (s : State) (c : Codes) : Prop := s.cfg.ok = true → codesBounded s → Codes.bounded c

theorem Codes.bounded_set {c : Codes} (h : Codes.bounded c) (f : Field) {v : Nat} (hv : v < codeBound) :
    Codes.bounded (c.set f v) := fun g => by
  have := h g
  cases f <;> cases g <;> first | exact hv | exact this

theorem sat_requireInRange (f : Field) {s : State} (h : P s) :
    (requireInRange f s).Sat (fun t => P t ∧ t.code.get f ≤ maxOf t.cfg f) P := by
  unfold requireInRange; split
  · next hr =>
    simp only [inRange, Bool.and_eq_true, decide_eq_true_eq] at hr
    exact ⟨h, hr.2⟩
  · exact h

/-- Both codes of a domain in range (R194 to R197). -/
theorem sat_requireBoth (f g : Field) {k : State → Res Unit} {s : State} (h : P s)
    (hk : ∀ s, P s → s.code.get f ≤ maxOf s.cfg f → s.code.get g ≤ maxOf s.cfg g → (k s).Sat P P) :
    ((requireInRange f s).andThen fun s => (requireInRange g s).andThen k).Sat P P :=
  (sat_requireInRange f h).andThen fun _ h =>
    ((sat_requireInRange (P := fun t => P t ∧ t.code.get f ≤ maxOf t.cfg f) g h).mono (fun _ h => h)
      fun _ h => h.1).andThen fun s h => hk s h.1.1 h.1.2 h.2

/-- One more than a code below its MAX is still below the bound. -/
theorem succ_bounded {s : State} {f : Field} (hok : s.cfg.ok = true) (h : s.code.get f ≤ maxOf s.cfg f)
    (hne : s.code.get f ≠ maxOf s.cfg f) : s.code.get f + 1 < codeBound := by
  have := ((Config.ok_codes hok).1 f).1
  omega

theorem pred_bounded {s : State} (hb : codesBounded s) (f : Field) : s.code.get f - 1 < codeBound :=
  Nat.lt_of_le_of_lt (Nat.sub_le _ _) (hb f)

theorem sat_codeInc (hk : ∀ c s, BoundedStep s c → P s → P (setCode c s)) (f : Field) {s : State} (h : P s) :
    (codeInc f s).Sat P P := by
  refine (sat_requireInRange f h).andThen fun s h => ?_
  unfold stepUp; split
  · exact h.1
  · next hne => exact hk _ _ (fun hok hb => Codes.bounded_set hb f (succ_bounded hok h.2 hne)) h.1

theorem sat_codeDec (hk : ∀ c s, BoundedStep s c → P s → P (setCode c s)) (f : Field) {s : State} (h : P s) :
    (codeDec f s).Sat P P := by
  refine (sat_requireInRange f h).andThen fun s h => ?_
  unfold stepDown; split
  · exact h.1
  · exact hk _ _ (fun _ hb => Codes.bounded_set hb f (pred_bounded hb f)) h.1

theorem sat_hfFineDec (hk : ∀ c s, BoundedStep s c → P s → P (setCode c s)) {s : State} (h : P s) :
    (hfFineDec s).Sat P P := by
  refine sat_requireBoth .hfCoarse .hfFine h fun s h _ _ => ?_
  split
  · split
    · exact h
    · exact hk _ _ (fun _ hb => Codes.bounded_set (Codes.bounded_set hb .hfFine (by decide)) .hfCoarse
        (pred_bounded hb .hfCoarse)) h
  · exact hk _ _ (fun _ hb => Codes.bounded_set hb .hfFine (pred_bounded hb .hfFine)) h

theorem sat_hfFineInc (hk : ∀ c s, BoundedStep s c → P s → P (setCode c s)) {s : State} (h : P s) :
    (hfFineInc s).Sat P P := by
  refine sat_requireBoth .hfCoarse .hfFine h fun s h hc hf => ?_
  split
  · split
    · exact h
    · next hne =>
      exact hk _ _ (fun hok hb => Codes.bounded_set (Codes.bounded_set hb .hfFine (by decide)) .hfCoarse
        (succ_bounded hok hc hne)) h
  · next hne => exact hk _ _ (fun hok hb => Codes.bounded_set hb .hfFine (succ_bounded hok hf hne)) h

theorem sat_ifFineInc (hk : ∀ c s, BoundedStep s c → P s → P (setCode c s)) {s : State} (h : P s) :
    (ifFineInc s).Sat P P := by
  refine sat_requireBoth .ifCoarse .ifFine h fun s h hc hf => ?_
  split
  · next ho =>
    split
    · exact h
    · next hne =>
      have hv : s.code.ifFine + 1 - ifFineSub < codeBound := by rw [ho]; decide
      exact hk _ _ (fun hok hb => Codes.bounded_set (Codes.bounded_set hb .ifFine hv) .ifCoarse
        (succ_bounded hok hc hne)) h
  · next hne =>
    exact hk _ _ (fun hok hb => Codes.bounded_set hb .ifFine
      (succ_bounded hok hf fun he => hne (by rw [show s.code.ifFine = _ from he]; rfl))) h

theorem sat_ifFineDec (hk : ∀ c s, BoundedStep s c → P s → P (setCode c s)) {s : State} (h : P s) :
    (ifFineDec s).Sat P P := by
  refine sat_requireBoth .ifCoarse .ifFine h fun s h _ _ => ?_
  split
  · unfold ifUnderflow
    split
    · exact h
    · next k hu =>
      split
      · exact h
      · exact hk _ _ (fun hok hb => Codes.bounded_set (Codes.bounded_set hb .ifFine ((Config.ok_codes hok).2 k hu))
          .ifCoarse (pred_bounded hb .ifCoarse)) h
  · exact hk _ _ (fun _ hb => Codes.bounded_set hb .ifFine (pred_bounded hb .ifFine)) h

theorem sat_lcExpand {s : State} (h : P s) : (lcExpand s).Sat P P := by
  refine (sat_requireInRange _ h).andThen fun s h => ?_
  simp only
  split <;> exact h.1

theorem sat_encodeHf (hm : ∀ w v s, w < nWords → P s → P (setMirror (s.mirror.write w v) s)) {s : State} (h : P s) :
    (encodeHf s).Sat P P :=
  (sat_ascWriteField hm _ _ _ h).andThen fun _ h => sat_ascWriteField hm _ _ _ h

theorem sat_encodeRc2m (hm : ∀ w v s, w < nWords → P s → P (setMirror (s.mirror.write w v) s)) {s : State} (h : P s) :
    (encodeRc2m s).Sat P P :=
  (sat_ascWriteField hm _ _ _ h).andThen fun _ h => (sat_ascWriteField hm _ _ _ h).andThen fun _ h =>
    sat_ascWriteField hm _ _ _ h

theorem sat_encodeIf (hm : ∀ w v s, w < nWords → P s → P (setMirror (s.mirror.write w v) s)) {s : State} (h : P s) :
    (encodeIf s).Sat P P :=
  (sat_ascWriteField hm _ _ _ h).andThen fun _ h => sat_ascWriteField hm _ _ _ h

theorem sat_encodeLc (hm : ∀ w v s, w < nWords → P s → P (setMirror (s.mirror.write w v) s)) {s : State} (h : P s) :
    (encodeLc s).Sat P P :=
  (sat_lcExpand h).bind fun _ _ h => (sat_ascWriteField hm _ _ _ h).andThen fun _ h =>
    (sat_ascWriteField hm _ _ _ h).andThen fun _ h => sat_ascWriteField hm _ _ _ h

theorem sat_encodeAll (hm : ∀ w v s, w < nWords → P s → P (setMirror (s.mirror.write w v) s)) {s : State} (h : P s) :
    (encodeAll s).Sat P P :=
  (sat_encodeHf hm h).andThen fun _ h => (sat_encodeRc2m hm h).andThen fun _ h => (sat_encodeIf hm h).andThen fun _ h =>
    sat_encodeLc hm h

/-! ### The corrections -/

theorem sat_hfCorrect (hk : ∀ c s, BoundedStep s c → P s → P (setCode c s)) (c : Nat) {s : State} (h : P s) :
    (hfCorrect c s).Sat P P := by
  unfold hfCorrect
  split
  · exact sat_hfFineDec hk h
  · split
    · exact sat_hfFineInc hk h
    · exact h

theorem sat_lcCorrect (hk : ∀ c s, BoundedStep s c → P s → P (setCode c s)) (c : Nat) {s : State} (h : P s) :
    (lcCorrect c s).Sat P P := by
  unfold lcCorrect
  split
  · exact sat_codeDec hk _ h
  · split
    · exact sat_codeInc hk _ h
    · exact h

theorem sat_rc2mUp (hk : ∀ c s, BoundedStep s c → P s → P (setCode c s)) (f : Field) {s : State} (h : P s) :
    (rc2mUp f s).Sat P P := by
  unfold rc2mUp
  split
  · exact sat_codeInc hk _ h
  · exact sat_codeDec hk _ h

theorem sat_rc2mDown (hk : ∀ c s, BoundedStep s c → P s → P (setCode c s)) (f : Field) {s : State} (h : P s) :
    (rc2mDown f s).Sat P P := by
  unfold rc2mDown
  split
  · exact sat_codeDec hk _ h
  · exact sat_codeInc hk _ h

theorem sat_rc2mCorrect (hk : ∀ c s, BoundedStep s c → P s → P (setCode c s)) (c : Nat) {s : State} (h : P s) :
    (rc2mCorrect c s).Sat P P := by
  unfold rc2mCorrect
  simp only
  split
  · exact sat_rc2mUp hk _ h
  · split
    · exact sat_rc2mUp hk _ h
    · split
      · exact sat_rc2mUp hk _ h
      · split
        · exact sat_rc2mDown hk _ h
        · split
          · exact sat_rc2mDown hk _ h
          · split
            · exact sat_rc2mDown hk _ h
            · exact h

theorem sat_ifCorrect (hk : ∀ c s, BoundedStep s c → P s → P (setCode c s)) (c : Nat) {s : State} (h : P s) :
    (ifCorrect c s).Sat P P := by
  unfold ifCorrect
  split
  · exact sat_ifFineInc hk h
  · split
    · exact sat_ifFineDec hk h
    · exact h

theorem sat_correctAll (hk : ∀ c s, BoundedStep s c → P s → P (setCode c s)) (c : Counts) {s : State} (h : P s) :
    (correctAll c s).Sat P P :=
  (sat_hfCorrect hk _ h).andThen fun _ h => (sat_lcCorrect hk _ h).andThen fun _ h =>
    (sat_rc2mCorrect hk _ h).andThen fun _ h => sat_ifCorrect hk _ h

end

/-! ### Every operation and every step -/

/-- A property that no update of the machine breaks: not a mirror write, not a control write, not a write of the store
within its bound, not a recorded stop, and no update of the other parts of the state, which it does not depend on. -/
structure Kept (P : State → Prop) : Prop where
  aside : ∀ s t : State, t.cfg = s.cfg → SameChain s t → t.mirror = s.mirror → t.code = s.code →
    t.faults = s.faults → t.refused = s.refused → t.refusedBy = s.refusedBy → P s → P t
  mirror : ∀ w v s, w < nWords → P s → P (setMirror (s.mirror.write w v) s)
  chain : ∀ v s, P s → P (latchWrite v s)
  code : ∀ c s, BoundedStep s c → P s → P (setCode c s)
  fault : ∀ f s, P s → P (raiseFault f s)
  refuse : ∀ r s, P s → P (refuseWith r s)

namespace Kept

variable {P : State → Prop} (K : Kept P)

include K

theorem counters (c : Counts) (m : CntMode) (k : Nat) (s : State) (h : P s) : P (setCounters c m k s) :=
  K.aside s _ rfl ⟨rfl, rfl, rfl, rfl⟩ rfl rfl rfl rfl rfl h

theorem draw (s : State) (h : P s) : P (nextDraw s) := K.aside s _ rfl ⟨rfl, rfl, rfl, rfl⟩ rfl rfl rfl rfl rfl h

theorem ret (v : RetVal) (s : State) (h : P s) : P (setRet v s) := K.aside s _ rfl ⟨rfl, rfl, rfl, rfl⟩ rfl rfl rfl rfl rfl h

theorem agents (s : State) (h : P s) : P (agentsStep s) :=
  K.aside s _ (by simp) ⟨by simp, by simp, by simp, by simp⟩ (by simp) (by simp) (by simp) (by simp) (by simp) h

theorem tick (i : Counter) (s : State) (h : P s) : P (tickCounter i s) :=
  K.aside s _ (by simp) ⟨by simp, by simp, by simp, by simp⟩ (by simp) (by simp) (by simp) (by simp) (by simp) h

theorem edge (s : State) (h : P s) : P (Machine.refEdge s) :=
  K.aside s _ (by simp) ⟨by simp, by simp, by simp, by simp⟩ (by simp) (by simp) (by simp) (by simp) (by simp) h

theorem check (c : Counts) (s : State) (h : P s) : P (checkTermination c s) :=
  K.aside s _ (by simp) ⟨by simp, by simp, by simp, by simp⟩ (by simp) (by simp) (by simp) (by simp) (by simp) h

theorem sat_seqTick {pt : AccessPoint} (hpt : ∀ s, P s → (pt s).Sat P P) {s : State} (h : P s) : (seqTick pt s).Sat P P := by
  have hc : P (countTick s) := K.aside s _ rfl ⟨rfl, rfl, rfl, rfl⟩ rfl rfl rfl rfl rfl h
  unfold seqTick
  split
  · exact (sat_gateCycle hpt K.counters K.draw hc).andThen fun _ h => h
  · refine (sat_gateCycle hpt K.counters K.draw
      (K.aside (countTick s) (beginCorrecting (countTick s)) rfl ⟨rfl, rfl, rfl, rfl⟩ rfl rfl rfl rfl rfl hc)).bind (P := P) fun c s h => ?_
    refine (sat_correctAll K.code c (K.aside s (setSnap c s) rfl ⟨rfl, rfl, rfl, rfl⟩ rfl rfl rfl rfl rfl h)).andThen fun s h => ?_
    exact (sat_encodeAll K.mirror h).andThen fun s h => (sat_ascCommit (fun _ h => h) hpt K.chain h).andThen fun s h => K.check c s h

theorem sat_handlerPoint (s : State) (h : P s) : (handlerPoint s).Sat P P := K.agents s h

theorem sat_runHandler {s : State} (h : P s) : (runHandler s).Sat P P :=
  (K.sat_seqTick K.sat_handlerPoint (K.aside s (enterHandler s) rfl ⟨rfl, rfl, rfl, rfl⟩ rfl rfl rfl rfl rfl h)).andThen
    fun s h => K.aside s (exitHandler s) rfl ⟨rfl, rfl, rfl, rfl⟩ rfl rfl rfl rfl rfl h

theorem sat_mainPoint (n : Nat) (s : State) (h : P s) : (mainPoint n s).Sat P P := by
  induction n generalizing s with
  | zero => exact h
  | succ n ih =>
    unfold mainPoint
    split
    · exact (K.sat_runHandler (K.agents s h)).andThen fun s h => ih s h
    · exact K.agents s h

theorem sat_accessPoint (s : State) (h : P s) : (accessPoint s).Sat P P := K.sat_mainPoint _ s h

theorem sat_seqArm {s : State} (h : P s) : (seqArm s).Sat P P := by
  unfold seqArm
  split
  · exact K.aside s _ rfl ⟨rfl, rfl, rfl, rfl⟩ rfl rfl rfl rfl rfl h
  · exact h

theorem endWait (s : State) (h : P s) : P (Machine.endWait s) := K.aside s _ rfl ⟨rfl, rfl, rfl, rfl⟩ rfl rfl rfl rfl rfl h

theorem sat_waitDone (n : Nat) {s : State} (h : P s) : (waitDone n s).Sat P P := by
  induction n generalizing s with
  | zero =>
    unfold waitDone
    split
    · exact K.endWait s h
    · exact K.aside s _ rfl ⟨rfl, rfl, rfl, rfl⟩ rfl rfl rfl rfl rfl h
  | succ n ih =>
    unfold waitDone
    split
    · exact K.endWait s h
    · exact (K.sat_accessPoint s h).andThen fun s h => ih h

theorem finish {x : Res Unit} (hx : x.Sat P P) : ∃ t, Machine.finish x = .next t ∧ P t :=
  finish_sat hx (fun _ h => h) K.fault K.refuse

theorem finishWith {α : Type} {val : α → RetVal} {x : Res α} (hx : x.Sat P P) :
    ∃ t, Machine.finishWith val x = .next t ∧ P t := finishWith_sat hx K.ret K.fault K.refuse

/-- Every operation answers a next state, and keeps P. -/
theorem exec (i : Instr) {s : State} (h : P s) : ∃ t, Machine.exec i s = .next t ∧ P t := by
  cases i with
  | ascCtrlWr v => exact K.finish (sat_ascCtrlWrite K.chain v h)
  | ascCtrlRd => exact K.finishWith (x := draw32 s) (K.draw s h)
  | ascMirrorWr w v => exact K.finish (sat_ascMirrorWrite K.mirror w v h)
  | ascMirrorRd w => exact K.finishWith ((sat_checkWord w h).andThen fun _ h => sat_readMirror w h)
  | ascSetBit p => exact K.finish (sat_modifyBit K.mirror _ p h)
  | ascClearBit p => exact K.finish (sat_modifyBit K.mirror _ p h)
  | ascReadBit p =>
    exact K.finishWith ((sat_checkPosition p h).andThen fun _ h => (sat_readMirror _ h.1).bind fun _ _ h => h)
  | ascWriteField p n v => exact K.finish (sat_ascWriteField K.mirror p n v h)
  | ascShiftBit d => exact K.finish (sat_ascShiftBit (fun _ h => h) K.sat_accessPoint K.chain d h)
  | ascShiftAll => exact K.finish (sat_shiftStages (fun _ h => h) K.sat_accessPoint K.chain nAsc h)
  | ascLoad => exact K.finish (sat_ascLoad (fun _ h => h) K.sat_accessPoint K.chain h)
  | ascCommit => exact K.finish (sat_ascCommit (fun _ h => h) K.sat_accessPoint K.chain h)
  | cntCtrlWr v => exact K.finish (sat_cntCtrlWrite K.counters v h)
  | cntDisableAll => exact ⟨_, rfl, K.counters _ _ _ _ h⟩
  | cntResetAll => exact ⟨_, rfl, K.counters _ _ _ _ (K.counters _ _ _ _ h)⟩
  | cntEnableAll => exact ⟨_, rfl, K.counters _ _ _ _ (K.counters _ _ _ _ h)⟩
  | cntCtrlRd => exact K.finishWith (x := (draw32 s).bind fun v s => .ok v (settle s)) (K.counters _ _ _ _ (K.draw s h))
  | cntTick i => exact ⟨_, rfl, K.tick i s h⟩
  | cntRdLo i => exact K.finishWith (sat_readHalfRegister K.counters K.draw _ h)
  | cntRdHi i => exact K.finishWith (sat_readHalfRegister K.counters K.draw _ h)
  | cntReadSnapshot => exact K.finishWith (sat_readSnapshot K.sat_accessPoint K.counters K.draw h)
  | cntResetAndEnable => exact K.finish (sat_resetAndEnable K.sat_accessPoint K.counters h)
  | cntGateCycle => exact K.finishWith (sat_gateCycle K.sat_accessPoint K.counters K.draw h)
  | dacGet f => exact ⟨_, rfl, K.ret _ _ h⟩
  | dacSet f v => exact ⟨_, rfl, K.code _ _ (fun _ hb => Codes.bounded_set hb f v.isLt) h⟩
  | hfFineDec => exact K.finish (sat_hfFineDec K.code h)
  | hfFineInc => exact K.finish (sat_hfFineInc K.code h)
  | ifFineInc => exact K.finish (sat_ifFineInc K.code h)
  | ifFineDec => exact K.finish (sat_ifFineDec K.code h)
  | rc2mCoarseInc => exact K.finish (sat_codeInc K.code _ h)
  | rc2mCoarseDec => exact K.finish (sat_codeDec K.code _ h)
  | rc2mFineInc => exact K.finish (sat_codeInc K.code _ h)
  | rc2mFineDec => exact K.finish (sat_codeDec K.code _ h)
  | rc2mSuperfineInc => exact K.finish (sat_codeInc K.code _ h)
  | rc2mSuperfineDec => exact K.finish (sat_codeDec K.code _ h)
  | lcInc => exact K.finish (sat_codeInc K.code _ h)
  | lcDec => exact K.finish (sat_codeDec K.code _ h)
  | lcExpand => exact K.finishWith (sat_lcExpand h)
  | dacEncodeHf => exact K.finish (sat_encodeHf K.mirror h)
  | dacEncodeRc2m => exact K.finish (sat_encodeRc2m K.mirror h)
  | dacEncodeIf => exact K.finish (sat_encodeIf K.mirror h)
  | dacEncodeLc => exact K.finish (sat_encodeLc K.mirror h)
  | dacEncodeAll => exact K.finish (sat_encodeAll K.mirror h)
  | seqArm => exact K.finish (K.sat_seqArm h)
  | refDisable => exact ⟨_, rfl, K.aside s _ rfl ⟨rfl, rfl, rfl, rfl⟩ rfl rfl rfl rfl rfl h⟩
  | refEdge => exact ⟨_, rfl, K.edge s h⟩
  | seqEnter =>
    refine ⟨_, rfl, ?_⟩
    split
    · exact K.aside s _ rfl ⟨rfl, rfl, rfl, rfl⟩ rfl rfl rfl rfl rfl h
    · exact h
  | seqTick => exact K.finish (K.sat_seqTick K.sat_accessPoint h)
  | hfCorrect c => exact K.finish (sat_hfCorrect K.code _ h)
  | lcCorrect c => exact K.finish (sat_lcCorrect K.code _ h)
  | rc2mCorrect c => exact K.finish (sat_rc2mCorrect K.code _ h)
  | ifCorrect c => exact K.finish (sat_ifCorrect K.code _ h)
  | seqExit => exact ⟨_, rfl, K.aside s _ rfl ⟨rfl, rfl, rfl, rfl⟩ rfl rfl rfl rfl rfl h⟩
  | seqWaitDone => exact K.finish (K.sat_waitDone _ h)
  | performCalibration => exact K.finish ((K.sat_seqArm h).andThen fun _ h => K.sat_waitDone _ h)

/-- Every step keeps P. -/
theorem step {s t : State} (h : P s) (hs : Machine.step s = .next t) : P t := by
  have key : ∀ (i : Instr) (u : State), Machine.exec i u = .next t → P u → P t := by
    intro i u he hu
    obtain ⟨t', h1, h2⟩ := K.exec i hu
    rw [he] at h1
    cases h1
    exact h2
  have ha := K.agents s h
  unfold Machine.step at hs
  split at hs
  · cases hs
  · split at hs
    · cases hs
    · split at hs
      · unfold cpuStep at hs
        split at hs
        · exact key _ _ hs ha
        · split at hs
          · exact key _ _ hs (K.aside (agentsStep s) _ rfl ⟨rfl, rfl, rfl, rfl⟩ rfl rfl rfl rfl rfl ha)
          · unfold mainStep at hs
            split at hs
            · exact key _ _ hs ha
            · unfold issueNext at hs
              split at hs
              · cases hs; exact ha
              · split at hs
                · exact key _ _ hs (K.aside (agentsStep s) _ rfl ⟨rfl, rfl, rfl, rfl⟩ rfl rfl rfl rfl rfl ha)
                · cases hs; exact K.refuse _ _ ha
      · cases hs; exact K.refuse _ _ h

end Kept

end Sys2Proof.Machine
end

