-- ==== Sys2Proof/Laws/Text.lean ====
section
/-! SUPPORT. The text of operations: numbers, operands and mnemonics read back as they were written (30_encoding.md R81). -/

namespace Sys2Proof

/-! ### Numbers -/

theorem decDigit_ofNat {d : Nat} (h : d < 10) : decDigit (BitVec.ofNat 8 (48 + d)) = some d := by
  unfold decDigit
  have : (BitVec.ofNat 8 (48 + d)).toNat = 48 + d := by rw [BitVec.toNat_ofNat]; omega
  rw [this, if_pos (by omega)]
  congr 1
  omega

/-- Reading the digits of a number continues the number read so far by some count of decimal places. -/
theorem readDigits_digitsOnto (fuel n : Nat) (acc : List Byte) (h : n < fuel) :
    ∃ k, ∀ a, readDigits 10 decDigit a (digitsOnto fuel n acc) = readDigits 10 decDigit (a * 10 ^ k + n) acc := by
  induction fuel generalizing n acc with
  | zero => omega
  | succ fuel ih =>
    unfold digitsOnto
    split
    · next hn => exact ⟨1, fun a => by simp [readDigits, decDigit_ofNat hn]⟩
    · next hn =>
      obtain ⟨k, hk⟩ := ih (n / 10) (BitVec.ofNat 8 (48 + n % 10) :: acc) (by omega)
      refine ⟨k + 1, fun a => ?_⟩
      rw [hk, readDigits, decDigit_ofNat (Nat.mod_lt _ (by decide))]
      simp only
      congr 1
      rw [Nat.pow_succ, Nat.add_mul, Nat.mul_assoc]
      omega

/-- A byte is the text of a decimal digit. -/
def IsDigit (b : Byte) : Prop := 48 ≤ b.toNat ∧ b.toNat ≤ 57

theorem isDigit_ofNat {d : Nat} (h : d < 10) : IsDigit (BitVec.ofNat 8 (48 + d)) := by
  unfold IsDigit
  rw [BitVec.toNat_ofNat]
  omega

theorem digitsOnto_digits (fuel n : Nat) (acc : List Byte) (h : ∀ b ∈ acc, IsDigit b) :
    ∀ b ∈ digitsOnto fuel n acc, IsDigit b := by
  induction fuel generalizing n acc with
  | zero => exact h
  | succ fuel ih =>
    unfold digitsOnto
    split
    · next hn =>
      intro b hb
      rcases List.mem_cons.mp hb with rfl | hb
      · exact isDigit_ofNat hn
      · exact h b hb
    · apply ih
      intro b hb
      rcases List.mem_cons.mp hb with rfl | hb
      · exact isDigit_ofNat (Nat.mod_lt _ (by decide))
      · exact h b hb

theorem digitsOnto_ne_nil (fuel n : Nat) (acc : List Byte) (h : 0 < fuel ∨ acc ≠ []) : digitsOnto fuel n acc ≠ [] := by
  induction fuel generalizing n acc with
  | zero => simpa [digitsOnto] using h
  | succ fuel ih =>
    unfold digitsOnto
    split
    · simp
    · exact ih _ _ (.inr (by simp))

theorem numberText_digits (n : Nat) : ∀ b ∈ numberText n, IsDigit b := digitsOnto_digits _ _ _ (by simp)

theorem numberText_ne_nil (n : Nat) : numberText n ≠ [] := digitsOnto_ne_nil _ _ _ (.inl (Nat.succ_pos n))

theorem numberText_not_mem (n : Nat) {b : Byte} (h : ¬ IsDigit b) : b ∉ numberText n := fun hb => h (numberText_digits n b hb)

theorem comma_not_mem_numberText (n : Nat) : 44#8 ∉ numberText n := numberText_not_mem n (by unfold IsDigit; decide)

theorem dropSpaces_numberText (n : Nat) : dropSpaces (numberText n) = numberText n := by
  cases h : numberText n with
  | nil => rfl
  | cons b bs =>
    have : b ≠ 32#8 := by
      rintro rfl
      exact numberText_not_mem n (b := 32#8) (by unfold IsDigit; decide) (by rw [h]; simp)
    simp [dropSpaces, this]

/-- A number written in decimal reads back as it is. -/
theorem readNumber_numberText (n : Nat) : readNumber (numberText n) = some n := by
  have hne := numberText_ne_nil n
  have hx : ¬ (numberText n).take 2 = ascii "0x" := by
    intro h
    have h120 : 120#8 ∈ (numberText n).take 2 := by rw [h]; decide
    exact numberText_not_mem n (b := 120#8) (by unfold IsDigit; decide) (List.mem_of_mem_take h120)
  have hread : readDigits 10 decDigit 0 (numberText n) = some n := by
    obtain ⟨k, hk⟩ := readDigits_digitsOnto (n + 1) n [] (Nat.lt_succ_self n)
    rw [numberText, hk]
    simp [readDigits]
  unfold readNumber
  rw [if_neg hx]
  cases h : numberText n with
  | nil => exact absurd h hne
  | cons b bs =>
    rw [h] at hread
    exact hread

theorem readWord_wordText (v : Word) : readWord (wordText v) = some v := by
  simp [readWord, wordText, readNumber_numberText, v.isLt]

theorem readNumber_dropSpaces (n : Nat) : readNumber (dropSpaces (numberText n)) = some n := by
  rw [dropSpaces_numberText, readNumber_numberText]

theorem readWord_dropSpaces (v : Word) : readWord (dropSpaces (wordText v)) = some v := by
  rw [show wordText v = numberText v.toNat from rfl, dropSpaces_numberText]
  exact readWord_wordText v

theorem readBit_bitText (b : Bool) : readBit (bitText b) = some b := by
  cases b <;> simp [readBit, bitText, readNumber_numberText]

theorem readCounter_counterText (i : Counter) : readCounter (counterText i) = some i := by cases i <;> decide +kernel

theorem readField_text (f : Field) : readField f.text = some f := by cases f <;> decide +kernel

theorem comma_not_mem_fieldText (f : Field) : 44#8 ∉ f.text := by cases f <;> decide +kernel

/-! ### Cutting a line -/

theorem cutAt_append {sep : Byte} {x y : List Byte} (h : sep ∉ x) : cutAt sep (x ++ sep :: y) = (x, some y) := by
  induction x with
  | nil => simp [cutAt]
  | cons b x ih =>
    have hb : b ≠ sep := fun hb => h (by simp [hb])
    simp [cutAt, hb, ih fun hx => h (List.mem_cons_of_mem _ hx)]

theorem cutAt_none {sep : Byte} {x : List Byte} (h : sep ∉ x) : cutAt sep x = (x, none) := by
  induction x with
  | nil => rfl
  | cons b x ih =>
    have hb : b ≠ sep := fun hb => h (by simp [hb])
    simp [cutAt, hb, ih fun hx => h (List.mem_cons_of_mem _ hx)]

/-! ### Operands -/

theorem oneOperand_read {α : Type} {read : List Byte → Option α} {mk : α → Instr} {x : List Byte} {a : α}
    (h : read x = some a) (cfg : Config) : oneOperand read mk cfg (some x) = some (mk a) := by simp [oneOperand, h]

theorem twoOperands_read {α β : Type} {readA : List Byte → Option α} {readB : List Byte → Option β} {mk : α → β → Instr}
    {x y : List Byte} {a : α} {b : β} (ha : readA x = some a) (hb : readB (dropSpaces y) = some b) (hc : 44#8 ∉ x)
    (cfg : Config) : twoOperands readA readB mk cfg (some (x ++ 44#8 :: y)) = some (mk a b) := by
  simp [twoOperands, cutAt_append hc, ha, hb]

theorem threeOperands_read {α β γ : Type} {readA : List Byte → Option α} {readB : List Byte → Option β}
    {readC : List Byte → Option γ} {mk : α → β → γ → Instr} {x y z : List Byte} {a : α} {b : β} {c : γ}
    (ha : readA x = some a) (hb : readB y = some b) (hc : readC (dropSpaces z) = some c) (hx : 44#8 ∉ x) (hy : 44#8 ∉ y)
    (hs : dropSpaces (y ++ 44#8 :: z) = y ++ 44#8 :: z) (cfg : Config) :
    threeOperands readA readB readC mk cfg (some (x ++ 44#8 :: (y ++ 44#8 :: z))) = some (mk a b c) := by
  simp [threeOperands, cutAt_append hx, hs, cutAt_append hy, ha, hb, hc]

theorem dropSpaces_append_numberText (n : Nat) (x : List Byte) : dropSpaces (numberText n ++ x) = numberText n ++ x := by
  have h := dropSpaces_numberText n
  cases hn : numberText n with
  | nil => exact absurd hn (numberText_ne_nil n)
  | cons b bs =>
    rw [hn] at h
    by_cases hb : b = 32#8
    · exact absurd (hn ▸ List.mem_cons_self : b ∈ numberText n) (hb ▸ numberText_not_mem n (by unfold IsDigit; decide))
    · simp [dropSpaces, hb]

/-- The control word's operand reads a decimal number as that word. -/
theorem ctrlWordOperand_wordText (cfg : Config) (v : Word) : ctrlWordOperand cfg (some (wordText v)) = some (.ascCtrlWr v) := by
  have hr := readWord_wordText v
  unfold ctrlWordOperand
  cases h : wordText v with
  | nil => exact absurd h (numberText_ne_nil _)
  | cons b bs =>
    have hb : b ≠ 123#8 := by
      rintro rfl
      exact numberText_not_mem v.toNat (b := 123#8) (by unfold IsDigit; decide) (by rw [← wordText, h]; simp)
    rw [h] at hr
    simp [hb, hr]

/-! ### Mnemonics -/

theorem mnemonics_distinct : (operationRows.map (·.1)).Nodup := by decide +kernel

theorem mnemonics_unspaced : operationRows.all (fun r => !r.1.contains 32#8) = true := by decide +kernel

theorem find_of_nodup {l : List (List Byte × Reader)} (hn : (l.map (·.1)).Nodup) {r : List Byte × Reader} (h : r ∈ l) :
    l.find? (fun x => x.1 == r.1) = some r := by
  induction l with
  | nil => cases h
  | cons x l ih =>
    rw [List.map_cons, List.nodup_cons] at hn
    rcases List.mem_cons.mp h with rfl | h
    · simp
    · have hx : x.1 ≠ r.1 := fun hx => hn.1 (hx ▸ List.mem_map_of_mem h)
      simp [hx, ih hn.2 h]

/-- The k-th row of the operation table is found under its mnemonic, which holds no space. -/
theorem readerOf_row {k : Nat} {m : List Byte} {read : Reader} (h : operationRows[k]? = some (m, read)) :
    readerOf m = some read ∧ 32#8 ∉ m := by
  have hmem : (m, read) ∈ operationRows := List.mem_of_getElem? h
  have hs := List.all_eq_true.mp mnemonics_unspaced _ hmem
  refine ⟨?_, by simpa using hs⟩
  have := find_of_nodup mnemonics_distinct hmem
  simp only at this
  simp [readerOf, this]

/-! ### Lines -/

theorem decodeLine_bare {m : List Byte} {read : Reader} {i : Instr} {cfg : Config} (hm : readerOf m = some read)
    (hs : 32#8 ∉ m) (h : read cfg none = some i) : decodeLine cfg m = .ok i := by
  simp [decodeLine, cutAt_none hs, hm, h]

theorem decodeLine_args {m x : List Byte} {read : Reader} {i : Instr} {cfg : Config} (hm : readerOf m = some read)
    (hs : 32#8 ∉ m) (h : read cfg (some x) = some i) : decodeLine cfg (m ++ 32#8 :: x) = .ok i := by
  simp [decodeLine, cutAt_append hs, hm, h]

end Sys2Proof
end

