-- ==== Sys2Proof/Laws/PerInstr.lean ====
section
/-! SUPPORT. For every instruction: the line that spells it starts with a mnemonic of the operation table, and the row's
reader takes the operands back (30_encoding.md R81, R84). -/

namespace Sys2Proof.Laws.Spelling

/-- The line of i is a mnemonic without a space, alone or followed by a space and the operands, and the operand reader of
that mnemonic's row reads i from it. -/
def Statement (i : Instr) : Prop :=
  ∃ (m : List Byte) (read : Reader), readerOf m = some read ∧ 32#8 ∉ m
    ∧ ((encode i = m ∧ ∀ cfg, read cfg none = some i)
      ∨ ∃ x, encode i = m ++ 32#8 :: x ∧ ∀ cfg, read cfg (some x) = some i)

theorem bare {i : Instr} {k : Nat} {read : Reader} (h : operationRows[k]? = some (encode i, read))
    (hr : ∀ cfg, read cfg none = some i) : Statement i :=
  ⟨_, read, (readerOf_row h).1, (readerOf_row h).2, .inl ⟨rfl, hr⟩⟩

theorem args {i : Instr} {k : Nat} {m x : List Byte} {read : Reader} (h : operationRows[k]? = some (m, read))
    (hr : ∀ cfg, read cfg (some x) = some i) (he : encode i = m ++ 32#8 :: x := by rfl) : Statement i :=
  ⟨m, read, (readerOf_row h).1, (readerOf_row h).2, .inr ⟨x, he, hr⟩⟩

theorem ascCtrlWr (v : Word) : Statement (.ascCtrlWr v) :=
  args (k := 0) rfl (fun cfg => ctrlWordOperand_wordText cfg v)

theorem ascCtrlRd : Statement .ascCtrlRd := bare (k := 1) rfl fun _ => rfl

theorem ascMirrorWr (w : Nat) (v : Word) : Statement (.ascMirrorWr w v) :=
  args (k := 2) rfl (twoOperands_read (readNumber_numberText w) (readWord_dropSpaces v)
    (comma_not_mem_numberText w))

theorem ascMirrorRd (w : Nat) : Statement (.ascMirrorRd w) :=
  args (k := 3) rfl (oneOperand_read (readNumber_numberText w))

theorem ascSetBit (p : Nat) : Statement (.ascSetBit p) :=
  args (k := 4) rfl (oneOperand_read (readNumber_numberText p))

theorem ascClearBit (p : Nat) : Statement (.ascClearBit p) :=
  args (k := 5) rfl (oneOperand_read (readNumber_numberText p))

theorem ascReadBit (p : Nat) : Statement (.ascReadBit p) :=
  args (k := 6) rfl (oneOperand_read (readNumber_numberText p))

theorem ascWriteField (p n v : Nat) : Statement (.ascWriteField p n v) :=
  args (k := 7) rfl (threeOperands_read (readNumber_numberText p) (readNumber_numberText n)
    (readNumber_dropSpaces v) (comma_not_mem_numberText p)
    (comma_not_mem_numberText n) (dropSpaces_append_numberText n _))

theorem ascShiftBit (d : Bool) : Statement (.ascShiftBit d) :=
  args (k := 8) rfl (oneOperand_read (readBit_bitText d))

theorem ascShiftAll : Statement .ascShiftAll := bare (k := 9) rfl fun _ => rfl

theorem ascLoad : Statement .ascLoad := bare (k := 10) rfl fun _ => rfl

theorem ascCommit : Statement .ascCommit := bare (k := 11) rfl fun _ => rfl

theorem cntCtrlWr (v : Word) : Statement (.cntCtrlWr v) :=
  args (k := 12) rfl (oneOperand_read (readWord_wordText v))

theorem cntDisableAll : Statement .cntDisableAll := bare (k := 13) rfl fun _ => rfl

theorem cntResetAll : Statement .cntResetAll := bare (k := 14) rfl fun _ => rfl

theorem cntEnableAll : Statement .cntEnableAll := bare (k := 15) rfl fun _ => rfl

theorem cntCtrlRd : Statement .cntCtrlRd := bare (k := 16) rfl fun _ => rfl

theorem cntTick (i : Counter) : Statement (.cntTick i) :=
  args (k := 17) rfl (oneOperand_read (readCounter_counterText i))

theorem cntRdLo (i : Counter) : Statement (.cntRdLo i) :=
  args (k := 18) rfl (oneOperand_read (readCounter_counterText i))

theorem cntRdHi (i : Counter) : Statement (.cntRdHi i) :=
  args (k := 19) rfl (oneOperand_read (readCounter_counterText i))

theorem cntReadSnapshot : Statement .cntReadSnapshot := bare (k := 20) rfl fun _ => rfl

theorem cntResetAndEnable : Statement .cntResetAndEnable := bare (k := 21) rfl fun _ => rfl

theorem cntGateCycle : Statement .cntGateCycle := bare (k := 22) rfl fun _ => rfl

theorem dacGet (f : Field) : Statement (.dacGet f) :=
  args (k := 23) rfl (oneOperand_read (readField_text f))

theorem dacSet (f : Field) (v : Word) : Statement (.dacSet f v) :=
  args (k := 24) rfl (twoOperands_read (readField_text f) (readWord_dropSpaces v)
    (comma_not_mem_fieldText f))

theorem hfFineDec : Statement .hfFineDec := bare (k := 25) rfl fun _ => rfl

theorem hfFineInc : Statement .hfFineInc := bare (k := 26) rfl fun _ => rfl

theorem ifFineInc : Statement .ifFineInc := bare (k := 27) rfl fun _ => rfl

theorem ifFineDec : Statement .ifFineDec := bare (k := 28) rfl fun _ => rfl

theorem rc2mCoarseInc : Statement .rc2mCoarseInc := bare (k := 29) rfl fun _ => rfl

theorem rc2mCoarseDec : Statement .rc2mCoarseDec := bare (k := 30) rfl fun _ => rfl

theorem rc2mFineInc : Statement .rc2mFineInc := bare (k := 31) rfl fun _ => rfl

theorem rc2mFineDec : Statement .rc2mFineDec := bare (k := 32) rfl fun _ => rfl

theorem rc2mSuperfineInc : Statement .rc2mSuperfineInc := bare (k := 33) rfl fun _ => rfl

theorem rc2mSuperfineDec : Statement .rc2mSuperfineDec := bare (k := 34) rfl fun _ => rfl

theorem lcInc : Statement .lcInc := bare (k := 35) rfl fun _ => rfl

theorem lcDec : Statement .lcDec := bare (k := 36) rfl fun _ => rfl

theorem lcExpand : Statement .lcExpand := bare (k := 37) rfl fun _ => rfl

theorem dacEncodeHf : Statement .dacEncodeHf := bare (k := 38) rfl fun _ => rfl

theorem dacEncodeRc2m : Statement .dacEncodeRc2m := bare (k := 39) rfl fun _ => rfl

theorem dacEncodeIf : Statement .dacEncodeIf := bare (k := 40) rfl fun _ => rfl

theorem dacEncodeLc : Statement .dacEncodeLc := bare (k := 41) rfl fun _ => rfl

theorem dacEncodeAll : Statement .dacEncodeAll := bare (k := 42) rfl fun _ => rfl

theorem seqArm : Statement .seqArm := bare (k := 43) rfl fun _ => rfl

theorem refDisable : Statement .refDisable := bare (k := 44) rfl fun _ => rfl

theorem refEdge : Statement .refEdge := bare (k := 45) rfl fun _ => rfl

theorem seqEnter : Statement .seqEnter := bare (k := 46) rfl fun _ => rfl

theorem seqTick : Statement .seqTick := bare (k := 47) rfl fun _ => rfl

theorem hfCorrect (c : Word) : Statement (.hfCorrect c) :=
  args (k := 48) rfl (oneOperand_read (readWord_wordText c))

theorem lcCorrect (c : Word) : Statement (.lcCorrect c) :=
  args (k := 49) rfl (oneOperand_read (readWord_wordText c))

theorem rc2mCorrect (c : Word) : Statement (.rc2mCorrect c) :=
  args (k := 50) rfl (oneOperand_read (readWord_wordText c))

theorem ifCorrect (c : Word) : Statement (.ifCorrect c) :=
  args (k := 51) rfl (oneOperand_read (readWord_wordText c))

theorem seqExit : Statement .seqExit := bare (k := 52) rfl fun _ => rfl

theorem seqWaitDone : Statement .seqWaitDone := bare (k := 53) rfl fun _ => rfl

theorem performCalibration : Statement .performCalibration := bare (k := 54) rfl fun _ => rfl

end Sys2Proof.Laws.Spelling
end

