-- ==== Sys2Proof/Laws/Shift.lean ====
section
/-! SUPPORT. Shifting, loading and committing where nothing disturbs (40_scan_chain.md R114 to R121). -/

namespace Sys2Proof.Machine

/-! ### One write inside a composite -/

theorem ascCtrlWrite_ok {v : Word} {s : State} (hm : v &&& ~~~(sigMask s.cfg) = 0)
    (hr : wordBit v s.cfg.bitRst = s.cfg.rstInactive) : ascCtrlWrite v s = .ok () (latchWrite v s) := by
  simp [ascCtrlWrite, hm, hr]

theorem writeAt_ok {pt : AccessPoint} (hpt : Quiet pt) {s : State} (hu : s.undisturbed) {v : Word}
    (hm : v &&& ~~~(sigMask s.cfg) = 0) (hr : wordBit v s.cfg.bitRst = s.cfg.rstInactive) :
    writeAt pt v s = .ok () (latchWrite v (agentsStep s)) := by
  rw [writeAt, hpt s hu]
  exact ascCtrlWrite_ok (by simpa using hm) (by simpa using hr)

theorem onlyChain_write {s : State} (hu : s.undisturbed) (v : Word) :
    OnlyChainIn 1 s (latchWrite v (agentsStep s)) := by
  refine ⟨fun w => by simp, ?_, by simp, ?_, ?_, by simp, by simp [List.drop_one]⟩
  · have := sameGate_agentsStep s
    exact ⟨by simp, by simp, fun h => by rw [latchWrite_cnt]; exact this.2.2 h⟩
  · have := agentsStep_refPending hu
    simp [SameSession, this]
  · simp [SameRecord]

theorem onlyChain_agentsStep {s : State} (hu : s.undisturbed) : OnlyChainIn 1 s (agentsStep s) := by
  refine ⟨fun w => by simp, sameGate_agentsStep s, by simp, ?_, ?_, by simp, by simp [List.drop_one]⟩
  · have := agentsStep_refPending hu
    simp [SameSession, this]
  · simp [SameRecord]

theorem undisturbed_write {s : State} (hu : s.undisturbed) (v : Word) : (latchWrite v (agentsStep s)).undisturbed :=
  undisturbed_congr (by simp) (by simp) (by simp) (by simp) (undisturbed_agentsStep hu)

/-- What one write leaves in the chain, from the state before the other agents moved. -/
theorem write_chain (v : Word) (s : State) :
    (latchWrite v (agentsStep s)).a =
        (if phasesRace (levelsBefore s.cfg s.ascCtrlLast) (levelsOf s.cfg v) then Chain.allX
         else inputLatches (levelsBefore s.cfg s.ascCtrlLast) (levelsOf s.cfg v) s.a s.b)
      ∧ (latchWrite v (agentsStep s)).b =
        (if phasesRace (levelsBefore s.cfg s.ascCtrlLast) (levelsOf s.cfg v) then Chain.allX
         else outputLatches (levelsOf s.cfg v) (latchWrite v (agentsStep s)).a s.b)
      ∧ (latchWrite v (agentsStep s)).l =
        loadStep (levelsBefore s.cfg s.ascCtrlLast) (levelsOf s.cfg v) s.b (latchWrite v (agentsStep s)).b s.l := by
  rw [latchWrite_l, latchWrite_b, latchWrite_a]
  simp

/-! ### Writes that close or hold everything -/

/-- A write that leaves both phases low and LOAD low, from a state of the chain invariant: the shadow stays, and the live
configuration stays unless the last write left both phases and LOAD up (the first write of R115). -/
theorem write_closing {s : State} {v : Word} (hinv : chainInv s) (hia : (levelsOf s.cfg v).ia = .zero)
    (hib : (levelsOf s.cfg v).ib = .zero) (hld : (levelsOf s.cfg v).ld = .zero) :
    (latchWrite v (agentsStep s)).b = s.b
      ∧ ((¬ ∃ u, s.ascCtrlLast = some u ∧ (levelsOf s.cfg u).ia = .one ∧ (levelsOf s.cfg u).ib = .one
            ∧ (levelsOf s.cfg u).ld = .one) → (latchWrite v (agentsStep s)).l = s.l)
      ∧ ((∃ u, s.ascCtrlLast = some u ∧ (levelsOf s.cfg u).ia = .one ∧ (levelsOf s.cfg u).ib = .one
            ∧ (levelsOf s.cfg u).ld = .one) → ∀ p, p < nAsc → (latchWrite v (agentsStep s)).l.at p = .x) := by
  obtain ⟨-, hb, hl⟩ := write_chain v s
  unfold chainInv at hinv
  cases hlast : s.ascCtrlLast with
  | none =>
    rw [hlast] at hinv hb hl
    obtain ⟨-, hB, hL⟩ := hinv
    have hrace : phasesRace (levelsBefore s.cfg none) (levelsOf s.cfg v) = true := by
      simp [phasesRace, levelsBefore, hia, hib]
    have hbX : (latchWrite v (agentsStep s)).b = s.b := by rw [hb, hrace, hB]; rfl
    refine ⟨hbX, fun _ => ?_, ?_⟩
    · rw [hl, hbX, hB, hL]
      apply chain_ext
      intro p hp
      rw [loadStep_at _ _ _ _ _ hp]
      simp [levelsBefore, loadBit]
    · rintro ⟨u, hu, -⟩; cases hu
  | some u =>
    rw [hlast] at hinv hb hl
    obtain ⟨hx, hload⟩ := hinv
    have hbefore : levelsBefore s.cfg (some u) = levelsOf s.cfg u := rfl
    rw [hbefore] at hb hl
    have hbB : (latchWrite v (agentsStep s)).b = s.b := by
      by_cases hrace : phasesRace (levelsOf s.cfg u) (levelsOf s.cfg v) = true
      · rw [hb, if_pos hrace]
        have h1 : (levelsOf s.cfg u).ia = .one ∧ (levelsOf s.cfg u).ib = .one := by
          simp only [phasesRace, hia, hib, Bool.or_eq_true, Bool.and_eq_true] at hrace
          rcases hrace with ⟨h, -⟩ | ⟨h1, h2⟩
          · simp at h
          · rcases levelsOf_ia s.cfg u with h | h <;> rcases levelsOf_ib s.cfg u with h' | h' <;>
              simp_all [Bit3.changed, Bit3.same]
        exact ((hx h1.1 h1.2).2).symm
      · rw [hb, if_neg hrace, outputLatches, if_neg (by rw [hib]; decide)]
    refine ⟨hbB, fun hno => ?_, ?_⟩
    · rw [hl, hbB]
      rcases levelsOf_ld s.cfg u with h1 | h0
      · apply chain_ext
        intro p hp
        rw [loadStep_at _ _ _ _ _ hp, h1, hld]
        simp only [loadBit, bit3_changed_self]
        by_cases hsx : s.b.at (stageOf p) = .x
        · simp [hsx, hload h1 p hp hsx]
        · simp [hsx]
      · exact loadStep_low _ _ _ h0 hld
    · rintro ⟨w, hw, h1, h2, h3⟩ p hp
      cases hw
      rw [hl, hbB, loadStep_at _ _ _ _ _ hp, h3, hld, (hx h1 h2).2]
      simp [loadBit]

/-- A write from known levels with LOAD low before and after, that overlaps no phases (R103, R104). -/
theorem write_calm {s : State} {u v : Word} (hlast : s.ascCtrlLast = some u)
    (hrace : phasesRace (levelsOf s.cfg u) (levelsOf s.cfg v) = false)
    (hld0 : (levelsOf s.cfg u).ld = .zero) (hld : (levelsOf s.cfg v).ld = .zero) :
    (latchWrite v (agentsStep s)).a = inputLatches (levelsOf s.cfg u) (levelsOf s.cfg v) s.a s.b
      ∧ (latchWrite v (agentsStep s)).b = outputLatches (levelsOf s.cfg v) (latchWrite v (agentsStep s)).a s.b
      ∧ (latchWrite v (agentsStep s)).l = s.l := by
  obtain ⟨ha, hb, hl⟩ := write_chain v s
  rw [hlast] at ha hb hl
  have hbefore : levelsBefore s.cfg (some u) = levelsOf s.cfg u := rfl
  rw [hbefore] at ha hb hl
  rw [hrace] at ha hb
  exact ⟨by simpa using ha, by simpa using hb, by rw [hl]; exact loadStep_low _ _ _ hld0 hld⟩

/-! ### One bit (R114, R115) -/

/-- The four writes of ASC_SHIFT_BIT where nothing disturbs. -/
theorem ascShiftBit_writes {pt : AccessPoint} (hpt : Quiet pt) {s : State} (hok : s.cfg.ok = true)
    (hu : s.undisturbed) (d : Bool) :
    ∃ s1 s2 s3 t, s1 = latchWrite (ascw s.cfg d false false false) (agentsStep s)
      ∧ s2 = latchWrite (ascw s.cfg d false true false) (agentsStep s1)
      ∧ s3 = latchWrite (ascw s.cfg d false false false) (agentsStep s2)
      ∧ t = latchWrite (ascw s.cfg d true false false) (agentsStep s3)
      ∧ ascShiftBit pt d s = .ok () t ∧ t.undisturbed ∧ OnlyChainIn 4 s t ∧ s1.cfg = s.cfg ∧ s2.cfg = s.cfg
      ∧ s3.cfg = s.cfg ∧ t.cfg = s.cfg := by
  refine ⟨_, _, _, _, rfl, rfl, rfl, rfl, ?_, ?_, ?_, by simp, by simp, by simp, by simp⟩
  · have hw : ∀ (x : State) (p1 p2 : Bool), x.undisturbed → x.cfg = s.cfg →
        writeAt pt (ascw s.cfg d p1 p2 false) x = .ok () (latchWrite (ascw s.cfg d p1 p2 false) (agentsStep x)) := by
      intro x p1 p2 hx hc
      exact writeAt_ok hpt hx (by rw [hc]; exact ascw_admitted _ _ _ _ _)
        (by rw [hc]; exact (ascw_fields hok _ _ _ _).2.2.2.2)
    have u1 := undisturbed_write hu (ascw s.cfg d false false false)
    have u2 := undisturbed_write u1 (ascw s.cfg d false true false)
    have u3 := undisturbed_write u2 (ascw s.cfg d false false false)
    have h0 : ascCtrlWrite (ascw s.cfg d false false false) (agentsStep s)
        = .ok () (latchWrite (ascw s.cfg d false false false) (agentsStep s)) :=
      ascCtrlWrite_ok (by simpa using ascw_admitted s.cfg d false false false)
        (by simpa using (ascw_fields hok d false false false).2.2.2.2)
    simp only [ascShiftBit, hpt s hu, Res.andThen, Res.bind, shiftWrites, agentsStep_cfg, h0, latchWrite_cfg]
    rw [hw _ _ _ u1 (by simp)]
    simp only [latchWrite_cfg, agentsStep_cfg]
    rw [hw _ _ _ u2 (by simp)]
    simp only [latchWrite_cfg, agentsStep_cfg]
    rw [hw _ _ _ u3 (by simp)]
  · exact undisturbed_write (undisturbed_write (undisturbed_write (undisturbed_write hu _) _) _) _
  · have u1 := undisturbed_write hu (ascw s.cfg d false false false)
    have u2 := undisturbed_write u1 (ascw s.cfg d false true false)
    have u3 := undisturbed_write u2 (ascw s.cfg d false false false)
    exact (((onlyChain_write hu _).trans (onlyChain_write u1 _)).trans (onlyChain_write u2 _)).trans
      (onlyChain_write u3 _)

/-- R115. -/
theorem ascShiftBit_p2 {pt : AccessPoint} (hpt : Quiet pt) {s : State} (hok : s.cfg.ok = true)
    (hrole : s.cfg.phaseRole = .p2Input) (hinv : chainInv s) (hu : s.undisturbed) (d : Bool) :
    ∃ t, ascShiftBit pt d s = .ok () t ∧ t.b.at 0 = Bit3.ofBool d
      ∧ (∀ i, 0 < i → i < nAsc → t.b.at i = s.b.at (i - 1)) ∧ t.a = t.b
      ∧ t.ascCtrlLast = some (ascw s.cfg d true false false)
      ∧ (overlapUnderLoad s → ∀ p, p < nAsc → t.l.at p = .x) ∧ (¬ overlapUnderLoad s → t.l = s.l)
      ∧ chainInv t ∧ t.undisturbed ∧ OnlyChainIn 4 s t := by
  obtain ⟨s1, s2, s3, t, e1, e2, e3, e4, hex, hut, hframe, c1, c2, c3, c4⟩ := ascShiftBit_writes hpt hok hu d
  have hlev := fun p1 p2 => levelsOf_ascw hok d p1 p2 false
  simp only [hrole] at hlev
  have hover : overlapUnderLoad s ↔ ∃ u, s.ascCtrlLast = some u ∧ (levelsOf s.cfg u).ia = .one
      ∧ (levelsOf s.cfg u).ib = .one ∧ (levelsOf s.cfg u).ld = .one := by
    unfold overlapUnderLoad
    constructor
    · rintro ⟨u, h1, h2, h3, h4⟩; exact ⟨u, h1, by simp [levelsOf, hrole, h2, h3, h4]⟩
    · rintro ⟨u, h1, h2⟩
      refine ⟨u, h1, ?_⟩
      simp only [levelsOf, hrole, bit3_ofBool_eq_one] at h2
      exact ⟨h2.2.1, h2.1, h2.2.2⟩
  have hclose := write_closing (v := ascw s.cfg d false false false) hinv (by rw [hlev]; rfl) (by rw [hlev]; rfl)
    (by rw [hlev]; rfl)
  rw [← e1] at hclose
  have hl1 : s1.ascCtrlLast = some (ascw s.cfg d false false false) := by rw [e1]; rfl
  have hl2 : s2.ascCtrlLast = some (ascw s.cfg d false true false) := by rw [e2]; rfl
  have hl3 : s3.ascCtrlLast = some (ascw s.cfg d false false false) := by rw [e3]; rfl
  obtain ⟨a2, b2, l2⟩ := write_calm (v := ascw s.cfg d false true false) hl1
    (by rw [c1, hlev, hlev]; cases d <;> rfl) (by rw [c1, hlev]; rfl) (by rw [c1, hlev]; rfl)
  obtain ⟨a3, b3, l3⟩ := write_calm (v := ascw s.cfg d false false false) hl2
    (by rw [c2, hlev, hlev]; cases d <;> rfl) (by rw [c2, hlev]; rfl) (by rw [c2, hlev]; rfl)
  obtain ⟨a4, b4, l4⟩ := write_calm (v := ascw s.cfg d true false false) hl3
    (by rw [c3, hlev, hlev]; cases d <;> rfl) (by rw [c3, hlev]; rfl) (by rw [c3, hlev]; rfl)
  rw [← e2] at a2 b2 l2
  rw [← e3] at a3 b3 l3
  rw [← e4] at a4 b4 l4
  rw [c1, hlev, hlev] at a2
  rw [c1, hlev] at b2
  rw [c2, hlev, hlev] at a3
  rw [c2, hlev] at b3
  rw [c3, hlev, hlev] at a4
  rw [c3, hlev] at b4
  have hA3 : s3.a = s2.a := by rw [a3]; exact inputLatches_hold _ _ (show Bit3.ofBool false ≠ .one by decide) (by cases d <;> rfl)
  have hA4 : t.a = s2.a := by rw [a4, inputLatches_hold _ _ (show Bit3.ofBool false ≠ .one by decide)
    (by cases d <;> rfl), hA3]
  have hB4 : t.b = t.a := by rw [b4]; rfl
  have hin : ∀ i, i < nAsc → t.b.at i = if i = 0 then Bit3.ofBool d else s.b.at (i - 1) := by
    intro i hi
    rw [hB4, hA4, a2, inputLatches_open _ _ rfl hi, hclose.1]
  have hL : t.l = s1.l := by rw [l4, l3, l2]
  refine ⟨t, hex, ?_, fun i h0 hi => ?_, hB4.symm, by rw [e4]; rfl, fun ho => ?_, fun ho => ?_, ?_, hut, hframe⟩
  · rw [hin 0 (by decide)]; rfl
  · rw [hin i hi, if_neg (by omega)]
  · rw [hL]; exact hclose.2.2 (hover.mp ho)
  · rw [hL]; exact hclose.2.1 (fun h => ho (hover.mpr h))
  · rw [e4]; exact chainInv_latchWrite _ _

/-! ### Many bits (R78, R116) -/

theorem no_overlap_after_shift {t : State} {d : Bool} (hok : t.cfg.ok = true)
    (h : t.ascCtrlLast = some (ascw t.cfg d true false false)) : ¬ overlapUnderLoad t := by
  rintro ⟨u, hu, -, -, hld⟩
  rw [h] at hu
  cases hu
  rw [(ascw_fields hok d true false false).2.2.2.1] at hld
  cases hld

theorem onlyChain_refl {s : State} : OnlyChainIn 0 s s := by
  simp [OnlyChainIn, SameMirror, SameGate, SameSession, SameRecord]

/-- Shifting the bits of the stages `m + k - 1` down to `m`. -/
theorem shiftStages_run {pt : AccessPoint} (hpt : Quiet pt) (m k : Nat) {s : State} (hok : s.cfg.ok = true)
    (hrole : s.cfg.phaseRole = .p2Input) (hinv : chainInv s) (hu : s.undisturbed)
    (hread : ∀ i, i < k → s.mirror.read ((m + i) / 32) ≠ none) :
    ∃ t, shiftStages pt (m + k) s = shiftStages pt m t ∧ (k = 0 → t = s)
      ∧ (∀ i v, i < k → i < nAsc → s.mirror.read ((m + i) / 32) = some v →
          t.b.at i = Bit3.ofBool (wordBit v ((m + i) % 32)))
      ∧ (∀ i, k ≤ i → i < nAsc → t.b.at i = s.b.at (i - k))
      ∧ (0 < k → t.a = t.b ∧ ∀ v, s.mirror.read (m / 32) = some v →
          t.ascCtrlLast = some (ascw s.cfg (wordBit v (m % 32)) true false false))
      ∧ (¬ overlapUnderLoad s → t.l = s.l) ∧ (0 < k → ¬ overlapUnderLoad t)
      ∧ chainInv t ∧ t.undisturbed ∧ OnlyChainIn (4 * k) s t := by
  induction k generalizing s with
  | zero => exact ⟨s, rfl, fun _ => rfl, by simp, fun i _ _ => rfl, by simp, fun _ => rfl, by simp, hinv, hu, onlyChain_refl⟩
  | succ k ih =>
    obtain ⟨v, hv⟩ := Option.ne_none_iff_exists'.mp (hread k (by omega))
    obtain ⟨s1, hex, h0, hstep, hab, hlast, -, hl, hinv1, hu1, hfr⟩ :=
      ascShiftBit_p2 hpt hok hrole hinv hu (wordBit v ((m + k) % 32))
    have hc1 : s1.cfg = s.cfg := hfr.2.2.2.2.1.2.2.2.1
    have hm1 : ∀ w, s1.mirror.read w = s.mirror.read w := hfr.1
    have hno1 : ¬ overlapUnderLoad s1 := no_overlap_after_shift (by rw [hc1]; exact hok) (by rw [hc1]; exact hlast)
    obtain ⟨t, ht, hz, b1, b2, ab, lt, no, inv, un, fr⟩ := ih (s := s1) (by rw [hc1]; exact hok)
      (by rw [hc1]; exact hrole) hinv1 hu1 (fun i hi => by rw [hm1]; exact hread i (by omega))
    refine ⟨t, ?_, by simp, ?_, ?_, ?_, fun ho => (lt hno1).trans (hl ho), ?_, inv, un, ?_⟩
    · rw [← ht, ← Nat.add_assoc]
      simp only [ascShiftBit, hpt s hu, Res.andThen, Res.bind] at hex
      simp only [shiftStages, hpt s hu, readMirror, agentsStep_mirror, hv, Res.bind, Res.andThen, hex]
    · intro i w hi hin hw
      rcases Nat.lt_or_ge i k with hik | hik
      · exact b1 i w hik hin (by rw [hm1]; exact hw)
      · have : i = k := by omega
        subst this
        rw [b2 i (Nat.le_refl _) hin, Nat.sub_self, h0]
        rw [hv] at hw
        cases hw
        rfl
    · intro i hi hin
      rw [b2 i (by omega) hin, hstep _ (by omega) (by omega)]
      congr 1
    · intro _
      rcases Nat.eq_zero_or_pos k with hk | hk
      · rw [hz hk]
        refine ⟨hab, fun w hw => ?_⟩
        subst hk
        rw [Nat.add_zero] at hv hlast
        rw [hlast]
        rw [hv] at hw
        cases hw
        rfl
      · refine ⟨(ab hk).1, fun w hw => ?_⟩
        rw [← hc1]
        exact (ab hk).2 w (by rw [hm1]; exact hw)
    · intro _
      rcases Nat.eq_zero_or_pos k with hk | hk
      · rw [hz hk]; exact hno1
      · exact no hk
    · have : 4 * (k + 1) = 4 + 4 * k := by omega
      rw [this]
      exact hfr.trans fr

/-! ### The load pulse (R117) -/

theorem levelsOf_loadHigh {cfg : Config} (hok : cfg.ok = true) (v : Word) :
    levelsOf cfg (loadHigh cfg v) = { levelsOf cfg v with ld := .one } := by
  obtain ⟨h1, h2, h3, h4, h5, hn⟩ := Config.ok_signals hok
  simp only [Config.signalBits, List.nodup_cons, List.mem_cons, List.not_mem_nil, not_or, or_false] at hn
  obtain ⟨⟨-, -, n3, -⟩, ⟨-, n6, -⟩, ⟨n8, -⟩, -, -⟩ := hn
  simp only [levelsOf, wordBit_loadHigh, n3, n6, n8, h4, decide_false, decide_true, Bool.and_true, Bool.or_false,
    Bool.or_true]
  rfl

theorem loadHigh_admitted {cfg : Config} (hok : cfg.ok = true) {v : Word} (hm : v &&& ~~~(sigMask cfg) = 0)
    (hr : wordBit v cfg.bitRst = cfg.rstInactive) :
    loadHigh cfg v &&& ~~~(sigMask cfg) = 0 ∧ wordBit (loadHigh cfg v) cfg.bitRst = cfg.rstInactive := by
  obtain ⟨h1, h2, h3, h4, h5, hn⟩ := Config.ok_signals hok
  simp only [Config.signalBits, List.nodup_cons, List.mem_cons, List.not_mem_nil, not_or, or_false] at hn
  obtain ⟨-, -, -, n10, -⟩ := hn
  constructor
  · rw [admitted_iff] at hm ⊢
    intro i hi
    rw [wordBit_loadHigh] at hi
    simp only [Bool.or_eq_true, Bool.and_eq_true, decide_eq_true_eq] at hi
    rcases hi with hi | ⟨hi, -⟩
    · exact hm i hi
    · simp [Config.signalBits, hi]
  · rw [wordBit_loadHigh, hr]
    simp [Ne.symm n10]

theorem loadLow_of_low {cfg : Config} {v : Word} (h : wordBit v cfg.bitLoad = false) : loadLow cfg v = v := by
  apply word_ext
  intro i _
  rw [wordBit_loadLow]
  by_cases hi : i = cfg.bitLoad
  · rw [hi, h]; rfl
  · simp [hi]

theorem levelsOf_race_self {cfg : Config} {v w : Word} (hia : (levelsOf cfg w).ia = (levelsOf cfg v).ia)
    (hib : (levelsOf cfg w).ib = (levelsOf cfg v).ib)
    (hno : ¬ ((levelsOf cfg v).ia = .one ∧ (levelsOf cfg v).ib = .one)) :
    phasesRace (levelsOf cfg v) (levelsOf cfg w) = false := by
  rcases levelsOf_ia cfg v with h1 | h1 <;> rcases levelsOf_ib cfg v with h2 | h2 <;>
    simp_all [phasesRace, Bit3.changed, Bit3.same]

/-- A write that changes nothing but LOAD, from known levels without overlap and with a still shadow: the shadow stays,
and the input latches stay where they are closed. -/
theorem write_load_only {s : State} {u v : Word} (hlast : s.ascCtrlLast = some u)
    (hd : (levelsOf s.cfg v).d = (levelsOf s.cfg u).d) (hia : (levelsOf s.cfg v).ia = (levelsOf s.cfg u).ia)
    (hib : (levelsOf s.cfg v).ib = (levelsOf s.cfg u).ib)
    (hno : ¬ ((levelsOf s.cfg u).ia = .one ∧ (levelsOf s.cfg u).ib = .one))
    (hstill : (levelsOf s.cfg u).ib = .one → s.a = s.b) :
    (latchWrite v (agentsStep s)).b = s.b
      ∧ ((levelsOf s.cfg u).ia = .zero → (latchWrite v (agentsStep s)).a = s.a)
      ∧ (latchWrite v (agentsStep s)).l =
        loadStep (levelsOf s.cfg u) (levelsOf s.cfg v) s.b s.b s.l := by
  obtain ⟨ha, hb, hl⟩ := write_chain v s
  rw [hlast] at ha hb hl
  have hbefore : levelsBefore s.cfg (some u) = levelsOf s.cfg u := rfl
  rw [hbefore] at ha hb hl
  have hrace := levelsOf_race_self hia hib hno
  rw [hrace] at ha hb
  simp only [Bool.false_eq_true, if_false] at ha hb
  have hhold : (levelsOf s.cfg u).ia = .zero → (latchWrite v (agentsStep s)).a = s.a := by
    intro hz
    rw [ha]
    apply inputLatches_hold
    · rw [hia, hz]; decide
    · have := levelsOf_known s.cfg u
      simp only [dataRace, hd, bit3_changed_self, this.1, decide_false, Bool.and_false]
  have hbs : (latchWrite v (agentsStep s)).b = s.b := by
    rw [hb, outputLatches, hib]
    split
    · next h1 =>
      have hz : (levelsOf s.cfg u).ia = .zero := (levelsOf_ia s.cfg u).resolve_left fun h => hno ⟨h, h1⟩
      rw [hhold hz, hstill h1]
    · rfl
  exact ⟨hbs, hhold, by rw [hl, hbs]⟩

/-- ASC_LOAD from a known last word with LOAD low, no overlap and a still shadow. -/
theorem ascLoad_still {pt : AccessPoint} (hpt : Quiet pt) {s : State} (hok : s.cfg.ok = true) (hu : s.undisturbed)
    {u : Word} (hlast : s.ascCtrlLast = some u) (hm : u &&& ~~~(sigMask s.cfg) = 0)
    (hr : wordBit u s.cfg.bitRst = s.cfg.rstInactive) (hld : wordBit u s.cfg.bitLoad = false)
    (hno : ¬ ((levelsOf s.cfg u).ia = .one ∧ (levelsOf s.cfg u).ib = .one))
    (hstill : (levelsOf s.cfg u).ib = .one → s.a = s.b) :
    ∃ t, ascLoad pt s = .ok () t ∧ (∀ p, p < nAsc → t.l.at p = s.b.at (stageOf p)) ∧ t.b = s.b
      ∧ ((levelsOf s.cfg u).ia = .zero → t.a = s.a) ∧ t.ascCtrlLast = some u ∧ chainInv t ∧ t.undisturbed
      ∧ OnlyChainIn 2 s t := by
  have hadm := loadHigh_admitted hok hm hr
  have hlev := levelsOf_loadHigh hok u
  have hldu : (levelsOf s.cfg u).ld = .zero := by simp [levelsOf, hld]
  obtain ⟨b1, a1, l1⟩ := write_load_only (v := loadHigh s.cfg u) hlast (by rw [hlev]) (by rw [hlev]) (by rw [hlev])
    hno hstill
  have u1 := undisturbed_write hu (loadHigh s.cfg u)
  have f1 := onlyChain_write hu (loadHigh s.cfg u)
  have c1 : (latchWrite (loadHigh s.cfg u) (agentsStep s)).cfg = s.cfg := by simp
  have e1 : (latchWrite (loadHigh s.cfg u) (agentsStep s)).ascCtrlLast = some (loadHigh s.cfg u) := rfl
  have w1 := ascCtrlWrite_ok (s := agentsStep s) (by simpa using hadm.1) (by simpa using hadm.2)
  revert b1 a1 l1 u1 f1 c1 e1 w1
  generalize latchWrite (loadHigh s.cfg u) (agentsStep s) = s1
  intro b1 a1 l1 u1 f1 c1 e1 w1
  obtain ⟨b2, a2, l2⟩ := write_load_only (v := u) e1 (by rw [c1, hlev]) (by rw [c1, hlev]) (by rw [c1, hlev])
    (by rw [c1, hlev]; exact hno) (by
      rw [c1, hlev]
      intro h1
      have hz : (levelsOf s.cfg u).ia = .zero := (levelsOf_ia s.cfg u).resolve_left fun h => hno ⟨h, h1⟩
      rw [a1 hz, b1, hstill h1])
  refine ⟨latchWrite u (agentsStep s1), ?_, fun p hp => ?_, b2.trans b1, fun hz => ?_, rfl, chainInv_latchWrite _ _,
    undisturbed_write u1 u, f1.trans (onlyChain_write u1 u)⟩
  · simp only [ascLoad, hpt s hu, agentsStep_cfg, agentsStep_ascCtrlLast, loadBase, hlast, loadLow_of_low hld, w1,
      Res.andThen, Res.bind]
    exact writeAt_ok hpt u1 (by rw [c1]; exact hm) (by rw [c1]; exact hr)
  · rw [l2, loadStep_at _ _ _ _ _ hp, l1, loadStep_at _ _ _ _ _ hp, c1, hlev, hldu, b1]
    simp only [loadBit, bit3_changed_self]
    by_cases hx : s.b.at (stageOf p) = .x <;> simp [hx]
  · rw [a2 (by rw [c1, hlev]; exact hz), a1 hz]

/-- ASC_LOAD from an unknown last word: the shadow and the live configuration are unknown. -/
theorem ascLoad_unknown {pt : AccessPoint} (hpt : Quiet pt) {s : State} (hok : s.cfg.ok = true) (hu : s.undisturbed)
    (hlast : s.ascCtrlLast = none) :
    ∃ t, ascLoad pt s = .ok () t ∧ (∀ p, p < nAsc → t.l.at p = .x ∧ t.b.at p = .x)
      ∧ t.ascCtrlLast = some (ascw s.cfg false true false false) ∧ t.undisturbed ∧ OnlyChainIn 2 s t := by
  have hm := ascw_admitted s.cfg false true false false
  have hr := (ascw_fields hok false true false false).2.2.2.2
  have hadm := loadHigh_admitted hok hm hr
  have hlev := levelsOf_loadHigh hok (ascw s.cfg false true false false)
  have hbase := levelsOf_ascw hok false true false false
  obtain ⟨a1, b1, l1⟩ := write_chain (loadHigh s.cfg (ascw s.cfg false true false false)) s
  rw [hlast] at a1 b1 l1
  have hrace : phasesRace (levelsBefore s.cfg none)
      (levelsOf s.cfg (loadHigh s.cfg (ascw s.cfg false true false false))) = true := by
    simp [phasesRace, levelsBefore]
  rw [hrace] at a1 b1
  simp only [if_true] at a1 b1
  have u1 := undisturbed_write hu (loadHigh s.cfg (ascw s.cfg false true false false))
  have f1 := onlyChain_write hu (loadHigh s.cfg (ascw s.cfg false true false false))
  have c1 : (latchWrite (loadHigh s.cfg (ascw s.cfg false true false false)) (agentsStep s)).cfg = s.cfg := by simp
  have e1 : (latchWrite (loadHigh s.cfg (ascw s.cfg false true false false)) (agentsStep s)).ascCtrlLast
      = some (loadHigh s.cfg (ascw s.cfg false true false false)) := rfl
  have w1 := ascCtrlWrite_ok (s := agentsStep s) (by simpa using hadm.1) (by simpa using hadm.2)
  revert b1 a1 l1 u1 f1 c1 e1 w1
  generalize latchWrite (loadHigh s.cfg (ascw s.cfg false true false false)) (agentsStep s) = s1
  intro l1 a1 b1 u1 f1 c1 e1 w1
  obtain ⟨b2, -, l2⟩ := write_load_only (v := ascw s.cfg false true false false) e1 (by rw [c1, hlev])
    (by rw [c1, hlev]) (by rw [c1, hlev])
    (by rw [c1, hlev, hbase]; cases s.cfg.phaseRole <;> simp) (fun _ => by rw [a1, b1])
  refine ⟨latchWrite (ascw s.cfg false true false false) (agentsStep s1), ?_, fun p hp => ?_, rfl,
    undisturbed_write u1 _, f1.trans (onlyChain_write u1 _)⟩
  · simp only [ascLoad, hpt s hu, agentsStep_cfg, agentsStep_ascCtrlLast, loadBase, hlast, w1, Res.andThen, Res.bind]
    exact writeAt_ok hpt u1 (by rw [c1]; exact hm) (by rw [c1]; exact hr)
  · rw [b2, b1, chain_at_allX, l2, loadStep_at _ _ _ _ _ hp, c1, hlev, b1, chain_at_allX]
    simp [loadBit, hbase]

/-! ### The commit (R118, R119) -/

theorem ascShiftAll_ok {pt : AccessPoint} (hpt : Quiet pt) {s : State} (hok : s.cfg.ok = true)
    (hrole : s.cfg.phaseRole = .p2Input) (hinv : chainInv s) (hu : s.undisturbed) (hfull : s.mirror.full) :
    ∃ t, ascShiftAll pt s = .ok () t
      ∧ (∀ i v, i < nAsc → s.mirror.read (i / 32) = some v → t.b.at i = Bit3.ofBool (wordBit v (i % 32)))
      ∧ t.a = t.b
      ∧ (∀ v, s.mirror.read 0 = some v → t.ascCtrlLast = some (ascw s.cfg (wordBit v 0) true false false))
      ∧ (¬ overlapUnderLoad s → t.l = s.l) ∧ chainInv t ∧ t.undisturbed ∧ OnlyChainIn 4864 s t := by
  obtain ⟨t, ht, -, hb, -, hab, hl, -, hinv', hu', hfr⟩ := shiftStages_run hpt 0 nAsc hok hrole hinv hu (fun i hi => by
    rw [Nat.zero_add]
    exact hfull _ (by unfold nWords; unfold nAsc at hi; omega))
  rw [Nat.zero_add] at ht
  refine ⟨t, by rw [ascShiftAll, ht]; rfl, fun i v hi hv => ?_, (hab (by decide)).1, fun v hv => ?_, hl, hinv', hu', hfr⟩
  · have := hb i v hi hi (by rwa [Nat.zero_add])
    rwa [Nat.zero_add] at this
  · exact (hab (by decide)).2 v hv

/-- R119. -/
theorem ascCommit_ok {pt : AccessPoint} (hpt : Quiet pt) {s : State} (hok : s.cfg.ok = true)
    (hrole : s.cfg.phaseRole = .p2Input) (hinv : chainInv s) (hu : s.undisturbed) (hfull : s.mirror.full) :
    ∃ t, ascCommit pt s = .ok () t
      ∧ (∀ p, p < nAsc → ∃ v, s.mirror.bit p = some v ∧ t.l.at p = Bit3.ofBool v
          ∧ t.b.at (stageOf p) = Bit3.ofBool v)
      ∧ t.a = t.b
      ∧ (∀ v, s.mirror.read 0 = some v → t.ascCtrlLast = some (ascw s.cfg (wordBit v 0) true false false))
      ∧ chainInv t ∧ t.undisturbed ∧ OnlyChainIn 4866 s t := by
  obtain ⟨s1, h1, hb, hab, hlast, -, -, hu1, hfr1⟩ := ascShiftAll_ok hpt hok hrole hinv hu hfull
  obtain ⟨v0, hv0⟩ := Option.ne_none_iff_exists'.mp (hfull 0 (by decide))
  have hc1 : s1.cfg = s.cfg := hfr1.2.2.2.2.1.2.2.2.1
  have hl1 := hlast v0 hv0
  have hok1 : s1.cfg.ok = true := by rw [hc1]; exact hok
  have hf := ascw_fields hok (wordBit v0 0) true false false
  have hlev := levelsOf_ascw hok (wordBit v0 0) true false false
  simp only [hrole] at hlev
  obtain ⟨t, h2, hL, hB, hA, hlt, hinv2, hu2, hfr2⟩ := ascLoad_still hpt hok1 hu1 hl1
    (by rw [hc1]; exact ascw_admitted _ _ _ _ _) (by rw [hc1]; exact hf.2.2.2.2) (by rw [hc1]; exact hf.2.2.2.1)
    (by rw [hc1, hlev]; rintro ⟨h, -⟩; cases h) (fun _ => hab)
  rw [hc1, hlev] at hA
  have hA' : t.a = s1.a := hA rfl
  refine ⟨t, by simp only [ascCommit, h1, Res.andThen, Res.bind, h2], fun p hp => ?_, by rw [hA', hab, hB], fun v hv => ?_,
    hinv2, hu2, hfr1.trans hfr2⟩
  · obtain ⟨v, hv⟩ := memory_full_read hfull hp
    have hst := hb (stageOf p) v (stageOf_lt hp) (by rw [stageOf_div]; exact hv)
    rw [stageOf_mod] at hst
    exact ⟨_, memory_bit_of_read hv, by rw [hL p hp, hst], by rw [hB, hst]⟩
  · rw [hlt]
    rw [hv0] at hv
    cases hv
    rfl

/-- A commit whose shift meets an unwritten word (R283, R308). -/
theorem ascCommit_unwritten {pt : AccessPoint} (hpt : Quiet pt) {s : State} {w : Nat} (hok : s.cfg.ok = true)
    (hrole : s.cfg.phaseRole = .p2Input) (hinv : chainInv s) (hu : s.undisturbed) (hw : w < nWords)
    (hnone : s.mirror.read w = none) (hread : ∀ w', w < w' → w' < nWords → s.mirror.read w' ≠ none) :
    ∃ t, ascCommit pt s = .fault ⟨.unwrittenMirror, .word w⟩ t
      ∧ (¬ overlapUnderLoad s → t.l = s.l)
      ∧ (∀ i v, i < 32 * (37 - w) → s.mirror.read (w + 1 + i / 32) = some v →
          t.b.at i = Bit3.ofBool (wordBit v (i % 32)))
      ∧ (∀ i, 32 * (37 - w) ≤ i → i < nAsc → t.b.at i = s.b.at (i - 32 * (37 - w)))
      ∧ OnlyChainIn (4 * (32 * (37 - w)) + 1) s t := by
  unfold nWords at hw hread
  have hk : nAsc = 32 * (w + 1) + 32 * (37 - w) := by unfold nAsc; omega
  obtain ⟨t, ht, -, hb, hb', -, hl, -, -, hu', hfr⟩ := shiftStages_run hpt (32 * (w + 1)) (32 * (37 - w)) hok hrole hinv hu
    (fun i hi => hread _ (by omega) (by omega))
  rw [← hk] at ht
  have hstop : shiftStages pt (32 * (w + 1)) t = .fault ⟨.unwrittenMirror, .word w⟩ (agentsStep t) := by
    have : 32 * (w + 1) = (32 * w + 31) + 1 := by omega
    rw [this]
    have hd : (32 * w + 31) / 32 = w := by omega
    simp only [shiftStages, hpt t hu', readMirror, agentsStep_mirror, hd, hfr.1 w, hnone, Res.andThen, Res.bind]
  refine ⟨agentsStep t, ?_, fun h => by simpa using hl h, fun i v hi hv => ?_, fun i hi hin => by
    simpa using hb' i hi hin, hfr.trans (onlyChain_agentsStep hu')⟩
  · simp only [ascCommit, ascShiftAll, ht, hstop, Res.andThen, Res.bind]
  · have h1 : (32 * (w + 1) + i) / 32 = w + 1 + i / 32 := by omega
    have h2 : (32 * (w + 1) + i) % 32 = i % 32 := by omega
    have := hb i v hi (by unfold nAsc; omega) (by rw [h1]; exact hv)
    rw [h2] at this
    simpa using this

end Sys2Proof.Machine
end

