-- ==== Sys2Proof/Laws/Sequencer.lean ====
section
/-! SUPPORT. The ticks of the sequencer where nothing disturbs, and the rounds of a session (43_calibration_sequencer.md
R241 to R257). -/

namespace Sys2Proof.Machine

/-! ### Corrections act on the codes alone -/

/-- An operation that completes by changing the codes, in a way that depends on the parameters and the codes alone. -/
def OnCodes (op : State → Res Unit) : Prop :=
  ∀ s u t : State, u.cfg = s.cfg → u.code = s.code → op s = .ok () t → t = setCode t.code s ∧ op u = .ok () (setCode t.code u)

theorem onCodes_nothing : OnCodes fun s => .ok () s := by
  rintro s u t hc hd h
  simp only [Res.ok.injEq, true_and] at h
  subst h
  exact ⟨rfl, by rw [← hd]; rfl⟩

theorem onCodes_codeInc (f : Field) : OnCodes (codeInc f) := by
  rintro s u t hc hd h
  by_cases hr : inRange s.cfg s.code f = true
  · by_cases he : s.code.get f = maxOf s.cfg f
    · rw [codeInc_end hr he] at h; cases h
    · simp [codeInc, requireInRange, hr, stepUp, he, Res.andThen, Res.bind] at h
      subst h
      refine ⟨rfl, ?_⟩
      simp [codeInc, requireInRange, hc, hd, hr, stepUp, he, Res.andThen, Res.bind, putCode]
  · rw [codeInc_out (Bool.eq_false_iff.mpr hr)] at h; cases h

theorem onCodes_codeDec (f : Field) : OnCodes (codeDec f) := by
  rintro s u t hc hd h
  by_cases hr : inRange s.cfg s.code f = true
  · by_cases he : s.code.get f = minOf s.cfg f
    · rw [codeDec_end hr he] at h; cases h
    · simp [codeDec, requireInRange, hr, stepDown, he, Res.andThen, Res.bind] at h
      subst h
      refine ⟨rfl, ?_⟩
      simp [codeDec, requireInRange, hc, hd, hr, stepDown, he, Res.andThen, Res.bind, putCode]
  · rw [codeDec_out (Bool.eq_false_iff.mpr hr)] at h; cases h

theorem onCodes_hfFineDec : OnCodes hfFineDec := by
  rintro s u t hc hd h
  simp only [hfFineDec, requireInRange, codeFault, Res.andThen, Res.bind, hc, hd] at h ⊢
  by_cases h1 : inRange s.cfg s.code .hfCoarse = true <;> by_cases h2 : inRange s.cfg s.code .hfFine = true <;>
    by_cases h3 : s.code.hfFine = 0 <;> by_cases h4 : s.code.hfCoarse = 0 <;>
    simp [h1, h2, h3, h4, hc, hd] at h ⊢ <;> subst h <;> simp

theorem onCodes_hfFineInc : OnCodes hfFineInc := by
  rintro s u t hc hd h
  simp only [hfFineInc, requireInRange, codeFault, Res.andThen, Res.bind, hc, hd] at h ⊢
  by_cases h1 : inRange s.cfg s.code .hfCoarse = true <;> by_cases h2 : inRange s.cfg s.code .hfFine = true <;>
    by_cases h3 : s.code.hfFine = hfFineMax <;> by_cases h4 : s.code.hfCoarse = maxOf s.cfg .hfCoarse <;>
    simp [h1, h2, h3, h4, hc, hd] at h ⊢ <;> subst h <;> simp

theorem onCodes_ifFineInc : OnCodes ifFineInc := by
  rintro s u t hc hd h
  simp only [ifFineInc, requireInRange, codeFault, Res.andThen, Res.bind, hc, hd] at h ⊢
  by_cases h1 : inRange s.cfg s.code .ifCoarse = true <;> by_cases h2 : inRange s.cfg s.code .ifFine = true <;>
    by_cases h3 : s.code.ifFine + 1 = ifFineOvf <;> by_cases h4 : s.code.ifCoarse = maxOf s.cfg .ifCoarse <;>
    simp [h1, h2, h3, h4, hc, hd] at h ⊢ <;> subst h <;> simp

theorem onCodes_ifFineDec : OnCodes ifFineDec := by
  rintro s u t hc hd h
  simp only [ifFineDec, ifUnderflow, requireInRange, codeFault, Res.andThen, Res.bind, hc, hd] at h ⊢
  by_cases h1 : inRange s.cfg s.code .ifCoarse = true <;> by_cases h2 : inRange s.cfg s.code .ifFine = true <;>
    by_cases h3 : s.code.ifFine = 0 <;> by_cases h4 : s.code.ifCoarse = 0 <;>
    cases h5 : s.cfg.ifFineUnderflow <;>
    simp [h1, h2, h3, h4, h5, hc, hd] at h ⊢ <;> subst h <;> simp

theorem onCodes_hfCorrect (c : Nat) : OnCodes (hfCorrect c) := by
  unfold hfCorrect
  by_cases h1 : c < hfLow
  · simpa only [h1, if_true] using onCodes_hfFineDec
  · by_cases h2 : hfHigh < c
    · simpa only [h1, h2, if_false, if_true] using onCodes_hfFineInc
    · simpa only [h1, h2, if_false] using onCodes_nothing

theorem onCodes_lcCorrect (c : Nat) : OnCodes (lcCorrect c) := by
  rintro s u t hc hd h
  unfold lcCorrect at h ⊢
  rw [hc]
  split at h
  · next h1 => rw [if_pos h1]; exact onCodes_codeDec _ s u t hc hd h
  · next h1 =>
    rw [if_neg h1]
    split at h
    · next h2 => rw [if_pos h2]; exact onCodes_codeInc _ s u t hc hd h
    · next h2 => rw [if_neg h2]; exact onCodes_nothing s u t hc hd h

theorem onCodes_rc2mUp (f : Field) : OnCodes (rc2mUp f) := by
  rintro s u t hc hd h
  unfold rc2mUp at h ⊢
  rw [hc]
  cases hq : s.cfg.rc2mHighAction <;> rw [hq] at h
  · exact onCodes_codeInc f s u t hc hd h
  · exact onCodes_codeDec f s u t hc hd h

theorem onCodes_rc2mDown (f : Field) : OnCodes (rc2mDown f) := by
  rintro s u t hc hd h
  unfold rc2mDown at h ⊢
  rw [hc]
  cases hq : s.cfg.rc2mHighAction <;> rw [hq] at h
  · exact onCodes_codeDec f s u t hc hd h
  · exact onCodes_codeInc f s u t hc hd h

theorem onCodes_ite {p : State → Prop} [DecidablePred p] {a b : State → Res Unit}
    (hp : ∀ s u : State, u.cfg = s.cfg → (p u ↔ p s)) (ha : OnCodes a) (hb : OnCodes b) :
    OnCodes fun s => if p s then a s else b s := by
  rintro s u t hc hd h
  by_cases hs : p s
  · have hu := (hp s u hc).mpr hs
    simp only [hs, if_true] at h
    simpa only [hu, if_true] using ha s u t hc hd h
  · have hu := fun h' => hs ((hp s u hc).mp h')
    simp only [hs, if_false] at h
    have := hb s u t hc hd h
    exact ⟨this.1, (if_neg hu).trans this.2⟩

theorem onCodes_rc2mCorrect (c : Nat) : OnCodes (rc2mCorrect c) := by
  refine onCodes_ite (fun _ _ h => by rw [h]) (onCodes_rc2mUp _) (onCodes_ite (fun _ _ h => by rw [h]) (onCodes_rc2mUp _)
    (onCodes_ite (fun _ _ h => by rw [h]) (onCodes_rc2mUp _) (onCodes_ite (fun _ _ h => by rw [h]) (onCodes_rc2mDown _)
      (onCodes_ite (fun _ _ h => by rw [h]) (onCodes_rc2mDown _)
        (onCodes_ite (fun _ _ h => by rw [h]) (onCodes_rc2mDown _) onCodes_nothing)))))

theorem onCodes_ifCorrect (c : Nat) : OnCodes (ifCorrect c) :=
  onCodes_ite (fun _ _ h => by rw [h]) onCodes_ifFineInc
    (onCodes_ite (fun _ _ h => by rw [h]) onCodes_ifFineDec onCodes_nothing)

/-! ### The other agents beside the tick's own assignments -/

/-- An update that the other agents neither read nor write. -/
def Aside (f : State → State) : Prop :=
  (∀ s x, actStep (f s) x = f (actStep s x)) ∧ (∀ s, (f s).env = s.env)
    ∧ ∀ s e, ({ f s with env := e } : State) = f { s with env := e }

theorem agentsStep_aside {f : State → State} (hf : Aside f) (s : State) : agentsStep (f s) = f (agentsStep s) := by
  have hfold : ∀ (acts : List Act) (s : State), acts.foldl actStep (f s) = f (acts.foldl actStep s) := by
    intro acts
    induction acts with
    | nil => intro s; rfl
    | cons x xs ih => intro s; simp only [List.foldl_cons]; rw [hf.1, ih]
  unfold agentsStep
  rw [hf.2.1]
  cases s.env with
  | nil => rfl
  | cons acts rest =>
    simp only
    rw [hf.2.2, hfold]

theorem aside_of_fields {f : State → State} (hc : ∀ s, counting (f s) = counting s)
    (h1 : ∀ s, (f s).cnt = s.cnt ∧ (f s).cntMode = s.cntMode ∧ (f s).settleLeft = s.settleLeft
      ∧ (f s).cfg = s.cfg ∧ (f s).draws = s.draws ∧ edgeEnabled (f s) = edgeEnabled s ∧ (f s).env = s.env)
    (h2 : ∀ s c m k, setCounters c m k (f s) = f (setCounters c m k s)) (h3 : ∀ s, nextDraw (f s) = f (nextDraw s))
    (h4 : ∀ s, ({ f s with refPending := true } : State) = f { s with refPending := true })
    (h5 : ∀ s e, ({ f s with env := e } : State) = f { s with env := e }) : Aside f := by
  refine ⟨fun s x => ?_, fun s => (h1 s).2.2.2.2.2.2, h5⟩
  obtain ⟨e1, e2, e3, e4, e5, e6, -⟩ := h1 s
  cases x with
  | tick i =>
    simp only [actStep, tickCounter, hc, e1, e2, e3, e4, e5]
    split
    · split
      · split
        · rw [h2]
        · rw [h2, h3]
      · rw [h2]
    · rfl
  | edge =>
    simp only [actStep, refEdge, e6]
    split
    · exact h4 s
    · rfl

theorem aside_countTick : Aside countTick :=
  aside_of_fields (fun _ => rfl) (fun _ => ⟨rfl, rfl, rfl, rfl, rfl, rfl, rfl⟩) (fun _ _ _ _ => rfl) (fun _ => rfl)
    (fun _ => rfl) (fun _ _ => rfl)

theorem aside_beginCorrecting : Aside beginCorrecting :=
  aside_of_fields (fun _ => rfl) (fun _ => ⟨rfl, rfl, rfl, rfl, rfl, rfl, rfl⟩) (fun _ _ _ _ => rfl) (fun _ => rfl)
    (fun _ => rfl) (fun _ _ => rfl)

/-! ### Readiness -/

theorem calibrationRoom_congr {s t : State} {k : Nat} (h1 : t.cfg = s.cfg) (h2 : t.code = s.code)
    (h : calibrationRoom s k) : calibrationRoom t k := by
  unfold calibrationRoom at h ⊢
  rw [h1, h2]
  exact h

theorem tickReady_congr {s t : State} {k : Nat} (h1 : t.cfg = s.cfg) (h2 : t.code = s.code)
    (h3 : s.mirror.full → t.mirror.full) (h : tickReady s k) : tickReady t k := by
  obtain ⟨a, b, c, d, e⟩ := h
  unfold tickReady
  rw [h1]
  exact ⟨a, b, c, h3 d, calibrationRoom_congr h1 h2 e⟩

/-- The four corrections, with room, complete by changing the codes, and use up at most one step of room. -/
theorem correctAll_ok {s : State} {k : Nat} (hk : k ≤ 24) (h : calibrationRoom s (k + 1)) (c : Counts) :
    ∃ x1 x2 x3 x4 : Codes,
      hfCorrect c.chf.toNat s = .ok () (setCode x1 s)
        ∧ lcCorrect c.clc.toNat (setCode x1 s) = .ok () (setCode x2 s)
        ∧ rc2mCorrect c.c2m.toNat (setCode x2 s) = .ok () (setCode x3 s)
        ∧ ifCorrect c.cif.toNat (setCode x3 s) = .ok () (setCode x4 s)
        ∧ correctAll c s = .ok () (setCode x4 s) ∧ calibrationRoom (setCode x4 s) k := by
  obtain ⟨r1, r2, r3, r4, r5, r6, r7, r8, r9, r10⟩ := h
  obtain ⟨a, b, e1, a1, a2, b1⟩ := hfCorrect_ok c.chf.toNat r1 r2
  generalize hx1 : ({ s.code with hfCoarse := a, hfFine := b } : Codes) = x1 at e1
  obtain ⟨d, e2, d1, d2⟩ := lcCorrect_ok (s := setCode x1 s) c.clc.toNat (by subst hx1; exact r9)
  generalize hx2 : ({ (setCode x1 s).code with lcCode := d } : Codes) = x2 at e2
  obtain ⟨p, q, r, e3, p1, p2, q1, q2, t1, t2⟩ := rc2mCorrect_ok (s := setCode x2 s) c.c2m.toNat
    (by subst hx2 hx1; exact r3) (by subst hx2 hx1; exact r4) (by subst hx2 hx1; exact r5)
  generalize hx3 : ({ (setCode x2 s).code with rc2mCoarse := p, rc2mFine := q, rc2mSuperfine := r } : Codes) = x3 at e3
  obtain ⟨u, v, e4, u1, v1, v2⟩ := ifCorrect_ok (s := setCode x3 s) c.cif.toNat hk
    (by subst hx3 hx2 hx1; exact r6) (by subst hx3 hx2 hx1; exact r7) (by subst hx3 hx2 hx1; exact r8)
  generalize hx4 : ({ (setCode x3 s).code with ifCoarse := u, ifFine := v } : Codes) = x4 at e4
  refine ⟨x1, x2, x3, x4, e1, e2, e3, e4, ?_, ?_⟩
  · simp only [correctAll, e1, Res.andThen, Res.bind]
    rw [e2]
    simp only
    rw [show setCode x2 (setCode x1 s) = setCode x2 s from rfl, e3]
    simp only
    rw [show setCode x3 (setCode x2 s) = setCode x3 s from rfl, e4]
    rfl
  · subst hx4 hx3 hx2 hx1
    simp only [setCode_code] at *
    unfold hasRoom at r1 r3 r4 r5 r9
    simp only [Codes.get] at r1 r3 r4 r5 r9
    refine ⟨?_, ?_, ?_, ?_, ?_, ?_, ?_, ?_, ?_, ?_⟩
    · unfold hasRoom; simp only [Codes.get, setCode_code, setCode_cfg]; omega
    · rw [inRange_iff]
      simp only [Codes.get, setCode_code, minOf, maxOf]
      omega
    · unfold hasRoom; simp only [Codes.get, setCode_code, setCode_cfg]; omega
    · unfold hasRoom; simp only [Codes.get, setCode_code, setCode_cfg]; omega
    · unfold hasRoom; simp only [Codes.get, setCode_code, setCode_cfg]; omega
    · simp only [setCode_code, setCode_cfg]; omega
    · simp only [setCode_code]; exact v1
    · rw [inRange_iff]
      simp only [Codes.get, setCode_code, minOf, maxOf, ifFineOvf]
      omega
    · unfold hasRoom; simp only [Codes.get, setCode_code, setCode_cfg]; omega
    · simp only [setCode_code, setCode_cfg]
      intro e he1 he2
      exact r10 e (by omega) (by omega)

theorem two_pow_le {n m : Nat} (h : n ≤ m) : 2 ^ n ≤ 2 ^ m := Nat.pow_le_pow_right (by decide) h

/-- With room the codes fit their fields. -/
theorem encodable_of_room {s : State} {k : Nat} (hw : fieldWidthsSuffice s.cfg) (h : calibrationRoom s k) :
    hfEncodable s ∧ rc2mEncodable s ∧ ifEncodable s ∧ lcEncodable s := by
  obtain ⟨w1, w2, w3⟩ := hw
  obtain ⟨r1, r2, r3, r4, r5, r6, r7, r8, r9, r10⟩ := h
  have hp : ∀ f, 1 ≤ 2 ^ s.cfg.width.get f := fun f => Nat.one_le_two_pow
  have p1 := hp .hfCoarse
  have p3 := hp .rc2mCoarse
  have p4 := hp .rc2mFine
  have p5 := hp .rc2mSuperfine
  have p6 := hp .ifCoarse
  have q1 := hp .lcCoarse
  have q2 := hp .lcMid
  have q3 := hp .lcFine
  have h32a := two_pow_le w2
  have h32b := two_pow_le w3
  rw [inRange_iff] at r2 r8
  have hfit := r10 s.code.lcCode (by omega) (by omega)
  simp only [LcSub.fits, Bool.and_eq_true, decide_eq_true_eq] at hfit
  unfold hasRoom at r1 r3 r4 r5 r9
  simp only [Codes.get, maxOf, minOf, hfFineMax, ifFineOvf] at r1 r2 r3 r4 r5 r6 r8 r9
  simp only [PerField.get] at p1 p3 p4 p5 p6 q1 q2 q3
  refine ⟨⟨⟨w1 _, ?_⟩, ⟨w1 _, ?_⟩⟩, ⟨⟨w1 _, ?_⟩, ⟨w1 _, ?_⟩, ⟨w1 _, ?_⟩⟩, ⟨⟨w1 _, ?_⟩, ⟨w1 _, ?_⟩⟩, ?_, ⟨w1 _, ?_⟩,
    ⟨w1 _, ?_⟩, ⟨w1 _, ?_⟩⟩
  all_goals first
    | (simp only [PerField.get]; omega)
    | (rw [inRange_iff]; simp only [Codes.get, minOf, maxOf]; omega)
    | (simp only [PerField.get, lcSubOf]; omega)

/-! ### Ticks (R245 to R247, R252, R253) -/

theorem warmupTick_ok {pt : AccessPoint} (hpt : Quiet pt) {s : State} (hu : s.undisturbed) :
    ∃ t, warmupTick pt s = .ok () t ∧ t.cntMode = .running ∧ t.settleLeft = 0 ∧ t.ret = s.ret
      ∧ ((s.cfg.resetHolds = true ∨ ∀ acts ∈ s.env, ∀ i, Act.tick i ∉ acts) → ∀ i : Counter, t.cnt.get i = 0)
      ∧ t.undisturbed ∧ OnlyCountersIn 13 s t := by
  obtain ⟨v, t, e, -, m, k, r, z, u, f⟩ := gateCycle_ok hpt hu
  exact ⟨t, by simp only [warmupTick, e, Res.andThen, Res.bind], m, k, r, z, u, f⟩

/-- The live configuration of a field follows from the mirror's where it equals the mirror. -/
theorem live_of_mirror {t : State} (hok : t.cfg.ok = true) {f : ChainField} {v : Nat} (hm : mirrorHolds t f v)
    (hl : ∀ p, p < nAsc → ∃ b, t.mirror.bit p = some b ∧ t.l.at p = Bit3.ofBool b) : liveHolds t f v := by
  intro i hi
  have hfld := Config.ok_field hok f
  obtain ⟨b, h1, h2⟩ := hl (t.cfg.fieldPos.get f + i) (by omega)
  rw [hm i hi] at h1
  cases h1
  exact h2

theorem allFields_mem_fields (s : State) (f : ChainField) : ∃ v, (f, v) ∈ allFields s := by
  cases f <;> simp [allFields]

/-- What a correcting tick does, from the state after its count. -/
theorem correctingTick_ok {pt : AccessPoint} (hpt : Quiet pt) {s : State} {k : Nat} (hk : k ≤ 24)
    (hready : tickReady s (k + 1)) (hinv : chainInv s) (hu : s.undisturbed) :
    ∃ (c : Counts) (x1 x2 x3 x4 : Codes) (t : State), correctingTick pt s = .ok () t
      ∧ (s.cfg.disableSettle = 0 → c = (agentsStep s).cnt)
      ∧ hfCorrect c.chf.toNat s = .ok () (setCode x1 s)
      ∧ lcCorrect c.clc.toNat (setCode x1 s) = .ok () (setCode x2 s)
      ∧ rc2mCorrect c.c2m.toNat (setCode x2 s) = .ok () (setCode x3 s)
      ∧ ifCorrect c.cif.toNat (setCode x3 s) = .ok () (setCode x4 s)
      ∧ tickReady t k ∧ t.code = x4 ∧ t.snap = some c ∧ t.prevCodes = some s.code
      ∧ (∀ p, p < nAsc → ∃ v, t.mirror.bit p = some v ∧ t.l.at p = Bit3.ofBool v)
      ∧ (∀ e ∈ allFields t, mirrorHolds t e.1 e.2) ∧ (∀ p, (∀ f, ¬ inField s.cfg f p) → SameBit s t p)
      ∧ t.cntMode = .running ∧ chainInv t ∧ SameRecord s t ∧ t.ret = s.ret ∧ t.inHandler = s.inHandler
      ∧ t.hand = s.hand ∧ t.waiting = s.waiting ∧ t.iter = s.iter ∧ t.env = s.env.drop 4879
      ∧ (terminates s c = true → t.seqState = .done ∧ t.doneFlag = true ∧ t.refEn = false ∧ t.refPending = false
          ∧ t.result = some (mkResult s.cfg c x4))
      ∧ (terminates s c = false → t.seqState = .converging ∧ t.doneFlag = s.doneFlag ∧ t.refEn = s.refEn
          ∧ t.refPending = s.refPending ∧ t.result = s.result) := by
  obtain ⟨hok, hrole, hw, hfull, hroom⟩ := hready
  have ub : (beginCorrecting s).undisturbed := undisturbed_congr rfl rfl rfl rfl hu
  obtain ⟨c, s1, e1, hc, m1, -, r1, -, u1, f1⟩ := gateCycle_ok hpt ub
  obtain ⟨g1, g2, g3, g4, g5, g6⟩ := f1
  obtain ⟨x1, x2, x3, x4, k1, k2, k3, k4, kall, hroom'⟩ := correctAll_ok hk hroom c
  have hcfg1 : s1.cfg = s.cfg := g5.2.2.2.1
  have hcode1 : s1.code = s.code := g3
  -- the corrections in the tick's own state
  have hcorr : correctAll c (setSnap c s1) = .ok () (setCode x4 (setSnap c s1)) := by
    have j1 := (onCodes_hfCorrect _ s (setSnap c s1) _ hcfg1 hcode1 k1).2
    have j2 := (onCodes_lcCorrect _ (setCode x1 s) (setCode x1 (setSnap c s1)) _ hcfg1 rfl k2).2
    have j3 := (onCodes_rc2mCorrect _ (setCode x2 s) (setCode x2 (setSnap c s1)) _ hcfg1 rfl k3).2
    have j4 := (onCodes_ifCorrect _ (setCode x3 s) (setCode x3 (setSnap c s1)) _ hcfg1 rfl k4).2
    simp only [setCode_code] at j1 j2 j3 j4
    simp only [correctAll, j1, Res.andThen, Res.bind, j2]
    rw [show setCode x2 (setCode x1 (setSnap c s1)) = setCode x2 (setSnap c s1) from rfl, j3]
    simp only
    rw [show setCode x3 (setCode x2 (setSnap c s1)) = setCode x3 (setSnap c s1) from rfl, j4]
    rfl
  generalize hs2 : setCode x4 (setSnap c s1) = s2 at hcorr
  have hcfg2 : s2.cfg = s.cfg := by rw [← hs2]; exact hcfg1
  have hcode2 : s2.code = x4 := by rw [← hs2]; rfl
  have hmir2 : ∀ w, s2.mirror.read w = s.mirror.read w := by rw [← hs2]; exact g2
  have hfull2 : s2.mirror.full := fun w hw' => by rw [hmir2]; exact hfull w hw'
  have hroom2 : calibrationRoom s2 k := calibrationRoom_congr (s := setCode x4 s) hcfg2 hcode2 hroom'
  obtain ⟨n1, n2, n3, n4⟩ := encodable_of_room (by rw [hcfg2]; exact hw) hroom2
  obtain ⟨s3, e3, f3⟩ := encodeAll_ok (by rw [hcfg2]; exact hok) hfull2 n1 n2 n3 n4
  obtain ⟨m3, hs3⟩ := f3.1
  have hchain : s3.ascCtrlLast = s.ascCtrlLast ∧ s3.a = s.a ∧ s3.b = s.b ∧ s3.l = s.l := by
    rw [hs3, ← hs2]; exact g1
  have hcfg3 : s3.cfg = s.cfg := f3.cfg.trans hcfg2
  have hcode3 : s3.code = x4 := f3.code.trans hcode2
  have hinv3 : chainInv s3 := chainInv_congr hchain.1 hchain.2.1 hchain.2.2.1 hchain.2.2.2 hcfg3 hinv
  have hu3 : s3.undisturbed :=
    undisturbed_congr (by rw [hs3, ← hs2]; rfl) (by rw [hs3, ← hs2]; rfl) (by rw [hs3, ← hs2]; rfl)
      (by rw [hs3, ← hs2]; rfl) u1
  have hfull3 : s3.mirror.full := f3.full hfull2
  obtain ⟨s4, e4, hL, -, -, hinv4, -, f4⟩ := ascCommit_ok hpt (by rw [hcfg3]; exact hok) (by rw [hcfg3]; exact hrole)
    hinv3 hu3 hfull3
  obtain ⟨o1, o2, o3, o4, o5, o6, o7⟩ := f4
  have hcfg4 : s4.cfg = s.cfg := o5.2.2.2.1.trans hcfg3
  have hcode4 : s4.code = x4 := o3.trans hcode3
  have hmir4 : ∀ p, s4.mirror.bit p = s3.mirror.bit p := memory_bit_congr o1
  have hfull4 : s4.mirror.full := fun w hw' => by rw [o1]; exact hfull3 w hw'
  -- the session before the check
  have hiter : s4.iter = s.iter := by rw [o4.2.1, hs3, ← hs2]; exact g4.2.1
  have hsess : s4.seqState = .converging ∧ s4.doneFlag = s.doneFlag ∧ s4.refEn = s.refEn
      ∧ s4.refPending = s.refPending ∧ s4.result = s.result ∧ s4.inHandler = s.inHandler ∧ s4.snap = some c
      ∧ s4.prevCodes = some s.code ∧ s4.hand = s.hand ∧ s4.waiting = s.waiting := by
    obtain ⟨p1, p2, p3, p4, p5, p6, p7, p8, p9, p10, p11⟩ := o4
    obtain ⟨q1, q2, q3, q4, q5, q6, q7, q8, q9, q10, q11⟩ := g4
    rw [p1, p3, p4, p5, p6, p7, p8, p9, p10, p11, hs3, ← hs2]
    exact ⟨q1, q3, q4, q5, q9, q6, rfl, q8, q10, q11⟩
  have hterm : terminates s4 c = terminates s c := by simp only [terminates, hcfg4, hiter]
  have hholds4 : ∀ e ∈ allFields s2, mirrorHolds s4 e.1 e.2 := by
    intro e he i hi
    rw [hcfg4] at hi ⊢
    rw [hmir4]
    have := f3.2.2.1 e he i (by rw [hcfg3]; exact hi)
    rwa [hcfg3] at this
  have hall : ∀ t : State, t.cfg = s.cfg → t.code = x4 → allFields t = allFields s2 := by
    intro t h1 h2
    simp only [allFields, lcSubOf, h1, h2, hcfg2, hcode2]
  have hrec : SameRecord s s4 := by
    have : SameRecord s s3 := by rw [hs3, ← hs2]; exact g5
    exact this.trans o5
  have hmode4 : s4.cntMode = .running := by rw [o2.1, hs3, ← hs2]; exact m1
  have henv4 : s4.env = s.env.drop 4879 := by
    rw [o7, hs3, ← hs2]
    show List.drop 4866 s1.env = _
    rw [g6, List.drop_drop]
    rfl
  have hret4 : s4.ret = s.ret := by rw [o6, hs3, ← hs2]; exact r1
  have hsame : ∀ p, (∀ f, ¬ inField s.cfg f p) → s4.mirror.bit p = s.mirror.bit p := by
    intro p hp
    rw [hmir4, f3.2.2.2 p (fun e _ => by rw [hcfg2]; exact hp e.1), memory_bit_congr hmir2]
  have hlive : ∀ p, p < nAsc → ∃ v, s4.mirror.bit p = some v ∧ s4.l.at p = Bit3.ofBool v := by
    intro p hp
    obtain ⟨v, v1, v2, -⟩ := hL p hp
    exact ⟨v, by rw [hmir4, v1], v2⟩
  refine ⟨c, x1, x2, x3, x4, checkTermination c s4, ?_, fun hd => ?_, k1, k2, k3, k4, ?_, ?_, ?_, ?_, ?_, ?_, ?_, ?_, ?_, ?_, ?_,
    ?_, ?_, ?_, ?_, ?_, fun ht => ?_, fun ht => ?_⟩
  · simp only [correctingTick, e1, Res.bind, hcorr, Res.andThen, e3, e4]
  · have := hc hd
    rw [this, agentsStep_aside aside_beginCorrecting]
    rfl
  · refine tickReady_congr (s := s4) (by simp) (by simp) (fun h => by simpa using h) ?_
    exact ⟨by rw [hcfg4]; exact hok, by rw [hcfg4]; exact hrole, by rw [hcfg4]; exact hw, hfull4,
      calibrationRoom_congr (s := setCode x4 s) hcfg4 hcode4 hroom'⟩
  · simp [hcode4]
  · simp [hsess]
  · simp [hsess]
  · intro p hp
    obtain ⟨v, v1, v2⟩ := hlive p hp
    exact ⟨v, by simpa using v1, by simpa using v2⟩
  · intro e he
    rw [hall _ (by simp [hcfg4]) (by simp [hcode4])] at he
    have := hholds4 e he
    intro i hi
    have h := this i (by simpa using hi)
    simpa using h
  · intro p hp
    unfold SameBit
    simpa using hsame p hp
  · simp [hmode4]
  · exact chainInv_congr (by simp) (by simp) (by simp) (by simp) (by simp) hinv4
  · exact hrec.trans (by simp [SameRecord])
  · simp [hret4]
  · simp [hsess]
  · simp [hsess]
  · simp [hsess]
  · simp [hiter]
  · simp [henv4]
  · unfold checkTermination
    rw [hterm, ht, if_pos rfl]
    refine ⟨rfl, rfl, rfl, rfl, ?_⟩
    simp [hcfg4, hcode4]
  · unfold checkTermination
    rw [hterm, ht]
    simp only [Bool.false_eq_true, if_false]
    exact ⟨hsess.1, hsess.2.1, hsess.2.2.1, hsess.2.2.2.1, hsess.2.2.2.2.1⟩

end Sys2Proof.Machine
end

