-- ==== Sys2Proof/Laws/Rounds.lean ====
section
/-! SUPPORT. One round of a session: a reference edge, the entry, one tick and the return (43_calibration_sequencer.md
R243 to R245, R255). -/

namespace Sys2Proof.Machine

/-! ### A tick by its place in the session (R245) -/

/-- A warm-up tick (R246). -/
theorem seqTick_warmup {pt : AccessPoint} (hpt : Quiet pt) {s : State} (hu : s.undisturbed) (hi : s.iter + 1 ≤ warmup) :
    ∃ t, seqTick pt s = .ok () t ∧ t.cntMode = .running ∧ t.settleLeft = 0 ∧ t.ret = s.ret
      ∧ ((s.cfg.resetHolds = true ∨ ∀ acts ∈ s.env, ∀ i, Act.tick i ∉ acts) → ∀ i : Counter, t.cnt.get i = 0)
      ∧ t.undisturbed ∧ OnlyCountersIn 13 (countTick s) t := by
  have hc : (countTick s).undisturbed := undisturbed_congr rfl rfl rfl rfl hu
  obtain ⟨t, h, h1, h2, h3, h4, h5, h6⟩ := warmupTick_ok hpt hc
  exact ⟨t, by rw [seqTick, if_pos hi, h], h1, h2, h3, h4, h5, h6⟩

/-- A correcting tick is the correcting part after the count. -/
theorem seqTick_correcting (pt : AccessPoint) {s : State} (hi : warmup ≤ s.iter) :
    seqTick pt s = correctingTick pt (countTick s) := by
  rw [seqTick, if_neg (by omega)]

/-! ### The handler whole (R244, R286, R287) -/

theorem foldl_actStep_edge {acts : List Act} {s : State} (he : Act.edge ∈ acts) (h1 : s.refEn = true)
    (h2 : s.inHandler = false) : (acts.foldl actStep s).refPending = true := by
  have keep : ∀ (acts : List Act) (s : State), s.refPending = true → (acts.foldl actStep s).refPending = true := by
    intro acts
    induction acts with
    | nil => exact fun _ h => h
    | cons x xs ih =>
      intro s h
      rw [List.foldl_cons]
      apply ih
      cases x with
      | tick i => rw [actStep, tickCounter_refPending]; exact h
      | edge => simp [actStep, refEdge, edgeEnabled, h]
  induction acts generalizing s with
  | nil => cases he
  | cons x xs ih =>
    rw [List.foldl_cons]
    cases x with
    | tick i =>
      rw [List.mem_cons] at he
      exact ih (he.resolve_left (by simp)) (by rw [actStep, tickCounter_refEn]; exact h1)
        (by rw [actStep, tickCounter_inHandler]; exact h2)
    | edge =>
      apply keep
      cases hp : s.refPending <;> simp [actStep, refEdge, edgeEnabled, h1, h2, hp]

/-- An edge in the next entry of the schedule is pending after the other agents moved (R243). -/
theorem agentsStep_edge {s : State} {acts : List Act} (henv : s.env.head? = some acts) (he : Act.edge ∈ acts)
    (h1 : s.refEn = true) (h2 : s.inHandler = false) : (agentsStep s).refPending = true := by
  unfold agentsStep
  cases hs : s.env with
  | nil => rw [hs] at henv; cases henv
  | cons a rest =>
    rw [hs] at henv
    cases henv
    exact foldl_actStep_edge (s := { s with env := rest }) he h1 h2

theorem undisturbed_enter (s : State) : (enterHandler s).undisturbed := .inl rfl

/-- An access point of the main context where an edge is pending after the other agents moved: the handler runs
whole, then the access point is tried again. -/
theorem mainPoint_entry {n : Nat} {s t : State} (hp : (agentsStep s).refPending = true) (hh : s.inHandler = false)
    (ht : seqTick handlerPoint (enterHandler (agentsStep s)) = .ok () t) :
    mainPoint (n + 1) s = mainPoint n (exitHandler t) := by
  have he : entryEnabled (agentsStep s) = true := by simp [entryEnabled, hp, hh]
  rw [mainPoint, if_pos he, runHandler, ht]
  rfl

/-! ### Rounds where an edge comes before every step -/

/-- What stands between two rounds of a session. -/
structure BetweenRounds (s : State) : Prop where
  refEn : s.refEn = true
  refPending : s.refPending = false
  inHandler : s.inHandler = false
  edges : ∀ acts ∈ s.env, Act.edge ∈ acts

theorem BetweenRounds.pending {s : State} (h : BetweenRounds s) (hl : 0 < s.env.length) :
    (agentsStep s).refPending = true := by
  cases henv : s.env with
  | nil => rw [henv] at hl; cases hl
  | cons acts rest =>
    exact agentsStep_edge (acts := acts) (by rw [henv]; rfl) (h.edges acts (by rw [henv]; simp)) h.refEn h.inHandler

/-- A warm-up round. -/
theorem round_warmup {n k : Nat} {s : State} (h : BetweenRounds s) (hl : 0 < s.env.length) (hi : s.iter + 1 ≤ warmup)
    (hready : tickReady s k) (hinv : chainInv s) :
    ∃ t, mainPoint (n + 1) s = mainPoint n t ∧ BetweenRounds t ∧ tickReady t k ∧ chainInv t ∧ t.iter = s.iter + 1
      ∧ t.env = s.env.drop 14 ∧ t.doneFlag = s.doneFlag ∧ SameRecord s t ∧ t.ret = s.ret ∧ t.waiting = s.waiting
      ∧ SameMirror s t ∧ t.seqState = s.seqState := by
  obtain ⟨t, ht, -, -, hr, -, -, g1, g2, g3, g4, g5, g6⟩ :=
    seqTick_warmup quiet_handlerPoint (undisturbed_enter (agentsStep s))
      (by simpa using hi)
  obtain ⟨q1, q2, q3, q4, q5, q6, q7, q8, q9, q10, q11⟩ := g4
  obtain ⟨c1, c2, c3, c4⟩ := g1
  have hmir : SameMirror s t := fun w => by rw [g2 w]; simp
  have hrec : SameRecord s t := by
    obtain ⟨r1, r2, r3, r4, r5⟩ := g5
    exact ⟨by simpa using r1, by simpa using r2, by simpa using r3, by simpa using r4, by simpa using r5⟩
  have henv : t.env = s.env.drop 14 := by
    rw [g6]
    simp
  refine ⟨exitHandler t, mainPoint_entry (h.pending hl) h.inHandler ht, ⟨?_, ?_, rfl, ?_⟩, ?_, ?_, ?_, henv, ?_, hrec, ?_,
    ?_, hmir, ?_⟩
  · simpa [h.refEn] using q4
  · simpa using q5
  · intro acts ha
    exact h.edges acts (List.mem_of_mem_drop (i := 14) (by rw [← henv]; exact ha))
  · exact tickReady_congr (s := s) hrec.2.2.2.1 (by simpa using g3) (fun hf w hw => by
      show t.mirror.read w ≠ none
      rw [hmir w]; exact hf w hw) hready
  · exact chainInv_congr (s := s) (by simpa using c1) (by simpa using c2) (by simpa using c3) (by simpa using c4)
      hrec.2.2.2.1 hinv
  · simpa using q2
  · simpa using q3
  · simpa using hr
  · simpa using q11
  · simpa using q1

/-- A correcting round. -/
theorem round_correcting {n k : Nat} {s : State} (h : BetweenRounds s) (hl : 0 < s.env.length) (hi : warmup ≤ s.iter)
    (hk : k ≤ 24) (hready : tickReady s (k + 1)) (hinv : chainInv s) :
    ∃ t c, mainPoint (n + 1) s = mainPoint n t ∧ tickReady t k ∧ chainInv t ∧ t.iter = s.iter + 1
      ∧ t.env = s.env.drop 4880 ∧ t.inHandler = false ∧ SameRecord s t ∧ t.ret = s.ret ∧ t.waiting = s.waiting
      ∧ t.snap = some c ∧ t.cntMode = .running
      ∧ (∀ p, p < nAsc → ∃ v, t.mirror.bit p = some v ∧ t.l.at p = Bit3.ofBool v)
      ∧ (∀ e ∈ allFields t, mirrorHolds t e.1 e.2) ∧ (∀ p, (∀ f, ¬ inField s.cfg f p) → SameBit s t p)
      ∧ (terminates { s with iter := s.iter + 1 } c = false → BetweenRounds t ∧ t.doneFlag = s.doneFlag
          ∧ t.seqState = .converging)
      ∧ (terminates { s with iter := s.iter + 1 } c = true → t.refEn = false ∧ t.refPending = false
          ∧ t.doneFlag = true ∧ t.seqState = .done ∧ t.result = some (mkResult s.cfg c t.code)) := by
  generalize hs0 : enterHandler (agentsStep s) = s0
  have hcfg0 : (countTick s0).cfg = s.cfg := by rw [← hs0]; simp
  have hready0 : tickReady (countTick s0) (k + 1) :=
    tickReady_congr (s := s) hcfg0 (by rw [← hs0]; simp) (fun hf => by rw [← hs0]; simpa using hf) hready
  have hinv0 : chainInv (countTick s0) :=
    chainInv_congr (s := s) (by rw [← hs0]; simp) (by rw [← hs0]; simp) (by rw [← hs0]; simp) (by rw [← hs0]; simp) hcfg0 hinv
  have hu0 : (countTick s0).undisturbed := by rw [← hs0]; exact .inl rfl
  obtain ⟨c, x1, x2, x3, x4, t, ht, -, -, -, -, -, a1, a2, a3, a4, a5, a6, a7, a8, a9, a10, a11, a12, a13, a14, a15, a16, a17,
    a18⟩ := correctingTick_ok quiet_handlerPoint hk hready0 hinv0 hu0
  have hterm : terminates (countTick s0) c = terminates { s with iter := s.iter + 1 } c := by
    rw [← hs0]; simp [terminates]
  have ht' : seqTick handlerPoint (enterHandler (agentsStep s)) = .ok () t := by
    rw [hs0, seqTick_correcting _ (by rw [← hs0]; simpa using hi)]
    exact ht
  have hrec : SameRecord s t := by
    have : SameRecord s (countTick s0) := by rw [← hs0]; simp [SameRecord]
    exact this.trans a10
  have henv : t.env = s.env.drop 4880 := by rw [a16, ← hs0]; simp
  have hall : allFields (exitHandler t) = allFields t := rfl
  refine ⟨exitHandler t, c, mainPoint_entry (h.pending hl) h.inHandler ht', ?_, a9, ?_, henv, rfl, hrec, ?_, ?_, a3, a8, a5,
    a6, fun p hp => ?_, fun hT => ?_, fun hT => ?_⟩
  · exact tickReady_congr (s := t) rfl rfl (fun hf => hf) a1
  · rw [exitHandler_iter, a15, ← hs0]; simp
  · rw [exitHandler_ret, a11, ← hs0]; simp
  · rw [exitHandler_waiting, a14, ← hs0]; simp
  · have := a7 p (by rw [hcfg0]; exact hp)
    unfold SameBit at this ⊢
    rw [← hs0] at this
    simpa using this
  · obtain ⟨b1, b2, b3, b4, -⟩ := a18 (by rw [hterm]; exact hT)
    refine ⟨⟨?_, ?_, rfl, fun acts ha => ?_⟩, ?_, b1⟩
    · rw [exitHandler_refEn, b3, ← hs0]; simpa using h.refEn
    · rw [exitHandler_refPending, b4, ← hs0]; rfl
    · exact h.edges acts (List.mem_of_mem_drop (i := 4880) (by rw [← henv]; exact ha))
    · rw [exitHandler_doneFlag, b2, ← hs0]; simp
  · obtain ⟨b1, b2, b3, b4, b5⟩ := a17 (by rw [hterm]; exact hT)
    refine ⟨b3, b4, b2, b1, ?_⟩
    rw [exitHandler_result, b5, hcfg0, exitHandler_code, a2]

end Sys2Proof.Machine
end

