-- ==== Sys2Proof/Laws/Session.lean ====
section
/-! SUPPORT. The session's invariant through a tick, a handler and an access point (43_calibration_sequencer.md R240 to
R255). -/

namespace Sys2Proof.Machine

/-- What the session's invariant looks at is unchanged. -/
structure SameView (s t : State) : Prop where
  pending : t.refPending = s.refPending
  enable : t.refEn = s.refEn
  handler : t.inHandler = s.inHandler
  phase : t.seqState = s.seqState
  done : t.doneFlag = s.doneFlag
  result : t.result = s.result
  iter : t.iter = s.iter
  hand : t.hand = s.hand
  faults : t.faults = s.faults
  refused : t.refused = s.refused
  cfg : t.cfg = s.cfg
  todo : t.todo = s.todo

theorem sameView_setRet (v : RetVal) (s : State) : SameView s (setRet v s) := by constructor <;> rfl

theorem sameView_setCounters (c : Counts) (m : CntMode) (k : Nat) (s : State) : SameView s (setCounters c m k s) := by
  constructor <;> rfl

theorem sameView_nextDraw (s : State) : SameView s (nextDraw s) := by constructor <;> rfl

theorem sameView_setCode (c : Codes) (s : State) : SameView s (setCode c s) := by constructor <;> rfl

theorem sameView_setMirror (m : Memory) (s : State) : SameView s (setMirror m s) := by constructor <;> rfl

theorem sameView_latchWrite (v : Word) (s : State) : SameView s (latchWrite v s) := by constructor <;> rfl

theorem sameView_setSnap (c : Counts) (s : State) : SameView s (setSnap c s) := by constructor <;> rfl

theorem sameView_tickCounter (i : Counter) (s : State) : SameView s (tickCounter i s) := by constructor <;> simp

/-! ### The invariants -/

/-- The session's invariant without the clause that a tick breaks while it runs. -/
def weakInv (s : State) : Prop :=
  (s.refPending = true → s.refEn = true) ∧ (s.inHandler = true → s.refPending = false)
    ∧ (s.refEn = true ↔ s.seqState = .armed ∨ s.seqState = .converging)
    ∧ (s.doneFlag = true ↔ s.seqState = .done) ∧ (s.doneFlag = true → s.result ≠ none)
    ∧ s.iter ≤ 12 ∧ (s.seqState = .armed → s.iter ≤ 2) ∧ (s.seqState = .converging → 2 < s.iter) ∧ mainProgram s

/-- The session's invariant while the run goes on. -/
def strongInv (s : State) : Prop :=
  weakInv s ∧ (s.seqState = .converging → s.iter < 12) ∧ s.faults = [] ∧ s.refused = false

/-- The same in the main context. -/
def mainInv (s : State) : Prop := strongInv s ∧ s.inHandler = false ∧ s.hand = []

/-- The same in the handler, before its tick. -/
def handlerInv (hd : List Instr) (s : State) : Prop :=
  strongInv s ∧ s.inHandler = true ∧ s.hand = hd ∧ s.refEn = true

/-- What holds inside a tick, in one phase of the session. -/
def tickInv (hd : List Instr) (q : SeqState) (s : State) : Prop :=
  weakInv s ∧ s.faults = [] ∧ s.refused = false ∧ s.inHandler = true ∧ s.hand = hd ∧ s.refEn = true ∧ s.seqState = q

/-- What holds after a tick in the handler. -/
def tickedInv (hd : List Instr) (s : State) : Prop := strongInv s ∧ s.inHandler = true ∧ s.hand = hd

theorem weakInv_congr {s t : State} (h : SameView s t) (hw : weakInv s) : weakInv t := by
  obtain ⟨a, b, c, d, e, f, g, hh, i, j, k, l⟩ := h
  unfold weakInv mainProgram at hw ⊢
  rw [a, b, c, d, e, f, g, k, l]
  exact hw

theorem strongInv_congr {s t : State} (h : SameView s t) (hw : strongInv s) : strongInv t := by
  refine ⟨weakInv_congr h hw.1, ?_⟩
  rw [h.phase, h.iter, h.faults, h.refused]
  exact hw.2

theorem mainInv_congr {s t : State} (h : SameView s t) (hw : mainInv s) : mainInv t :=
  ⟨strongInv_congr h hw.1, by rw [h.handler]; exact hw.2.1, by rw [h.hand]; exact hw.2.2⟩

theorem tickInv_congr {hd : List Instr} {q : SeqState} {s t : State} (h : SameView s t) (hw : tickInv hd q s) :
    tickInv hd q t := by
  obtain ⟨a, b, c, d, e, f, g⟩ := hw
  exact ⟨weakInv_congr h a, by rw [h.faults]; exact b, by rw [h.refused]; exact c, by rw [h.handler]; exact d,
    by rw [h.hand]; exact e, by rw [h.enable]; exact f, by rw [h.phase]; exact g⟩

theorem mainInv_weak (s : State) (h : mainInv s) : weakInv s := h.1.1

/-! ### The other agents -/

theorem strongInv_agentsStep {s : State} (h : strongInv s) : strongInv (agentsStep s) := by
  have key : ∀ (acts : List Act) (s : State), strongInv s → strongInv (acts.foldl actStep s) := by
    intro acts
    induction acts with
    | nil => exact fun _ h => h
    | cons x xs ih =>
      intro s h
      apply ih
      cases x with
      | tick i => exact strongInv_congr (sameView_tickCounter i s) h
      | edge =>
        simp only [actStep, refEdge]
        split
        · next he =>
          simp only [edgeEnabled, Bool.and_eq_true, Bool.not_eq_true'] at he
          obtain ⟨⟨w1, w2, w3⟩, w4⟩ := h
          refine ⟨⟨fun _ => he.1.1, fun hc => ?_, w3⟩, w4⟩
          exact absurd (show s.inHandler = true from hc) (by rw [he.2]; decide)
        · exact h
  unfold agentsStep
  split
  · exact h
  · exact key _ _ (strongInv_congr (by constructor <;> rfl) h)

theorem mainInv_agentsStep {s : State} (h : mainInv s) : mainInv (agentsStep s) :=
  ⟨strongInv_agentsStep h.1, by simpa using h.2.1, by simpa using h.2.2⟩

theorem tickInv_agentsStep {hd : List Instr} {q : SeqState} {s : State} (h : tickInv hd q s) :
    tickInv hd q (agentsStep s) := by
  refine tickInv_congr ?_ h
  constructor <;> first | simp | exact agentsStep_refPending (.inl h.2.2.2.1)

/-! ### The tick and the handler -/

theorem tickInv_point {hd : List Instr} {q : SeqState} {pt : AccessPoint} (hpt : Quiet pt) (s : State)
    (h : tickInv hd q s) : (pt s).Sat (tickInv hd q) (tickInv hd q) := by
  rw [hpt s (.inl h.2.2.2.1)]
  exact tickInv_agentsStep h

theorem tickInv_gateCycle {hd : List Instr} {q : SeqState} {pt : AccessPoint} (hpt : Quiet pt) {s : State}
    (h : tickInv hd q s) : (gateCycle pt s).Sat (tickInv hd q) (tickInv hd q) :=
  sat_gateCycle (tickInv_point hpt) (fun c m k s => tickInv_congr (sameView_setCounters c m k s))
    (fun s => tickInv_congr (sameView_nextDraw s)) h

/-- The termination check after a correcting tick (R252, R253). -/
theorem checkTermination_session {hd : List Instr} (c : Counts) {t : State} (h : tickInv hd .converging t) :
    tickedInv hd (checkTermination c t) := by
  obtain ⟨⟨a1, a2, a3, a4, a5, a6, a7, a8, a9⟩, b1, b2, b3, b4, b5, b6⟩ := h
  unfold checkTermination
  split
  · exact ⟨⟨⟨fun h => (by cases h), fun _ => rfl, ⟨fun h => (by cases h), fun h => (by rcases h with h | h <;> cases h)⟩,
      ⟨fun _ => rfl, fun _ => rfl⟩, fun _ h => (by cases h), a6, fun h => (by cases h), fun h => (by cases h), a9⟩,
      fun h => (by cases h), b1, b2⟩, b3, b4⟩
  · next hn =>
    refine ⟨⟨⟨a1, a2, a3, a4, a5, a6, a7, a8, a9⟩, fun _ => ?_, b1, b2⟩, b3, b4⟩
    have : t.iter ≠ 12 := by
      intro h
      apply hn
      unfold terminates
      cases t.cfg.terminationPolicy <;> simp [h, warmup, budget]
    omega

/-- A tick in the handler keeps the session's invariant, and a stop inside it keeps the weak one (R245 to R253). -/
theorem seqTick_session {hd : List Instr} {pt : AccessPoint} (hpt : Quiet pt) {s : State} (h : handlerInv hd s) :
    (seqTick pt s).Sat (tickedInv hd) weakInv := by
  obtain ⟨⟨⟨w1, w2, w3, w4, w5, w6, w7, w8, w9⟩, s1, s2, s3⟩, h1, h2, h3⟩ := h
  have hlt : s.iter < 12 := by
    rcases w3.mp h3 with h | h
    · have := w7 h; omega
    · exact s1 h
  have hnd : s.doneFlag ≠ true := by
    intro hd
    rcases w3.mp h3 with h | h <;> rw [w4.mp hd] at h <;> cases h
  unfold seqTick
  split
  · next hi =>
    have harm : s.seqState = .armed := by
      rcases w3.mp h3 with h | h
      · exact h
      · have := w8 h; unfold warmup at hi; omega
    have hm : tickInv hd .armed (countTick s) := by
      refine ⟨⟨w1, w2, w3, w4, w5, ?_, fun _ => hi, fun h => ?_, w9⟩, s2, s3, h1, h2, h3, harm⟩
      · show s.iter + 1 ≤ 12; omega
      · exact absurd (show s.seqState = .converging from h) (by rw [harm]; decide)
    refine Res.Sat.mono (Q := tickInv hd .armed) ?_ (fun _ h => h) fun _ h => h.1
    refine (tickInv_gateCycle hpt hm).andThen fun t ht => ?_
    obtain ⟨a, b, c, d, e, f, g⟩ := ht
    refine ⟨⟨a, fun h => ?_, b, c⟩, d, e⟩
    rw [g] at h
    cases h
  · next hi =>
    have hm : tickInv hd .converging (beginCorrecting (countTick s)) := by
      refine ⟨⟨w1, w2, ⟨fun _ => .inr rfl, fun _ => h3⟩, ⟨fun h => absurd h hnd, fun h => (by cases h)⟩,
        fun h => absurd h hnd, ?_, fun h => (by cases h), fun _ => ?_, w9⟩, s2, s3, h1, h2, h3, rfl⟩
      · show s.iter + 1 ≤ 12; omega
      · unfold warmup at hi; show 2 < s.iter + 1; omega
    refine Res.Sat.mono (Q := tickInv hd .converging) ?_ (fun _ h => h) fun _ h => h.1
    refine (tickInv_gateCycle hpt hm).bind fun c s h => ?_
    refine (sat_correctAll (fun x s _ => tickInv_congr (sameView_setCode x s)) c
      (tickInv_congr (sameView_setSnap c s) h)).andThen fun s h => ?_
    refine (sat_encodeAll (fun w v s _ => tickInv_congr (sameView_setMirror _ s)) h).andThen fun s h => ?_
    refine (sat_ascCommit (fun _ h => h) (tickInv_point hpt)
      (fun v s => tickInv_congr (sameView_latchWrite v s)) h).andThen fun s h => ?_
    exact checkTermination_session c h

/-- Entry, from a pending edge (R244). -/
theorem enterHandler_session {hd : List Instr} {s : State} (h : strongInv s) (he : s.refPending = true) :
    handlerInv hd { enterHandler s with hand := hd } := by
  obtain ⟨⟨w1, w2, w3⟩, s1⟩ := h
  exact ⟨⟨⟨fun h => (by cases h), fun _ => rfl, w3⟩, s1⟩, rfl, rfl, w1 he⟩

/-- Return (R255). -/
theorem exitHandler_session {hd : List Instr} {s : State} (h : tickedInv hd s) : strongInv (exitHandler s) := by
  obtain ⟨⟨⟨w1, w2, w3⟩, s1⟩, -, -⟩ := h
  exact ⟨⟨w1, fun h => (by cases h), w3⟩, s1⟩

/-- The handler whole. -/
theorem runHandler_session {s : State} (h : mainInv s) (he : s.refPending = true) : (runHandler s).Sat mainInv weakInv := by
  have h0 : handlerInv [] (enterHandler s) := by
    have := enterHandler_session (hd := []) h.1 he
    have e : ({ enterHandler s with hand := [] } : State) = enterHandler s := by
      have := h.2.2
      unfold enterHandler
      simp [← this]
    rwa [e] at this
  exact (seqTick_session quiet_handlerPoint h0).andThen fun t ht => ⟨exitHandler_session ht, rfl, ht.2.2⟩

/-- An access point of the main context. -/
theorem mainPoint_session (n : Nat) (s : State) (h : mainInv s) : (mainPoint n s).Sat mainInv weakInv := by
  induction n generalizing s with
  | zero => exact h
  | succ n ih =>
    unfold mainPoint
    have ha := mainInv_agentsStep h
    split
    · next he =>
      simp only [entryEnabled, Bool.and_eq_true] at he
      exact (runHandler_session ha he.1).andThen fun t ht => ih t ht
    · exact ha

end Sys2Proof.Machine
end

