-- ==== Sys2Proof/WellFormed.lean ====
section
/-! DEFINITION. The operand ranges that the operation table gives ("word index 0..37", "position 0..1215",
"width >= 1, P+n <= 1216", "value < 2^n"). An operation outside them is still an operation: it decodes and
raises the fault that 60_exceptions.md R280 names for it. -/

namespace Sys2Proof

/-- The operand ranges of the operation table, as a check. -/
def Instr.wf : Instr → Bool
  | .ascMirrorWr w _ => decide (w < 38)
  | .ascMirrorRd w => decide (w < 38)
  | .ascSetBit p => decide (p < 1216)
  | .ascClearBit p => decide (p < 1216)
  | .ascReadBit p => decide (p < 1216)
  | .ascWriteField p n v => decide (1 ≤ n) && decide (p + n ≤ 1216) && decide (v < 2 ^ n)
  | .ascCtrlWr _ | .ascCtrlRd | .ascShiftBit _ | .ascShiftAll | .ascLoad | .ascCommit => true
  | .cntCtrlWr _ | .cntDisableAll | .cntResetAll | .cntEnableAll | .cntCtrlRd | .cntTick _ | .cntRdLo _
  | .cntRdHi _ | .cntReadSnapshot | .cntResetAndEnable | .cntGateCycle => true
  | .dacGet _ | .dacSet _ _ | .hfFineDec | .hfFineInc | .ifFineInc | .ifFineDec | .rc2mCoarseInc
  | .rc2mCoarseDec | .rc2mFineInc | .rc2mFineDec | .rc2mSuperfineInc | .rc2mSuperfineDec | .lcInc | .lcDec
  | .lcExpand | .dacEncodeHf | .dacEncodeRc2m | .dacEncodeIf | .dacEncodeLc | .dacEncodeAll => true
  | .seqArm | .refDisable | .refEdge | .seqEnter | .seqTick | .hfCorrect _ | .lcCorrect _ | .rc2mCorrect _
  | .ifCorrect _ | .seqExit | .seqWaitDone | .performCalibration => true

end Sys2Proof
end

