-- ==== Sys2Proof/Tests/Slice0.lean ====
section
/-! SUPPORT. The model's own tests. Every expected value comes from a vector of 95_test_vectors.md, named at the test, or
is read from the rule named there; then one witness for each statement that has hypotheses. -/

namespace Sys2Proof.Tests

-- One proof at a time: checked in parallel, the proofs by evaluation ask for more threads than the memory limit allows.
set_option Elab.async false

open Sys2Proof Sys2Proof.Machine

/-! ### States and readers -/

/-- Every bit 0. -/
def zeros : Chain := Vector.replicate 1216 .zero

/-- Every mirror word written 0. -/
def zeroMirror : Memory := (List.range 38).map fun w => (w, 0#32)

/-- The store of a witness: the reference codes, with RC2M.superfine in the middle of its range. -/
def codes : Codes := ⟨12, 0, 20, 16, 15, 4, 31, 700⟩

/-- A chip after boot: mirror, latches and live configuration all 0, last word 0x2, counters stopped. -/
def ready : State :=
  { State.reset with
    mirror := zeroMirror, a := zeros, b := zeros, l := zeros, ascCtrlLast := some 2#32, code := codes
    cnt := ⟨200103, 99990, 501400, 0x001E8A8C, 3277⟩, cntMode := .stopped }

/-- `ready` with the last word, and the first three bits of A, of B and of L given. -/
def chip (last : Word) (a b : Nat → Bit3) : State :=
  { ready with ascCtrlLast := some last, a := Chain.ofFn a, b := Chain.ofFn b }

def allZero : Nat → Bit3 := fun _ => .zero

def oneAt (k : Nat) : Nat → Bit3 := fun i => if i = k then .one else .zero

/-- `ready` with the reference codes of 95_test_vectors.md. -/
def store (c : Codes) : State := { ready with code := c }

def initCodes : Codes := Config.reference.initCodes

/-- A test of the next state. -/
def after (o : Host.Outcome State Fault Refusal) (p : State → Bool) : Bool :=
  match o with
  | .next t => p t
  | .fault _ => false
  | .refused _ => false

/-- An operation then a test. -/
def run (i : Instr) (s : State) (p : State → Bool) : Bool := after (exec i s) p

/-- The operation only records a fault. -/
def faultsWith (i : Instr) (s : State) (k : FaultKind) (info : FaultInfo) : Bool :=
  run i s fun t => t.faults == [⟨k, info⟩] && t.mirror == s.mirror && t.code == s.code

/-- A mirror word after an operation. -/
def wordAfter (i : Instr) (s : State) (w : Nat) : Option Word :=
  match exec i s with
  | .next t => t.mirror.read w
  | .fault _ => none
  | .refused _ => none

/-- The store after an operation without a fault. -/
def codesAfter (i : Instr) (s : State) : Option Codes :=
  match exec i s with
  | .next t => if t.faults = [] then some t.code else none
  | .fault _ => none
  | .refused _ => none

def reads (s : String) (i : Instr) : Bool :=
  match decodeLine Config.reference (ascii s) with
  | .ok j => i == j
  | .error _ => false

def access (d : Dir) (addr width : Nat) (v : Word) : Except DecodeError Instr :=
  decodeAccess Config.reference ⟨d, addr, width, v⟩

/-! ### Operand ranges: an ill-formed term for each check -/

theorem test_wf_word_index :
    (Instr.ascMirrorWr 38 0).wf = false ∧ (Instr.ascMirrorRd 38).wf = false
      ∧ (Instr.ascMirrorWr 37 0).wf = true ∧ (Instr.ascMirrorRd 37).wf = true := by decide

theorem test_wf_position :
    (Instr.ascSetBit 1216).wf = false ∧ (Instr.ascClearBit 1216).wf = false ∧ (Instr.ascReadBit 1216).wf = false
      ∧ (Instr.ascSetBit 1215).wf = true := by decide

theorem test_wf_field :
    (Instr.ascWriteField 7 0 0).wf = false ∧ (Instr.ascWriteField 1212 5 0).wf = false
      ∧ (Instr.ascWriteField 0 5 32).wf = false ∧ (Instr.ascWriteField 1211 5 31).wf = true := by decide

/-! ### Decoding: every operation of the table, written out in the syntax of R81 -/

theorem test_decode_scan_chain :
    reads "ASC_CTRL_WR 0xA" (.ascCtrlWr 10) ∧ reads "ASC_CTRL_RD" .ascCtrlRd
      ∧ reads "ASC_MIRROR_WR 1, 0x04000000" (.ascMirrorWr 1 0x04000000) ∧ reads "ASC_MIRROR_RD 38" (.ascMirrorRd 38)
      ∧ reads "ASC_SET_BIT 1215" (.ascSetBit 1215) ∧ reads "ASC_CLEAR_BIT 5" (.ascClearBit 5)
      ∧ reads "ASC_READ_BIT 37" (.ascReadBit 37) ∧ reads "ASC_WRITE_FIELD 100, 5, 23" (.ascWriteField 100 5 23)
      ∧ reads "ASC_SHIFT_BIT 1" (.ascShiftBit true) ∧ reads "ASC_SHIFT_BIT 0" (.ascShiftBit false)
      ∧ reads "ASC_SHIFT_ALL" .ascShiftAll ∧ reads "ASC_LOAD" .ascLoad ∧ reads "ASC_COMMIT" .ascCommit := by
  decide +kernel

theorem test_decode_counters :
    reads "CNT_CTRL_WR 7" (.cntCtrlWr 7) ∧ reads "CNT_DISABLE_ALL" .cntDisableAll ∧ reads "CNT_RESET_ALL" .cntResetAll
      ∧ reads "CNT_ENABLE_ALL" .cntEnableAll ∧ reads "CNT_CTRL_RD" .cntCtrlRd ∧ reads "CNT_TICK 3" (.cntTick .chf)
      ∧ reads "CNT_TICK C32K" (.cntTick .c32k) ∧ reads "CNT_RD_LO 0" (.cntRdLo .c2m)
      ∧ reads "CNT_RD_HI CIF" (.cntRdHi .cif) ∧ reads "CNT_RD_HI 1" (.cntRdHi .clc)
      ∧ reads "CNT_READ_SNAPSHOT" .cntReadSnapshot ∧ reads "CNT_RESET_AND_ENABLE" .cntResetAndEnable
      ∧ reads "CNT_GATE_CYCLE" .cntGateCycle := by decide +kernel

theorem test_decode_store :
    reads "DAC_GET HF.fine" (.dacGet .hfFine) ∧ reads "DAC_SET RC2M.superfine, 9" (.dacSet .rc2mSuperfine 9)
      ∧ reads "HF_FINE_DEC" .hfFineDec ∧ reads "HF_FINE_INC" .hfFineInc ∧ reads "IF_FINE_INC" .ifFineInc
      ∧ reads "IF_FINE_DEC" .ifFineDec ∧ reads "RC2M_COARSE_INC" .rc2mCoarseInc
      ∧ reads "RC2M_COARSE_DEC" .rc2mCoarseDec ∧ reads "RC2M_FINE_INC" .rc2mFineInc
      ∧ reads "RC2M_FINE_DEC" .rc2mFineDec ∧ reads "RC2M_SUPERFINE_INC" .rc2mSuperfineInc
      ∧ reads "RC2M_SUPERFINE_DEC" .rc2mSuperfineDec ∧ reads "LC_INC" .lcInc ∧ reads "LC_DEC" .lcDec
      ∧ reads "LC_EXPAND" .lcExpand ∧ reads "DAC_ENCODE_HF" .dacEncodeHf ∧ reads "DAC_ENCODE_RC2M" .dacEncodeRc2m
      ∧ reads "DAC_ENCODE_IF" .dacEncodeIf ∧ reads "DAC_ENCODE_LC" .dacEncodeLc
      ∧ reads "DAC_ENCODE_ALL" .dacEncodeAll := by decide +kernel

theorem test_decode_sequencer :
    reads "SEQ_ARM" .seqArm ∧ reads "REF_DISABLE" .refDisable ∧ reads "REF_EDGE" .refEdge ∧ reads "SEQ_ENTER" .seqEnter
      ∧ reads "SEQ_TICK" .seqTick ∧ reads "HF_CORRECT 1990000" (.hfCorrect 1990000)
      ∧ reads "LC_CORRECT 100005" (.lcCorrect 100005) ∧ reads "RC2M_CORRECT 200700" (.rc2mCorrect 200700)
      ∧ reads "IF_CORRECT 0xFFFFFFFF" (.ifCorrect 0xFFFFFFFF) ∧ reads "SEQ_EXIT" .seqExit
      ∧ reads "SEQ_WAIT_DONE" .seqWaitDone ∧ reads "PERFORM_CALIBRATION" .performCalibration := by decide +kernel

/-- The eleven registers of R51 in the reference layout, and the refusals of V-CTL-18 to 20, V-CNT-16, V-PRI-1, V-PRI-2. -/
theorem test_decode_access :
    access .write 0x00 4 0x1 = .ok (.ascCtrlWr 0x1) ∧ access .read 0x00 4 0 = .ok .ascCtrlRd
      ∧ access .write 0x04 4 0x1 = .ok (.cntCtrlWr 0x1) ∧ access .read 0x04 4 0 = .ok .cntCtrlRd
      ∧ access .read 0x10 4 0 = .ok (.cntRdLo .c2m) ∧ access .read 0x2C 4 0 = .ok (.cntRdHi .chf)
      ∧ access .read 0x34 4 0 = .ok (.cntRdHi .c32k) ∧ access .write 0x00 2 0 = .error .badAccess
      ∧ access .write 0x01 4 0 = .error .badAccess ∧ access .write 0x10 4 0 = .error .badAccess
      ∧ access .read 0x24 2 0 = .error .badAccess ∧ access .read 0x38 4 0 = .error .badAccess := by decide +kernel

/-- The table's one word: a write of it to the control register, decoded, and run by the first step. -/
theorem test_table_word :
    decodeTableWord 32 0x1 = some (.ascCtrlWr 0x1) ∧ decodeTableWord 16 0x1 = none
      ∧ after (step (State.reset.withFetchWord 32 0x1)) (fun t => t.ascCtrlLast == some 1 && t.faults == []) := by
  decide +kernel

/-! ### Encodings (V-ENC) -/

/-- V-ENC-1, V-ENC-2. -/
theorem test_control_words :
    ascw Config.reference true false false false = 0x1 ∧ ascw Config.reference false true false false = 0x2
      ∧ ascw Config.reference true false true false = 0x5 ∧ ascw Config.reference true true false true = 0xB := by
  decide

/-- V-ENC-3, V-ENC-5. -/
theorem test_stages :
    [0, 31, 32, 37, 100, 1184, 1215].map stageOf = [31, 0, 63, 58, 123, 1215, 1184]
      ∧ wordOf 37 = 1 ∧ bitOf 37 = 26 ∧ maskOf 37 = 0x04000000 := by decide

/-- V-ENC-7. -/
theorem test_count_assembly : assembleCount 0x12348A8C 0xABCD001E = 0x001E8A8C := by decide

/-! ### The control register (V-CTL) -/

/-- V-CTL-1, V-CTL-2, V-CTL-3. -/
theorem test_control_write_refuses :
    run (.ascCtrlWr 0x20) ready (fun t =>
        t.refusedBy == some .reservedBits && t.refused && t.ascCtrlLast == some 2)
      ∧ run (.ascCtrlWr 0x10) ready (fun t =>
        t.refusedBy == some .resetAsserted && t.refused && t.ascCtrlLast == some 2)
      ∧ run (.ascCtrlWr 0x30) ready (fun t =>
        t.refusedBy == some .reservedBits && t.refused && t.ascCtrlLast == some 2) := by decide +kernel

/-- V-CTL-6, V-CTL-9: the input latches open, and close over a moving DATA. -/
theorem test_control_write_input_latches :
    run (.ascCtrlWr 0x4) (chip 0x0 allZero (oneAt 0)) (fun t =>
        t.a.at 0 == .zero && t.a.at 1 == .one && t.a.at 2 == .zero && t.b.at 0 == .one)
      ∧ run (.ascCtrlWr 0x1) (chip 0x4 allZero allZero) (fun t =>
        t.a.at 0 == .x && t.a.at 1 == .zero && t.b.at 0 == .zero) := by decide +kernel

/-- V-CTL-17. -/
theorem test_control_read : exec .ascCtrlRd ready = .next (setRet (.word (Config.draw32 5)) (nextDraw ready)) := rfl

/-! ### The mirror (V-MIR) -/

/-- V-MIR-1, V-MIR-2. -/
theorem test_mirror_write :
    wordAfter (.ascMirrorWr 1 0x04000000) ready 1 = some 0x04000000
      ∧ faultsWith (.ascMirrorWr 38 0) ready .outOfRange (.word 38) := by decide +kernel

/-- V-MIR-3, V-MIR-4. -/
theorem test_mirror_read :
    faultsWith (.ascMirrorRd 38) ready .outOfRange (.word 38)
      ∧ faultsWith (.ascMirrorRd 5) State.reset .unwrittenMirror (.word 5) := by decide +kernel

/-- V-MIR-5, V-MIR-7. -/
theorem test_set_bit :
    wordAfter (.ascSetBit 0) ready 0 = some 0x80000000 ∧ wordAfter (.ascSetBit 1215) ready 37 = some 0x00000001 := by
  decide +kernel

/-- V-MIR-8, V-MIR-9, V-MIR-10. -/
theorem test_set_bit_faults :
    faultsWith (.ascSetBit 1216) ready .outOfRange (.position 1216)
      ∧ faultsWith (.ascSetBit 1216) State.reset .outOfRange (.position 1216)
      ∧ faultsWith (.ascSetBit 37) State.reset .unwrittenMirror (.word 1) := by decide +kernel

/-- V-MIR-12. -/
theorem test_clear_bit :
    wordAfter (.ascClearBit 0) { ready with mirror := [(0, 0xFFFFFFFF#32)] } 0 = some 0x7FFFFFFF := by decide +kernel

/-- V-MIR-14. -/
theorem test_read_bit :
    run (.ascReadBit 1215) { ready with mirror := [(37, 1#32)] } (fun t => t.ret == some (.bit true))
      ∧ run (.ascReadBit 1184) { ready with mirror := [(37, 1#32)] } (fun t => t.ret == some (.bit false)) := by
  decide +kernel

/-- V-MIR-16, V-MIR-17, V-MIR-24. -/
theorem test_write_field :
    wordAfter (.ascWriteField 100 5 23) ready 3 = some 0x0B800000
      ∧ wordAfter (.ascWriteField 30 4 9) ready 0 = some 0x00000002
      ∧ wordAfter (.ascWriteField 30 4 9) ready 1 = some 0x40000000
      ∧ wordAfter (.ascWriteField 100 5 0) { ready with mirror := [(3, 0xFFFFFFFF#32)] } 3 = some 0xF07FFFFF := by
  decide +kernel

/-- V-MIR-19 to V-MIR-23. -/
theorem test_write_field_faults :
    faultsWith (.ascWriteField 1212 5 0) ready .outOfRange (.span 1212 5)
      ∧ faultsWith (.ascWriteField 0 5 32) ready .fieldRange (.value 32 5)
      ∧ faultsWith (.ascWriteField 1214 5 40) ready .outOfRange (.span 1214 5)
      ∧ faultsWith (.ascWriteField 7 0 0) ready .outOfRange (.span 7 0)
      ∧ faultsWith (.ascWriteField 30 4 9) { ready with mirror := [(0, 0xFFFFFFFF#32)] } .unwrittenMirror (.word 1) := by
  decide +kernel

/-! ### Shifting and loading (V-SH) -/

/-- V-SH-1. -/
theorem test_shift_bit :
    run (.ascShiftBit true) ready (fun t =>
      t.b.at 0 == .one && t.b.at 1 == .zero && t.a.at 0 == .one && t.ascCtrlLast == some 3 && t.l.at 31 == .zero) := by
  decide +kernel

/-- V-SH-12. -/
theorem test_shift_bit_other_role :
    run (.ascShiftBit true) { ready with cfg := { Config.reference with phaseRole := .p1Input } } (fun t =>
      t.a.at 0 == .one && t.b.at 0 == .x && t.a.at 1 == .x) := by decide +kernel

/-- V-SH-3. -/
theorem test_load :
    run .ascLoad (chip 0x2 (oneAt 1) (oneAt 1)) (fun t =>
      t.l.at 30 == .one && t.l.at 31 == .zero && t.ascCtrlLast == some 2) := by decide +kernel

/-- R116, R118 with V-SH-11's fault at the first word read. -/
theorem test_shift_all_and_commit_stop :
    faultsWith .ascShiftAll State.reset .unwrittenMirror (.word 37)
      ∧ faultsWith .ascCommit State.reset .unwrittenMirror (.word 37) := by decide +kernel

/-! ### The counters (V-CNT) -/

def zeroUpper : Config := { Config.reference with cntUpperRead := .zero }

/-- V-CNT-1, V-CNT-2. -/
theorem test_pattern_write :
    run (.cntCtrlWr 7) ready (fun t =>
        t.refusedBy == some .unknownPattern && t.refused && t.cnt == ready.cnt && t.cntMode == .stopped)
      ∧ run (.cntCtrlWr 1) { ready with cntMode := .running } (fun t =>
        t.cntMode == .stopped && t.cnt == ready.cnt && t.settleLeft == 0) := by decide +kernel

/-- V-CNT-7, V-CNT-10, V-CNT-15. -/
theorem test_patterns :
    run .cntResetAll ready (fun t => t.cnt == ⟨0, 0, 0, 0, 0⟩ && t.cntMode == .cleared && t.settleLeft == 0)
      ∧ run .cntEnableAll ready (fun t => t.cntMode == .running && t.cnt == ready.cnt)
      ∧ run .cntDisableAll { ready with cfg := { Config.reference with disableSettle := 2 } } (fun t =>
        t.settleLeft == 2 && counting t) := by decide +kernel

/-- V-CNT-17, R157. -/
theorem test_counter_control_read :
    exec .cntCtrlRd { ready with settleLeft := 2 }
      = .next (setRet (.word (Config.draw32 5)) (nextDraw { ready with settleLeft := 1 })) := rfl

/-- V-CNT-11, V-CNT-12, V-CNT-13. -/
theorem test_tick :
    run (.cntTick .chf) ready (fun t => t.cnt == ready.cnt)
      ∧ run (.cntTick .chf) { ready with cntMode := .running, cnt := ⟨0, 0, 0, 1999999, 0⟩ } (fun t =>
        t.cnt == ⟨0, 0, 0, 2000000, 0⟩)
      ∧ run (.cntTick .clc)
        { ready with
          cntMode := .running, cnt := ⟨7, 0xFFFFFFFF, 0, 0, 0⟩
          cfg := { Config.reference with counterOverflow := .wrap } } (fun t => t.cnt == ⟨7, 0, 0, 0, 0⟩) := by
  decide +kernel

/-- V-CNT-3, V-CNT-9. -/
theorem test_half_reads :
    run (.cntRdLo .chf) { ready with cfg := zeroUpper } (fun t => t.ret == some (.word 0x00008A8C))
      ∧ run (.cntRdHi .chf) { ready with cfg := zeroUpper } (fun t => t.ret == some (.word 0x0000001E))
      ∧ run (.cntRdLo .cif)
        { ready with cntMode := .cleared, cnt := ⟨0, 0, 0, 0, 0⟩, cfg := { zeroUpper with resetHolds := true } }
        (fun t => t.ret == some (.word 0)) := by decide +kernel

/-- V-CNT-5: a read while counting is a draw. -/
theorem test_half_read_while_counting :
    exec (.cntRdLo .c2m) { ready with cntMode := .running, cfg := zeroUpper }
      = .next (setRet (.word (0#16 ++ Config.draw16 5))
          (nextDraw { ready with cntMode := .running, cfg := zeroUpper })) := rfl

/-- Program P2: the snapshot and the gate cycle of its counts. -/
theorem test_snapshot_and_gate_cycle :
    run .cntReadSnapshot { ready with cfg := zeroUpper } (fun t =>
        t.ret == some (.counts ⟨200103, 99990, 501400, 2001548, 3277⟩) && t.cnt == ready.cnt)
      ∧ run .cntGateCycle { ready with cntMode := .running, cfg := zeroUpper } (fun t =>
        t.ret == some (.counts ⟨200103, 99990, 501400, 2001548, 3277⟩) && t.cntMode == .running
          && t.cnt == ⟨0, 0, 0, 0, 0⟩) := by decide +kernel

/-- R162. -/
theorem test_reset_and_enable :
    run .cntResetAndEnable ready (fun t => t.cntMode == .running && t.cnt == ⟨0, 0, 0, 0, 0⟩) := by decide +kernel

/-! ### The store (V-DAC) -/

/-- V-DAC-1, V-DAC-3. -/
theorem test_get_and_set :
    run (.dacGet .hfFine) (store { initCodes with hfFine := 17 }) (fun t => t.ret == some (.code 17))
      ∧ codesAfter (.dacSet .hfFine 40) (store initCodes) = some { initCodes with hfFine := 40 } := by decide +kernel

/-- V-DAC-4, V-DAC-6, V-DAC-11. -/
theorem test_hf_dec :
    codesAfter .hfFineDec (store initCodes) = some { initCodes with hfCoarse := 11, hfFine := 10 }
      ∧ faultsWith .hfFineDec (store { initCodes with hfCoarse := 0 }) .codeRange (.field .hfCoarse)
      ∧ faultsWith .hfFineDec (store { initCodes with hfFine := 40 }) .codeRange (.field .hfFine) := by decide +kernel

/-- V-DAC-8, V-DAC-9, V-DAC-10. -/
theorem test_hf_inc :
    codesAfter .hfFineInc (store { initCodes with hfFine := 31 }) = some { initCodes with hfCoarse := 13, hfFine := 23 }
      ∧ codesAfter .hfFineInc (store { initCodes with hfFine := 30 }) = some { initCodes with hfFine := 31 }
      ∧ faultsWith .hfFineInc (store { initCodes with hfCoarse := 31, hfFine := 31 }) .codeRange (.field .hfCoarse) := by
  decide +kernel

/-- V-DAC-12, V-DAC-14, V-DAC-18. -/
theorem test_if_inc :
    codesAfter .ifFineInc (store initCodes) = some { initCodes with ifCoarse := 5, ifFine := 24 }
      ∧ faultsWith .ifFineInc (store { initCodes with ifCoarse := 31 }) .codeRange (.field .ifCoarse)
      ∧ faultsWith .ifFineInc (store { initCodes with ifFine := 32 }) .codeRange (.field .ifFine) := by decide +kernel

/-- V-DAC-15, V-DAC-17. -/
theorem test_if_dec :
    codesAfter .ifFineDec (store { initCodes with ifFine := 7 }) = some { initCodes with ifFine := 6 }
      ∧ faultsWith .ifFineDec (store { initCodes with ifFine := 0 }) .codeRange (.field .ifFine) := by decide +kernel

/-- V-DAC-19, V-DAC-21, V-DAC-23, V-DAC-25. -/
theorem test_single_steps :
    codesAfter .rc2mCoarseInc (store initCodes) = some { initCodes with rc2mCoarse := 21 }
      ∧ codesAfter .rc2mCoarseDec (store initCodes) = some { initCodes with rc2mCoarse := 19 }
      ∧ codesAfter .rc2mFineInc (store initCodes) = some { initCodes with rc2mFine := 17 }
      ∧ codesAfter .rc2mFineDec (store initCodes) = some { initCodes with rc2mFine := 15 }
      ∧ codesAfter .rc2mSuperfineInc (store initCodes) = some { initCodes with rc2mSuperfine := 10 }
      ∧ codesAfter .rc2mSuperfineDec (store initCodes) = some { initCodes with rc2mSuperfine := 8 }
      ∧ codesAfter .lcInc (store initCodes) = some { initCodes with lcCode := 701 }
      ∧ codesAfter .lcDec (store initCodes) = some { initCodes with lcCode := 699 } := by decide +kernel

/-- V-DAC-20, V-DAC-22, V-DAC-24, V-DAC-26, V-DAC-27. -/
theorem test_single_step_faults :
    faultsWith .rc2mCoarseInc (store { initCodes with rc2mCoarse := 31 }) .codeRange (.field .rc2mCoarse)
      ∧ faultsWith .rc2mFineDec (store { initCodes with rc2mFine := 0 }) .codeRange (.field .rc2mFine)
      ∧ faultsWith .rc2mSuperfineInc (store { initCodes with rc2mSuperfine := 31 }) .codeRange (.field .rc2mSuperfine)
      ∧ faultsWith .lcInc (store { initCodes with lcCode := 32767 }) .codeRange (.field .lcCode)
      ∧ faultsWith .lcDec (store { initCodes with lcCode := 0 }) .codeRange (.field .lcCode) := by decide +kernel

/-- V-ENCD-1, V-ENCD-2. -/
theorem test_lc_expand :
    run .lcExpand (store { initCodes with lcCode := 699 }) (fun t => t.ret == some (.subCodes ⟨5, 9, 5⟩))
      ∧ run .lcExpand (store { initCodes with lcCode := 4095 }) (fun t => t.ret == some (.subCodes ⟨31, 21, 1⟩))
      ∧ faultsWith .lcExpand (store { initCodes with lcCode := 4096 }) .lcMapRange (.lcCode 4096) := by decide +kernel

/-- V-ENCD-4, V-ENCD-7, V-ENCD-10, V-ENCD-11, V-ENCD-14. -/
theorem test_encoders :
    wordAfter .dacEncodeHf (store { initCodes with hfCoarse := 11, hfFine := 10 }) 3 = some 0x05A80000
      ∧ wordAfter .dacEncodeRc2m (store initCodes) 5 = some 0x00000002
      ∧ wordAfter .dacEncodeRc2m (store initCodes) 6 = some 0x90480000
      ∧ wordAfter .dacEncodeIf (store { initCodes with ifCoarse := 5, ifFine := 24 }) 9 = some 0x0002E000
      ∧ wordAfter .dacEncodeLc (store initCodes) 12 = some 0x00002A80
      ∧ wordAfter .dacEncodeHf { store initCodes with mirror := [(3, 0xFFFFFFFF#32)] } 3 = some 0xF603FFFF := by
  decide +kernel

/-- Program P4 after boot, and V-ENCD-12, V-ENCD-13. -/
theorem test_encode_all :
    [3, 5, 6, 9, 12].map (wordAfter .dacEncodeAll (store initCodes))
        = [some 0x06000000, some 0x00000002, some 0x90480000, some 0x00027C00, some 0x00002A80]
      ∧ run .dacEncodeAll (store { initCodes with hfFine := 40 }) (fun t =>
        t.faults == [⟨.fieldRange, .value 40 5⟩] && t.mirror.read 3 == some 0x06000000
          && t.mirror.read 6 == some 0) := by decide +kernel

/-! ### The sequencer (V-SEQ) -/

/-- V-SEQ-1, V-SEQ-2, V-SEQ-4, V-SEQ-5. -/
theorem test_hf_correct :
    codesAfter (.hfCorrect 1996999) (store initCodes) = some { initCodes with hfCoarse := 11, hfFine := 10 }
      ∧ codesAfter (.hfCorrect 1997000) (store initCodes) = some initCodes
      ∧ codesAfter (.hfCorrect 2003000) (store initCodes) = some initCodes
      ∧ codesAfter (.hfCorrect 2003001) (store initCodes) = some { initCodes with hfFine := 1 } := by decide +kernel

/-- V-SEQ-7, V-SEQ-8, V-SEQ-9. -/
theorem test_lc_correct :
    codesAfter (.lcCorrect 100001) (store initCodes) = some { initCodes with lcCode := 699 }
      ∧ codesAfter (.lcCorrect 100000) (store initCodes) = some initCodes
      ∧ codesAfter (.lcCorrect 99999) (store initCodes) = some { initCodes with lcCode := 701 } := by decide +kernel

/-- V-SEQ-10 to V-SEQ-13, V-SEQ-15. -/
theorem test_rc2m_correct_high :
    codesAfter (.rc2mCorrect 200601) (store initCodes) = some { initCodes with rc2mCoarse := 21 }
      ∧ codesAfter (.rc2mCorrect 200600) (store initCodes) = some { initCodes with rc2mFine := 17 }
      ∧ codesAfter (.rc2mCorrect 200520) (store initCodes) = some { initCodes with rc2mSuperfine := 10 }
      ∧ codesAfter (.rc2mCorrect 200015) (store initCodes) = some initCodes := by decide +kernel

/-- V-SEQ-18, V-SEQ-20, V-SEQ-22, V-SEQ-23. -/
theorem test_rc2m_correct_low :
    codesAfter (.rc2mCorrect 199984) (store initCodes) = some { initCodes with rc2mSuperfine := 8 }
      ∧ codesAfter (.rc2mCorrect 199479) (store initCodes) = some { initCodes with rc2mFine := 15 }
      ∧ codesAfter (.rc2mCorrect 199399) (store initCodes) = some { initCodes with rc2mCoarse := 19 }
      ∧ codesAfter (.rc2mCorrect 200601)
          { store initCodes with cfg := { Config.reference with rc2mHighAction := .dec } }
        = some { initCodes with rc2mCoarse := 19 } := by decide +kernel

/-- V-SEQ-25 to V-SEQ-29. -/
theorem test_if_correct :
    codesAfter (.ifCorrect 51401) (store initCodes) = some { initCodes with ifCoarse := 5, ifFine := 24 }
      ∧ codesAfter (.ifCorrect 51400) (store initCodes) = some initCodes
      ∧ codesAfter (.ifCorrect 48600) (store initCodes) = some initCodes
      ∧ codesAfter (.ifCorrect 48599) (store { initCodes with ifFine := 7 }) = some { initCodes with ifFine := 6 }
      ∧ faultsWith (.ifCorrect 48599) (store { initCodes with ifFine := 0 }) .codeRange (.field .ifFine) := by
  decide +kernel

/-- V-SEQ-30, V-SEQ-31. -/
theorem test_arm :
    run .seqArm ready (fun t => t.seqState == .armed && t.iter == 0 && t.refEn && !t.doneFlag)
      ∧ run .seqArm { ready with seqState := .done } (fun t => t.refused && t.refusedBy == some .busy) := by
  decide +kernel

/-- V-SEQ-36, V-SEQ-37, R242, R243. -/
theorem test_edge_and_disable :
    run .refEdge { ready with refEn := true, inHandler := true } (fun t => !t.refPending)
      ∧ run .refEdge ready (fun t => !t.refPending)
      ∧ run .refEdge { ready with refEn := true } (fun t => t.refPending)
      ∧ run .refDisable { ready with refEn := true, refPending := true } (fun t => !t.refEn && !t.refPending) := by
  decide +kernel

/-- R244, R255. -/
theorem test_entry_and_return :
    run .seqEnter { ready with refPending := true } (fun t => t.inHandler && !t.refPending)
      ∧ run .seqExit { ready with inHandler := true } (fun t => !t.inHandler) := by decide +kernel

/-- V-SEQ-32: one warm-up tick. -/
theorem test_warmup_tick :
    run .seqTick { ready with inHandler := true, seqState := .armed, cfg := zeroUpper } (fun t =>
      t.iter == 1 && t.seqState == .armed && t.code == ready.code && t.cntMode == .running && t.snap == none) := by
  decide +kernel

/-- V-SEQ-40, and R256 once the flag is set. -/
theorem test_wait :
    run .seqWaitDone { ready with seqState := .armed } (fun t => t.waiting && !t.doneFlag && t.seqState == .armed)
      ∧ run .seqWaitDone { ready with seqState := .done, doneFlag := true } (fun t =>
        t.seqState == .idle && !t.doneFlag && t.ret == some (.session none)) := by decide +kernel

/-- R257 with V-SEQ-40: armed, and blocked while no edge comes. -/
theorem test_perform_calibration :
    run .performCalibration ready (fun t => t.seqState == .armed && t.refEn && t.waiting) := by decide +kernel

/-- V-SEQ-41, V-SEQ-42. -/
theorem test_result :
    (mkResult Config.reference ⟨199985, 100000, 51400, 2003000, 0⟩ initCodes).converged = true
      ∧ (mkResult Config.reference ⟨199985, 100000, 51400, 1996999, 0⟩ initCodes).inBand = ⟨false, true, true, true⟩ := by
  decide +kernel

/-- V-PRI-5. -/
theorem test_cause_codes :
    [FaultKind.outOfRange, .fieldRange, .unwrittenMirror, .codeRange, .lcMapRange].map FaultKind.causeCode
        = [1, 2, 3, 4, 5]
      ∧ [Reason.reservedBits, .resetAsserted, .unknownPattern, .badAccess, .badSyntax, .badConfig, .busy].map
          Reason.causeCode = [16, 17, 18, 19, 20, 21, 22] := by decide

/-- The last accepted and the first refused spelling of four operands: a u32 and a bit (log 3), a counter index and the
signal form, which ends at its brace (R81). -/
theorem test_lines_outside_the_syntax :
    [ascii "ASC_MIRROR_WR 0, 4294967295", ascii "ASC_MIRROR_WR 0, 4294967296", ascii "ASC_SHIFT_BIT 1",
        ascii "ASC_SHIFT_BIT 2", ascii "CNT_TICK 4", ascii "CNT_TICK 5",
        ascii "ASC_CTRL_WR " ++ 123#8 :: ascii "DATA=1, PHI1=0, PHI2=1, LOAD=0" ++ [125#8],
        ascii "ASC_CTRL_WR " ++ 123#8 :: ascii "DATA=1, PHI1=0, PHI2=1, LOAD=0" ++ 125#8 :: ascii "  "].map
      (fun bs => match decodeLine Config.reference bs with | .ok _ => true | .error r => r != .badSyntax)
      = [true, false, true, false, true, false, true, false] := by decide +kernel

/-- R212: HF.fine of width 0 at a position of HF.coarse shares no position with it, of width 1 it does. -/
theorem test_empty_field_overlaps_nothing :
    [0, 1].map (fun w => ({ Config.reference with
        width := { Config.reference.width with hfFine := w }
        fieldPos := { Config.reference.fieldPos with hfFine := 102 } } : Config).ok) = [true, false] := by decide

/-! ### Witnesses: for each statement with hypotheses, states and operands that meet them, each clause at the ends of its
range -/

/-- An answer that is a next state. -/
def answers (o : Host.Outcome State Fault Refusal) : Bool := after o fun _ => true

theorem exists_next {o : Host.Outcome State Fault Refusal} {p : State → Bool} (h : after o p = true) :
    ∃ t, o = .next t ∧ p t = true := by
  cases o with
  | next t => exact ⟨t, rfl, h⟩
  | fault f => cases h
  | refused r => cases h

theorem zeroMirror_full : zeroMirror.full := by unfold Memory.full; decide +kernel

theorem ready_chainInv : chainInv ready := ⟨fun h => absurd h (by decide), fun h => absurd h (by decide)⟩

theorem ready_undisturbed : ready.undisturbed := .inr ⟨rfl, .inl rfl⟩

theorem reference_lcMap_fits (c : Nat) (h : c ≤ 4095) : (Config.reference.lcMap.apply c).fits Config.reference = true := by
  have h1 : c / 128 ≤ 2 ^ 5 - 1 := by omega
  have h2 : c % 128 / 6 ≤ 2 ^ 5 - 1 := by omega
  have h3 : c % 128 % 6 ≤ 2 ^ 5 - 1 := by omega
  unfold LcSub.fits
  rw [Bool.and_eq_true, Bool.and_eq_true]
  exact ⟨⟨decide_eq_true h1, decide_eq_true h2⟩, decide_eq_true h3⟩

theorem ready_room : calibrationRoom ready 10 := by
  refine ⟨by unfold hasRoom; decide, by decide, by unfold hasRoom; decide, by unfold hasRoom; decide,
    by unfold hasRoom; decide, by decide, by decide, by decide, by unfold hasRoom; decide, fun c _ h => ?_⟩
  exact reference_lcMap_fits c (by change c ≤ 700 + 10 at h; omega)

theorem ready_widths : fieldWidthsSuffice Config.reference := ⟨fun f => by cases f <;> decide, by decide, by decide⟩

theorem ready_tickReady : tickReady ready 10 := ⟨by decide, rfl, ready_widths, zeroMirror_full, ready_room⟩

theorem test_witness_control_word_carries_its_signals : Config.reference.ok = true := by decide

theorem test_witness_positions_map_to_mirror_bits_and_stages :
    0 < nAsc ∧ 1215 < nAsc ∧ 0 < nWords ∧ 37 < nWords ∧ 0 < 32 ∧ 31 < 32 := by decide

/-- One access for each clause. -/
theorem test_witness_bus_accesses_decode_by_the_register_map :
    Config.reference.ok = true
      ∧ (2 : Nat) ≠ 4 ∧ 1 % 4 ≠ 0 ∧ 0x38 ∉ Config.reference.addresses ∧ 0x0C ∉ Config.reference.addresses
      ∧ 0x10 = Config.reference.cntLoAddr.get .c2m ∧ 0x30 = Config.reference.cntLoAddr.get .c32k
      ∧ 0x14 = Config.reference.cntHiAddr.get .c2m ∧ 0x34 = Config.reference.cntHiAddr.get .c32k
      ∧ 0x00 = Config.reference.ascCtrlAddr ∧ 0x04 = Config.reference.cntCtrlAddr := by decide

theorem test_witness_decode_reads_the_encoded_access :
    Config.reference.ok = true
      ∧ encodeAccess Config.reference .cntDisableAll = some ⟨.write, 0x04, 4, 1⟩
      ∧ encodeAccess Config.reference (.cntRdHi .c32k) = some ⟨.read, 0x34, 4, 0⟩ := by decide

/-- A handler body, a blocked wait, no program, and a program whose next item decodes and does not. -/
theorem test_witness_step_runs_the_decoded_operation :
    ready.running ∧ entryEnabled (agentsStep ready) = false ∧ ready.hand = [] ∧ ready.waiting = false ∧ ready.todo = []
      ∧ (State.running { ready with hand := [.seqExit], inHandler := true }
        ∧ entryEnabled (agentsStep { ready with hand := [.seqExit], inHandler := true }) = false)
      ∧ (State.running { ready with waiting := true } ∧ entryEnabled (agentsStep { ready with waiting := true }) = false)
      ∧ decode ready.cfg (.line (ascii "SEQ_ARM")) = .ok .seqArm
      ∧ decode ready.cfg (.access ⟨.fetch, 0, 4, 0⟩) = .error .badAccess
      ∧ decode ready.cfg (.line (ascii "SEQ_ARM 1")) = .error .badSyntax := by
  unfold State.running
  decide +kernel

theorem test_witness_step_takes_interrupt_entry_first :
    State.running { ready with refEn := true, refPending := true }
      ∧ (agentsStep { ready with refEn := true, refPending := true }).refPending = true
      ∧ State.running { ready with refEn := true, env := [[.edge]] }
      ∧ (agentsStep { ready with refEn := true, env := [[.edge]] }).refPending = true ∧ ready.inHandler = false := by
  unfold State.running
  decide +kernel

theorem test_witness_ended_run_takes_no_step :
    (raiseFault ⟨.outOfRange, .word 38⟩ ready).faults = [⟨.outOfRange, .word 38⟩]
      ∧ (refuseWith .busy ready).faults = [] ∧ (refuseWith .busy ready).refused = true := ⟨rfl, rfl, rfl⟩

/-- Each constraint broken: V-PRI-3, a misaligned address, V-ENCD-16, V-ENCD-15, V-SEQ-24 and equal thresholds. -/
theorem test_witness_broken_configuration_is_refused :
    ready.faults = [] ∧ ready.refused = false
      ∧ ¬ ({ Config.reference with cntCtrlAddr := 0x10 } : Config).addresses.Nodup
      ∧ (∃ x ∈ ({ Config.reference with ascCtrlAddr := 0x02 } : Config).addresses, x % 4 ≠ 0)
      ∧ (nAsc < 1212 + Config.reference.width.lcFine)
      ∧ (inField { Config.reference with fieldPos := { Config.reference.fieldPos with hfFine := 102 } } .hfCoarse 102
        ∧ inField { Config.reference with fieldPos := { Config.reference.fieldPos with hfFine := 102 } } .hfFine 102)
      ∧ ({ Config.reference with rc2mTFine := 700 } : Config).rc2mTCoarse ≤ 700
      ∧ ({ Config.reference with rc2mTFine := 15 } : Config).rc2mTFine ≤ Config.reference.rc2mTSuperfine
      ∧ ¬ ({ Config.reference with bitRst := 0 } : Config).signalBits.Nodup
      ∧ 32 ∈ ({ Config.reference with bitRst := 32 } : Config).signalBits
      ∧ ¬ ({ Config.reference with patReset := 1 } : Config).patterns.Nodup
      ∧ ({ Config.reference with ifFineUnderflow := .carry (2 ^ 32) } : Config).ifFineUnderflow = .carry (2 ^ 32)
      ∧ 2 ^ 32 ≤ maxOf { Config.reference with lcMax := 2 ^ 32 } .lcCode
      ∧ 2 ^ 32 ≤ maxOf { Config.reference with width := { Config.reference.width with rc2mFine := 33 } } .rc2mFine
      ∧ 2 ^ 32 ≤ { codes with hfFine := 2 ^ 32 }.get .hfFine := by
  unfold inField
  decide

theorem test_witness_each_part_is_written_only_by_its_operations :
    ready.undisturbed ∧ answers (exec (.dacGet .lcCode) ready) ∧ drivesChain (.dacGet .lcCode) = false
      ∧ writesMirror (.dacGet .lcCode) = false ∧ accessesCounters (.dacGet .lcCode) = false
      ∧ writesStore (.dacGet .lcCode) = false ∧ writesSession (.dacGet .lcCode) = false := by
  exact ⟨ready_undisturbed, by decide +kernel, rfl, rfl, rfl, rfl, rfl⟩

theorem test_witness_control_word_is_admitted_or_refused :
    (wordBit 0x20 5 = true ∧ 5 ∉ Config.reference.signalBits)
      ∧ ((∀ i, i < 32 → wordBit 0x10 i = true → i ∈ Config.reference.signalBits)
        ∧ wordBit 0x10 Config.reference.bitRst ≠ Config.reference.rstInactive)
      ∧ ((∀ i, i < 32 → wordBit 0xF i = true → i ∈ Config.reference.signalBits)
        ∧ wordBit 0xF Config.reference.bitRst = Config.reference.rstInactive) := by decide

/-- A word of the four signals in the reference layout is admitted. -/
theorem signals_admitted (v : Word) (h : v.toNat < 16) :
    (∀ i, wordBit v i = true → i ∈ Config.reference.signalBits) ∧ wordBit v Config.reference.bitRst = false := by
  constructor
  · intro i hi
    rcases Nat.lt_or_ge i 4 with h4 | h4
    · change i ∈ [0, 1, 2, 3, 4]
      simp only [List.mem_cons]
      omega
    · rw [wordBit, BitVec.getLsbD, Nat.testBit_lt_two_pow (Nat.lt_of_lt_of_le h (Nat.pow_le_pow_right (show 0 < 2 from Nat.zero_lt_two) h4))] at hi
      cases hi
  · exact Nat.testBit_lt_two_pow (i := 4) h

/-- The words of V-CTL-5 to V-CTL-12: both phases up, a crossing of the phases, the input latches opened, closed over a
moving DATA and closed over a still one, the output latches open, and the unknown word, under each role. -/
theorem test_witness_control_write_moves_the_latches :
    ((0xF : Word).toNat < 16)
      ∧ levelsBefore Config.reference none = ⟨.x, .x, .x, .x⟩ ∧ levelsBefore Config.reference (some 2) = levelsOf Config.reference 2
      ∧ ((levelsOf Config.reference 6).ia = .one ∧ (levelsOf Config.reference 6).ib = .one)
      ∧ (Bit3.changed (levelsOf Config.reference 2).ia (levelsOf Config.reference 4).ia = true
        ∧ Bit3.changed (levelsOf Config.reference 2).ib (levelsOf Config.reference 4).ib = true)
      ∧ ((levelsOf Config.reference 4).ia = .one ∧ Bit3.changed (levelsOf Config.reference 0).ib (levelsOf Config.reference 4).ib = false)
      ∧ ((levelsOf Config.reference 1).ia = .zero ∧ (levelsOf Config.reference 4).ia ≠ .zero
        ∧ Bit3.changed (levelsOf Config.reference 4).d (levelsOf Config.reference 1).d = true)
      ∧ (levelsOf Config.reference 0).ia = .zero ∧ Bit3.changed (levelsOf Config.reference 4).d (levelsOf Config.reference 0).d = false
      ∧ (levelsOf Config.reference 3).ib = .one ∧ (levelsOf Config.reference 0).ib = .zero
      ∧ (levelsOf { Config.reference with phaseRole := .p1Input } 2).ia = .one
      ∧ (levelsOf { Config.reference with phaseRole := .p1Input } 4).ib = .one := by decide

/-- LOAD opens (0x2 then 0xA), is held (0xA then 0xA), closes (0xA then 0x2) and stays low; a stage moves where the
output latches open over other inputs, and stands still with A = B. -/
theorem test_witness_control_write_loads_the_live_configuration :
    ((0xA : Word).toNat < 16) ∧ ready.cfg = Config.reference
      ∧ (levelsOf ready.cfg 0xA).ld = .one ∧ (levelsBefore ready.cfg (some 2)).ld ≠ .one
      ∧ (levelsBefore ready.cfg (some 0xA)).ld = .one ∧ (levelsOf ready.cfg 2).ld = .zero
      ∧ (levelsBefore ready.cfg (some 0xA)).ld ≠ .zero ∧ (levelsBefore ready.cfg (some 2)).ld = .zero
      ∧ run (.ascCtrlWr 0xA) (chip 2 (oneAt 1215) (oneAt 1215)) (fun t => !Bit3.changed (Bit3.one) (t.b.at 1215))
      ∧ run (.ascCtrlWr 0xA) (chip 2 (oneAt 0) allZero) (fun t => Bit3.changed (Bit3.zero) (t.b.at (stageOf 31))) := by
  decide +kernel

theorem test_witness_chain_invariant_is_kept :
    chainInv { ready with todo := [.access ⟨.write, 0, 4, 4⟩] }
      ∧ answers (step { ready with todo := [.access ⟨.write, 0, 4, 4⟩] }) :=
  ⟨ready_chainInv, by decide +kernel⟩

/-- A chip after boot, and the last word 0xE over latches all X. -/
theorem test_witness_shift_bit_shifts_by_one :
    ready.cfg.ok = true ∧ ready.cfg.phaseRole = .p2Input ∧ chainInv ready ∧ ready.undisturbed ∧ ¬ overlapUnderLoad ready
      ∧ chainInv { State.reset with ascCtrlLast := some 0xE } ∧ State.undisturbed { State.reset with ascCtrlLast := some 0xE }
      ∧ overlapUnderLoad { State.reset with ascCtrlLast := some 0xE } := by
  refine ⟨by decide, rfl, ready_chainInv, ready_undisturbed, ?_, ?_, .inr ⟨rfl, .inl rfl⟩, ⟨0xE, rfl, by decide⟩⟩
  · rintro ⟨u, h, -, hp, -⟩
    cases h
    exact absurd hp (by decide)
  · refine ⟨fun _ _ => ⟨rfl, rfl⟩, fun _ p _ _ => chain_at_allX p⟩

theorem test_witness_shifting_under_the_other_phase_role :
    ({ Config.reference with phaseRole := .p1Input } : Config).ok = true
      ∧ ascw Config.reference false true false false = 0x2 ∧ ascw Config.reference true true false false = 0x3
      ∧ ascw Config.reference false false false false = 0x0 ∧ ascw Config.reference true false false false = 0x1
      ∧ ready.undisturbed := ⟨by decide, by decide, by decide, by decide, by decide, ready_undisturbed⟩

theorem test_witness_shift_all_fills_the_chain_from_the_mirror :
    ready.cfg.ok = true ∧ ready.cfg.phaseRole = .p2Input ∧ chainInv ready ∧ ready.undisturbed ∧ ready.mirror.full
      ∧ ready.mirror.read 0 = some 0 ∧ ready.mirror.read 37 = some 0 :=
  ⟨by decide, rfl, ready_chainInv, ready_undisturbed, zeroMirror_full, by decide +kernel, by decide +kernel⟩

/-- The last word 0x2 with A = B, and a chip that was never written. -/
theorem test_witness_load_pulse_copies_the_shadow :
    ready.cfg.ok = true ∧ ready.undisturbed ∧ ready.ascCtrlLast = some 2
      ∧ (∀ i, wordBit 2 i = true → i ∈ ready.cfg.signalBits) ∧ wordBit 2 ready.cfg.bitRst = ready.cfg.rstInactive
      ∧ wordBit 2 ready.cfg.bitLoad = false ∧ ¬ (wordBit 2 ready.cfg.bitPhi1 = true ∧ wordBit 2 ready.cfg.bitPhi2 = true)
      ∧ (levelsOf ready.cfg 2).ia = .zero ∧ ready.a = ready.b
      ∧ State.reset.undisturbed ∧ State.reset.cfg.ok = true ∧ State.reset.ascCtrlLast = none :=
  ⟨by decide, ready_undisturbed, rfl, (signals_admitted 2 (by decide)).1, by decide, by decide, by decide, by decide, rfl,
    .inr ⟨rfl, .inl rfl⟩, by decide, rfl⟩

theorem test_witness_commit_makes_the_live_configuration_equal_the_mirror :
    ready.cfg.ok = true ∧ ready.cfg.phaseRole = .p2Input ∧ chainInv ready ∧ ready.undisturbed ∧ ready.mirror.full :=
  ⟨by decide, rfl, ready_chainInv, ready_undisturbed, zeroMirror_full⟩

/-- V-PRI-4's mirror, word 20 unwritten, and one whose top word is. -/
theorem test_witness_commit_stops_at_an_unwritten_word :
    ready.cfg.ok = true ∧ ready.cfg.phaseRole = .p2Input ∧ chainInv ready ∧ ready.undisturbed ∧ ¬ overlapUnderLoad ready
      ∧ (20 < nWords ∧ Memory.read (zeroMirror.filter (fun e => e.1 != 20)) 20 = none
        ∧ ∀ w', w' < nWords → 20 < w' → Memory.read (zeroMirror.filter (fun e => e.1 != 20)) w' ≠ none)
      ∧ (37 < nWords ∧ Memory.read [] 37 = none) :=
  ⟨by decide, rfl, ready_chainInv, ready_undisturbed, test_witness_shift_bit_shifts_by_one.2.2.2.2.1, by decide +kernel,
    by decide⟩

theorem test_witness_mirror_words_read_as_written :
    0 < nWords ∧ 37 < nWords ∧ zeroMirror.read 0 = some 0 ∧ zeroMirror.read 37 = some 0 := by decide +kernel

theorem test_witness_set_clear_and_read_one_position :
    0 < nAsc ∧ zeroMirror.read (wordOf 0) = some 0 ∧ 1215 < nAsc ∧ zeroMirror.read (wordOf 1215) = some 0 := by
  decide +kernel

theorem test_witness_write_field_places_bits_most_significant_first :
    (1 ≤ 5 ∧ 1211 + 5 ≤ nAsc ∧ 31 < 2 ^ 5) ∧ (1 ≤ 1216 ∧ 0 + 1216 ≤ nAsc ∧ 0 < 2 ^ 1216)
      ∧ ∀ w, w ≤ 37 → zeroMirror.read w ≠ none := by decide +kernel

/-- V-MIR-2, V-MIR-4, V-MIR-8, V-MIR-10, V-MIR-19, V-MIR-22, V-MIR-20 and V-MIR-23. -/
theorem test_witness_mirror_faults_follow_the_order_of_checks :
    nWords ≤ 38 ∧ (37 < nWords ∧ State.reset.mirror.read 37 = none) ∧ nAsc ≤ 1216
      ∧ (1215 < nAsc ∧ State.reset.mirror.read (wordOf 1215) = none) ∧ nAsc < 1212 + 5
      ∧ (1 ≤ 5 ∧ 0 + 5 ≤ nAsc ∧ 2 ^ 5 ≤ 32)
      ∧ (1 ≤ 4 ∧ 30 + 4 ≤ nAsc ∧ 9 < 2 ^ 4 ∧ wordOf 30 ≤ 1 ∧ 1 ≤ wordOf (30 + 4 - 1) ∧ Memory.read [(0, 0)] 1 = none
        ∧ ∀ w', w' < 1 → Memory.read [(0, 0)] w' ≠ none) := by decide +kernel

theorem test_witness_mirror_stays_canonical :
    zeroMirror.wf = true ∧ answers (step { ready with todo := [.line (ascii "ASC_MIRROR_WR 37, 1")] }) := by
  decide +kernel

theorem test_witness_pattern_writes_set_the_gate : ready.cfg.ok = true ∧ (7 : Word) ∉ ready.cfg.patterns := by decide

/-- Stopped; and running, powered on, cleared without hold, and settling. The count at both ends of its range. -/
theorem test_witness_tick_advances_one_counter :
    (¬ (ready.cntMode = .running ∨ ready.cntMode = .powerOn ∨ (ready.cntMode = .cleared ∧ ready.cfg.resetHolds = false)
        ∨ 0 < ready.settleLeft))
      ∧ State.reset.cntMode = .powerOn ∧ ready.cfg.resetHolds = false ∧ 0 < (2 : Nat)
      ∧ (0xFFFFFFFE : Word).toNat < 2 ^ 32 - 1 ∧ (0xFFFFFFFF : Word).toNat = 2 ^ 32 - 1
      ∧ Config.reference.counterOverflow = .any ∧ Counter.c2m ≠ .c32k := by decide

theorem test_witness_half_reads_return_the_half_or_a_draw :
    counting ready = false ∧ counting { ready with cntMode := .running } = true ∧ zeroUpper.cntUpperRead = .zero
      ∧ Config.reference.cntUpperRead = .any := by decide +kernel

theorem test_witness_snapshot_of_stopped_counters_is_exact : ready.undisturbed ∧ counting ready = false :=
  ⟨ready_undisturbed, by decide +kernel⟩

/-- With RESET_HOLDS, and with a schedule of edges only in the handler. -/
theorem test_witness_reset_and_enable_starts_from_zero :
    ready.undisturbed ∧ ready.env = [] ∧ State.undisturbed { ready with inHandler := true, env := [[.tick .c2m]] }
      ∧ ({ Config.reference with resetHolds := true } : Config).resetHolds = true :=
  ⟨ready_undisturbed, rfl, .inl rfl, rfl⟩

theorem test_witness_gate_cycle_returns_the_counts_at_the_disable :
    ready.undisturbed ∧ ready.cfg.disableSettle = 0 ∧ ready.env = [] := ⟨ready_undisturbed, rfl, rfl⟩

/-- HF codes at both ends of each clause, and out of range. -/
theorem test_witness_hf_steps_carry_at_zero_and_thirty_one :
    (∀ cf ∈ [(0, 0), (12, 0), (0, 1), (12, 30), (0, 31), (30, 31), (31, 31)],
      inRange Config.reference { codes with hfCoarse := cf.1, hfFine := cf.2 } .hfCoarse = true
        ∧ inRange Config.reference { codes with hfCoarse := cf.1, hfFine := cf.2 } .hfFine = true)
      ∧ inRange Config.reference { codes with hfCoarse := 32 } .hfCoarse = false
      ∧ inRange Config.reference { codes with hfFine := 32 } .hfFine = false := by decide

/-- IF codes at both ends of each clause, and both values of IF_FINE_UNDERFLOW. -/
theorem test_witness_if_steps_carry_at_thirty_two :
    (∀ cf ∈ [(4, 0), (1, 0), (4, 1), (4, 30), (30, 31), (31, 31)],
      inRange Config.reference { codes with ifCoarse := cf.1, ifFine := cf.2 } .ifCoarse = true
        ∧ inRange Config.reference { codes with ifCoarse := cf.1, ifFine := cf.2 } .ifFine = true)
      ∧ Config.reference.ifFineUnderflow = .fault
      ∧ ({ Config.reference with ifFineUnderflow := .carry 23 } : Config).ifFineUnderflow = .carry 23 := by decide

/-- The ends of each range, a code inside it and one out of it. -/
theorem test_witness_single_code_steps_move_by_one :
    ∀ f ∈ [Field.rc2mCoarse, .rc2mFine, .rc2mSuperfine, .lcCode],
      inRange Config.reference (codes.set f (minOf Config.reference f)) f = true
        ∧ inRange Config.reference (codes.set f (maxOf Config.reference f)) f = true
        ∧ inRange Config.reference (codes.set f (maxOf Config.reference f + 1)) f = false
        ∧ inRange Config.reference codes f = true := by decide

theorem test_witness_stored_code_out_of_range_faults :
    (∀ f ∈ [Field.hfCoarse, .ifCoarse, .rc2mCoarse, .rc2mFine, .rc2mSuperfine, .lcCode],
        inRange Config.reference (codes.set f (maxOf Config.reference f + 1)) f = false)
      ∧ (∀ fg ∈ [(Field.hfCoarse, Field.hfFine), (.ifCoarse, .ifFine)],
        inRange Config.reference (codes.set fg.2 32) fg.1 = true
          ∧ inRange Config.reference (codes.set fg.2 32) fg.2 = false) := by decide

/-- V-ENCD-1 and V-ENCD-2: 4095 is the last code whose sub-codes fit. -/
theorem test_witness_lc_expand_applies_the_map :
    inRange Config.reference { codes with lcCode := 4095 } .lcCode = true
      ∧ (lcSubOf (store { codes with lcCode := 4095 })).fits Config.reference = true
      ∧ inRange Config.reference { codes with lcCode := 4096 } .lcCode = true
      ∧ (lcSubOf (store { codes with lcCode := 4096 })).fits Config.reference = false := by decide +kernel

theorem ready_encodable : hfEncodable ready ∧ rc2mEncodable ready ∧ ifEncodable ready ∧ lcEncodable ready := by
  unfold hfEncodable rc2mEncodable ifEncodable lcEncodable fitsField
  decide +kernel

theorem test_witness_encoders_write_their_own_fields :
    ready.cfg.ok = true ∧ ready.mirror.full ∧ hfEncodable ready ∧ rc2mEncodable ready ∧ ifEncodable ready
      ∧ lcEncodable ready :=
  ⟨by decide, zeroMirror_full, ready_encodable⟩

/-- V-ENCD-12. -/
theorem test_witness_encoder_fault_keeps_earlier_fields :
    ready.cfg.ok = true ∧ ready.mirror.full ∧ fitsField ready.cfg .hfCoarse 12 ∧ 1 ≤ ready.cfg.width.hfFine
      ∧ 2 ^ ready.cfg.width.hfFine ≤ 40 :=
  ⟨by decide, zeroMirror_full, ready_encodable.1.1, by decide, by decide⟩

theorem test_witness_store_reaches_the_chip :
    ready.cfg.ok = true ∧ ready.cfg.phaseRole = .p2Input ∧ chainInv ready ∧ ready.undisturbed ∧ ready.mirror.full
      ∧ hfEncodable ready ∧ rc2mEncodable ready ∧ ifEncodable ready ∧ lcEncodable ready :=
  ⟨by decide, rfl, ready_chainInv, ready_undisturbed, zeroMirror_full, ready_encodable⟩

/-- Right after power-on; and with a store that cannot be encoded, on a board that loads INIT_CODES. -/
theorem test_witness_boot_leaves_no_unknown_bit :
    State.reset.cfg.ok = true ∧ State.reset.cfg.phaseRole = .p2Input ∧ chainInv State.reset ∧ State.reset.undisturbed
      ∧ (hfEncodable State.reset ∧ rc2mEncodable State.reset ∧ ifEncodable State.reset ∧ lcEncodable State.reset)
      ∧ { { State.reset with code := { codes with hfFine := 40 } } with code := Config.reference.initCodes } = State.reset
      ∧ ¬ hfEncodable { State.reset with code := { codes with hfFine := 40 } } := by
  refine ⟨by decide, rfl, ⟨rfl, rfl, rfl⟩, .inr ⟨rfl, .inl rfl⟩, ?_, rfl, fun h => absurd h.2.2 (by decide)⟩
  unfold hfEncodable rc2mEncodable ifEncodable lcEncodable fitsField
  decide +kernel

theorem test_witness_arming_starts_a_session :
    ready.seqState = .idle ∧ ({ ready with seqState := .armed } : State).seqState ≠ .idle := by decide

theorem test_witness_interrupt_control_follows_its_guards :
    (ready.refEn = false ∧ ready.refPending = false ∧ ready.inHandler = false)
      ∧ edgeEnabled { ready with refEn := true } = true ∧ entryEnabled { ready with refPending := true } = true := by
  decide +kernel

/-- The counts on both sides of each band's ends (V-SEQ-1 to V-SEQ-5, V-SEQ-7 to V-SEQ-9, V-SEQ-25 to V-SEQ-28). -/
theorem test_witness_corrections_step_towards_the_band :
    (1996999 < 1997000 ∧ 2003000 < 2003001 ∧ 1997000 ≤ 2003000)
      ∧ Config.reference.lcTarget < 100001 ∧ 99999 < Config.reference.lcTarget ∧ 100000 = Config.reference.lcTarget
      ∧ Config.reference.ifTarget + 1400 < 51401 ∧ 48599 + 1400 < Config.reference.ifTarget
      ∧ 51400 ≤ Config.reference.ifTarget + 1400 ∧ Config.reference.ifTarget ≤ 48600 + 1400 := by decide

/-- e = 15, 16, 520, 521, 600 and 601 and their opposites. -/
theorem test_witness_rc2m_correction_selects_one_tier :
    ready.cfg.ok = true ∧ ((200015 : Int) - 200000).natAbs ≤ ready.cfg.rc2mTSuperfine
      ∧ (ready.cfg.rc2mTSuperfine < ((199984 : Int) - 200000).natAbs
        ∧ ((200520 : Int) - 200000).natAbs ≤ ready.cfg.rc2mTFine)
      ∧ (ready.cfg.rc2mTFine < ((199479 : Int) - 200000).natAbs
        ∧ ((200600 : Int) - 200000).natAbs ≤ ready.cfg.rc2mTCoarse)
      ∧ ready.cfg.rc2mTCoarse < ((199399 : Int) - 200000).natAbs ∧ ready.cfg.rc2mHighAction = .inc := by decide

theorem test_witness_in_band_means_nothing_to_correct : Config.reference.ok = true := by decide

/-- Tick 3 of program P4: each domain out of its band, no fault. -/
theorem test_witness_corrections_of_two_domains_commute :
    ∀ i ∈ [Instr.hfCorrect 1990000, .lcCorrect 100005, .rc2mCorrect 200700, .ifCorrect 52000],
      after (exec i ready) (fun t => t.faults == ready.faults) = true := by decide +kernel

theorem test_witness_corrections_move_monotonically :
    (∀ i ∈ [Instr.hfCorrect 1996999, .hfCorrect 2003001, .ifCorrect 51401, .ifCorrect 48599, .lcCorrect 100001,
        .lcCorrect 99999, .rc2mCorrect 200016, .rc2mCorrect 199984],
        after (exec i ready) (fun t => t.faults == ready.faults) = true)
      ∧ 200000 + ready.cfg.rc2mTSuperfine < 200016 ∧ 199984 + ready.cfg.rc2mTSuperfine < 200000
      ∧ 0 < ready.code.ifFine := by decide +kernel

theorem test_witness_warmup_tick_only_cycles_the_gate : ready.undisturbed ∧ ready.iter + 1 ≤ 2 ∧ ready.env = [] :=
  ⟨ready_undisturbed, by decide, rfl⟩

/-- In the handler of the third and of the twelfth tick. -/
def ticking (iter : Nat) : State :=
  { ready with seqState := .converging, refEn := true, inHandler := true, hand := [.seqExit], iter := iter }

theorem ready_room_one : calibrationRoom ready 1 := by
  refine ⟨by unfold hasRoom; decide, by decide, by unfold hasRoom; decide, by unfold hasRoom; decide,
    by unfold hasRoom; decide, by decide, by decide, by decide, by unfold hasRoom; decide, fun c _ h => ?_⟩
  exact reference_lcMap_fits c (by change c ≤ 700 + 1 at h; omega)

theorem test_witness_correcting_tick_corrects_and_commits :
    tickReady (ticking 2) 1 ∧ chainInv (ticking 2) ∧ (ticking 2).undisturbed ∧ 2 ≤ (ticking 2).iter
      ∧ (ticking 2).cfg.disableSettle = 0 :=
  ⟨⟨by decide, rfl, ready_widths, zeroMirror_full, ready_room_one⟩, ready_chainInv, .inl rfl, by decide, rfl⟩

/-- The twelfth tick and the eleventh; a snapshot in band for CONVERGENCE_GATED. -/
theorem test_witness_session_ends_at_the_twelfth_tick :
    tickReady (ticking 11) 1 ∧ chainInv (ticking 11) ∧ (ticking 11).undisturbed ∧ 2 ≤ (ticking 11).iter
      ∧ (ticking 11).iter + 1 = 12 ∧ (ticking 10).iter + 1 ≠ 12
      ∧ (mkResult Config.reference ⟨199985, 100000, 51400, 2003000, 0⟩ codes).converged = true :=
  ⟨⟨by decide, rfl, ready_widths, zeroMirror_full, ready_room_one⟩, ready_chainInv, .inl rfl, by decide, rfl, by decide,
    by decide⟩

theorem test_witness_wait_returns_only_when_done :
    ({ ready with doneFlag := true } : State).doneFlag = true ∧ ready.doneFlag = false ∧ ready.refPending = false
      ∧ ∀ acts ∈ [[Act.tick .c2m], []], Act.edge ∉ acts := by decide

/-- The counts that stand before the edge is taken are not the zeros that the gate cycle returns. -/
theorem test_witness_pending_edge_is_handled_before_the_next_access :
    ready.env = [] ∧ ({ ready with refPending := true } : State).refPending = true ∧ ready.inHandler = false
      ∧ ready.iter + 1 ≤ 2 ∧ 1 + 1 ≤ 2 ∧ ready.cfg.disableSettle = 0 ∧ ready.cnt ≠ ⟨0, 0, 0, 0, 0⟩ := by decide

theorem test_witness_calibration_runs_to_done :
    tickReady { ready with env := List.replicate 48828 [.edge] } 10
      ∧ chainInv { ready with env := List.replicate 48828 [.edge] } ∧ ready.seqState = .idle ∧ ready.refPending = false
      ∧ ready.inHandler = false ∧ ready.cfg.disableSettle = 0 ∧ ready.cfg.terminationPolicy = .fixedBudget
      ∧ 48828 ≤ (List.replicate 48828 [Act.edge]).length
      ∧ ∀ acts ∈ List.replicate 48828 [Act.edge], Act.edge ∈ acts :=
  ⟨ready_tickReady, ready_chainInv, rfl, rfl, rfl, rfl, rfl,
    Nat.le_of_eq List.length_replicate.symm, fun acts h => by
    rw [(List.mem_replicate.mp h).2]
    exact List.mem_singleton.mpr rfl⟩

/-- An armed session with an edge pending: the step enters the handler. -/
theorem test_witness_sequencer_invariant_is_kept :
    sequencerInv { ready with seqState := .armed, refEn := true, refPending := true }
      ∧ answers (step { ready with seqState := .armed, refEn := true, refPending := true }) := by
  refine ⟨⟨?_, fun x hx => (List.not_mem_nil hx).elim, fun _ _ => .inl ⟨rfl, rfl⟩⟩, by decide +kernel⟩
  unfold sessionInv
  decide +kernel

/-- A sound configuration with other starting codes: the store holds them after power-on (R28). -/
theorem test_witness_reset_is_the_power_on_state :
    ({ Config.reference with initCodes := { codes with lcCode := 701 } } : Config).ok = true
      ∧ after (exec (.dacGet .lcCode)
          (State.powerOn { Config.reference with initCodes := { codes with lcCode := 701 } }))
        (fun t => t.ret == some (.code 701)) = true := by
  decide +kernel

/-- The largest code, and a step on it. -/
theorem test_witness_codes_stay_below_their_bound :
    codesBounded { ready with code := codes.set .lcCode (2 ^ 32 - 1), todo := [.line (ascii "LC_INC")] }
      ∧ answers (step { ready with code := codes.set .lcCode (2 ^ 32 - 1), todo := [.line (ascii "LC_INC")] }) :=
  ⟨fun f => by cases f <;> decide, by decide +kernel⟩

end Sys2Proof.Tests
end

section
/-! PROOFS. What one step answers, an equation for each branch of `step`, `cpuStep`, `mainStep` and `issueNext`, and the
two statements on the step's choice of what to run (00_scope.md R6, R7, R11; 60_exceptions.md R281). -/

namespace Sys2Proof.Machine

/-! ### The branches of a step -/

theorem step_of_running {s : State} (h : s.running) : step s = cpuStep (agentsStep s) := by
  obtain ⟨hfaults, hrefused, hok⟩ := h
  simp [step, hfaults, hrefused, hok]

theorem step_of_not_ok {s : State} (hfaults : s.faults = []) (hrefused : s.refused = false) (hok : ¬ s.cfg.ok = true) :
    step s = .next (refuseWith .badConfig s) := by
  simp [step, hfaults, hrefused, hok]

theorem cpuStep_of_hand_cons {s : State} {i : Instr} {rest : List Instr} (he : entryEnabled s = false)
    (hh : s.hand = i :: rest) : cpuStep s = exec i { s with hand := rest } := by
  simp [cpuStep, he, hh]

theorem cpuStep_of_hand_nil {s : State} (he : entryEnabled s = false) (hh : s.hand = []) : cpuStep s = mainStep s := by
  simp [cpuStep, he, hh]

theorem mainStep_of_waiting {s : State} (hw : s.waiting = true) : mainStep s = exec .seqWaitDone s := by
  simp [mainStep, hw]

theorem mainStep_of_not_waiting {s : State} (hw : s.waiting = false) : mainStep s = issueNext s := by
  simp [mainStep, hw]

theorem issueNext_of_todo_nil {s : State} (ht : s.todo = []) : issueNext s = .next s := by
  simp [issueNext, ht]

theorem issueNext_of_decoded {s : State} {x : Issue} {rest : List Issue} {i : Instr} (ht : s.todo = x :: rest)
    (hd : decode s.cfg x = .ok i) : issueNext s = exec i { s with todo := rest } := by
  simp [issueNext, ht, hd]

theorem issueNext_of_not_decoded {s : State} {x : Issue} {rest : List Issue} {e : DecodeError} (ht : s.todo = x :: rest)
    (hd : decode s.cfg x = .error e) : issueNext s = .next (refuseWith (reasonOf e) s) := by
  simp [issueNext, ht, hd]

/-- With no entry enabled, no handler body and no blocked wait, a step issues the program's next operation. -/
theorem step_of_main {s : State} (h : s.running) (he : entryEnabled (agentsStep s) = false) (hh : s.hand = [])
    (hw : s.waiting = false) : step s = issueNext (agentsStep s) := by
  rw [step_of_running h, cpuStep_of_hand_nil he ((agentsStep_hand s).trans hh),
    mainStep_of_not_waiting ((agentsStep_waiting s).trans hw)]

/-- Settles O7: the branches of `cpuStep`, `mainStep` and `issueNext` one by one. The other agents leave the handler body,
the wait, the program and the configuration as they are, so the branch can be read off the state before their moves. -/
theorem stepRunsTheDecodedOperation : Obligations.StepRunsTheDecodedOperation := by
  unfold Obligations.StepRunsTheDecodedOperation
  intro s hrun he
  refine ⟨fun i rest hh => ?hand, fun hh hw => ?wait, fun hh hw ht => ?idle, fun x rest hh hw ht => ?issue⟩
  case hand => rw [step_of_running hrun, cpuStep_of_hand_cons he ((agentsStep_hand s).trans hh)]
  case wait =>
    rw [step_of_running hrun, cpuStep_of_hand_nil he ((agentsStep_hand s).trans hh),
      mainStep_of_waiting ((agentsStep_waiting s).trans hw)]
  case idle => rw [step_of_main hrun he hh hw, issueNext_of_todo_nil ((agentsStep_todo s).trans ht)]
  case issue =>
    rw [step_of_main hrun he hh hw]
    have htodo : (agentsStep s).todo = x :: rest := (agentsStep_todo s).trans ht
    have hdecode : decode (agentsStep s).cfg x = decode s.cfg x := by rw [agentsStep_cfg]
    exact ⟨fun i hd => issueNext_of_decoded htodo (hdecode.trans hd),
      fun hd => issueNext_of_not_decoded htodo (hdecode.trans hd),
      fun hd => issueNext_of_not_decoded htodo (hdecode.trans hd)⟩

/-! ### A broken configuration -/

theorem SoundSignals.lt_of_mem {cfg : Config} (h : SoundSignals cfg) {i : Nat} (hi : i ∈ cfg.signalBits) : i < 32 := by
  simp only [Config.signalBits, List.mem_cons, List.not_mem_nil, or_false] at hi
  obtain rfl | rfl | rfl | rfl | rfl := hi
  exacts [h.data, h.phi1, h.phi2, h.load, h.rst]

/-- Settles O10: each broken constraint contradicts what `Config.ok` gives of it. -/
theorem brokenConfigurationIsRefused : Obligations.BrokenConfigurationIsRefused := by
  unfold Obligations.BrokenConfigurationIsRefused
  intro s hfaults hrefused hbroken
  refine step_of_not_ok hfaults hrefused fun hok => ?_
  obtain ⟨hnodup, haligned⟩ := Config.ok_addresses hok
  obtain ⟨hfine, hsuperfine⟩ := Config.ok_thresholds hok
  obtain ⟨hcodes, hcarry⟩ := Config.ok_codes hok
  obtain h | ⟨x, hx, h⟩ | ⟨f, h⟩ | ⟨f, g, p, hfg, hf, hg⟩ | h | h | h | ⟨i, hi, h⟩ | h | ⟨f, h⟩ | ⟨k, hk, h⟩ := hbroken
  · exact h hnodup
  · exact h (haligned x hx)
  · exact Nat.not_lt_of_le (Config.ok_field hok f) h
  · exact not_inField_of_disjoint hok hfg hf hg
  · exact Nat.not_lt_of_le h hfine
  · exact Nat.not_lt_of_le h hsuperfine
  · exact h (Config.ok_signals hok).nodup
  · exact Nat.not_lt_of_le h ((Config.ok_signals hok).lt_of_mem hi)
  · exact h (Config.ok_patterns hok)
  · exact h.elim (Nat.not_le_of_lt (hcodes f).1) (Nat.not_le_of_lt (hcodes f).2)
  · exact Nat.not_le_of_lt (hcarry k hk) h

end Sys2Proof.Machine
end

section
/-! PROOFS. The invariants of the state that every operation or every step keeps, each from the rules of `Kept`, and the
end of a run (10_state.md R24, R28, R36; 60_exceptions.md R280, R281). -/

namespace Sys2Proof.Machine

/-! ### The end of a run -/

theorem step_of_faults {s : State} {f : FaultRec} {fs : List FaultRec} (h : s.faults = f :: fs) :
    step s = .fault (.ended f) := by
  simp [step, h]

theorem step_of_refused {s : State} (hfaults : s.faults = []) (h : s.refused = true) :
    step s = .refused (.ended s.refusedBy) := by
  simp [step, hfaults, h]

/-- Settles O9: the two branches of `step` that come before any effect. -/
theorem endedRunTakesNoStep : Obligations.EndedRunTakesNoStep := by
  unfold Obligations.EndedRunTakesNoStep
  exact fun s => ⟨fun _ _ => step_of_faults, step_of_refused⟩

/-- Only a run that has not ended has a next state. -/
theorem not_ended_of_step_next {s t : State} (h : step s = .next t) : s.faults = [] ∧ s.refused = false := by
  cases hfaults : s.faults with
  | cons f fs => rw [step_of_faults hfaults] at h; cases h
  | nil =>
    cases hrefused : s.refused with
    | true => rw [step_of_refused hfaults hrefused] at h; cases h
    | false => exact ⟨rfl, rfl⟩

/-! ### The record of faults and refusals -/

/-- The parameters of s, and its record, to which t may only have added (R36). -/
def RecordGrows (s t : State) : Prop :=
  t.cfg = s.cfg ∧ s.faults <+: t.faults ∧ (s.refused = true → t.refused = true)
    ∧ (s.refusedBy ≠ none → t.refusedBy = s.refusedBy)

theorem RecordGrows.refl (s : State) : RecordGrows s s := ⟨rfl, ⟨[], List.append_nil _⟩, id, fun _ => rfl⟩

theorem RecordGrows.raiseFault {s t : State} (f : FaultRec) (h : RecordGrows s t) : RecordGrows s (raiseFault f t) := by
  obtain ⟨hcfg, hfaults, hrefused, hreason⟩ := h
  exact ⟨hcfg, hfaults.trans ⟨[f], rfl⟩, hrefused, hreason⟩

theorem RecordGrows.refuseWith {s t : State} (r : Reason) (h : RecordGrows s t) : RecordGrows s (refuseWith r t) := by
  obtain ⟨hcfg, hfaults, -, hreason⟩ := h
  refine ⟨hcfg, hfaults, fun _ => rfl, fun hne => ?_⟩
  have hfirst : (t.refusedBy.or (some r)) = t.refusedBy :=
    Option.or_of_isSome (Option.isSome_iff_ne_none.mpr (hreason hne ▸ hne))
  exact hfirst.trans (hreason hne)

theorem kept_recordGrows (s : State) : Kept (RecordGrows s) where
  aside t u hcfg _ _ _ hfaults hrefused hreason h := by
    unfold RecordGrows at h ⊢
    rwa [hcfg, hfaults, hrefused, hreason]
  mirror _ _ _ _ h := h
  chain _ _ h := h
  code _ _ _ h := h
  fault f _ h := h.raiseFault f
  refuse r _ h := h.refuseWith r

/-- Settles O11: every state relates to itself by `RecordGrows`, and no update of an operation breaks it. -/
theorem everyOperationAnswersANextState : Obligations.EveryOperationAnswersANextState := by
  unfold Obligations.EveryOperationAnswersANextState
  exact fun i s => (kept_recordGrows s).exec i (RecordGrows.refl s)

/-! ### The mirror's canonical form -/

theorem kept_mirror_wf : Kept fun s => s.mirror.wf = true where
  aside _ _ _ _ hmirror _ _ _ _ h := by rwa [hmirror]
  mirror _ v _ hw h := memory_wf_write v hw h
  chain _ _ h := h
  code _ _ _ h := h
  fault _ _ h := h
  refuse _ _ h := h

/-- Settles O27: a mirror write inside the 38 words keeps the form, and nothing else touches the list. -/
theorem mirrorStaysCanonical : Obligations.MirrorStaysCanonical := by
  unfold Obligations.MirrorStaysCanonical
  exact fun _ _ hwf hstep => kept_mirror_wf.step hwf hstep

/-! ### The bound on codes -/

/-- A sound configuration, which keeps the ranges below the bound, and codes below it. -/
def SoundCodes (s : State) : Prop := s.cfg.ok = true ∧ codesBounded s

theorem kept_soundCodes : Kept SoundCodes where
  aside s t hcfg _ _ hcode _ _ _ h := by
    unfold SoundCodes codesBounded at h ⊢
    rwa [hcfg, hcode]
  mirror _ _ _ _ h := h
  chain _ _ h := h
  code _ _ hbounded h := ⟨h.1, hbounded h.1 h.2⟩
  fault _ _ h := h
  refuse _ _ h := h

/-- Settles O60: under a sound configuration no write of the store passes the bound, and under another the step writes no
code. -/
theorem codesStayBelowTheirBound : Obligations.CodesStayBelowTheirBound := by
  unfold Obligations.CodesStayBelowTheirBound
  intro s t hbounded hstep
  by_cases hok : s.cfg.ok = true
  · exact (kept_soundCodes.step ⟨hok, hbounded⟩ hstep).2
  · obtain ⟨hfaults, hrefused⟩ := not_ended_of_step_next hstep
    rw [step_of_not_ok hfaults hrefused hok] at hstep
    cases hstep
    exact hbounded

end Sys2Proof.Machine
end

section
/-! PROOFS. Which parts of the state each operation may change, over all operations (10_state.md R20 to R35): the frame
that composes over the updates an operation is built of, one rule per update, and the operations. -/

namespace Sys2Proof.Machine

/-- From s to t only those parts changed that the rules of operation i write. `quiet` is what the next access point needs:
an operation that does not write the session lets no reference edge in. -/
structure OnlyOwnParts (i : Instr) (s t : State) : Prop where
  chain : drivesChain i = false → SameChain s t
  mirror : writesMirror i = false → SameMirror s t
  gate : accessesCounters i = false → t.cntMode = s.cntMode ∧ t.settleLeft = s.settleLeft
  store : writesStore i = false → t.code = s.code
  session : writesSession i = false → SameSession s t
  quiet : writesSession i = false → s.undisturbed → t.undisturbed

/-! ### The session's operations -/

theorem onlySession_refDisable (s : State) : OnlySession s (refDisable s) := by
  simp [OnlySession, SameChain, SameMirror, SameCounters, SameRecord, SameOwn]

theorem onlySession_refEdge (s : State) : OnlySession s (refEdge s) := by
  simp [OnlySession, SameChain, SameMirror, SameCounters, SameRecord, SameOwn]

theorem onlySession_seqEnter (s : State) :
    OnlySession s (if entryEnabled s then { enterHandler s with hand := [.seqTick, .seqExit] } else s) := by
  split <;> simp [OnlySession, SameChain, SameMirror, SameCounters, SameRecord, SameOwn]

theorem onlySession_seqExit (s : State) : OnlySession s { exitHandler s with hand := [] } := by
  simp [OnlySession, SameChain, SameMirror, SameCounters, SameRecord, SameOwn]

namespace OnlyOwnParts

variable {i : Instr}

theorem trans {s t u : State} (h : OnlyOwnParts i s t) (h' : OnlyOwnParts i t u) : OnlyOwnParts i s u where
  chain hi := (h.chain hi).trans (h'.chain hi)
  mirror hi w := (h'.mirror hi w).trans (h.mirror hi w)
  gate hi := ⟨(h'.gate hi).1.trans (h.gate hi).1, (h'.gate hi).2.trans (h.gate hi).2⟩
  store hi := (h'.store hi).trans (h.store hi)
  session hi := (h.session hi).trans (h'.session hi)
  quiet hi hs := h'.quiet hi (h.quiet hi hs)

/-! ### From the frames of the single updates -/

/-- An update beside every part, which uses n entries of the schedule. -/
theorem of_same {n : Nat} {s t : State} (hchain : SameChain s t) (hmirror : SameMirror s t)
    (hgate : t.cntMode = s.cntMode ∧ t.settleLeft = s.settleLeft) (hcode : t.code = s.code)
    (hsession : SameSession s t) (henv : t.env = s.env.drop n) : OnlyOwnParts i s t where
  chain _ := hchain
  mirror _ := hmirror
  gate _ := hgate
  store _ := hcode
  session _ := hsession
  quiet _ hs := undisturbed_of_session hs hsession henv

theorem of_onlyMirror (hi : writesMirror i = true) {s t : State} (h : OnlyMirror s t) : OnlyOwnParts i s t := by
  obtain ⟨hchain, ⟨-, hgate⟩, hcode, hsession, -, -, -, henv⟩ := h
  exact { chain := fun _ => hchain, mirror := fun hn => (nomatch hi.symm.trans hn), gate := fun _ => hgate,
          store := fun _ => hcode, session := fun _ => hsession,
          quiet := fun _ hs => undisturbed_of_session (n := 0) hs hsession henv }

theorem of_onlyChain (hi : drivesChain i = true) {n : Nat} {s t : State} (h : OnlyChainIn n s t) :
    OnlyOwnParts i s t := by
  obtain ⟨hmirror, ⟨hmode, hsettle, -⟩, hcode, hsession, -, -, henv⟩ := h
  exact { chain := fun hn => (nomatch hi.symm.trans hn), mirror := fun _ => hmirror, gate := fun _ => ⟨hmode, hsettle⟩,
          store := fun _ => hcode, session := fun _ => hsession,
          quiet := fun _ hs => undisturbed_of_session hs hsession henv }

theorem of_onlyCounters (hi : accessesCounters i = true) {n : Nat} {s t : State} (h : OnlyCountersIn n s t) :
    OnlyOwnParts i s t := by
  obtain ⟨hchain, hmirror, hcode, hsession, -, henv⟩ := h
  exact { chain := fun _ => hchain, mirror := fun _ => hmirror, gate := fun hn => (nomatch hi.symm.trans hn),
          store := fun _ => hcode, session := fun _ => hsession,
          quiet := fun _ hs => undisturbed_of_session hs hsession henv }

theorem of_onlyCode (hi : writesStore i = true) {s t : State} (h : OnlyCode s t) : OnlyOwnParts i s t := by
  obtain ⟨hchain, hmirror, ⟨-, hgate⟩, hsession, -, -, -, henv⟩ := h
  exact { chain := fun _ => hchain, mirror := fun _ => hmirror, gate := fun _ => hgate,
          store := fun hn => (nomatch hi.symm.trans hn), session := fun _ => hsession,
          quiet := fun _ hs => undisturbed_of_session (n := 0) hs hsession henv }

theorem of_onlySession (hi : writesSession i = true) {s t : State} (h : OnlySession s t) : OnlyOwnParts i s t := by
  obtain ⟨hchain, hmirror, ⟨-, hgate⟩, hcode, -, -⟩ := h
  exact { chain := fun _ => hchain, mirror := fun _ => hmirror, gate := fun _ => hgate, store := fun _ => hcode,
          session := fun hn => (nomatch hi.symm.trans hn), quiet := fun hn => (nomatch hi.symm.trans hn) }

/-- The record, the returned value and the draws belong to no part. -/
theorem bookkeeping (s : State) (fs : List FaultRec) (b : Bool) (r : Option Reason) (v : Option RetVal) (n : Nat) :
    OnlyOwnParts i s { s with faults := fs, refused := b, refusedBy := r, ret := v, draws := n } :=
  of_same (n := 0) (by simp [SameChain]) (fun _ => rfl) ⟨rfl, rfl⟩ rfl (by simp [SameSession]) rfl

theorem refl (s : State) : OnlyOwnParts i s s := bookkeeping s _ _ _ _ _

theorem of_tickCounter (k : Counter) (s : State) : OnlyOwnParts i s (tickCounter k s) :=
  of_same (n := 0) (by simp [SameChain]) (fun _ => by simp) (by simp) (by simp) (by simp [SameSession]) (by simp)

theorem of_agentsStep {s : State} (hs : s.undisturbed) : OnlyOwnParts i s (agentsStep s) := by
  obtain ⟨hchain, hmirror, hcode, hsession, -, henv⟩ := onlyCounters_agentsStep hs
  obtain ⟨hmode, hsettle, -⟩ := sameGate_agentsStep s
  exact of_same hchain hmirror ⟨hmode, hsettle⟩ hcode hsession henv

/-! ### One rule per update, as the laws of the shared operations take it -/

variable {s : State}

theorem setMirror (hi : writesMirror i = true) (w : Nat) (v : Word) (t : State) (_ : w < nWords)
    (h : OnlyOwnParts i s t) : OnlyOwnParts i s (setMirror (t.mirror.write w v) t) :=
  h.trans (of_onlyMirror hi (onlyMirror_setMirror _ t))

theorem latchWrite (hi : drivesChain i = true) (v : Word) (t : State) (h : OnlyOwnParts i s t) :
    OnlyOwnParts i s (latchWrite v t) :=
  h.trans (of_onlyChain (n := 0) hi (by simp [OnlyChainIn, SameMirror, SameGate, SameSession, SameRecord]))

theorem setCounters (hi : accessesCounters i = true) (c : Counts) (m : CntMode) (k : Nat) (t : State)
    (h : OnlyOwnParts i s t) : OnlyOwnParts i s (setCounters c m k t) :=
  h.trans (of_onlyCounters (n := 0) hi (by simp [OnlyCountersIn, SameChain, SameMirror, SameSession, SameRecord]))

theorem setCode (hi : writesStore i = true) (c : Codes) (t : State) (_ : BoundedStep t c) (h : OnlyOwnParts i s t) :
    OnlyOwnParts i s (setCode c t) :=
  h.trans (of_onlyCode hi (onlyCode_setCode c t))

theorem nextDraw (t : State) (h : OnlyOwnParts i s t) : OnlyOwnParts i s (nextDraw t) :=
  h.trans (bookkeeping t _ _ _ _ _)

theorem setRet (v : RetVal) (t : State) (h : OnlyOwnParts i s t) : OnlyOwnParts i s (setRet v t) :=
  h.trans (bookkeeping t _ _ _ _ _)

theorem raiseFault (f : FaultRec) (t : State) (h : OnlyOwnParts i s t) : OnlyOwnParts i s (raiseFault f t) :=
  h.trans (bookkeeping t _ _ _ _ _)

theorem refuseWith (r : Reason) (t : State) (h : OnlyOwnParts i s t) : OnlyOwnParts i s (refuseWith r t) :=
  h.trans (bookkeeping t _ _ _ _ _)

/-! ### Outcomes -/

/-- All that completions and stops of an operation changed since s are parts of its own. -/
abbrev Holds (i : Instr) (s : State) {α : Type} (x : Res α) : Prop := x.Sat (OnlyOwnParts i s) (OnlyOwnParts i s)

theorem finish {x : Res Unit} (hx : Holds i s x) : ∃ t, finish x = .next t ∧ OnlyOwnParts i s t :=
  finish_sat hx (fun _ h => h) raiseFault refuseWith

theorem finishWith {α : Type} {val : α → RetVal} {x : Res α} (hx : Holds i s x) :
    ∃ t, finishWith val x = .next t ∧ OnlyOwnParts i s t :=
  finishWith_sat hx setRet raiseFault refuseWith

/-- At an access point of an operation that does not write the session the other agents step, and no handler runs. -/
theorem sat_accessPoint (hs : s.undisturbed) (hi : writesSession i = false) (t : State) (h : OnlyOwnParts i s t) :
    Holds i s (accessPoint t) := by
  rw [quiet_accessPoint t (h.quiet hi hs)]
  exact h.trans (of_agentsStep (h.quiet hi hs))

theorem sat_seqArm (s : State) : Holds .seqArm s (seqArm s) := by
  unfold seqArm
  split
  · exact of_onlySession rfl (by simp [OnlySession, SameChain, SameMirror, SameCounters, SameRecord, SameOwn])
  · exact refl s

/-! ### Every operation -/

/-- An operation whose rules write every part has no part to leave alone. -/
theorem writesAll (hchain : drivesChain i = true) (hmirror : writesMirror i = true)
    (hgate : accessesCounters i = true) (hstore : writesStore i = true) (hsession : writesSession i = true)
    (s : State) : ∃ t, Machine.exec i s = .next t ∧ OnlyOwnParts i s t := by
  obtain ⟨t, ht, -⟩ := everyOperationAnswersANextState i s
  exact ⟨t, ht, fun hn => (nomatch hchain.symm.trans hn), fun hn => (nomatch hmirror.symm.trans hn),
    fun hn => (nomatch hgate.symm.trans hn), fun hn => (nomatch hstore.symm.trans hn),
    fun hn => (nomatch hsession.symm.trans hn), fun hn => (nomatch hsession.symm.trans hn)⟩

/-- Where nothing disturbs, every operation changes only parts that its rules write. -/
theorem exec (i : Instr) {s : State} (hs : s.undisturbed) :
    ∃ t, Machine.exec i s = .next t ∧ OnlyOwnParts i s t := by
  have h : OnlyOwnParts i s s := .refl s
  cases i with
  | ascCtrlWr v => exact finish (sat_ascCtrlWrite (latchWrite rfl) v h)
  | ascCtrlRd => exact finishWith (x := draw32 s) (nextDraw s h)
  | ascMirrorWr w v => exact finish (sat_ascMirrorWrite (setMirror rfl) w v h)
  | ascMirrorRd w => exact finishWith ((sat_checkWord w h).andThen fun _ h => sat_readMirror w h)
  | ascSetBit p => exact finish (sat_modifyBit (setMirror rfl) _ p h)
  | ascClearBit p => exact finish (sat_modifyBit (setMirror rfl) _ p h)
  | ascReadBit p =>
    exact finishWith ((sat_checkPosition p h).andThen fun _ h => (sat_readMirror _ h.1).bind fun _ _ h => h)
  | ascWriteField p n v => exact finish (sat_ascWriteField (setMirror rfl) p n v h)
  | ascShiftBit d =>
    exact finish (sat_ascShiftBit (fun _ h => h) (sat_accessPoint hs rfl) (latchWrite rfl) d h)
  | ascShiftAll =>
    exact finish (sat_shiftStages (fun _ h => h) (sat_accessPoint hs rfl) (latchWrite rfl) nAsc h)
  | ascLoad => exact finish (sat_ascLoad (fun _ h => h) (sat_accessPoint hs rfl) (latchWrite rfl) h)
  | ascCommit => exact finish (sat_ascCommit (fun _ h => h) (sat_accessPoint hs rfl) (latchWrite rfl) h)
  | cntCtrlWr v => exact finish (sat_cntCtrlWrite (setCounters rfl) v h)
  | cntDisableAll => exact ⟨_, rfl, setCounters rfl _ _ _ _ h⟩
  | cntResetAll => exact ⟨_, rfl, setCounters rfl _ _ _ _ (setCounters rfl _ _ _ _ h)⟩
  | cntEnableAll => exact ⟨_, rfl, setCounters rfl _ _ _ _ (setCounters rfl _ _ _ _ h)⟩
  | cntCtrlRd =>
    exact finishWith (x := (draw32 s).bind fun v s => .ok v (settle s))
      (setCounters rfl _ _ _ _ (nextDraw s h))
  | cntTick k => exact ⟨_, rfl, of_tickCounter k s⟩
  | cntRdLo k => exact finishWith (sat_readHalfRegister (setCounters rfl) nextDraw _ h)
  | cntRdHi k => exact finishWith (sat_readHalfRegister (setCounters rfl) nextDraw _ h)
  | cntReadSnapshot =>
    exact finishWith (sat_readSnapshot (sat_accessPoint hs rfl) (setCounters rfl) nextDraw h)
  | cntResetAndEnable => exact finish (sat_resetAndEnable (sat_accessPoint hs rfl) (setCounters rfl) h)
  | cntGateCycle =>
    exact finishWith (sat_gateCycle (sat_accessPoint hs rfl) (setCounters rfl) nextDraw h)
  | dacGet f => exact ⟨_, rfl, setRet _ s h⟩
  | dacSet f v => exact ⟨_, rfl, of_onlyCode rfl (onlyCode_setCode _ s)⟩
  | hfFineDec => exact finish (sat_hfFineDec (setCode rfl) h)
  | hfFineInc => exact finish (sat_hfFineInc (setCode rfl) h)
  | ifFineInc => exact finish (sat_ifFineInc (setCode rfl) h)
  | ifFineDec => exact finish (sat_ifFineDec (setCode rfl) h)
  | rc2mCoarseInc | rc2mFineInc | rc2mSuperfineInc | lcInc => exact finish (sat_codeInc (setCode rfl) _ h)
  | rc2mCoarseDec | rc2mFineDec | rc2mSuperfineDec | lcDec => exact finish (sat_codeDec (setCode rfl) _ h)
  | lcExpand => exact finishWith (sat_lcExpand h)
  | dacEncodeHf => exact finish (sat_encodeHf (setMirror rfl) h)
  | dacEncodeRc2m => exact finish (sat_encodeRc2m (setMirror rfl) h)
  | dacEncodeIf => exact finish (sat_encodeIf (setMirror rfl) h)
  | dacEncodeLc => exact finish (sat_encodeLc (setMirror rfl) h)
  | dacEncodeAll => exact finish (sat_encodeAll (setMirror rfl) h)
  | hfCorrect c => exact finish (sat_hfCorrect (setCode rfl) _ h)
  | lcCorrect c => exact finish (sat_lcCorrect (setCode rfl) _ h)
  | rc2mCorrect c => exact finish (sat_rc2mCorrect (setCode rfl) _ h)
  | ifCorrect c => exact finish (sat_ifCorrect (setCode rfl) _ h)
  | seqArm => exact finish (sat_seqArm s)
  | refDisable => exact ⟨_, rfl, of_onlySession rfl (onlySession_refDisable s)⟩
  | refEdge => exact ⟨_, rfl, of_onlySession rfl (onlySession_refEdge s)⟩
  | seqEnter => exact ⟨_, rfl, of_onlySession rfl (onlySession_seqEnter s)⟩
  | seqExit => exact ⟨_, rfl, of_onlySession rfl (onlySession_seqExit s)⟩
  | seqTick | seqWaitDone | performCalibration => exact writesAll rfl rfl rfl rfl rfl s

end OnlyOwnParts

/-- Settles O12: the frame of `OnlyOwnParts.exec` at the operation's one next state. -/
theorem eachPartIsWrittenOnlyByItsOperations : Obligations.EachPartIsWrittenOnlyByItsOperations := by
  unfold Obligations.EachPartIsWrittenOnlyByItsOperations
  intro i s t hs hexec
  obtain ⟨u, hu, h⟩ := OnlyOwnParts.exec i hs
  cases hexec.symm.trans hu
  exact ⟨h.chain, h.mirror, h.gate, h.store, h.session⟩

end Sys2Proof.Machine
end

section
/-! PROOFS. Which bus accesses decode and which are refused (20_memory.md R51, R52, R53, R60), from the laws of the register
map: the refusals first, which need no sound map, then the access to a register in each direction. -/

namespace Sys2Proof.Machine

variable {cfg : Config} {a : Access}

/-! ### Refused accesses -/

theorem decodeAccess_of_malformed (h : a.width ≠ 4 ∨ a.addr % 4 ≠ 0) : decodeAccess cfg a = .error .badAccess :=
  if_pos h

/-- Whatever its width and alignment, an access is refused where the decoder of its direction refuses the address. -/
theorem decodeAccess_of_refused_address (hread : a.dir = .read → decodeRead cfg a.addr = .error .badAccess)
    (hwrite : a.dir = .write → decodeWrite cfg a.addr a.data = .error .badAccess) :
    decodeAccess cfg a = .error .badAccess := by
  unfold decodeAccess
  split
  · rfl
  · cases hd : a.dir with
    | read => exact hread hd
    | write => exact hwrite hd
    | fetch => rfl

theorem decodeAccess_of_fetch (hd : a.dir = .fetch) : decodeAccess cfg a = .error .badAccess :=
  decodeAccess_of_refused_address (fun h => nomatch hd.symm.trans h) (fun h => nomatch hd.symm.trans h)

theorem decodeAccess_of_not_mem (ha : a.addr ∉ cfg.addresses) : decodeAccess cfg a = .error .badAccess := by
  refine decodeAccess_of_refused_address (fun _ => decodeRead_other ha) fun _ => ?_
  rw [Config.mem_addresses, not_or, not_or] at ha
  obtain ⟨hasc, hcnt, -⟩ := ha
  exact decodeWrite_other hasc hcnt a.data

/-- Only the two control registers take a write. -/
theorem decodeAccess_of_write_elsewhere (hd : a.dir = .write) (hasc : a.addr ≠ cfg.ascCtrlAddr)
    (hcnt : a.addr ≠ cfg.cntCtrlAddr) : decodeAccess cfg a = .error .badAccess :=
  decodeAccess_of_refused_address (fun h => nomatch hd.symm.trans h) fun _ => decodeWrite_other hasc hcnt a.data

/-! ### Accesses to a register -/

theorem Config.ascCtrlAddr_mem (cfg : Config) : cfg.ascCtrlAddr ∈ cfg.addresses :=
  (Config.mem_addresses cfg _).mpr (.inl rfl)

theorem Config.cntCtrlAddr_mem (cfg : Config) : cfg.cntCtrlAddr ∈ cfg.addresses :=
  (Config.mem_addresses cfg _).mpr (.inr (.inl rfl))

theorem Config.cntLoAddr_mem (cfg : Config) (i : Counter) : cfg.cntLoAddr.get i ∈ cfg.addresses :=
  (Config.mem_addresses cfg _).mpr (.inr (.inr (.inl ⟨i, rfl⟩)))

theorem Config.cntHiAddr_mem (cfg : Config) (i : Counter) : cfg.cntHiAddr.get i ∈ cfg.addresses :=
  (Config.mem_addresses cfg _).mpr (.inr (.inr (.inr ⟨i, rfl⟩)))

theorem decodeAccess_read_at {x : Nat} (h : cfg.ok = true) (hx : x ∈ cfg.addresses) (hw : a.width = 4)
    (hd : a.dir = .read) (ha : a.addr = x) : decodeAccess cfg a = decodeRead cfg x := by
  subst ha
  rw [decodeAccess_at h hw hx, hd]

theorem decodeAccess_write_at {x : Nat} (h : cfg.ok = true) (hx : x ∈ cfg.addresses) (hw : a.width = 4)
    (hd : a.dir = .write) (ha : a.addr = x) : decodeAccess cfg a = decodeWrite cfg x a.data := by
  subst ha
  rw [decodeAccess_at h hw hx, hd]

/-- Settles O3: each refusal by the check that makes it, each register by the decoder of the access's direction at its
address. A sound map keeps the counter halves apart from the control registers, so a write to a half meets neither. -/
theorem busAccessesDecodeByTheRegisterMap : Obligations.BusAccessesDecodeByTheRegisterMap := by
  unfold Obligations.BusAccessesDecodeByTheRegisterMap
  intro cfg a hok
  have hmap := Config.ok_map hok
  refine ⟨fun hw => decodeAccess_of_malformed (.inl hw), fun ha => decodeAccess_of_malformed (.inr ha),
    decodeAccess_of_not_mem, decodeAccess_of_fetch, fun i hd ha => ?writeLo, fun i hd ha => ?writeHi,
    fun hw hd ha => ?ascWr, fun hw hd ha => ?cntWr, fun hw hd ha => ?ascRd, fun hw hd ha => ?cntRd,
    fun i hw hd ha => ?readLo, fun i hw hd ha => ?readHi⟩
  case writeLo => exact decodeAccess_of_write_elsewhere hd (ha ▸ hmap.ascLo i) (ha ▸ hmap.cntLo i)
  case writeHi => exact decodeAccess_of_write_elsewhere hd (ha ▸ hmap.ascHi i) (ha ▸ hmap.cntHi i)
  case ascWr => exact (decodeAccess_write_at hok (Config.ascCtrlAddr_mem cfg) hw hd ha).trans (decodeWrite_asc cfg a.data)
  case cntWr => exact (decodeAccess_write_at hok (Config.cntCtrlAddr_mem cfg) hw hd ha).trans (decodeWrite_cnt hok a.data)
  case ascRd => exact (decodeAccess_read_at hok (Config.ascCtrlAddr_mem cfg) hw hd ha).trans (decodeRead_asc cfg)
  case cntRd => exact (decodeAccess_read_at hok (Config.cntCtrlAddr_mem cfg) hw hd ha).trans (decodeRead_cnt hok)
  case readLo => exact (decodeAccess_read_at hok (Config.cntLoAddr_mem cfg i) hw hd ha).trans (decodeRead_lo hok i)
  case readHi => exact (decodeAccess_read_at hok (Config.cntHiAddr_mem cfg i) hw hd ha).trans (decodeRead_hi hok i)

end Sys2Proof.Machine
end

section
/-! PROOFS. The text of an operation reads back as that operation (30_encoding.md R81, R84), from the spelling of every
instruction, and lines written out by hand. -/

namespace Sys2Proof.Laws.Spelling

/-- Every instruction is spelled as its row of the operation table reads it. -/
theorem statement (i : Instr) : Statement i := by
  cases i with
  | ascCtrlWr v => exact ascCtrlWr v
  | ascCtrlRd => exact ascCtrlRd
  | ascMirrorWr w v => exact ascMirrorWr w v
  | ascMirrorRd w => exact ascMirrorRd w
  | ascSetBit p => exact ascSetBit p
  | ascClearBit p => exact ascClearBit p
  | ascReadBit p => exact ascReadBit p
  | ascWriteField p n v => exact ascWriteField p n v
  | ascShiftBit d => exact ascShiftBit d
  | ascShiftAll => exact ascShiftAll
  | ascLoad => exact ascLoad
  | ascCommit => exact ascCommit
  | cntCtrlWr v => exact cntCtrlWr v
  | cntDisableAll => exact cntDisableAll
  | cntResetAll => exact cntResetAll
  | cntEnableAll => exact cntEnableAll
  | cntCtrlRd => exact cntCtrlRd
  | cntTick k => exact cntTick k
  | cntRdLo k => exact cntRdLo k
  | cntRdHi k => exact cntRdHi k
  | cntReadSnapshot => exact cntReadSnapshot
  | cntResetAndEnable => exact cntResetAndEnable
  | cntGateCycle => exact cntGateCycle
  | dacGet f => exact dacGet f
  | dacSet f v => exact dacSet f v
  | hfFineDec => exact hfFineDec
  | hfFineInc => exact hfFineInc
  | ifFineInc => exact ifFineInc
  | ifFineDec => exact ifFineDec
  | rc2mCoarseInc => exact rc2mCoarseInc
  | rc2mCoarseDec => exact rc2mCoarseDec
  | rc2mFineInc => exact rc2mFineInc
  | rc2mFineDec => exact rc2mFineDec
  | rc2mSuperfineInc => exact rc2mSuperfineInc
  | rc2mSuperfineDec => exact rc2mSuperfineDec
  | lcInc => exact lcInc
  | lcDec => exact lcDec
  | lcExpand => exact lcExpand
  | dacEncodeHf => exact dacEncodeHf
  | dacEncodeRc2m => exact dacEncodeRc2m
  | dacEncodeIf => exact dacEncodeIf
  | dacEncodeLc => exact dacEncodeLc
  | dacEncodeAll => exact dacEncodeAll
  | seqArm => exact seqArm
  | refDisable => exact refDisable
  | refEdge => exact refEdge
  | seqEnter => exact seqEnter
  | seqTick => exact seqTick
  | hfCorrect c => exact hfCorrect c
  | lcCorrect c => exact lcCorrect c
  | rc2mCorrect c => exact rc2mCorrect c
  | ifCorrect c => exact ifCorrect c
  | seqExit => exact seqExit
  | seqWaitDone => exact seqWaitDone
  | performCalibration => exact performCalibration

/-- A line so spelled decodes to its instruction: the cut at the first space finds the mnemonic, with or without operands
after it, and the mnemonic finds the row. -/
theorem Statement.decodeLine_encode {i : Instr} (h : Statement i) (cfg : Config) : decodeLine cfg (encode i) = .ok i := by
  obtain ⟨m, read, hrow, hspace, ⟨hline, hread⟩ | ⟨x, hline, hread⟩⟩ := h
  · rw [hline]
    exact decodeLine_bare hrow hspace (hread cfg)
  · rw [hline]
    exact decodeLine_args hrow hspace (hread cfg)

/-- Settles O4, by the spelling of each instruction: its numbers read back as they were written (`readNumber_numberText`),
and its mnemonic has a row of its own (`mnemonics_distinct`). -/
theorem decodeReadsTheEncodedLine : Obligations.DecodeReadsTheEncodedLine := by
  unfold Obligations.DecodeReadsTheEncodedLine
  exact fun cfg i => (statement i).decodeLine_encode cfg

/-- Settles O6: each line is closed text under a closed configuration, so the decoder is run on it. -/
theorem writtenOutLinesDecode : Obligations.WrittenOutLinesDecode := by
  unfold Obligations.WrittenOutLinesDecode
  decide +kernel

end Sys2Proof.Laws.Spelling
end

section
/-! PROOFS. The control word's fields and admission, the bit maps of positions and stages, and the register operations read
back from their bus accesses (30_encoding.md R71, R72, R76, R77, R84; 40_scan_chain.md R100; 41_counters.md R151). -/

namespace Sys2Proof.Machine

/-! ### How an operation that completes ends -/

theorem finish_of_ok {x : Res Unit} {t : State} (h : x = .ok () t) : finish x = .next t := by rw [h]; rfl

theorem finish_of_refuse {x : Res Unit} {r : Reason} {t : State} (h : x = .refuse r t) :
    finish x = .next (refuseWith r t) := by rw [h]; rfl

theorem finishWith_of_ok {α : Type} {val : α → RetVal} {x : Res α} {v : α} {t : State} (h : x = .ok v t) :
    finishWith val x = .next (setRet (val v) t) := by rw [h]; rfl

/-! ### The control word (R71) -/

/-- Under a sound layout a bit of the control word is 1 exactly where a signal at 1, or RST at its inactive 1, has it. -/
theorem wordBit_ascw_iff {cfg : Config} (h : SoundSignals cfg) (d p1 p2 ld : Bool) (i : Nat) :
    wordBit (ascw cfg d p1 p2 ld) i = true ↔
      (i = cfg.bitData ∧ d = true) ∨ (i = cfg.bitPhi1 ∧ p1 = true) ∨ (i = cfg.bitPhi2 ∧ p2 = true)
        ∨ (i = cfg.bitLoad ∧ ld = true) ∨ (i = cfg.bitRst ∧ cfg.rstInactive = true) := by
  simp only [wordBit_ascw, h.data, h.phi1, h.phi2, h.load, h.rst, decide_true, Bool.and_true, Bool.or_eq_true,
    Bool.and_eq_true, decide_eq_true_eq, and_comm, or_assoc]

theorem toNat_ascw_reference : ∀ d p1 p2 ld : Bool,
    (ascw Config.reference d p1 p2 ld).toNat = d.toNat + 2 * p1.toNat + 4 * p2.toNat + 8 * ld.toNat := by
  decide

/-- Settles O1: bit i of the word, its fields under distinct signal bits, and the reference layout's sixteen words. -/
theorem controlWordCarriesItsSignals : Obligations.ControlWordCarriesItsSignals := by
  unfold Obligations.ControlWordCarriesItsSignals
  intro cfg d p1 p2 ld hok
  obtain ⟨hdata, hphi1, hphi2, hload, hrst⟩ := ascw_fields hok d p1 p2 ld
  exact ⟨fun i _ => wordBit_ascw_iff (Config.ok_signals hok) d p1 p2 ld i, hdata, hphi1, hphi2, hload, hrst,
    toNat_ascw_reference d p1 p2 ld⟩

/-! ### Positions and stages (R76, R77) -/

theorem shiftRight_five (p : Nat) : p >>> 5 = p / 32 := Nat.shiftRight_eq_div_pow p 5

theorem and_thirtyOne (p : Nat) : p &&& 31 = p % 32 := Nat.and_two_pow_sub_one_eq_mod p 5

/-- Value bit j of word w is a position of the chain, and stage `32*w + j` is its stage. -/
theorem position_of_valueBit {w j : Nat} (hw : w < nWords) (hj : j < 32) :
    wordOf (32 * w + 31 - j) = w ∧ bitOf (32 * w + 31 - j) = j ∧ 32 * w + 31 - j < nAsc
      ∧ stageOf (32 * w + 31 - j) = 32 * w + j := by
  have hdiv : (32 * w + 31 - j) / 32 = w := by omega
  have hmod : (32 * w + 31 - j) % 32 = 31 - j := by omega
  unfold nWords at hw
  unfold wordOf bitOf stageOf nAsc
  rw [hdiv, hmod]
  omega

/-- Settles O2: the model's division and remainder by 32 are the spec's shift and mask. -/
theorem positionsMapToMirrorBitsAndStages : Obligations.PositionsMapToMirrorBitsAndStages := by
  unfold Obligations.PositionsMapToMirrorBitsAndStages
  simp only [shiftRight_five, and_thirtyOne]
  exact ⟨fun p hp => ⟨rfl, wordOf_lt hp, rfl, rfl, wordBit_maskOf p⟩, fun _ _ => position_of_valueBit,
    fun p hp => ⟨rfl, stageOf_lt hp, stageOf_stageOf p⟩⟩

/-! ### Admission of a control word (R72, R100) -/

theorem ascCtrlWrite_of_reserved {s : State} {v : Word} {i : Nat} (hv : wordBit v i = true)
    (hi : i ∉ s.cfg.signalBits) : ascCtrlWrite v s = .refuse .reservedBits s :=
  if_pos fun hm => hi ((admitted_iff s.cfg v).mp hm i hv)

theorem ascCtrlWrite_of_reset {s : State} {v : Word} (hm : v &&& ~~~(sigMask s.cfg) = 0)
    (hr : wordBit v s.cfg.bitRst ≠ s.cfg.rstInactive) : ascCtrlWrite v s = .refuse .resetAsserted s :=
  (if_neg (not_not_intro hm)).trans (if_pos hr)

/-- Settles O13: the two checks of R100 in their order, and the latch write of a word that passes both. -/
theorem controlWordIsAdmittedOrRefused : Obligations.ControlWordIsAdmittedOrRefused := by
  unfold Obligations.ControlWordIsAdmittedOrRefused
  intro s v
  refine ⟨fun ⟨i, hv, hi⟩ => ?reserved, fun hbits hr => ?reset, fun hbits hr => ?admitted⟩
  case reserved => exact finish_of_refuse (ascCtrlWrite_of_reserved hv hi)
  case reset => exact finish_of_refuse (ascCtrlWrite_of_reset ((admitted_iff s.cfg v).mpr hbits) hr)
  case admitted =>
    exact ⟨latchWrite v s, finish_of_ok (ascCtrlWrite_ok ((admitted_iff s.cfg v).mpr hbits) hr), rfl,
      by simp [SameRecord]⟩

/-! ### Register operations from their bus accesses (R84, R151) -/

theorem Config.ok_patterns_ne {cfg : Config} (h : cfg.ok = true) :
    cfg.patReset ≠ cfg.patDisable ∧ cfg.patEnable ≠ cfg.patDisable ∧ cfg.patEnable ≠ cfg.patReset := by
  have hnodup := Config.ok_patterns h
  simp only [Config.patterns, List.nodup_cons, List.mem_cons, List.not_mem_nil, or_false, not_or] at hnodup
  obtain ⟨⟨hreset, henable⟩, henable', -⟩ := hnodup
  exact ⟨Ne.symm hreset, Ne.symm henable, Ne.symm henable'⟩

theorem cntCtrlWrite_patDisable (s : State) : cntCtrlWrite s.cfg.patDisable s = .ok () (disableAll s) := if_pos rfl

theorem cntCtrlWrite_patReset {s : State} (hok : s.cfg.ok = true) :
    cntCtrlWrite s.cfg.patReset s = .ok () (resetAll s) := by
  obtain ⟨hdisable, -, -⟩ := Config.ok_patterns_ne hok
  exact (if_neg hdisable).trans (if_pos rfl)

theorem cntCtrlWrite_patEnable {s : State} (hok : s.cfg.ok = true) :
    cntCtrlWrite s.cfg.patEnable s = .ok () (enableAll s) := by
  obtain ⟨-, hdisable, hreset⟩ := Config.ok_patterns_ne hok
  exact (if_neg hdisable).trans ((if_neg hreset).trans (if_pos rfl))

/-- Settles O5: an access at a register decodes to the register's operation, which is the operation encoded, but for the
three pattern operations, which are the write of their pattern. -/
theorem decodeReadsTheEncodedAccess : Obligations.DecodeReadsTheEncodedAccess := by
  unfold Obligations.DecodeReadsTheEncodedAccess
  intro cfg i a hok ha
  have hcntWr : ∀ v, decodeAccess cfg ⟨.write, cfg.cntCtrlAddr, 4, v⟩ = .ok (.cntCtrlWr v) := fun v =>
    (decodeAccess_write_at hok (Config.cntCtrlAddr_mem cfg) rfl rfl rfl).trans (decodeWrite_cnt hok v)
  cases i with
  | ascCtrlWr v =>
    cases ha
    exact ⟨_, (decodeAccess_write_at hok (Config.ascCtrlAddr_mem cfg) rfl rfl rfl).trans (decodeWrite_asc cfg v),
      fun _ _ => rfl⟩
  | ascCtrlRd =>
    cases ha
    exact ⟨_, (decodeAccess_read_at hok (Config.ascCtrlAddr_mem cfg) rfl rfl rfl).trans (decodeRead_asc cfg),
      fun _ _ => rfl⟩
  | cntCtrlWr v => cases ha; exact ⟨_, hcntWr v, fun _ _ => rfl⟩
  | cntDisableAll =>
    cases ha
    exact ⟨_, hcntWr _, fun s hs => by subst hs; exact finish_of_ok (cntCtrlWrite_patDisable s)⟩
  | cntResetAll =>
    cases ha
    exact ⟨_, hcntWr _, fun s hs => by subst hs; exact finish_of_ok (cntCtrlWrite_patReset hok)⟩
  | cntEnableAll =>
    cases ha
    exact ⟨_, hcntWr _, fun s hs => by subst hs; exact finish_of_ok (cntCtrlWrite_patEnable hok)⟩
  | cntCtrlRd =>
    cases ha
    exact ⟨_, (decodeAccess_read_at hok (Config.cntCtrlAddr_mem cfg) rfl rfl rfl).trans (decodeRead_cnt hok),
      fun _ _ => rfl⟩
  | cntRdLo k =>
    cases ha
    exact ⟨_, (decodeAccess_read_at hok (Config.cntLoAddr_mem cfg k) rfl rfl rfl).trans (decodeRead_lo hok k),
      fun _ _ => rfl⟩
  | cntRdHi k =>
    cases ha
    exact ⟨_, (decodeAccess_read_at hok (Config.cntHiAddr_mem cfg k) rfl rfl rfl).trans (decodeRead_hi hok k),
      fun _ _ => rfl⟩
  | _ => cases ha

/-! ### Words and fields in the chain and the mirror, and the halves of a count (R74, R78, R79) -/

/-- Settles O19: the shift of R116 leaves stage i the bit `i % 32` of word `i / 32`, and stage `32*w + j` is value bit j of
word w. -/
theorem shiftAllFillsTheChainFromTheMirror : Obligations.ShiftAllFillsTheChainFromTheMirror := by
  unfold Obligations.ShiftAllFillsTheChainFromTheMirror
  intro s hok hrole hinv hu hfull
  obtain ⟨t, hrun, hstages, hlatches, hlast, hlive, -, -, hframe⟩ :=
    ascShiftAll_ok quiet_accessPoint hok hrole hinv hu hfull
  refine ⟨t, finish_of_ok hrun, fun w j v hw hj hv => ?_, hlatches, hlast, hlive, hframe⟩
  have hstage : 32 * w + j < nAsc := by unfold nWords at hw; unfold nAsc; omega
  have hword : (32 * w + j) / 32 = w := by omega
  have hbit : (32 * w + j) % 32 = j := by omega
  have := hstages (32 * w + j) v hstage (by rwa [hword])
  rwa [hbit] at this

/-- Settles O25: inside its ranges and on written words the field write only replaces the mirror. -/
theorem writeFieldPlacesBitsMostSignificantFirst : Obligations.WriteFieldPlacesBitsMostSignificantFirst := by
  unfold Obligations.WriteFieldPlacesBitsMostSignificantFirst
  intro s p n v hn hp hv hwritten
  obtain ⟨m, hrun, hfield, hother, -⟩ := ascWriteField_ok hn hp hv hwritten
  exact ⟨setMirror m s, finish_of_ok hrun, hfield, hother, onlyMirror_setMirror m s⟩

/-- Settles O31: either operation is a read of one half register with the half of the count at bit k, and returning its
value touches no counter. -/
theorem halfReadsReturnTheHalfOrADraw : Obligations.HalfReadsReturnTheHalfOrADraw := by
  unfold Obligations.HalfReadsReturnTheHalfOrADraw
  intro s i k op hop
  have hexec : exec op s = finishWith .word (readHalfRegister ((s.cnt.get i).extractLsb' k 16) s) := by
    obtain ⟨rfl, rfl⟩ | ⟨rfl, rfl⟩ := hop <;> rfl
  obtain ⟨v, t, hread, hhalf, hdraw, hzero, hany, hanyDraw, hcnt, hmode, hsettle, -, hframe⟩ :=
    readHalfRegister_ok ((s.cnt.get i).extractLsb' k 16) s
  exact ⟨setRet (.word v) t, v, hexec.trans (finishWith_of_ok hread), rfl, hhalf, hdraw, hzero, hany, hanyDraw, hcnt,
    hmode, hsettle, hframe⟩

end Sys2Proof.Machine
end

section
/-! PROOFS. One write of the control register: its latches, the live configuration after it, and the invariant of the chain
that every write establishes (40_scan_chain.md R101 to R105). -/

namespace Sys2Proof.Machine

/-! ### One write (R101 to R105) -/

theorem phasesRace_iff (before after : Levels) :
    phasesRace before after = true ↔ (after.ia = .one ∧ after.ib = .one)
      ∨ (Bit3.changed before.ia after.ia = true ∧ Bit3.changed before.ib after.ib = true) := by
  simp only [phasesRace, Bool.or_eq_true, Bool.and_eq_true, beq_iff_eq]

theorem dataRace_iff (before after : Levels) :
    dataRace before after = true ↔ before.ia ≠ .zero ∧ Bit3.changed before.d after.d = true := by
  simp only [dataRace, Bool.and_eq_true, bne_iff_ne]

/-- The levels that R101 names for a written word, under either PHASE_ROLE. -/
theorem levelsOf_unique {cfg : Config} {v : Word} {after : Levels} (hd : after.d = Bit3.ofBool (wordBit v cfg.bitData))
    (hld : after.ld = Bit3.ofBool (wordBit v cfg.bitLoad))
    (h2 : cfg.phaseRole = .p2Input → after.ia = Bit3.ofBool (wordBit v cfg.bitPhi2)
      ∧ after.ib = Bit3.ofBool (wordBit v cfg.bitPhi1))
    (h1 : cfg.phaseRole = .p1Input → after.ia = Bit3.ofBool (wordBit v cfg.bitPhi1)
      ∧ after.ib = Bit3.ofBool (wordBit v cfg.bitPhi2)) : after = levelsOf cfg v := by
  obtain ⟨d, ia, ib, ld⟩ := after
  unfold levelsOf
  cases hrole : cfg.phaseRole with
  | p2Input => obtain ⟨hia, hib⟩ := h2 hrole; simp_all only
  | p1Input => obtain ⟨hia, hib⟩ := h1 hrole; simp_all only

/-- R101, from the two cases of the last word. -/
theorem levelsBefore_unique {s : State} {before : Levels} (hnone : s.ascCtrlLast = none → before = ⟨.x, .x, .x, .x⟩)
    (hsome : ∀ u, s.ascCtrlLast = some u → before = levelsOf s.cfg u) : before = levelsBefore s.cfg s.ascCtrlLast := by
  cases hlast : s.ascCtrlLast with
  | none => exact hnone hlast
  | some u => exact hsome u hlast

section

variable {s : State} {v : Word}

theorem exec_ascCtrlWr_admitted (hbits : ∀ i, wordBit v i = true → i ∈ s.cfg.signalBits)
    (hr : wordBit v s.cfg.bitRst = s.cfg.rstInactive) : exec (.ascCtrlWr v) s = .next (latchWrite v s) :=
  finish_of_ok (ascCtrlWrite_ok ((admitted_iff s.cfg v).mpr hbits) hr)

theorem latchWrite_a_of_calm (h : ¬ phasesRace (levelsBefore s.cfg s.ascCtrlLast) (levelsOf s.cfg v) = true) :
    (latchWrite v s).a = inputLatches (levelsBefore s.cfg s.ascCtrlLast) (levelsOf s.cfg v) s.a s.b :=
  (latchWrite_a v s).trans (if_neg h)

theorem latchWrite_b_of_calm (h : ¬ phasesRace (levelsBefore s.cfg s.ascCtrlLast) (levelsOf s.cfg v) = true) :
    (latchWrite v s).b = outputLatches (levelsOf s.cfg v) (latchWrite v s).a s.b :=
  (latchWrite_b v s).trans (if_neg h)

end

/-- `inputLatches_open`, the first stage apart from the others. -/
theorem inputLatches_open_stages {before after : Levels} (a b : Chain) (h : after.ia = .one) :
    (inputLatches before after a b).at 0 = after.d
      ∧ ∀ i, 0 < i → i < nAsc → (inputLatches before after a b).at i = b.at (i - 1) :=
  ⟨inputLatches_open a b h (by decide), fun _ h0 hi => (inputLatches_open a b h hi).trans (if_neg h0.ne')⟩

/-- `inputLatches_race`, the first stage apart from the others. -/
theorem inputLatches_race_stages {before after : Levels} (a b : Chain) (h : after.ia ≠ .one)
    (hd : dataRace before after = true) : (inputLatches before after a b).at 0 = .x
      ∧ ∀ i, 0 < i → i < nAsc → (inputLatches before after a b).at i = a.at i :=
  ⟨inputLatches_race a b h hd (by decide), fun _ h0 hi => (inputLatches_race a b h hd hi).trans (if_neg h0.ne')⟩

theorem outputLatches_open {after : Levels} (a b : Chain) (h : after.ib = .one) : outputLatches after a b = a := if_pos h

theorem outputLatches_hold {after : Levels} (a b : Chain) (h : after.ib ≠ .one) : outputLatches after a b = b := if_neg h

/-- Settles O14: the overlap makes every latch X; without it each latch follows the rule of its own enable. -/
theorem controlWriteMovesTheLatches : Obligations.ControlWriteMovesTheLatches := by
  unfold Obligations.ControlWriteMovesTheLatches
  intro s v before after hnone hsome hd hld h2 h1 hbits hr
  obtain rfl := levelsOf_unique hd hld h2 h1
  obtain rfl := levelsBefore_unique hnone hsome
  refine ⟨rfl, latchWrite v s, exec_ascCtrlWr_admitted hbits hr, rfl, fun hrace i _ => ?overlap, fun hcalm => ?calm,
    fun _ => rfl, ⟨rfl, rfl, rfl⟩, rfl, by simp [SameSession], by simp [SameRecord], by simp [SameOwn]⟩
  case overlap =>
    obtain ⟨ha, hb⟩ := latchWrite_race ((phasesRace_iff _ _).mpr hrace)
    rw [ha, hb]
    exact ⟨chain_at_allX i, chain_at_allX i⟩
  case calm =>
    rw [← phasesRace_iff] at hcalm
    rw [latchWrite_b_of_calm hcalm, latchWrite_a_of_calm hcalm]
    refine ⟨fun hia => inputLatches_open_stages _ _ hia, fun hia hbefore hdata => ?race, fun hia hstill => ?hold,
      fun hib => outputLatches_open _ _ hib, fun hib => outputLatches_hold _ _ (by rw [hib]; decide)⟩
    case race =>
      exact inputLatches_race_stages _ _ (by rw [hia]; decide) ((dataRace_iff _ _).mpr ⟨hbefore, hdata⟩)
    case hold =>
      refine inputLatches_hold _ _ (by rw [hia]; decide) (Bool.eq_false_iff.mpr fun hrace => ?_)
      obtain ⟨hbefore, hdata⟩ := (dataRace_iff _ _).mp hrace
      exact hstill.elim hbefore fun h => by rw [h] at hdata; cases hdata

/-- Settles O15: `loadStep` at one position, by whether the write changed its stage. -/
theorem controlWriteLoadsTheLiveConfiguration : Obligations.ControlWriteLoadsTheLiveConfiguration := by
  unfold Obligations.ControlWriteLoadsTheLiveConfiguration
  intro s v hbits hr
  refine ⟨latchWrite v s, exec_ascCtrlWr_admitted hbits hr, fun p hp => ?_⟩
  rw [latchWrite_l, loadStep_at _ _ _ _ _ hp]
  refine ⟨fun hstill => ⟨fun hld hld0 => ?raise, fun hld hld0 => ?held, fun hld => ?low⟩,
    fun hmoved => ⟨fun hld => ?up, fun hld hld0 => ?lowered, fun hld hld0 => ?bothLow⟩⟩
  case raise => simp [loadBit, hstill, hld, hld0]
  case held => simp [loadBit, hstill, hld, hld0]
  case low => simp [loadBit, hstill, hld]
  case up => simp [loadBit, hmoved, hld]
  case lowered => simp [loadBit, hmoved, hld0]
  case bothLow => simp [hld, hld0]

theorem kept_chainInv : Kept chainInv where
  aside s t hcfg hchain _ _ _ _ _ h := by
    obtain ⟨hlast, ha, hb, hl⟩ := hchain
    exact chainInv_congr hlast ha hb hl hcfg h
  mirror _ _ _ _ h := h
  chain v s _ := chainInv_latchWrite v s
  code _ _ _ h := h
  fault _ _ h := h
  refuse _ _ h := h

/-- Settles O16: every control write establishes the invariant, and nothing else touches the chain. -/
theorem chainInvariantIsKept : Obligations.ChainInvariantIsKept := by
  unfold Obligations.ChainInvariantIsKept
  exact fun _ _ hinv hstep => kept_chainInv.step hinv hstep

end Sys2Proof.Machine
end

section
/-! PROOFS. Shifting under both phase roles, the load pulse and the commit (40_scan_chain.md R114 to R121). -/

namespace Sys2Proof.Machine

/-! ### Writes with LOAD low under P1_INPUT (R101, R121) -/

section

variable {cfg : Config} (hok : cfg.ok = true) (hrole : cfg.phaseRole = .p1Input) {s t : State} (hcfg : s.cfg = cfg)
  {d e p1 p2 q1 q2 : Bool}

include hok hrole

theorem levelsOf_ascw_p1 (d p1 p2 : Bool) :
    levelsOf cfg (ascw cfg d p1 p2 false) = ⟨Bit3.ofBool d, Bit3.ofBool p1, Bit3.ofBool p2, .zero⟩ := by
  rw [levelsOf_ascw hok, hrole]
  rfl

include hcfg

/-- A write that brings no overlap: PHI1 opens the input latches, PHI2 the output latches, and LOAD stays low. -/
theorem write_p1_calm (ht : t = latchWrite (ascw cfg d p1 p2 false) s)
    (hlast : s.ascCtrlLast = some (ascw cfg e q1 q2 false)) (hboth : (p1 && p2) = false) (hone : q1 = p1 ∨ q2 = p2) :
    t.a = inputLatches ⟨Bit3.ofBool e, Bit3.ofBool q1, Bit3.ofBool q2, .zero⟩
        ⟨Bit3.ofBool d, Bit3.ofBool p1, Bit3.ofBool p2, .zero⟩ s.a s.b
      ∧ t.b = (if p2 then t.a else s.b) ∧ t.l = s.l := by
  subst hcfg ht
  have hbefore : levelsBefore s.cfg s.ascCtrlLast = ⟨Bit3.ofBool e, Bit3.ofBool q1, Bit3.ofBool q2, .zero⟩ := by
    rw [hlast]
    exact levelsOf_ascw_p1 hok hrole e q1 q2
  have hafter := levelsOf_ascw_p1 hok hrole d p1 p2
  have hcalm : ¬ phasesRace (levelsBefore s.cfg s.ascCtrlLast) (levelsOf s.cfg (ascw s.cfg d p1 p2 false)) = true := by
    rw [phasesRace_iff, hbefore, hafter]
    simp only [bit3_ofBool_eq_one, bit3_changed_ofBool, bne_iff_ne, ← Bool.and_eq_true, hboth]
    rintro (h | ⟨h1, h2⟩)
    · cases h
    · exact hone.elim h1 h2
  refine ⟨?_, ?_, ?_⟩
  · rw [latchWrite_a_of_calm hcalm, hbefore, hafter]
  · rw [latchWrite_b_of_calm hcalm, hafter]
    simp only [outputLatches, bit3_ofBool_eq_one]
  · rw [latchWrite_l, hbefore, hafter]
    exact loadStep_low _ _ _ rfl rfl

/-- Both phases low: everything holds where the inputs were closed already or DATA stays. -/
theorem write_p1_hold (ht : t = latchWrite (ascw cfg d false false false) s)
    (hlast : s.ascCtrlLast = some (ascw cfg e q1 q2 false)) (hone : q1 = false ∨ q2 = false)
    (hdata : q1 = false ∨ e = d) : t.a = s.a ∧ t.b = s.b ∧ t.l = s.l := by
  obtain ⟨ha, hb, hl⟩ := write_p1_calm hok hrole hcfg ht hlast rfl hone
  refine ⟨ha.trans (inputLatches_hold _ _ (show Bit3.ofBool false ≠ .one by decide) ?_), hb, hl⟩
  rw [Bool.eq_false_iff, Ne, dataRace_iff]
  simp only [Ne, bit3_ofBool_eq_zero, bit3_changed_ofBool, bne_iff_ne]
  exact fun ⟨hq, hd⟩ => hdata.elim hq hd

/-- PHI1 falls: the input latches close, and a DATA that moves with it makes the first X (R103, R305). -/
theorem write_p1_close (ht : t = latchWrite (ascw cfg d false false false) s)
    (hlast : s.ascCtrlLast = some (ascw cfg e true false false)) :
    t.a.at 0 = (if d = e then s.a.at 0 else .x) ∧ (∀ i, 0 < i → i < nAsc → t.a.at i = s.a.at i) ∧ t.b = s.b
      ∧ t.l = s.l := by
  by_cases hde : d = e
  · obtain ⟨ha, hb, hl⟩ := write_p1_hold hok hrole hcfg ht hlast (.inr rfl) (.inr hde.symm)
    rw [ha, if_pos hde]
    exact ⟨rfl, fun _ _ _ => rfl, hb, hl⟩
  · obtain ⟨ha, hb, hl⟩ := write_p1_calm hok hrole hcfg ht hlast rfl (.inr rfl)
    have hclosed : Bit3.ofBool false ≠ .one := by decide
    have hrace : dataRace ⟨Bit3.ofBool e, Bit3.ofBool true, Bit3.ofBool false, .zero⟩
        ⟨Bit3.ofBool d, Bit3.ofBool false, Bit3.ofBool false, .zero⟩ = true := by
      rw [dataRace_iff, bit3_changed_ofBool, bne_iff_ne]
      exact ⟨by simp, Ne.symm hde⟩
    rw [ha, if_neg hde]
    exact and_assoc.mp ⟨inputLatches_race_stages _ _ hclosed hrace, hb, hl⟩

/-- PHI1 rises: DATA enters the first input latch and every other takes the output of the stage before. -/
theorem write_p1_open (ht : t = latchWrite (ascw cfg d true false false) s)
    (hlast : s.ascCtrlLast = some (ascw cfg d false false false)) :
    t.a.at 0 = Bit3.ofBool d ∧ (∀ i, 0 < i → i < nAsc → t.a.at i = s.b.at (i - 1)) ∧ t.b = s.b ∧ t.l = s.l := by
  obtain ⟨ha, hb, hl⟩ := write_p1_calm hok hrole hcfg ht hlast rfl (.inr rfl)
  rw [ha]
  exact and_assoc.mp ⟨inputLatches_open_stages _ _ rfl, hb, hl⟩

/-- PHI2 rises: every output latch takes its own input latch. -/
theorem write_p1_transfer (ht : t = latchWrite (ascw cfg d false true false) s)
    (hlast : s.ascCtrlLast = some (ascw cfg d false false false)) : t.a = s.a ∧ t.b = s.a ∧ t.l = s.l := by
  obtain ⟨ha, hb, hl⟩ := write_p1_calm hok hrole hcfg ht hlast rfl (.inl rfl)
  have hhold := ha.trans (inputLatches_hold _ _ (show Bit3.ofBool false ≠ .one by decide) rfl)
  exact ⟨hhold, hb.trans hhold, hl⟩

end

/-! ### Shifting (R114, R115, R121) -/

/-- Settles O17: the law of the four writes, at the access points of the main context. -/
theorem shiftBitShiftsByOne : Obligations.ShiftBitShiftsByOne := by
  unfold Obligations.ShiftBitShiftsByOne
  intro s d hok hrole hinv hu
  obtain ⟨t, hrun, hfirst, hnext, hlatches, hlast, hoverlap, hlive, -, -, hframe⟩ :=
    ascShiftBit_p2 quiet_accessPoint hok hrole hinv hu d
  exact ⟨t, finish_of_ok hrun, hfirst, hnext, hlatches, hlast, hoverlap, hlive, hframe⟩

/-- The four writes of ASC_SHIFT_BIT d after a bit e under P1_INPUT: the stale inputs go to the outputs before d enters. -/
theorem ascShiftBit_p1 {pt : AccessPoint} (hpt : Quiet pt) {s : State} {d e : Bool} (hok : s.cfg.ok = true)
    (hrole : s.cfg.phaseRole = .p1Input) (hu : s.undisturbed)
    (hlast : s.ascCtrlLast = some (ascw s.cfg e true false false)) :
    ∃ t, ascShiftBit pt d s = .ok () t
      ∧ t.b.at 0 = (if d = e then s.a.at 0 else .x) ∧ (∀ i, 0 < i → i < nAsc → t.b.at i = s.a.at i)
      ∧ t.a.at 0 = Bit3.ofBool d ∧ (∀ i, 0 < i → i < nAsc → t.a.at i = t.b.at (i - 1))
      ∧ t.ascCtrlLast = some (ascw s.cfg d true false false) ∧ t.l = s.l ∧ OnlyChainIn 4 s t := by
  obtain ⟨s1, s2, s3, t, e1, e2, e3, e4, hrun, -, hframe, c1, c2, c3, -⟩ := ascShiftBit_writes hpt hok hu d
  obtain ⟨a1, a1', -, l1⟩ := write_p1_close hok hrole (agentsStep_cfg s) e1 (by simpa using hlast)
  obtain ⟨-, b2, l2⟩ := write_p1_transfer hok hrole (s := agentsStep s1) (by simpa using c1) e2 (by simp [e1])
  obtain ⟨-, b3, l3⟩ := write_p1_hold hok hrole (s := agentsStep s2) (e := d) (q1 := false) (q2 := true) (by simpa using c2) e3
    (by simp [e2]) (.inl rfl) (.inl rfl)
  obtain ⟨a4, a4', b4, l4⟩ := write_p1_open hok hrole (s := agentsStep s3) (by simpa using c3) e4 (by simp [e3])
  simp only [agentsStep_a, agentsStep_b, agentsStep_l] at a1 a1' l1 b2 l2 b3 l3 a4' b4 l4
  have hout : t.b = s1.a := b4.trans (b3.trans b2)
  refine ⟨t, hrun, by rw [hout, a1], fun i h0 hi => by rw [hout, a1' i h0 hi], a4, fun i h0 hi => by rw [a4' i h0 hi, b4],
    by rw [e4]; rfl, l4.trans (l3.trans (l2.trans l1)), hframe⟩

theorem execAll_ascw_cons {s : State} {cfg : Config} (hok : cfg.ok = true) (hcfg : s.cfg = cfg) (d p1 p2 ld : Bool)
    (is : List Instr) :
    execAll (.ascCtrlWr (ascw cfg d p1 p2 ld) :: is) s = execAll is (latchWrite (ascw cfg d p1 p2 ld) s) := by
  subst hcfg
  obtain ⟨-, -, -, -, hr⟩ := ascw_fields hok d p1 p2 ld
  have hexec : exec (.ascCtrlWr (ascw s.cfg d p1 p2 ld)) s = .next (latchWrite (ascw s.cfg d p1 p2 ld) s) :=
    finish_of_ok (ascCtrlWrite_ok (ascw_admitted s.cfg d p1 p2 ld) hr)
  simp only [execAll, hexec]

/-- The five writes of R121 for P1_INPUT: d and the outputs enter the inputs under PHI1, and PHI2 passes them on. -/
theorem fiveWrites_p1 {s : State} {d e : Bool} (hok : s.cfg.ok = true) (hrole : s.cfg.phaseRole = .p1Input)
    (hlast : s.ascCtrlLast = some (ascw s.cfg e false false false)) :
    ∃ t, execAll [.ascCtrlWr (ascw s.cfg d false false false), .ascCtrlWr (ascw s.cfg d true false false),
        .ascCtrlWr (ascw s.cfg d false false false), .ascCtrlWr (ascw s.cfg d false true false),
        .ascCtrlWr (ascw s.cfg d false false false)] s = .next t
      ∧ t.b.at 0 = Bit3.ofBool d ∧ (∀ i, 0 < i → i < nAsc → t.b.at i = s.b.at (i - 1)) ∧ t.a = t.b
      ∧ t.l = s.l ∧ t.ascCtrlLast = some (ascw s.cfg d false false false) := by
  obtain ⟨s1, e1⟩ : ∃ s1, s1 = latchWrite (ascw s.cfg d false false false) s := ⟨_, rfl⟩
  obtain ⟨s2, e2⟩ : ∃ s2, s2 = latchWrite (ascw s.cfg d true false false) s1 := ⟨_, rfl⟩
  obtain ⟨s3, e3⟩ : ∃ s3, s3 = latchWrite (ascw s.cfg d false false false) s2 := ⟨_, rfl⟩
  obtain ⟨s4, e4⟩ : ∃ s4, s4 = latchWrite (ascw s.cfg d false true false) s3 := ⟨_, rfl⟩
  obtain ⟨t, e5⟩ : ∃ t, t = latchWrite (ascw s.cfg d false false false) s4 := ⟨_, rfl⟩
  have c1 : s1.cfg = s.cfg := by rw [e1, latchWrite_cfg]
  have c2 : s2.cfg = s.cfg := by rw [e2, latchWrite_cfg, c1]
  have c3 : s3.cfg = s.cfg := by rw [e3, latchWrite_cfg, c2]
  have c4 : s4.cfg = s.cfg := by rw [e4, latchWrite_cfg, c3]
  obtain ⟨-, b1, l1⟩ := write_p1_hold hok hrole rfl e1 hlast (.inl rfl) (.inl rfl)
  obtain ⟨a2, a2', -, l2⟩ := write_p1_open hok hrole c1 e2 (by rw [e1, latchWrite_ascCtrlLast])
  obtain ⟨a3, -, l3⟩ := write_p1_hold hok hrole c2 e3 (by rw [e2, latchWrite_ascCtrlLast]) (.inr rfl) (.inr rfl)
  obtain ⟨a4, b4, l4⟩ := write_p1_transfer hok hrole c3 e4 (by rw [e3, latchWrite_ascCtrlLast])
  obtain ⟨a5, b5, l5⟩ := write_p1_hold hok hrole c4 e5 (by rw [e4, latchWrite_ascCtrlLast]) (.inl rfl) (.inl rfl)
  have hout : t.b = s2.a := b5.trans (b4.trans a3)
  refine ⟨t, ?run, by rw [hout, a2], fun i h0 hi => by rw [hout, a2' i h0 hi, b1], by rw [a5, a4, b5, b4],
    l5.trans (l4.trans (l3.trans (l2.trans l1))), by rw [e5, latchWrite_ascCtrlLast]⟩
  rw [execAll_ascw_cons hok rfl, ← e1, execAll_ascw_cons hok c1, ← e2, execAll_ascw_cons hok c2, ← e3,
    execAll_ascw_cons hok c3, ← e4, execAll_ascw_cons hok c4, ← e5, execAll]

/-- Settles O18: each write of the two drivers by the rule for the phases it moves. -/
theorem shiftingUnderTheOtherPhaseRole : Obligations.ShiftingUnderTheOtherPhaseRole := by
  unfold Obligations.ShiftingUnderTheOtherPhaseRole
  intro s d e hok hrole
  refine ⟨fun hu hlast => ?fourWrites, fun hlast => fiveWrites_p1 hok hrole hlast⟩
  obtain ⟨t, hrun, hchain⟩ := ascShiftBit_p1 quiet_accessPoint (d := d) hok hrole hu hlast
  exact ⟨t, finish_of_ok hrun, hchain⟩

/-! ### Loading and committing (R117 to R119) -/

/-- Both latch enables are up where both phases are, whichever phase drives which latches (R101). -/
theorem levelsOf_both_open_iff (cfg : Config) (v : Word) : (levelsOf cfg v).ia = .one ∧ (levelsOf cfg v).ib = .one ↔
    wordBit v cfg.bitPhi1 = true ∧ wordBit v cfg.bitPhi2 = true := by
  unfold levelsOf
  cases cfg.phaseRole with
  | p2Input => simp only [bit3_ofBool_eq_one, and_comm]
  | p1Input => simp only [bit3_ofBool_eq_one]

/-- Settles O20: the laws of the load pulse from a known and from an unknown last word. -/
theorem loadPulseCopiesTheShadow : Obligations.LoadPulseCopiesTheShadow := by
  unfold Obligations.LoadPulseCopiesTheShadow
  intro s hok hu
  refine ⟨fun u hlast hbits hr hload hphases hstill => ?known, fun hlast => ?unknown⟩
  case known =>
    obtain ⟨t, hrun, hlive, hshadow, hinputs, hword, -, -, hframe⟩ := ascLoad_still quiet_accessPoint hok hu hlast
      ((admitted_iff s.cfg u).mpr hbits) hr hload (mt (levelsOf_both_open_iff s.cfg u).mp hphases) hstill
    exact ⟨t, finish_of_ok hrun, hlive, hshadow, hinputs, hword, hframe⟩
  case unknown =>
    obtain ⟨t, hrun, hchain, hword, -, hframe⟩ := ascLoad_unknown quiet_accessPoint hok hu hlast
    exact ⟨t, finish_of_ok hrun, hchain, hword, hframe⟩

/-- Settles O21: the law of the commit, at the access points of the main context. -/
theorem commitMakesTheLiveConfigurationEqualTheMirror : Obligations.CommitMakesTheLiveConfigurationEqualTheMirror := by
  unfold Obligations.CommitMakesTheLiveConfigurationEqualTheMirror
  intro s hok hrole hinv hu hfull
  obtain ⟨t, hrun, hlive, hlatches, hlast, -, -, hframe⟩ := ascCommit_ok quiet_accessPoint hok hrole hinv hu hfull
  exact ⟨t, finish_of_ok hrun, hlive, hlatches, hlast, hframe⟩

end Sys2Proof.Machine
end

section
/-! PROOFS. The operations on single mirror words and positions, and the reads of the control registers (40_scan_chain.md
R107 to R112; 41_counters.md R155). -/

namespace Sys2Proof.Machine

/-! ### Reading the mirror (R109, R112) -/

theorem ascMirrorRead_ok {s : State} {w : Nat} {v : Word} (hw : w < nWords) (h : s.mirror.read w = some v) :
    ascMirrorRead w s = .ok v s := by
  simp [ascMirrorRead, checkWord, readMirror, Res.andThen, Res.bind, hw, h]

theorem ascReadBit_ok {s : State} {p : Nat} {b : Bool} (hp : p < nAsc) (h : s.mirror.bit p = some b) :
    ascReadBit p s = .ok b s := by
  obtain ⟨v, hv, rfl⟩ := Option.map_eq_some_iff.mp h
  simp [ascReadBit, checkPosition, readMirror, Res.andThen, Res.bind, hp, hv]

/-! ### Words (R108, R109) -/

theorem ascMirrorWrite_ok {w : Nat} (v : Word) (s : State) (hw : w < nWords) :
    ascMirrorWrite w v s = .ok () (setMirror (s.mirror.write w v) s) := by
  simp [ascMirrorWrite, checkWord, Res.andThen, Res.bind, hw]

/-- Settles O23: a written word reads back, and every other word is as it was. -/
theorem mirrorWordsReadAsWritten : Obligations.MirrorWordsReadAsWritten := by
  unfold Obligations.MirrorWordsReadAsWritten
  intro s w v hw
  have hread : (setMirror (s.mirror.write w v) s).mirror.read w = some v := memory_read_write_same s.mirror w v
  exact ⟨⟨_, finish_of_ok (ascMirrorWrite_ok v s hw), hread, fun w' hne => memory_read_write_other s.mirror v hne,
    onlyMirror_setMirror _ s, finishWith_of_ok (ascMirrorRead_ok hw hread)⟩,
    fun u hu => finishWith_of_ok (ascMirrorRead_ok hw hu)⟩

/-! ### Positions (R110 to R112) -/

/-- A change of the word of position p that makes its bit b and keeps the word's other bits: what the mirror then holds. -/
theorem setMirror_bit {s : State} {p : Nat} {v v' : Word} {b : Bool} (hp : p < nAsc)
    (hv : s.mirror.read (wordOf p) = some v)
    (hbits : ∀ j, j < 32 → wordBit v' j = if j = bitOf p then b else wordBit v j) {t : State}
    (ht : t = setMirror (s.mirror.write (wordOf p) v') s) :
    t.mirror.bit p = some b ∧ (∀ q, q ≠ p → SameBit s t q) ∧ t.mirror.read (wordOf p) = some v'
      ∧ (∀ w, w ≠ wordOf p → t.mirror.read w = s.mirror.read w) ∧ OnlyMirror s t
      ∧ exec (.ascReadBit p) t = .next (setRet (.bit b) t) := by
  subst ht
  have hall := memory_bit_write hv hbits
  have hbit := (hall p).trans (if_pos rfl)
  exact ⟨hbit, fun q hq => (hall q).trans (if_neg hq), memory_read_write_same _ _ _,
    fun w hw => memory_read_write_other _ _ hw, onlyMirror_setMirror _ s, finishWith_of_ok (ascReadBit_ok hp hbit)⟩

/-- The value bit of a position, as the lowest bit of the word shifted down (R112). -/
theorem wordBit_shiftRight_zero (v : Word) (p : Nat) : wordBit (v >>> (31 - p % 32)) 0 = wordBit v (bitOf p) := by
  simp [wordBit, bitOf]

/-- Settles O24: the mask of a position reaches its bit alone. -/
theorem setClearAndReadOnePosition : Obligations.SetClearAndReadOnePosition := by
  unfold Obligations.SetClearAndReadOnePosition
  intro s p v hp hv
  refine ⟨⟨_, finish_of_ok (ascSetBit_ok hp hv), setMirror_bit hp hv (fun j _ => ?set) rfl⟩,
    ⟨_, finish_of_ok (ascClearBit_ok hp hv), setMirror_bit hp hv (fun j hj => ?clear) rfl⟩, ?read⟩
  case set => rw [wordBit_set]; by_cases hbit : j = bitOf p <;> simp [hbit]
  case clear => rw [wordBit_clear v p j hj]; by_cases hbit : j = bitOf p <;> simp [hbit]
  case read =>
    rw [wordBit_shiftRight_zero]
    exact finishWith_of_ok (ascReadBit_ok hp (memory_bit_of_read hv))

/-! ### Control registers (R107, R155) -/

theorem cntCtrlRd_ok (s : State) :
    ((draw32 s).bind fun v s => .ok v (settle s)) = .ok (Config.draw32 s.draws) (settle (nextDraw s)) := rfl

/-- Settles O28: the value is the next draw, and only the counters' read goes on to the settling countdown. -/
theorem controlRegisterReadsAreDraws : Obligations.ControlRegisterReadsAreDraws := by
  unfold Obligations.ControlRegisterReadsAreDraws
  intro s
  refine ⟨⟨setRet (.word (Config.draw32 s.draws)) (nextDraw s), finishWith_of_ok rfl, rfl, rfl, ?chain⟩,
    ⟨setRet (.word (Config.draw32 s.draws)) (settle (nextDraw s)), finishWith_of_ok (cntCtrlRd_ok s), rfl, rfl, rfl, rfl,
      rfl, ?counters⟩⟩
  case chain => simp [SameChain, SameMirror, SameCounters, SameSession, SameRecord]
  case counters => simp [OnlyCountersIn, SameChain, SameMirror, SameSession, SameRecord]

end Sys2Proof.Machine
end

section
/-! PROOFS. The counters and their gate: one edge of a counted clock, the three patterns, snapshots, and the gate cycle where
no other access falls inside (41_counters.md R151 to R154, R156 to R158, R161 to R164). -/

namespace Sys2Proof.Machine

/-! ### One edge of a counted clock (R156, R158) -/

theorem counting_iff (s : State) :
    counting s = true ↔ s.cntMode = .running ∨ s.cntMode = .powerOn ∨ (s.cntMode = .cleared ∧ s.cfg.resetHolds = false)
      ∨ 0 < s.settleLeft := by
  simp [counting, or_assoc]

theorem onlyCounters_tickCounter (i : Counter) (s : State) : OnlyCountersIn 0 s (tickCounter i s) := by
  simp [OnlyCountersIn, SameChain, SameMirror, SameSession, SameRecord]

section

variable {i : Counter} {s : State} (hc : counting s = true)
include hc

theorem tickCounter_below (hlt : (s.cnt.get i).toNat < 2 ^ 32 - 1) :
    tickCounter i s = setCounters (s.cnt.set i (s.cnt.get i + 1)) s.cntMode s.settleLeft s := by
  have hne : s.cnt.get i ≠ BitVec.allOnes 32 := BitVec.lt_allOnes_iff.mp hlt
  simp only [tickCounter, hc, if_true, if_neg hne]

theorem tickCounter_wrap (hfull : s.cnt.get i = BitVec.allOnes 32) (hwrap : s.cfg.counterOverflow = .wrap) :
    tickCounter i s = setCounters (s.cnt.set i 0) s.cntMode s.settleLeft s := by
  simp only [tickCounter, hc, hfull, hwrap, if_true]

theorem tickCounter_any (hfull : s.cnt.get i = BitVec.allOnes 32) (hany : s.cfg.counterOverflow = .any) :
    tickCounter i s
      = nextDraw (setCounters (s.cnt.set i (Config.draw32 s.draws)) s.cntMode s.settleLeft s) := by
  simp only [tickCounter, hc, hfull, hany, if_true]

/-- Whatever the edge makes of its own counter, it makes nothing of another. -/
theorem tickCounter_cnt_eq_set : ∃ v, (tickCounter i s).cnt = s.cnt.set i v := by
  by_cases hfull : s.cnt.get i = BitVec.allOnes 32
  · cases hover : s.cfg.counterOverflow with
    | wrap => exact ⟨_, congrArg State.cnt (tickCounter_wrap hc hfull hover)⟩
    | any => exact ⟨_, congrArg State.cnt (tickCounter_any hc hfull hover)⟩
  · exact ⟨_, congrArg State.cnt (tickCounter_below hc (BitVec.lt_allOnes_iff.mpr hfull))⟩

end

/-- Settles O30: the gate's predicate, then the edge by whether its count is below 2^32-1 and by COUNTER_OVERFLOW. -/
theorem tickAdvancesOneCounter : Obligations.TickAdvancesOneCounter := by
  unfold Obligations.TickAdvancesOneCounter
  intro s i
  rw [← counting_iff]
  refine ⟨fun hc => ?stopped,
    fun hc => ⟨hc, tickCounter i s, rfl, fun hlt => ?below, fun hmax hwrap => ?wrap, fun hmax hany => ?any, fun j hj => ?other,
      tickCounter_cntMode i s, tickCounter_settleLeft i s, tickCounter_ret i s, onlyCounters_tickCounter i s⟩⟩
  case stopped =>
    have hc := Bool.eq_false_of_not_eq_true hc
    exact ⟨hc, congrArg _ (tickCounter_stopped hc)⟩
  case below =>
    have hsucc : (s.cnt.get i + 1).toNat = (s.cnt.get i).toNat + 1 := BitVec.toNat_add_of_lt (by simp; omega)
    rw [tickCounter_below hc hlt]
    exact ⟨(congrArg BitVec.toNat (perCounter_get_set_same _ _ _)).trans hsucc, rfl⟩
  case wrap =>
    rw [tickCounter_wrap hc (BitVec.eq_of_toNat_eq hmax) hwrap]
    exact ⟨perCounter_get_set_same _ _ _, rfl⟩
  case any =>
    rw [tickCounter_any hc (BitVec.eq_of_toNat_eq hmax) hany]
    exact ⟨perCounter_get_set_same _ _ _, rfl⟩
  case other =>
    obtain ⟨v, hcnt⟩ := tickCounter_cnt_eq_set (i := i) hc
    rw [hcnt]
    exact perCounter_get_set_other _ v hj

/-! ### The three patterns (R151 to R154) -/

theorem onlyCounters_setCounters (c : Counts) (m : CntMode) (k : Nat) (s : State) :
    OnlyCountersIn 0 s (setCounters c m k s) := by
  simp [OnlyCountersIn, SameChain, SameMirror, SameSession, SameRecord]

theorem resetAll_get (i : Counter) (s : State) : (resetAll s).cnt.get i = 0 := by cases i <;> rfl

theorem cntCtrlWrite_unknown {v : Word} {s : State} (hv : v ∉ s.cfg.patterns) :
    cntCtrlWrite v s = .refuse .unknownPattern s := by
  simp only [Config.patterns, List.mem_cons, List.not_mem_nil, or_false, not_or] at hv
  obtain ⟨hdisable, hreset, henable⟩ := hv
  simp only [cntCtrlWrite, if_neg hdisable, if_neg hreset, if_neg henable]

/-- Settles O29: a pattern is written as its operation, and each operation replaces the counters' three fields alone. -/
theorem patternWritesSetTheGate : Obligations.PatternWritesSetTheGate := by
  unfold Obligations.PatternWritesSetTheGate
  intro s v hok
  refine ⟨fun op hop => ⟨disableAll s, ?disable, rfl, rfl, rfl, rfl, rfl, onlyCounters_setCounters _ _ _ s⟩,
    fun op hop => ⟨resetAll s, ?reset, rfl, rfl, fun i => resetAll_get i s, rfl, rfl, onlyCounters_setCounters _ _ _ s⟩,
    fun op hop => ⟨enableAll s, ?enable, rfl, rfl, rfl, rfl, rfl, onlyCounters_setCounters _ _ _ s⟩,
    fun hv => finish_of_refuse (cntCtrlWrite_unknown hv)⟩
  case disable =>
    obtain rfl | rfl := hop
    · rfl
    · exact finish_of_ok (cntCtrlWrite_patDisable s)
  case reset =>
    obtain rfl | rfl := hop
    · rfl
    · exact finish_of_ok (cntCtrlWrite_patReset hok)
  case enable =>
    obtain rfl | rfl := hop
    · rfl
    · exact finish_of_ok (cntCtrlWrite_patEnable hok)

/-! ### Snapshots and the gate cycle (R161 to R164) -/

/-- Settles O32: the law of the snapshot, at the access points of the main context. -/
theorem snapshotOfStoppedCountersIsExact : Obligations.SnapshotOfStoppedCountersIsExact := by
  unfold Obligations.SnapshotOfStoppedCountersIsExact
  intro s hu
  obtain ⟨c, t, hrun, hexact, hmode, hsettle, -, -, hframe⟩ := readSnapshot_ok quiet_accessPoint hu
  refine ⟨fun hc => ?_, setRet (.counts c) t, c, finishWith_of_ok hrun, rfl, hmode, hsettle, hframe⟩
  obtain ⟨rfl, hcnt, hstopped⟩ := hexact hc
  exact ⟨_, finishWith_of_ok hrun, rfl, hcnt, hmode, hstopped, hframe⟩

/-- Settles O33: the law of the two writes, at the access points of the main context. -/
theorem resetAndEnableStartsFromZero : Obligations.ResetAndEnableStartsFromZero := by
  unfold Obligations.ResetAndEnableStartsFromZero
  intro s hu
  obtain ⟨t, hrun, hmode, hsettle, hret, hzero, -, hframe⟩ := resetAndEnable_ok quiet_accessPoint hu
  exact ⟨t, finish_of_ok hrun, hmode, hsettle, hret, hzero, hframe⟩

/-- Settles O34: the law of the gate cycle, at the access points of the main context; its record is returned. -/
theorem gateCycleReturnsTheCountsAtTheDisable : Obligations.GateCycleReturnsTheCountsAtTheDisable := by
  unfold Obligations.GateCycleReturnsTheCountsAtTheDisable
  intro s hu
  obtain ⟨c, t, hrun, hexact, hmode, hsettle, -, hzero, -, hframe⟩ := gateCycle_ok quiet_accessPoint hu
  exact ⟨setRet (.counts c) t, c, finishWith_of_ok hrun, rfl, hexact, hmode, hsettle, hzero, hframe⟩

end Sys2Proof.Machine
end

section
/-! PROOFS. The parameter store: codes set and returned, the code steps with their carries and faults, and LC_EXPAND
(42_dac_parameters.md R191 to R206). -/

namespace Sys2Proof.Machine

/-! ### How an operation that stops ends -/

theorem finish_of_fault {x : Res Unit} {f : FaultRec} {t : State} (h : x = .fault f t) :
    finish x = .next (raiseFault f t) := by rw [h]; rfl

theorem finishWith_of_fault {α : Type} {val : α → RetVal} {x : Res α} {f : FaultRec} {t : State} (h : x = .fault f t) :
    finishWith val x = .next (raiseFault f t) := by rw [h]; rfl

/-! ### Setting one code (R191, R192) -/

theorem putCode_only (f : Field) (v : Nat) (s : State) :
    (putCode f v s).code.get f = v ∧ (∀ g, g ≠ f → (putCode f v s).code.get g = s.code.get g)
      ∧ OnlyCode s (putCode f v s) :=
  ⟨codes_get_set_same s.code f v, fun _ hg => codes_get_set_other s.code v hg, onlyCode_setCode _ s⟩

/-- Settles O35: reading a code is a result alone, and setting one replaces that code of the store. -/
theorem storeReturnsWhatWasSet : Obligations.StoreReturnsWhatWasSet := by
  unfold Obligations.StoreReturnsWhatWasSet
  intro s f v
  obtain ⟨hset, hother, hframe⟩ := putCode_only f v.toNat s
  have hget (t : State) : exec (.dacGet f) t = .next (setRet (.code (t.code.get f)) t) := rfl
  exact ⟨hget s, putCode f v.toNat s, rfl, hset, hother, hframe, (hget _).trans (by rw [hset])⟩

/-! ### The checks before a step (R193) -/

section

variable {s : State} {f g : Field} {α : Type}

theorem requireInRange_in (h : inRange s.cfg s.code f = true) (k : State → Res α) :
    (requireInRange f s).andThen k = k s := by simp [requireInRange, h, Res.andThen, Res.bind]

theorem requireInRange_out (h : inRange s.cfg s.code f = false) (k : State → Res α) :
    (requireInRange f s).andThen k = .fault ⟨.codeRange, .field f⟩ s := by
  simp [requireInRange, h, codeFault, Res.andThen, Res.bind]

theorem requireInRange_pair_in (hf : inRange s.cfg s.code f = true) (hg : inRange s.cfg s.code g = true)
    (k : State → Res α) : ((requireInRange f s).andThen fun s => (requireInRange g s).andThen k) = k s :=
  (requireInRange_in hf _).trans (requireInRange_in hg k)

theorem requireInRange_pair_out (hf : inRange s.cfg s.code f = true) (hg : inRange s.cfg s.code g = false)
    (k : State → Res α) :
    ((requireInRange f s).andThen fun s => (requireInRange g s).andThen k) = .fault ⟨.codeRange, .field g⟩ s :=
  (requireInRange_in hf _).trans (requireInRange_out hg k)

end

/-- Settles O39: every step starts with the check of its field, or with those of its pair in their order. -/
theorem storedCodeOutOfRangeFaults : Obligations.StoredCodeOutOfRangeFaults := by
  unfold Obligations.StoredCodeOutOfRangeFaults
  refine ⟨fun cfg code f => ?ranges, fun s => ⟨fun f op hop hf => ?first, fun f g op hop hf hg => ?second⟩⟩
  case ranges =>
    cases f with
    | lcCode => exact inRange_iff cfg code .lcCode
    | hfCoarse | hfFine | rc2mCoarse | rc2mFine | rc2mSuperfine | ifCoarse | ifFine =>
      exact inRange_le cfg code _ (by decide)
  case first =>
    simp only [List.mem_cons, Prod.mk.injEq, List.not_mem_nil, or_false] at hop
    obtain ⟨rfl, rfl⟩ | ⟨rfl, rfl⟩ | ⟨rfl, rfl⟩ | ⟨rfl, rfl⟩ | ⟨rfl, rfl⟩ | ⟨rfl, rfl⟩ | ⟨rfl, rfl⟩ | ⟨rfl, rfl⟩
      | ⟨rfl, rfl⟩ | ⟨rfl, rfl⟩ | ⟨rfl, rfl⟩ | ⟨rfl, rfl⟩ | ⟨rfl, rfl⟩ := hop
    -- LC_EXPAND, the last of the list, is the one with a result.
    on_goal 13 => exact finishWith_of_fault (requireInRange_out hf _)
    all_goals exact finish_of_fault (requireInRange_out hf _)
  case second =>
    simp only [List.mem_cons, Prod.mk.injEq, List.not_mem_nil, or_false] at hop
    obtain ⟨rfl, rfl, rfl⟩ | ⟨rfl, rfl, rfl⟩ | ⟨rfl, rfl, rfl⟩ | ⟨rfl, rfl, rfl⟩ := hop
    all_goals exact finish_of_fault (requireInRange_pair_out hf hg _)

/-! ### The steps of a pair (R194 to R197) -/

section

variable {s : State} {f g : Field} {k : State → Res Unit} {t : State}
  (hf : inRange s.cfg s.code f = true) (hg : inRange s.cfg s.code g = true)

include hf hg

theorem finish_pair_ok (h : k s = .ok () t) :
    finish ((requireInRange f s).andThen fun s => (requireInRange g s).andThen k) = .next t :=
  finish_of_ok ((requireInRange_pair_in hf hg k).trans h)

theorem finish_pair_fault {e : FaultRec} (h : k s = .fault e t) :
    finish ((requireInRange f s).andThen fun s => (requireInRange g s).andThen k) = .next (raiseFault e t) :=
  finish_of_fault ((requireInRange_pair_in hf hg k).trans h)

end

/-- Settles O36: after the checks, R194 by whether the codes are 0 and R195 by whether they are at their top. -/
theorem hfStepsCarryAtZeroAndThirtyOne : Obligations.HfStepsCarryAtZeroAndThirtyOne := by
  unfold Obligations.HfStepsCarryAtZeroAndThirtyOne
  intro s
  refine ⟨fun hc => ⟨finish_of_fault (requireInRange_out hc _), finish_of_fault (requireInRange_out hc _)⟩,
    fun hc hf => ⟨finish_of_fault (requireInRange_pair_out hc hf _), finish_of_fault (requireInRange_pair_out hc hf _)⟩,
    fun hc hf => ⟨fun h => ?down, fun h0 h => ?borrow, fun h0 h => ?bottom, fun h => ?up, fun h31 h => ?carry,
      fun h31 h => ?top⟩⟩
  case down => exact finish_pair_ok hc hf (if_neg h.ne')
  case borrow => exact finish_pair_ok hc hf ((if_pos h0).trans (if_neg h.ne'))
  case bottom => exact finish_pair_fault hc hf ((if_pos h0).trans (if_pos h))
  case up => exact finish_pair_ok hc hf (if_neg h.ne)
  case carry => exact finish_pair_ok hc hf ((if_pos h31).trans (if_neg h.ne))
  case top => exact finish_pair_fault hc hf ((if_pos h31).trans (if_pos h))

theorem ifUnderflow_fault {s : State} (h : s.cfg.ifFineUnderflow = .fault) :
    ifUnderflow s = .fault ⟨.codeRange, .field .ifFine⟩ s := by rw [ifUnderflow, h]; rfl

theorem ifUnderflow_carry {s : State} {k : Nat} (h : s.cfg.ifFineUnderflow = .carry k) (hc : 0 < s.code.ifCoarse) :
    ifUnderflow s = .ok () (setCode { s.code with ifFine := k, ifCoarse := s.code.ifCoarse - 1 } s) := by
  rw [ifUnderflow, h]; exact if_neg hc.ne'

/-- Settles O37: after the checks, R196 by whether the fine code reaches 32 and R197 by whether it is 0. -/
theorem ifStepsCarryAtThirtyTwo : Obligations.IfStepsCarryAtThirtyTwo := by
  unfold Obligations.IfStepsCarryAtThirtyTwo
  intro s hc hf
  refine ⟨fun h => ?up, fun h31 h => ?carry, fun h31 h => ?top, fun h => ?down, fun h0 hpolicy => ?underflow,
    fun k h0 hpolicy h => ?borrow⟩
  case up => exact finish_pair_ok hc hf (if_neg (Nat.succ_lt_succ h).ne)
  case carry =>
    exact finish_pair_ok hc hf ((if_pos (congrArg Nat.succ h31)).trans ((if_neg h.ne).trans (by rw [h31]; rfl)))
  case top => exact finish_pair_fault hc hf ((if_pos (congrArg Nat.succ h31)).trans (if_pos h))
  case down => exact finish_pair_ok hc hf (if_neg h.ne')
  case underflow => exact finish_pair_fault hc hf ((if_pos h0).trans (ifUnderflow_fault hpolicy))
  case borrow => exact finish_pair_ok hc hf ((if_pos h0).trans (ifUnderflow_carry hpolicy h))

/-! ### The steps of one code (R198 to R205) -/

/-- Settles O38: the eight steps are `codeInc` and `codeDec` of their field. -/
theorem singleCodeStepsMoveByOne : Obligations.SingleCodeStepsMoveByOne := by
  unfold Obligations.SingleCodeStepsMoveByOne
  intro s f up down hops
  have hexec : exec up s = finish (codeInc f s) ∧ exec down s = finish (codeDec f s) := by
    obtain ⟨rfl, rfl, rfl⟩ | ⟨rfl, rfl, rfl⟩ | ⟨rfl, rfl, rfl⟩ | ⟨rfl, rfl, rfl⟩ := hops
    all_goals exact ⟨rfl, rfl⟩
  rw [hexec.1, hexec.2]
  exact ⟨fun hr => ⟨finish_of_fault (codeInc_out hr), finish_of_fault (codeDec_out hr)⟩,
    fun hr => ⟨fun h => ⟨_, finish_of_ok (codeInc_ok hr h), putCode_only f _ s⟩,
      fun h => finish_of_fault (codeInc_end hr h),
      fun h => ⟨_, finish_of_ok (codeDec_ok hr h), putCode_only f _ s⟩,
      fun h => finish_of_fault (codeDec_end hr h)⟩⟩

/-! ### The LC sub-codes (R206) -/

theorem lcExpand_tooWide {s : State} (hr : inRange s.cfg s.code .lcCode = true) (hf : (lcSubOf s).fits s.cfg = false) :
    lcExpand s = .fault ⟨.lcMapRange, .lcCode s.code.lcCode⟩ s :=
  (requireInRange_in hr _).trans (if_neg (Bool.eq_false_iff.mp hf))

/-- Settles O40: after the check of the code, by whether the sub-codes of the map fit. -/
theorem lcExpandAppliesTheMap : Obligations.LcExpandAppliesTheMap := by
  unfold Obligations.LcExpandAppliesTheMap
  exact fun s hr => ⟨fun hf => finishWith_of_ok (lcExpand_ok hr hf), fun hf => finishWith_of_fault (lcExpand_tooWide hr hf)⟩

end Sys2Proof.Machine
end

section
/-! PROOFS. The encoders: each writes its own fields of the mirror and stops at a code past its width after the fields
before it, and a commit brings the fields to the live configuration (42_dac_parameters.md R192, R207 to R214). -/

namespace Sys2Proof.Machine

/-! ### What the encoders write (R207 to R211) -/

/-- The value that the encoders put into a chain field. -/
def fieldValue (s : State) : ChainField → Nat
  | .hfCoarse => s.code.hfCoarse
  | .hfFine => s.code.hfFine
  | .rc2mCoarse => s.code.rc2mCoarse
  | .rc2mFine => s.code.rc2mFine
  | .rc2mSuperfine => s.code.rc2mSuperfine
  | .ifCoarse => s.code.ifCoarse
  | .ifFine => s.code.ifFine
  | .lcCoarse => (lcSubOf s).coarse
  | .lcMid => (lcSubOf s).mid
  | .lcFine => (lcSubOf s).fine

theorem allFields_eq_map (s : State) : allFields s = ChainField.all.map fun f => (f, fieldValue s f) := rfl

theorem fieldValue_mem_allFields (s : State) (f : ChainField) : (f, fieldValue s f) ∈ allFields s := by
  rw [allFields_eq_map]
  exact List.mem_map_of_mem (ChainField.mem_all f)

section

variable {fs : List (ChainField × Nat)} {s t : State} (h : Encoded fs s t)

include h

theorem Encoded.holds {f : ChainField} {v : Nat} (hf : (f, v) ∈ fs) : mirrorHolds t f v := by
  obtain ⟨-, -, hholds, -⟩ := h
  exact hholds _ hf

theorem Encoded.sameBit {p : Nat} (hp : ∀ e ∈ fs, ¬ inField s.cfg e.1 p) : SameBit s t p := by
  obtain ⟨-, -, -, hother⟩ := h
  exact hother p hp

theorem Encoded.chainInv (hinv : chainInv s) : chainInv t := by
  obtain ⟨⟨hlast, ha, hb, hl⟩, -⟩ := h.onlyMirror
  exact chainInv_congr hlast ha hb hl h.cfg hinv

theorem Encoded.undisturbed (hu : s.undisturbed) : t.undisturbed := by
  obtain ⟨-, -, -, hsession, -, -, -, henv⟩ := h.onlyMirror
  exact undisturbed_of_session (n := 0) hu hsession henv

end

/-- Settles O41: each encoder's law, read field by field. -/
theorem encodersWriteTheirOwnFields : Obligations.EncodersWriteTheirOwnFields := by
  unfold Obligations.EncodersWriteTheirOwnFields
  intro s hok hfull
  refine ⟨fun hhf => ?hf, fun hrc => ?rc2m, fun hif => ?ifc, fun hlc => ?lc, fun hhf hrc hif hlc => ?all⟩
  case hf =>
    obtain ⟨t, hrun, henc⟩ := encodeHf_ok hok hfull hhf
    exact ⟨t, finish_of_ok hrun, henc.holds (by simp), henc.holds (by simp), henc.onlyMirror,
      fun p h1 h2 => henc.sameBit (by simp [h1, h2])⟩
  case rc2m =>
    obtain ⟨t, hrun, henc⟩ := encodeRc2m_ok hok hfull hrc
    exact ⟨t, finish_of_ok hrun, henc.holds (by simp), henc.holds (by simp), henc.holds (by simp), henc.onlyMirror,
      fun p h1 h2 h3 => henc.sameBit (by simp [h1, h2, h3])⟩
  case ifc =>
    obtain ⟨t, hrun, henc⟩ := encodeIf_ok hok hfull hif
    exact ⟨t, finish_of_ok hrun, henc.holds (by simp), henc.holds (by simp), henc.onlyMirror,
      fun p h1 h2 => henc.sameBit (by simp [h1, h2])⟩
  case lc =>
    obtain ⟨t, hrun, henc⟩ := encodeLc_ok hok hfull hlc
    exact ⟨t, finish_of_ok hrun, henc.holds (by simp), henc.holds (by simp), henc.holds (by simp), henc.onlyMirror,
      fun p h1 h2 h3 => henc.sameBit (by simp [h1, h2, h3])⟩
  case all =>
    obtain ⟨t, hrun, henc⟩ := encodeAll_ok hok hfull hhf hrc hif hlc
    have hholds (f : ChainField) := henc.holds (fieldValue_mem_allFields s f)
    exact ⟨t, finish_of_ok hrun, henc.onlyMirror, hholds .hfCoarse, hholds .hfFine, hholds .rc2mCoarse, hholds .rc2mFine,
      hholds .rc2mSuperfine, hholds .ifCoarse, hholds .ifFine, hholds .lcCoarse, hholds .lcMid, hholds .lcFine,
      fun p hp => henc.sameBit fun e _ => hp e.1⟩

/-! ### A code past its width (R192, R283) -/

theorem encodeField_tooWide {s : State} (hok : s.cfg.ok = true) {f : ChainField} {v : Nat} (hw : 1 ≤ s.cfg.width.get f)
    (hv : 2 ^ s.cfg.width.get f ≤ v) : encodeField f v s = .fault ⟨.fieldRange, .value v (s.cfg.width.get f)⟩ s := by
  have hspan := Config.ok_field hok f
  exact (if_neg (by omega)).trans (if_pos hv)

theorem encodeHf_fineTooWide {s : State} (hok : s.cfg.ok = true) (hfull : s.mirror.full)
    (hc : fitsField s.cfg .hfCoarse s.code.hfCoarse) (hw : 1 ≤ s.cfg.width.hfFine)
    (hv : 2 ^ s.cfg.width.hfFine ≤ s.code.hfFine) :
    ∃ t, encodeHf s = .fault ⟨.fieldRange, .value s.code.hfFine s.cfg.width.hfFine⟩ t
      ∧ Encoded [(.hfCoarse, s.code.hfCoarse)] s t := by
  obtain ⟨t, hrun, henc⟩ := encodeField_ok hok hfull hc
  have hstop := encodeField_tooWide (s := t) (f := .hfFine) (v := s.code.hfFine) (by rw [henc.cfg]; exact hok)
    (by rw [henc.cfg]; exact hw) (by rw [henc.cfg]; exact hv)
  rw [henc.cfg] at hstop
  exact ⟨t, by simp only [encodeHf, hrun, Res.andThen, Res.bind, henc.code, hstop, PerField.get], henc⟩

theorem encodeAll_of_encodeHf_fault {s t : State} {e : FaultRec} (h : encodeHf s = .fault e t) :
    encodeAll s = .fault e t := by rw [encodeAll, h]; rfl

/-- Settles O42: both operations stop in DAC_ENCODE_HF, which has written HF.coarse. -/
theorem encoderFaultKeepsEarlierFields : Obligations.EncoderFaultKeepsEarlierFields := by
  unfold Obligations.EncoderFaultKeepsEarlierFields
  intro s hok hfull hc hw hv op hop
  obtain ⟨t, hstop, henc⟩ := encodeHf_fineTooWide hok hfull hc hw hv
  obtain ⟨hchain, hcounters, hcode, hsession, ⟨hfaults, hrefused, -⟩, hown⟩ := henc.onlyMirror
  refine ⟨raiseFault _ t, ?run, congrArg (· ++ _) hfaults, henc.holds (List.mem_singleton_self _),
    fun p hp => henc.sameBit (List.forall_mem_singleton.mpr hp), hchain, hcounters, hcode, hsession, hown, hrefused⟩
  case run =>
    obtain rfl | rfl := hop
    · exact finish_of_fault hstop
    · exact finish_of_fault (encodeAll_of_encodeHf_fault hstop)

/-! ### Encoding and committing (R214) -/

theorem execAll_cons {i : Instr} {s t : State} (h : exec i s = .next t) (is : List Instr) :
    execAll (i :: is) s = execAll is t := by simp only [execAll, h]

/-- Where the live configuration equals the mirror, a field of the one reads as the field of the other. -/
theorem liveHolds_of_mirrorHolds {s t : State} (hok : s.cfg.ok = true) (hcfg : t.cfg = s.cfg)
    (hlive : ∀ p, p < nAsc → ∃ b, s.mirror.bit p = some b ∧ t.l.at p = Bit3.ofBool b) {f : ChainField} {v : Nat}
    (h : mirrorHolds s f v) : liveHolds t f v := by
  intro i hi
  rw [hcfg] at hi ⊢
  have hspan := Config.ok_field hok f
  obtain ⟨b, hbit, hl⟩ := hlive (s.cfg.fieldPos.get f + i) (by omega)
  cases hbit.symm.trans (h i hi)
  exact hl

/-- Settles O43: the encoders leave the chain as it was, and the commit makes the live configuration equal the mirror. -/
theorem storeReachesTheChip : Obligations.StoreReachesTheChip := by
  unfold Obligations.StoreReachesTheChip
  intro s hok hrole hinv hu hfull hhf hrc hif hlc
  obtain ⟨s1, hencode, henc⟩ := encodeAll_ok hok hfull hhf hrc hif hlc
  have hcfg := henc.cfg
  have hok1 : s1.cfg.ok = true := by rw [hcfg]; exact hok
  obtain ⟨t, hcommit, hchain, -, -, -, -, hframe⟩ := ascCommit_ok quiet_accessPoint hok1 (by rw [hcfg]; exact hrole)
    (henc.chainInv hinv) (henc.undisturbed hu) (henc.full hfull)
  have hlive (p : Nat) (hp : p < nAsc) : ∃ b, s1.mirror.bit p = some b ∧ t.l.at p = Bit3.ofBool b := by
    obtain ⟨b, hbit, hl, -⟩ := hchain p hp
    exact ⟨b, hbit, hl⟩
  obtain ⟨-, -, -, -, hrecord1, -⟩ := henc.onlyMirror
  obtain ⟨-, -, hcode, -, hrecord, -, -⟩ := hframe
  have ⟨_, _, _, htcfg, _⟩ := hrecord
  have hholds (f : ChainField) : liveHolds t f (fieldValue s f) :=
    liveHolds_of_mirrorHolds hok1 htcfg hlive (henc.holds (fieldValue_mem_allFields s f))
  have hrun : execAll [.dacEncodeAll, .ascCommit] s = .next t :=
    (execAll_cons (i := .dacEncodeAll) (finish_of_ok hencode) _).trans
      (execAll_cons (i := .ascCommit) (finish_of_ok hcommit) _)
  refine ⟨t, hrun, hholds .hfCoarse, hholds .hfFine, hholds .rc2mCoarse, hholds .rc2mFine, hholds .rc2mSuperfine,
    hholds .ifCoarse, hholds .ifFine, hholds .lcCoarse, hholds .lcMid, hholds .lcFine, fun p hp hout => ?rest,
    hcode.trans henc.code, hrecord1.trans hrecord⟩
  case rest =>
    obtain ⟨b, hbit, hl⟩ := hlive p hp
    exact ⟨b, (henc.sameBit fun e _ => hout e.1).symm.trans hbit, hl⟩

end Sys2Proof.Machine
end

section
/-! PROOFS. The four corrections: which step each takes on a count, that a step changes the codes one way or stops in place,
and that the corrections of two domains commute (43_calibration_sequencer.md R248 to R251, R254, R259, R260). -/

namespace Sys2Proof.Machine

/-! ### Which step a count asks for (R248 to R251) -/

/-- Settles O47: the corrections by the bands, where each is one of the store's steps or nothing. -/
theorem correctionsStepTowardsTheBand : Obligations.CorrectionsStepTowardsTheBand := by
  unfold Obligations.CorrectionsStepTowardsTheBand
  exact fun s c => ⟨fun h => congrArg finish (hfCorrect_low h s), fun h => congrArg finish (hfCorrect_high h s),
    fun h h' => finish_of_ok (hfCorrect_band h h' s), fun h => congrArg finish (lcCorrect_high h),
    fun h => congrArg finish (lcCorrect_low h), fun h => finish_of_ok (lcCorrect_at h),
    fun h => congrArg finish (ifCorrect_high h), fun h => congrArg finish (ifCorrect_low h),
    fun h h' => finish_of_ok (ifCorrect_band h h')⟩

/-- The step of an RC2M code goes up where the side of the window and RC2M_HIGH_ACTION agree (R250). -/
theorem rc2mStep_eq (e : Int) (f : Field) (s : State) :
    rc2mStep e f s = if 0 < e ↔ s.cfg.rc2mHighAction = .inc then codeInc f s else codeDec f s := by
  unfold rc2mStep rc2mUp rc2mDown
  by_cases he : 0 < e <;> cases hd : s.cfg.rc2mHighAction <;> simp [he]

/-- Settles O48: the tiers by the distance from the target, each a step in the direction of `rc2mStep_eq`. -/
theorem rc2mCorrectionSelectsOneTier : Obligations.Rc2mCorrectionSelectsOneTier := by
  unfold Obligations.Rc2mCorrectionSelectsOneTier
  intro s c e hok he
  obtain ⟨hfine, hsuperfine⟩ := Config.ok_thresholds hok
  have htiers := rc2mCorrect_tiers (c := c.toNat) hfine hsuperfine e he
  have hexec (x : Res Unit) (h : rc2mCorrect c.toNat s = x) : exec (.rc2mCorrect c) s = finish x := congrArg finish h
  refine ⟨fun h => hexec (.ok () s) ?band, fun up hup => ?tiers⟩
  case band => rw [htiers, if_neg (by omega), if_neg (by omega), if_neg (by omega)]
  case tiers =>
    have hstep (f : Field) : rc2mStep e f s = if up then codeInc f s else codeDec f s :=
      (rc2mStep_eq e f s).trans (if_congr hup.symm rfl rfl)
    refine ⟨fun h => ?coarse, fun h h' => ?fine, fun h h' => ?superfine⟩
    case coarse => rw [hexec _ htiers, if_pos h, hstep]; cases up <;> rfl
    case fine => rw [hexec _ htiers, if_neg (by omega), if_pos h, hstep]; cases up <;> rfl
    case superfine =>
      rw [hexec _ htiers, if_neg (by omega), if_neg (by omega), if_pos h, hstep]; cases up <;> rfl

/-- Whatever the order of the thresholds, the RC2M correction is one step of one of the three codes, which the configuration
and the count select, or nothing inside the superfine window. -/
theorem rc2mCorrect_selects (c : Nat) (cfg : Config) {e : Int} (he : e = (c : Int) - 200000) :
    (e.natAbs ≤ cfg.rc2mTSuperfine ∧ ∀ s : State, s.cfg = cfg → rc2mCorrect c s = .ok () s)
      ∨ ∃ f, rc2mField f = true ∧ ∀ s : State, s.cfg = cfg → rc2mCorrect c s = rc2mStep e f s := by
  have htiers (s : State) : rc2mCorrect c s =
      if s.cfg.rc2mTCoarse < e.natAbs then rc2mStep e .rc2mCoarse s
      else if s.cfg.rc2mTFine < e.natAbs then rc2mStep e .rc2mFine s
      else if s.cfg.rc2mTSuperfine < e.natAbs then rc2mStep e .rc2mSuperfine s
      else .ok () s := by
    unfold rc2mCorrect rc2mStep
    rw [show (c : Int) - (rc2mTarget : Int) = e from he.symm]
    dsimp only
    split_ifs <;> first | rfl | omega
  by_cases hc : cfg.rc2mTCoarse < e.natAbs
  · exact .inr ⟨.rc2mCoarse, rfl, fun s hs => by rw [htiers, hs, if_pos hc]⟩
  by_cases hf : cfg.rc2mTFine < e.natAbs
  · exact .inr ⟨.rc2mFine, rfl, fun s hs => by rw [htiers, hs, if_neg hc, if_pos hf]⟩
  by_cases hsf : cfg.rc2mTSuperfine < e.natAbs
  · exact .inr ⟨.rc2mSuperfine, rfl, fun s hs => by rw [htiers, hs, if_neg hc, if_neg hf, if_pos hsf]⟩
  · exact .inl ⟨Nat.le_of_not_lt hsf, fun s hs => by rw [htiers, hs, if_neg hc, if_neg hf, if_neg hsf]⟩

/-! ### What a step of the codes does -/

/-- The outcome of a step of the codes from s: a fault in place, or new codes in relation R to the old ones. -/
def StepsBy (R : Codes → Codes → Prop) (s : State) (x : Res Unit) : Prop :=
  (∃ e, x = .fault e s) ∨ ∃ c, x = .ok () (setCode c s) ∧ R s.code c

/-- A step that does not fault has moved the codes by R. -/
theorem StepsBy.moved {R : Codes → Codes → Prop} {s t : State} {x : Res Unit} (h : StepsBy R s x)
    (hx : finish x = .next t) (hf : t.faults = s.faults) : R s.code t.code := by
  obtain ⟨e, rfl⟩ | ⟨c, rfl, hR⟩ := h
  · cases hx
    simp at hf
  · cases hx
    exact hR

/-- A step whose relation keeps no codes as they are changes the state, by its fault or by the new codes. -/
theorem StepsBy.changes {R : Codes → Codes → Prop} {s : State} {x : Res Unit} (h : StepsBy R s x)
    (hR : ∀ c, ¬ R c c) : finish x ≠ .next s := by
  intro hx
  have := h.moved hx rfl
  exact hR _ this

/-- The code of f alone moves up by one. -/
def RaisedAt (f : Field) (c c' : Codes) : Prop := c'.get f = c.get f + 1 ∧ ∀ g, g ≠ f → c'.get g = c.get g

/-- The code of f alone moves down by one. -/
def LoweredAt (f : Field) (c c' : Codes) : Prop := c'.get f + 1 = c.get f ∧ ∀ g, g ≠ f → c'.get g = c.get g

/-- The pair of a coarse and a fine code moves up in lexicographic order, by one where the coarse code stays. -/
def PairRaised (f g : Field) (c c' : Codes) : Prop :=
  c.get f < c'.get f ∨ (c'.get f = c.get f ∧ c'.get g = c.get g + 1)

/-- The pair moves down. -/
def PairLowered (f g : Field) (c c' : Codes) : Prop :=
  c'.get f < c.get f ∨ (c'.get f = c.get f ∧ c'.get g + 1 = c.get g)

theorem codeInc_steps (f : Field) (s : State) : StepsBy (RaisedAt f) s (codeInc f s) := by
  cases hr : inRange s.cfg s.code f with
  | false => exact .inl ⟨_, codeInc_out hr⟩
  | true =>
    obtain ⟨-, hmax⟩ := (inRange_iff _ _ _).mp hr
    rcases Nat.lt_or_eq_of_le hmax with hlt | heq
    · exact .inr ⟨_, codeInc_ok hr hlt, codes_get_set_same _ _ _, fun g hg => codes_get_set_other _ _ hg⟩
    · exact .inl ⟨_, codeInc_end hr heq⟩

theorem codeDec_steps (f : Field) (s : State) : StepsBy (LoweredAt f) s (codeDec f s) := by
  cases hr : inRange s.cfg s.code f with
  | false => exact .inl ⟨_, codeDec_out hr⟩
  | true =>
    obtain ⟨hmin, -⟩ := (inRange_iff _ _ _).mp hr
    rcases Nat.lt_or_eq_of_le hmin with hlt | heq
    · refine .inr ⟨_, codeDec_ok hr hlt, ?_, fun g hg => codes_get_set_other _ _ hg⟩
      rw [codes_get_set_same]
      omega
    · exact .inl ⟨_, codeDec_end hr heq.symm⟩

/-- The checks before the step of a pair stop in place. -/
theorem pair_steps {R : Codes → Codes → Prop} {s : State} (f g : Field) {k : State → Res Unit} (h : StepsBy R s (k s)) :
    StepsBy R s ((requireInRange f s).andThen fun s => (requireInRange g s).andThen k) := by
  cases hf : inRange s.cfg s.code f with
  | false => exact .inl ⟨_, requireInRange_out hf _⟩
  | true =>
    cases hg : inRange s.cfg s.code g with
    | false => exact .inl ⟨_, requireInRange_pair_out hf hg k⟩
    | true => rwa [requireInRange_pair_in hf hg k]

theorem hfFineDec_steps (s : State) : StepsBy (PairLowered .hfCoarse .hfFine) s (hfFineDec s) := by
  refine pair_steps _ _ ?_
  split
  · split
    · exact .inl ⟨_, rfl⟩
    · exact .inr ⟨_, rfl, .inl (Nat.sub_one_lt ‹_›)⟩
  · exact .inr ⟨_, rfl, .inr ⟨rfl, Nat.sub_one_add_one ‹_›⟩⟩

theorem hfFineInc_steps (s : State) : StepsBy (PairRaised .hfCoarse .hfFine) s (hfFineInc s) := by
  refine pair_steps _ _ ?_
  split
  · split
    · exact .inl ⟨_, rfl⟩
    · exact .inr ⟨_, rfl, .inl (Nat.lt_succ_self _)⟩
  · exact .inr ⟨_, rfl, .inr ⟨rfl, rfl⟩⟩

theorem ifFineInc_steps (s : State) : StepsBy (PairRaised .ifCoarse .ifFine) s (ifFineInc s) := by
  refine pair_steps _ _ ?_
  split
  · split
    · exact .inl ⟨_, rfl⟩
    · exact .inr ⟨_, rfl, .inl (Nat.lt_succ_self _)⟩
  · exact .inr ⟨_, rfl, .inr ⟨rfl, rfl⟩⟩

/-- IF moves down by its fine code, or from fine 0 by a named carry that lowers the coarse code (R197). -/
theorem ifFineDec_steps (s : State) :
    StepsBy (fun c c' => (c.ifFine = 0 → c'.ifCoarse < c.ifCoarse)
      ∧ (0 < c.ifFine → c'.ifCoarse = c.ifCoarse ∧ c'.ifFine + 1 = c.ifFine)) s (ifFineDec s) := by
  refine pair_steps _ _ ?_
  split
  · next h0 =>
    unfold ifUnderflow
    split
    · exact .inl ⟨_, rfl⟩
    · split
      · exact .inl ⟨_, rfl⟩
      · exact .inr ⟨_, rfl, fun _ => Nat.sub_one_lt ‹_›, fun h => absurd h0 h.ne'⟩
  · next h0 => exact .inr ⟨_, rfl, fun h => absurd h h0, fun _ => ⟨rfl, Nat.sub_one_add_one h0⟩⟩

/-! ### In band means nothing to correct (R254) -/

theorem hfInBand_iff (c : Word) (s : State) : hfInBand c.toNat = true ↔ exec (.hfCorrect c) s = .next s := by
  have hband : hfInBand c.toNat = true ↔ 1997000 ≤ c.toNat ∧ c.toNat ≤ 2003000 := by
    simp only [hfInBand, Bool.and_eq_true, decide_eq_true_eq]
    rfl
  rw [hband]
  refine ⟨fun h => finish_of_ok (hfCorrect_band h.1 h.2 s), fun hsame => ?_⟩
  change finish (hfCorrect c.toNat s) = _ at hsame
  by_contra hout
  rcases Nat.lt_or_ge c.toNat 1997000 with h | h
  · rw [hfCorrect_low h] at hsame
    exact (hfFineDec_steps s).changes (by simp [PairLowered]) hsame
  · rw [hfCorrect_high (by omega)] at hsame
    exact (hfFineInc_steps s).changes (by simp [PairRaised]) hsame

theorem lcInBand_iff (c : Word) (s : State) : lcInBand s.cfg c.toNat = true ↔ exec (.lcCorrect c) s = .next s := by
  have hband : lcInBand s.cfg c.toNat = true ↔ c.toNat = s.cfg.lcTarget := by simp [lcInBand]
  rw [hband]
  refine ⟨fun h => finish_of_ok (lcCorrect_at h), fun hsame => ?_⟩
  change finish (lcCorrect c.toNat s) = _ at hsame
  by_contra hout
  rcases Nat.lt_or_gt_of_ne hout with h | h
  · rw [lcCorrect_low h] at hsame
    exact (codeInc_steps _ s).changes (by simp [RaisedAt]) hsame
  · rw [lcCorrect_high h] at hsame
    exact (codeDec_steps _ s).changes (by simp [LoweredAt]) hsame

theorem ifInBand_iff (c : Word) (s : State) : ifInBand s.cfg c.toNat = true ↔ exec (.ifCorrect c) s = .next s := by
  have hband : ifInBand s.cfg c.toNat = true ↔ c.toNat ≤ s.cfg.ifTarget + 1400 ∧ s.cfg.ifTarget ≤ c.toNat + 1400 := by
    refine decide_eq_true_iff.trans ?_
    change ((c.toNat : Int) - s.cfg.ifTarget).natAbs ≤ 1400 ↔ _
    omega
  rw [hband]
  refine ⟨fun h => finish_of_ok (ifCorrect_band h.1 h.2), fun hsame => ?_⟩
  change finish (ifCorrect c.toNat s) = _ at hsame
  by_contra hout
  rcases Nat.lt_or_ge (s.cfg.ifTarget + 1400) c.toNat with h | h
  · rw [ifCorrect_high h] at hsame
    exact (ifFineInc_steps s).changes (by simp [PairRaised]) hsame
  · rw [ifCorrect_low (by omega)] at hsame
    exact (ifFineDec_steps s).changes (fun c hc => by omega) hsame

theorem rc2mInBand_iff {s : State} (hok : s.cfg.ok = true) (c : Word) :
    rc2mInBand s.cfg c.toNat = true ↔ exec (.rc2mCorrect c) s = .next s := by
  have hband : rc2mInBand s.cfg c.toNat = true ↔ ((c.toNat : Int) - 200000).natAbs ≤ s.cfg.rc2mTSuperfine :=
    decide_eq_true_iff
  rw [hband]
  refine ⟨(rc2mCorrectionSelectsOneTier s c _ hok rfl).1, fun hsame => ?_⟩
  obtain ⟨hin, -⟩ | ⟨f, -, hstep⟩ := rc2mCorrect_selects c.toNat s.cfg rfl
  · exact hin
  · change finish (rc2mCorrect c.toNat s) = _ at hsame
    rw [hstep s rfl, rc2mStep_eq] at hsame
    split at hsame
    · exact absurd hsame ((codeInc_steps f s).changes (by simp [RaisedAt]))
    · exact absurd hsame ((codeDec_steps f s).changes (by simp [LoweredAt]))

/-- Settles O49: domain by domain, a count outside the band asks for a step, and every step changes the state. -/
theorem inBandMeansNothingToCorrect : Obligations.InBandMeansNothingToCorrect := by
  unfold Obligations.InBandMeansNothingToCorrect
  intro s c codes hok
  have hhf := hfInBand_iff c.chf s
  have hlc := lcInBand_iff c.clc s
  have hrc := rc2mInBand_iff hok c.c2m
  have hif := ifInBand_iff c.cif s
  refine ⟨rfl, rfl, hhf, hlc, hrc, hif, ?converged⟩
  case converged =>
    simp only [mkResult, inBandOf, InBand.all, Bool.and_eq_true, and_assoc, hhf, hlc, hrc, hif]

/-! ### A correction moves its codes one way (R260) -/

/-- Settles O51: outside its band a correction is one step, and a step that does not fault moves the codes as it says. -/
theorem correctionsMoveMonotonically : Obligations.CorrectionsMoveMonotonically := by
  unfold Obligations.CorrectionsMoveMonotonically
  intro s t c hf
  refine ⟨fun ht h => ?hfLow, fun ht h => ?hfHigh, fun ht h => ?ifHigh, fun ht h h0 => ?ifLow, fun ht h => ?lcHigh,
    fun ht h => ?lcLow, fun ht h => ?rc2m⟩
  case hfLow => exact (hfFineDec_steps s).moved ((congrArg finish (hfCorrect_low h s)).symm.trans ht) hf
  case hfHigh => exact (hfFineInc_steps s).moved ((congrArg finish (hfCorrect_high h s)).symm.trans ht) hf
  case ifHigh => exact (ifFineInc_steps s).moved ((congrArg finish (ifCorrect_high h)).symm.trans ht) hf
  case ifLow => exact ((ifFineDec_steps s).moved ((congrArg finish (ifCorrect_low h)).symm.trans ht) hf).2 h0
  case lcHigh => exact ((codeDec_steps _ s).moved ((congrArg finish (lcCorrect_high h)).symm.trans ht) hf).1
  case lcLow => exact ((codeInc_steps _ s).moved ((congrArg finish (lcCorrect_low h)).symm.trans ht) hf).1
  case rc2m =>
    obtain ⟨hin, -⟩ | ⟨f, hfield, hstep⟩ := rc2mCorrect_selects c.toNat s.cfg rfl
    · omega
    · have hside : (0 < (c.toNat : Int) - 200000) ↔ 200000 < c.toNat := by omega
      have hthree : f = .rc2mCoarse ∨ f = .rc2mFine ∨ f = .rc2mSuperfine := by
        simpa [rc2mField, or_assoc] using hfield
      replace ht := (congrArg finish ((hstep s rfl).trans (rc2mStep_eq _ f s))).symm.trans ht
      simp only [hside] at ht
      split at ht
      · next hup =>
        obtain ⟨hmove, hother⟩ := (codeInc_steps f s).moved ht hf
        exact ⟨f, hthree, hother, fun _ => hmove, fun hdown => absurd hup hdown⟩
      · next hdown =>
        obtain ⟨hmove, hother⟩ := (codeDec_steps f s).moved ht hf
        exact ⟨f, hthree, hother, fun hup => absurd hup hdown, fun _ => hmove⟩

/-! ### Corrections of two domains (R259) -/

/-- The codes of the domain that a correction belongs to. -/
def correctedFields : Instr → Field → Bool
  | .hfCorrect _ => hfField
  | .lcCorrect _ => lcField
  | .rc2mCorrect _ => rc2mField
  | .ifCorrect _ => ifField
  | _ => fun _ => false

theorem local_rc2mCorrect (c : Nat) : Local rc2mField (rc2mCorrect c) := by
  intro s
  obtain ⟨-, hnothing⟩ | ⟨f, hf, hstep⟩ := rc2mCorrect_selects c s.cfg rfl
  · exact (local_nothing _).of_fields s hnothing
  · obtain ⟨op, hop, heq⟩ := local_rc2mStep ((c : Int) - 200000) hf s
    exact hop.of_fields s fun u hu => (hstep u hu).trans (heq u hu)

/-- An instruction that acts on its own domain's codes alone, and whose stops add to the record of faults. -/
def LocalInstr (i : Instr) : Prop :=
  ∃ op, Local (correctedFields i) op ∧ (∀ s, exec i s = finish (op s))
    ∧ ∀ s : State, (op s).Sat (fun t => t.faults = s.faults) fun t => t.faults = s.faults

theorem corrections_local {i : Instr} {c d e f : Word}
    (hi : i ∈ [Instr.hfCorrect c, .lcCorrect d, .rc2mCorrect e, .ifCorrect f]) : LocalInstr i := by
  simp only [List.mem_cons, List.not_mem_nil, or_false] at hi
  obtain rfl | rfl | rfl | rfl := hi
  · exact ⟨_, local_hfCorrect _, fun _ => rfl, fun _ => sat_hfCorrect (fun _ _ _ h => h) _ rfl⟩
  · exact ⟨_, local_lcCorrect _, fun _ => rfl, fun _ => sat_lcCorrect (fun _ _ _ h => h) _ rfl⟩
  · exact ⟨_, local_rc2mCorrect _, fun _ => rfl, fun _ => sat_rc2mCorrect (fun _ _ _ h => h) _ rfl⟩
  · exact ⟨_, local_ifCorrect _, fun _ => rfl, fun _ => sat_ifCorrect (fun _ _ _ h => h) _ rfl⟩

/-- The one correction of the four whose domain has the field. -/
def correctionOf (c d e f : Word) : Field → Instr
  | .hfCoarse | .hfFine => .hfCorrect c
  | .lcCode => .lcCorrect d
  | .rc2mCoarse | .rc2mFine | .rc2mSuperfine => .rc2mCorrect e
  | .ifCoarse | .ifFine => .ifCorrect f

theorem eq_correctionOf {i : Instr} {c d e f : Word} {g : Field}
    (hi : i ∈ [Instr.hfCorrect c, .lcCorrect d, .rc2mCorrect e, .ifCorrect f]) (hg : correctedFields i g = true) :
    i = correctionOf c d e f g := by
  simp only [List.mem_cons, List.not_mem_nil, or_false] at hi
  obtain rfl | rfl | rfl | rfl := hi <;> cases g <;> first | rfl | cases hg

/-- An operation that cannot refuse, and has recorded no fault, has completed. -/
theorem ok_of_finish {x : Res Unit} {s t : State} (hx : x.Sat (fun t => t.faults = s.faults) fun t => t.faults = s.faults)
    (hr : ∀ r u, x ≠ .refuse r u) (ht : finish x = .next t) (hf : t.faults = s.faults) : x = .ok () t := by
  cases x with
  | ok v u => cases ht; rfl
  | fault e u =>
    cases ht
    rw [raiseFault_faults, show u.faults = s.faults from hx] at hf
    simp at hf
  | refuse r u => exact absurd rfl (hr r u)

/-- Settles O50: each correction reads and writes its own domain's codes alone. -/
theorem correctionsOfTwoDomainsCommute : Obligations.CorrectionsOfTwoDomainsCommute := by
  unfold Obligations.CorrectionsOfTwoDomainsCommute
  intro s t u i j c d e f hi hj hij ht htf hu huf
  obtain ⟨op, hop, hexec, hsat⟩ := corrections_local hi
  obtain ⟨op', hop', hexec', hsat'⟩ := corrections_local hj
  have hopt := ok_of_finish (hsat s) (hop s).2 ((hexec s).symm.trans ht) htf
  have hopu := ok_of_finish (hsat' s) (hop' s).2 ((hexec' s).symm.trans hu) huf
  obtain ⟨v, hv, hv'⟩ := hop.comm hop'
    (fun _ ⟨hg, hg'⟩ => hij ((eq_correctionOf hi hg).trans (eq_correctionOf hj hg').symm)) hopt hopu
  have hj' : exec j t = .next v := (hexec' t).trans (finish_of_ok hv)
  have hi' : exec i u = .next v := (hexec u).trans (finish_of_ok hv')
  rw [execAll_cons ht, execAll_cons hu, execAll_cons hj', execAll_cons hi']

end Sys2Proof.Machine
end

section
/-! PROOFS. Arming, the interrupt's control, the entry before any step of the main context, warm-up ticks and the wait
(43_calibration_sequencer.md R241 to R246, R255 to R258; 60_exceptions.md R286, R289). -/

namespace Sys2Proof.Machine

/-! ### Arming and the interrupt's control (R241 to R244, R255) -/

/-- Settles O45: the two branches of the arming. -/
theorem armingStartsASession : Obligations.ArmingStartsASession := by
  unfold Obligations.ArmingStartsASession
  refine fun s => ⟨fun hidle => ⟨_, finish_of_ok (if_pos hidle), ?_⟩, fun hbusy => finish_of_refuse (if_neg hbusy)⟩
  simp [SameChain, SameMirror, SameCounters, SameRecord, SameOwn]

theorem refEdge_enabled {s : State} (hen : s.refEn = true) (hpending : s.refPending = false)
    (hhandler : s.inHandler = false) : refEdge s = { s with refPending := true } := by
  simp [refEdge, edgeEnabled, hen, hpending, hhandler]

theorem refEdge_disabled {s : State} (h : s.refEn = false ∨ s.refPending = true ∨ s.inHandler = true) :
    refEdge s = s := by
  have hoff : edgeEnabled s = false := by rcases h with h | h | h <;> simp [edgeEnabled, h]
  simp [refEdge, hoff]

theorem entryEnabled_iff (s : State) : entryEnabled s = true ↔ s.refPending = true ∧ s.inHandler = false := by
  simp [entryEnabled]

theorem exec_seqEnter_enabled {s : State} (h : entryEnabled s = true) :
    exec .seqEnter s = .next { enterHandler s with hand := [.seqTick, .seqExit] } :=
  congrArg Host.Outcome.next (if_pos h)

theorem exec_seqEnter_disabled {s : State} (h : s.refPending = false ∨ s.inHandler = true) :
    exec .seqEnter s = .next s :=
  congrArg Host.Outcome.next (if_neg (by rcases h with h | h <;> simp [entryEnabled, h]))

/-- The entry writes the pending bit, the handler bit and the handler body alone (R244). -/
theorem onlySession_entered (s : State) : OnlySession s { enterHandler s with hand := [.seqTick, .seqExit] } := by
  simp [OnlySession, SameChain, SameMirror, SameCounters, SameRecord, SameOwn]

/-- Settles O46: each operation where its guard holds and where it does not. -/
theorem interruptControlFollowsItsGuards : Obligations.InterruptControlFollowsItsGuards := by
  unfold Obligations.InterruptControlFollowsItsGuards
  intro s
  refine ⟨⟨refDisable s, rfl, ?disable⟩, fun hen hpending hhandler => ?edge,
    fun h => congrArg Host.Outcome.next (refEdge_disabled h), fun hpending hhandler => ?enter, exec_seqEnter_disabled,
    ⟨_, rfl, ?exit⟩⟩
  case disable =>
    have hstill : exec .refEdge (refDisable s) = .next (refDisable s) :=
      congrArg Host.Outcome.next (refEdge_disabled (.inl rfl))
    exact ⟨rfl, rfl, rfl, rfl, rfl, rfl, rfl, rfl, rfl, rfl, rfl, onlySession_refDisable s, hstill⟩
  case edge =>
    have hframe := onlySession_refEdge s
    rw [refEdge_enabled hen hpending hhandler] at hframe
    exact ⟨_, congrArg Host.Outcome.next (refEdge_enabled hen hpending hhandler), rfl, hen, hhandler, rfl, rfl, rfl, rfl,
      rfl, rfl, rfl, rfl, hframe⟩
  case enter =>
    exact ⟨_, exec_seqEnter_enabled ((entryEnabled_iff s).mpr ⟨hpending, hhandler⟩), rfl, rfl, rfl, rfl, rfl, rfl, rfl, rfl,
      rfl, rfl, rfl, onlySession_entered s⟩
  case exit => exact ⟨rfl, rfl, rfl, rfl, rfl, rfl, rfl, rfl, rfl, rfl, rfl, onlySession_seqExit s⟩

/-! ### The entry before any other step (R244, R289) -/

theorem cpuStep_of_entry {s : State} (h : entryEnabled s = true) : cpuStep s = exec .seqEnter s := if_pos h

/-- Settles O8: the entry is the first branch of the CPU's step, and the other agents write none of the parts named. -/
theorem stepTakesInterruptEntryFirst : Obligations.StepTakesInterruptEntryFirst := by
  unfold Obligations.StepTakesInterruptEntryFirst
  intro s hrun hpending hhandler
  have he : entryEnabled (agentsStep s) = true :=
    (entryEnabled_iff _).mpr ⟨hpending, (agentsStep_inHandler s).trans hhandler⟩
  refine ⟨_, (step_of_running hrun).trans ((cpuStep_of_entry he).trans (exec_seqEnter_enabled he)), rfl, rfl, rfl, ?_⟩
  obtain ⟨-, -, hcnt⟩ := sameGate_agentsStep s
  simpa [SameChain, SameMirror, SameRecord, SameGate] using hcnt

/-! ### Warm-up ticks (R245, R246) -/

/-- Settles O52: the law of the warm-up tick, at the access points of the main context. -/
theorem warmupTickOnlyCyclesTheGate : Obligations.WarmupTickOnlyCyclesTheGate := by
  unfold Obligations.WarmupTickOnlyCyclesTheGate
  intro s hu hi
  obtain ⟨t, hrun, hmode, hsettle, hret, hzero, -, hchain, hmirror, hcode, hsession, hrecord, henv⟩ :=
    seqTick_warmup quiet_accessPoint hu hi
  obtain ⟨hstate, hiter, hflag, hen, hpending, hhandler, hsnap, hprev, hresult, hhand, hwaiting⟩ := hsession
  exact ⟨t, finish_of_ok hrun, hiter, hmode, hsettle, hzero, hchain, hmirror, hcode, hrecord, hret, hstate, hflag, hen,
    hpending, hhandler, hsnap, hprev, hresult, hhand, hwaiting, henv⟩

/-! ### The wait (R256, R258) -/

/-- What a wait without edges leaves as it was. -/
def WaitFrame (s t : State) : Prop :=
  t.seqState = s.seqState ∧ t.ret = s.ret ∧ SameChain s t ∧ SameMirror s t ∧ SameGate s t ∧ t.code = s.code
    ∧ SameRecord s t

theorem waitFrame_blocked (s : State) : WaitFrame s { s with waiting := true } := by
  simp [WaitFrame, SameChain, SameMirror, SameGate, SameRecord]

theorem waitFrame_agentsStep (s : State) : WaitFrame s (agentsStep s) := by
  simp [WaitFrame, SameChain, SameMirror, sameGate_agentsStep, SameRecord]

theorem WaitFrame.trans {s t u : State} (h : WaitFrame s t) (h' : WaitFrame t u) : WaitFrame s u := by
  obtain ⟨hstate, hret, hchain, hmirror, hgate, hcode, hrecord⟩ := h
  obtain ⟨hstate', hret', hchain', hmirror', hgate', hcode', hrecord'⟩ := h'
  have ⟨_, _, _, hcfg, _⟩ := hrecord
  exact ⟨hstate'.trans hstate, hret'.trans hret, hchain.trans hchain', fun w => (hmirror' w).trans (hmirror w),
    hgate.trans hcfg hgate', hcode'.trans hcode, hrecord.trans hrecord'⟩

theorem waitDone_of_flag (n : Nat) {s : State} (h : s.doneFlag = true) : waitDone n s = .ok () (endWait s) := by
  cases n <;> simp [waitDone, h]

/-- With the flag clear the wait goes on from the state that its access point leaves. -/
theorem waitDone_of_point (n : Nat) {s t : State} (hflag : s.doneFlag = false) (hpoint : accessPoint s = .ok () t) :
    waitDone (n + 1) s = waitDone n t := by simp [waitDone, hflag, hpoint, Res.andThen, Res.bind]

/-- A wait with the flag clear, over a schedule without an edge, only lets the other agents move. -/
theorem waitDone_quiet (n : Nat) {s : State} (hflag : s.doneFlag = false) (hu : s.undisturbed) :
    ∃ t, waitDone n s = .ok () t ∧ t.doneFlag = false ∧ t.waiting = true ∧ WaitFrame s t := by
  induction n generalizing s with
  | zero => exact ⟨{ s with waiting := true }, by simp [waitDone, hflag], hflag, rfl, waitFrame_blocked s⟩
  | succ n ih =>
    obtain ⟨t, hrun, hclear, hwaiting, hframe⟩ :=
      ih ((agentsStep_doneFlag s).trans hflag) (undisturbed_agentsStep hu)
    exact ⟨t, (waitDone_of_point n hflag (quiet_accessPoint s hu)).trans hrun, hclear, hwaiting,
      (waitFrame_agentsStep s).trans hframe⟩

/-- Settles O55: with the flag set the wait ends at once; without, an induction over the schedule. -/
theorem waitReturnsOnlyWhenDone : Obligations.WaitReturnsOnlyWhenDone := by
  unfold Obligations.WaitReturnsOnlyWhenDone
  intro s
  refine ⟨fun hflag => ⟨endWait s, finish_of_ok (waitDone_of_flag _ hflag), ?ends⟩, fun hflag hpending hedges => ?blocks⟩
  case ends => simp [SameChain, SameMirror, SameCounters, SameRecord]
  case blocks =>
    obtain ⟨t, hrun, hclear, hwaiting, hframe⟩ := waitDone_quiet s.env.length hflag (.inr ⟨hpending, .inr hedges⟩)
    exact ⟨t, finish_of_ok hrun, hclear, hwaiting, hframe⟩

/-! ### A pending edge at a composite's first access (R244, R286) -/

/-- A composite that comes first to an access point runs from the state which that point leaves, where the point itself
leaves it so. -/
theorem resetAndEnable_of_point {pt : AccessPoint} {s t : State} (hs : pt s = .ok () t) (ht : pt t = .ok () t) :
    resetAndEnable pt s = resetAndEnable pt t := by
  simp only [resetAndEnable, patternAt, hs, ht]

theorem gateCycle_of_point {pt : AccessPoint} {s t : State} (hs : pt s = .ok () t) (ht : pt t = .ok () t) :
    gateCycle pt s = gateCycle pt t := by
  simp only [gateCycle, patternAt, hs, ht]

/-- What the whole handler leaves where it runs a warm-up tick and no other agent moves (R246). -/
structure WarmedUp (s t : State) : Prop where
  env : t.env = []
  pending : t.refPending = false
  handler : t.inHandler = false
  iter : t.iter = s.iter + 1
  cnt : t.cnt = ⟨0, 0, 0, 0, 0⟩
  chain : SameChain s t
  mirror : SameMirror s t
  code : t.code = s.code
  record : SameRecord s t
  ret : t.ret = s.ret
  state : t.seqState = s.seqState
  enable : t.refEn = s.refEn
  hand : t.hand = s.hand

theorem WarmedUp.undisturbed {s t : State} (h : WarmedUp s t) : t.undisturbed :=
  .inr ⟨h.pending, .inr (by simp [h.env])⟩

/-- An operation on the counters from the state after the handler leaves the rest as the handler left it. -/
theorem WarmedUp.after {n : Nat} {s t u : State} (h : WarmedUp s t) (hframe : OnlyCountersIn n t u) :
    u.iter = s.iter + 1 ∧ u.refPending = false ∧ u.inHandler = false ∧ SameChain s u ∧ SameMirror s u
      ∧ u.code = s.code ∧ SameRecord s u ∧ u.seqState = s.seqState ∧ u.refEn = s.refEn ∧ u.hand = s.hand := by
  obtain ⟨hchain, hmirror, hcode, hsession, hrecord, -⟩ := hframe
  obtain ⟨hstate, hiter, -, hen, hpending, hhandler, -, -, -, hhand, -⟩ := hsession
  exact ⟨hiter.trans h.iter, hpending.trans h.pending, hhandler.trans h.handler, h.chain.trans hchain,
    fun w => (hmirror w).trans (h.mirror w), hcode.trans h.code, h.record.trans hrecord, hstate.trans h.state,
    hen.trans h.enable, hhand.trans h.hand⟩

/-- A pending edge is handled at the access point, by one warm-up tick. -/
theorem accessPoint_warmup {s : State} (henv : s.env = []) (hpending : s.refPending = true)
    (hhandler : s.inHandler = false) (hi : s.iter + 1 ≤ 2) : ∃ t, accessPoint s = .ok () t ∧ WarmedUp s t := by
  have hstill : agentsStep s = s := agentsStep_nil henv
  obtain ⟨t, hrun, -, -, hret, hzero, -, hchain, hmirror, hcode, hsession, hrecord, htenv⟩ :=
    seqTick_warmup quiet_handlerPoint (undisturbed_enter s) hi
  obtain ⟨hstate, hiter, -, hen, hpend, -, -, -, -, hhand, -⟩ := hsession
  have hcnt : ∀ i : Counter, t.cnt.get i = 0 := hzero (.inr (by simp [henv]))
  refine ⟨exitHandler t, ?_, ⟨?_, hpend, rfl, hiter, ?_, hchain, hmirror, hcode, hrecord, hret, hstate, hen, hhand⟩⟩
  · have hpoint := mainPoint_entry (n := 0) (s := s) (t := t) (by rwa [hstill]) hhandler (by rwa [hstill])
    rw [accessPoint, henv]
    exact hpoint
  · rw [exitHandler_env, htenv]
    simp [henv]
  · exact perCounter_ext fun i => (hcnt i).trans (by cases i <;> rfl)

/-- Settles O56: the access point handles the edge, and the operation runs from the state after it, where nothing disturbs. -/
theorem pendingEdgeIsHandledBeforeTheNextAccess : Obligations.PendingEdgeIsHandledBeforeTheNextAccess := by
  unfold Obligations.PendingEdgeIsHandledBeforeTheNextAccess
  intro s op henv hpending hhandler hi hop
  obtain ⟨s1, hpoint, h1⟩ := accessPoint_warmup henv hpending hhandler hi
  have hstill : agentsStep s1 = s1 := agentsStep_nil h1.env
  have hagain : accessPoint s1 = .ok () s1 := (quiet_accessPoint s1 h1.undisturbed).trans (by rw [hstill])
  have hnoTick : s1.cfg.resetHolds = true ∨ ∀ acts ∈ s1.env, ∀ i, Act.tick i ∉ acts := .inr (by simp [h1.env])
  obtain rfl | rfl := hop
  · obtain ⟨t, hrun, hmode, hsettle, hret, hzero, -, hframe⟩ := resetAndEnable_ok quiet_accessPoint h1.undisturbed
    obtain ⟨hiter, hpend, hin, hrest⟩ := h1.after hframe
    exact ⟨t, finish_of_ok ((resetAndEnable_of_point hpoint hagain).trans hrun), fun _ => hret.trans h1.ret, nofun, hiter,
      hpend, hin, hmode, hsettle, hzero hnoTick, hrest⟩
  · obtain ⟨c, t, hrun, hexact, hmode, hsettle, -, hzero, -, hframe⟩ := gateCycle_ok quiet_accessPoint h1.undisturbed
    obtain ⟨hiter, hpend, hin, hrest⟩ := h1.after hframe
    obtain ⟨-, -, -, hcfg, -⟩ := h1.record
    refine ⟨setRet (.counts c) t, finishWith_of_ok ((gateCycle_of_point hpoint hagain).trans hrun), nofun, fun _ h0 => ?_,
      hiter, hpend, hin, hmode, hsettle, hzero hnoTick, hrest⟩
    have hc : c = ⟨0, 0, 0, 0, 0⟩ := (hexact (by rw [hcfg]; exact h0)).trans (by rw [hstill, h1.cnt])
    rw [hc]
    rfl

end Sys2Proof.Machine
end

section
/-! PROOFS. The sequencer's invariant through every operation of a main-context program and through every step
(43_calibration_sequencer.md R240, R243, R245, R252, R255). -/

namespace Sys2Proof.Machine

/-! ### The invariant of a run that goes on, and of one that has stopped -/

theorem sequencerInv_of_strongInv {s : State} (h : strongInv s) (hplace : handlerPlace s) : sequencerInv s := by
  obtain ⟨⟨hpending, hhandler, hsource, hflag, hresult, hiter, harmed, hconverging, hprogram⟩, hbelow, -, -⟩ := h
  exact ⟨⟨hpending, hhandler, hsource, hflag, hresult, hiter, harmed, hconverging, fun _ _ => hbelow⟩, hprogram,
    fun _ _ => hplace⟩

theorem sequencerInv_of_mainInv {s : State} (h : mainInv s) : sequencerInv s := by
  obtain ⟨hstrong, hhandler, hhand⟩ := h
  exact sequencerInv_of_strongInv hstrong (.inl ⟨hhand, hhandler⟩)

/-- After a recorded fault or refusal the weak invariant is all that is claimed. -/
theorem sequencerInv_of_stopped {s : State} (h : weakInv s) (hstop : s.faults ≠ [] ∨ s.refused = true) :
    sequencerInv s := by
  obtain ⟨hpending, hhandler, hsource, hflag, hresult, hiter, harmed, hconverging, hprogram⟩ := h
  have hended (hfaults : s.faults = []) (hrefused : s.refused = false) : False :=
    hstop.elim (fun hne => hne hfaults) fun hr => Bool.false_ne_true (hrefused.symm.trans hr)
  exact ⟨⟨hpending, hhandler, hsource, hflag, hresult, hiter, harmed, hconverging,
    fun hfaults hrefused => (hended hfaults hrefused).elim⟩, hprogram,
    fun hfaults hrefused => (hended hfaults hrefused).elim⟩

theorem strongInv_of_sequencerInv {s : State} (h : sequencerInv s) (hfaults : s.faults = [])
    (hrefused : s.refused = false) : strongInv s ∧ handlerPlace s := by
  obtain ⟨⟨hpending, hhandler, hsource, hflag, hresult, hiter, harmed, hconverging, hbelow⟩, hprogram, hplace⟩ := h
  exact ⟨⟨⟨hpending, hhandler, hsource, hflag, hresult, hiter, harmed, hconverging, hprogram⟩,
    hbelow hfaults hrefused, hfaults, hrefused⟩, hplace hfaults hrefused⟩

theorem mainProgram_of_todo_cons {s : State} {x : Issue} {rest : List Issue} (h : mainProgram s)
    (ht : s.todo = x :: rest) : mainProgram { s with todo := rest } :=
  fun y hy => h y (ht ▸ List.mem_cons_of_mem x hy)

theorem mainInv_of_todo_cons {s : State} {x : Issue} {rest : List Issue} (h : mainInv s) (ht : s.todo = x :: rest) :
    mainInv { s with todo := rest } := by
  obtain ⟨⟨⟨hpending, hhandler, hsource, hflag, hresult, hiter, harmed, hconverging, hprogram⟩, hrun⟩, hmain⟩ := h
  exact ⟨⟨⟨hpending, hhandler, hsource, hflag, hresult, hiter, harmed, hconverging,
    mainProgram_of_todo_cons hprogram ht⟩, hrun⟩, hmain⟩

/-! ### How an operation ends -/

theorem finish_sequencerInv {P : State → Prop} {x : Res Unit} (hP : ∀ s, P s → sequencerInv s)
    (hx : x.Sat P weakInv) : ∃ t, finish x = .next t ∧ sequencerInv t :=
  finish_sat hx hP (fun _ _ h => sequencerInv_of_stopped h (.inl (by simp)))
    fun _ _ h => sequencerInv_of_stopped h (.inr rfl)

/-- What a main-context operation leaves true: the invariant of the main context where it completes, the weak one where
it stops. -/
abbrev KeepsSession {α : Type} (x : Res α) : Prop := x.Sat mainInv weakInv

theorem KeepsSession.finish {x : Res Unit} (hx : KeepsSession x) : ∃ t, finish x = .next t ∧ sequencerInv t :=
  finish_sequencerInv (fun _ => sequencerInv_of_mainInv) hx

theorem KeepsSession.finishWith {α : Type} {val : α → RetVal} {x : Res α} (hx : KeepsSession x) :
    ∃ t, finishWith val x = .next t ∧ sequencerInv t :=
  KeepsSession.finish (hx.bind fun v s => mainInv_congr (sameView_setRet (val v) s))

namespace MainInv

/-- An operation without an access point also stops in a state of the main context's invariant. -/
theorem finish {x : Res Unit} (hx : x.Sat mainInv mainInv) : ∃ t, finish x = .next t ∧ sequencerInv t :=
  KeepsSession.finish (hx.mono (fun _ h => h) mainInv_weak)

theorem finishWith {α : Type} {val : α → RetVal} {x : Res α} (hx : x.Sat mainInv mainInv) :
    ∃ t, finishWith val x = .next t ∧ sequencerInv t :=
  KeepsSession.finishWith (hx.mono (fun _ h => h) mainInv_weak)

/-! ### The updates that an operation of the main context makes -/

theorem setMirror (w : Nat) (v : Word) (s : State) (_ : w < nWords) (h : mainInv s) :
    mainInv (setMirror (s.mirror.write w v) s) := mainInv_congr (sameView_setMirror _ s) h

theorem latchWrite (v : Word) (s : State) (h : mainInv s) : mainInv (latchWrite v s) :=
  mainInv_congr (sameView_latchWrite v s) h

theorem setCounters (c : Counts) (m : CntMode) (k : Nat) (s : State) (h : mainInv s) : mainInv (setCounters c m k s) :=
  mainInv_congr (sameView_setCounters c m k s) h

theorem nextDraw (s : State) (h : mainInv s) : mainInv (nextDraw s) := mainInv_congr (sameView_nextDraw s) h

theorem setCode (c : Codes) (s : State) (_ : BoundedStep s c) (h : mainInv s) : mainInv (setCode c s) :=
  mainInv_congr (sameView_setCode c s) h

theorem sat_accessPoint (s : State) (h : mainInv s) : KeepsSession (accessPoint s) := mainPoint_session _ s h

theorem refEdge {s : State} (h : mainInv s) : mainInv (refEdge s) := by
  unfold Machine.refEdge
  split
  · next he =>
    simp only [edgeEnabled, Bool.and_eq_true] at he
    obtain ⟨⟨⟨-, -, hsession⟩, hrun⟩, hhandler, hhand⟩ := h
    have hout : ¬ s.inHandler = true := by simp [hhandler]
    exact ⟨⟨⟨fun _ => he.1.1, fun hin => (hout hin).elim, hsession⟩, hrun⟩, hhandler, hhand⟩
  · exact h

/-! ### Arming and waiting (R241, R256) -/

theorem sat_seqArm {s : State} (h : mainInv s) : KeepsSession (seqArm s) := by
  have ⟨⟨⟨_, hhandler, _, _, _, _, _, _, hprogram⟩, _, hfaults, hrefused⟩, hmain⟩ := h
  unfold seqArm
  split
  · exact ⟨⟨⟨fun _ => rfl, hhandler, ⟨fun _ => .inl rfl, fun _ => rfl⟩, ⟨nofun, nofun⟩, nofun, Nat.zero_le _,
      fun _ => Nat.zero_le _, nofun, hprogram⟩, nofun, hfaults, hrefused⟩, hmain⟩
  · exact mainInv_weak s h

/-- The end of the wait: the flag stands in DONE alone, where the source is disabled. -/
theorem endWait {s : State} (h : mainInv s) (hflag : s.doneFlag = true) : mainInv (endWait s) := by
  obtain ⟨⟨⟨hpending, hhandler, hsource, hdone, -, hiter, -, -, hprogram⟩, -, hfaults, hrefused⟩, hmain⟩ := h
  have hidle : ¬ s.refEn = true := fun he => by
    rcases hsource.mp he with hs | hs <;> exact absurd (hs.symm.trans (hdone.mp hflag)) (by decide)
  exact ⟨⟨⟨hpending, hhandler, ⟨fun he => (hidle he).elim, nofun⟩, ⟨nofun, nofun⟩, nofun, hiter, nofun, nofun, hprogram⟩,
    nofun, hfaults, hrefused⟩, hmain⟩

theorem sat_waitDone (n : Nat) {s : State} (h : mainInv s) : KeepsSession (waitDone n s) := by
  induction n generalizing s with
  | zero =>
    unfold waitDone
    split
    · next hflag => exact endWait h hflag
    · exact h
  | succ n ih =>
    unfold waitDone
    split
    · next hflag => exact endWait h hflag
    · exact (sat_accessPoint s h).andThen fun _ h => ih h

/-! ### Every operation of a main-context program -/

theorem exec (i : Instr) (hi : handlerOnly i = false) {s : State} (h : mainInv s) (he : entryEnabled s = false) :
    ∃ t, Machine.exec i s = .next t ∧ sequencerInv t := by
  have unchanged {t : State} (ht : mainInv t) := sequencerInv_of_mainInv ht
  cases i with
  | seqTick | refDisable => cases hi
  | ascCtrlWr v => exact finish (sat_ascCtrlWrite latchWrite v h)
  | ascCtrlRd => exact KeepsSession.finishWith (x := draw32 s) (nextDraw s h)
  | ascMirrorWr w v => exact finish (sat_ascMirrorWrite setMirror w v h)
  | ascMirrorRd w =>
    exact finishWith ((sat_checkWord w h).andThen fun _ h => sat_readMirror w h)
  | ascSetBit p | ascClearBit p => exact finish (sat_modifyBit setMirror _ p h)
  | ascReadBit p =>
    exact finishWith ((sat_checkPosition p h).andThen fun _ h => (sat_readMirror _ h.1).bind (P := mainInv) fun _ _ h => h)
  | ascWriteField p n v => exact finish (sat_ascWriteField setMirror p n v h)
  | ascShiftBit d => exact KeepsSession.finish (sat_ascShiftBit mainInv_weak sat_accessPoint latchWrite d h)
  | ascShiftAll => exact KeepsSession.finish (sat_shiftStages mainInv_weak sat_accessPoint latchWrite nAsc h)
  | ascLoad => exact KeepsSession.finish (sat_ascLoad mainInv_weak sat_accessPoint latchWrite h)
  | ascCommit => exact KeepsSession.finish (sat_ascCommit mainInv_weak sat_accessPoint latchWrite h)
  | cntCtrlWr v => exact finish (sat_cntCtrlWrite setCounters v h)
  | cntDisableAll => exact ⟨_, rfl, unchanged (setCounters _ _ _ _ h)⟩
  | cntResetAll | cntEnableAll => exact ⟨_, rfl, unchanged (setCounters _ _ _ _ (setCounters _ _ _ _ h))⟩
  | cntCtrlRd =>
    exact KeepsSession.finishWith (x := (draw32 s).bind fun v s => .ok v (settle s))
      (setCounters _ _ _ _ (nextDraw s h))
  | cntTick k => exact ⟨_, rfl, unchanged (mainInv_congr (sameView_tickCounter k s) h)⟩
  | cntRdLo k | cntRdHi k => exact KeepsSession.finishWith (sat_readHalfRegister setCounters nextDraw _ h)
  | cntReadSnapshot => exact KeepsSession.finishWith (sat_readSnapshot sat_accessPoint setCounters nextDraw h)
  | cntResetAndEnable => exact KeepsSession.finish (sat_resetAndEnable sat_accessPoint setCounters h)
  | cntGateCycle => exact KeepsSession.finishWith (sat_gateCycle sat_accessPoint setCounters nextDraw h)
  | dacGet f => exact ⟨_, rfl, unchanged (mainInv_congr (sameView_setRet _ s) h)⟩
  | dacSet f v => exact ⟨_, rfl, unchanged (mainInv_congr (sameView_setCode _ s) h)⟩
  | hfFineDec => exact finish (sat_hfFineDec setCode h)
  | hfFineInc => exact finish (sat_hfFineInc setCode h)
  | ifFineInc => exact finish (sat_ifFineInc setCode h)
  | ifFineDec => exact finish (sat_ifFineDec setCode h)
  | rc2mCoarseInc | rc2mFineInc | rc2mSuperfineInc | lcInc =>
    exact finish (sat_codeInc setCode _ h)
  | rc2mCoarseDec | rc2mFineDec | rc2mSuperfineDec | lcDec =>
    exact finish (sat_codeDec setCode _ h)
  | lcExpand => exact finishWith (sat_lcExpand h)
  | dacEncodeHf => exact finish (sat_encodeHf setMirror h)
  | dacEncodeRc2m => exact finish (sat_encodeRc2m setMirror h)
  | dacEncodeIf => exact finish (sat_encodeIf setMirror h)
  | dacEncodeLc => exact finish (sat_encodeLc setMirror h)
  | dacEncodeAll => exact finish (sat_encodeAll setMirror h)
  | hfCorrect c => exact finish (sat_hfCorrect setCode _ h)
  | lcCorrect c => exact finish (sat_lcCorrect setCode _ h)
  | rc2mCorrect c => exact finish (sat_rc2mCorrect setCode _ h)
  | ifCorrect c => exact finish (sat_ifCorrect setCode _ h)
  | seqArm => exact KeepsSession.finish (sat_seqArm h)
  | refEdge => exact ⟨_, rfl, unchanged (refEdge h)⟩
  | seqEnter => exact ⟨s, congrArg Host.Outcome.next (if_neg (by simp [he])), unchanged h⟩
  | seqExit =>
    obtain ⟨⟨⟨hpending, -, hsession⟩, hrun⟩, -, -⟩ := h
    exact ⟨_, rfl, unchanged ⟨⟨⟨hpending, nofun, hsession⟩, hrun⟩, rfl, rfl⟩⟩
  | seqWaitDone => exact KeepsSession.finish (sat_waitDone _ h)
  | performCalibration => exact KeepsSession.finish ((sat_seqArm h).andThen fun _ h => sat_waitDone _ h)

/-- One step of the main context (R256, R289). -/
theorem mainStep {s : State} (h : mainInv s) (he : entryEnabled s = false) :
    ∃ t, mainStep s = .next t ∧ sequencerInv t := by
  cases hw : s.waiting with
  | true => rw [mainStep_of_waiting hw]; exact exec .seqWaitDone rfl h he
  | false =>
    rw [mainStep_of_not_waiting hw]
    cases ht : s.todo with
    | nil => exact ⟨s, issueNext_of_todo_nil ht, sequencerInv_of_mainInv h⟩
    | cons x rest =>
      cases hd : decode s.cfg x with
      | error e =>
        exact ⟨_, issueNext_of_not_decoded ht hd, sequencerInv_of_stopped (s := refuseWith (reasonOf e) s) h.1.1 (.inr rfl)⟩
      | ok i =>
        have ⟨⟨⟨_, _, _, _, _, _, _, _, hprogram⟩, _⟩, _⟩ := h
        rw [issueNext_of_decoded ht hd]
        exact exec i (hprogram x (ht ▸ List.mem_cons_self) i hd) (mainInv_of_todo_cons h ht) he

end MainInv

/-! ### The step -/

/-- The CPU's step by the place in the handler (R244, R255, R289). -/
theorem cpuStep_sequencerInv {s : State} (h : strongInv s) (hplace : handlerPlace s) :
    ∃ t, cpuStep s = .next t ∧ sequencerInv t := by
  cases he : entryEnabled s with
  | true =>
    obtain ⟨hpending, -⟩ := (entryEnabled_iff s).mp he
    obtain ⟨hstrong, hin, hhand, hen⟩ := enterHandler_session (hd := [.seqTick, .seqExit]) h hpending
    exact ⟨_, (cpuStep_of_entry he).trans (exec_seqEnter_enabled he),
      sequencerInv_of_strongInv hstrong (.inr (.inr ⟨hhand, hin, hen⟩))⟩
  | false =>
    obtain ⟨hhand, hin⟩ | ⟨hhand, hin⟩ | ⟨hhand, hin, hen⟩ := hplace
    · rw [cpuStep_of_hand_nil he hhand]
      exact MainInv.mainStep ⟨h, hin, hhand⟩ he
    · rw [cpuStep_of_hand_cons he hhand]
      have hexit := exitHandler_session (s := { s with hand := [] }) ⟨h, hin, rfl⟩
      exact ⟨_, rfl, sequencerInv_of_strongInv hexit (.inl ⟨rfl, rfl⟩)⟩
    · rw [cpuStep_of_hand_cons he hhand]
      have htick := seqTick_session (hd := [.seqExit]) quiet_accessPoint (s := { s with hand := [.seqExit] })
        ⟨h, hin, rfl, hen⟩
      exact finish_sequencerInv (fun t ⟨hstrong, hin, hhand⟩ =>
        sequencerInv_of_strongInv hstrong (.inr (.inl ⟨hhand, hin⟩))) htick

theorem handlerPlace_agentsStep {s : State} (h : handlerPlace s) : handlerPlace (agentsStep s) := by
  unfold handlerPlace at h ⊢
  rwa [agentsStep_hand, agentsStep_inHandler, agentsStep_refEn]

/-- Settles O58: a refused configuration changes no part of the session; else the other agents keep the invariant, and the
CPU's step keeps it at each place in the handler. -/
theorem sequencerInvariantIsKept : Obligations.SequencerInvariantIsKept := by
  unfold Obligations.SequencerInvariantIsKept
  intro s t hinv hstep
  obtain ⟨hfaults, hrefused⟩ := not_ended_of_step_next hstep
  obtain ⟨hstrong, hplace⟩ := strongInv_of_sequencerInv hinv hfaults hrefused
  by_cases hok : s.cfg.ok = true
  · obtain ⟨u, hu, hkept⟩ := cpuStep_sequencerInv (strongInv_agentsStep hstrong) (handlerPlace_agentsStep hplace)
    rw [step_of_running ⟨hfaults, hrefused, hok⟩, hu] at hstep
    cases hstep
    exact hkept
  · rw [step_of_not_ok hfaults hrefused hok] at hstep
    cases hstep
    exact sequencerInv_of_stopped (s := refuseWith .badConfig s) hstrong.1 (.inr rfl)

end Sys2Proof.Machine
end

section
/-! PROOFS. Correcting ticks and the session's end (43_calibration_sequencer.md R245, R247, R252, R253). -/

namespace Sys2Proof.Machine

/-- An operation on the codes completes alike from any two states with the same parameters. -/
theorem OnCodes.transport {op : State → Res Unit} (h : OnCodes op) {s u : State} {x y : Codes} (hcfg : u.cfg = s.cfg)
    (hop : op (setCode x s) = .ok () (setCode y s)) : op (setCode x u) = .ok () (setCode y u) :=
  (h (setCode x s) (setCode x u) _ hcfg rfl hop).2

theorem agentsStep_countTick_cnt (s : State) : (agentsStep (countTick s)).cnt = (agentsStep s).cnt := by
  rw [agentsStep_aside aside_countTick]
  rfl

/-- In the fields of a configuration that equals its mirror stand the codes that were encoded there. -/
theorem liveHolds_of_allFields {t : State} (hok : t.cfg.ok = true)
    (hlive : ∀ p, p < nAsc → ∃ v, t.mirror.bit p = some v ∧ t.l.at p = Bit3.ofBool v)
    (hholds : ∀ e ∈ allFields t, mirrorHolds t e.1 e.2) (f : ChainField) : liveHolds t f (fieldValue t f) :=
  live_of_mirror hok (hholds _ (fieldValue_mem_allFields t f)) hlive

/-- Settles O53: the law of the correcting tick after its count, which the corrections do not see. -/
theorem correctingTickCorrectsAndCommits : Obligations.CorrectingTickCorrectsAndCommits := by
  unfold Obligations.CorrectingTickCorrectsAndCommits
  intro s hready hinv hu hi hsettle
  obtain ⟨c, x1, x2, x3, x4, t, hrun, hcount, hhf, hlc, hrc, hif, ⟨hok, -⟩, hcode, hsnap, hprev, hlive, hholds, hother, hmode,
    -, hrecord, hret, hhandler, hhand, hwaiting, hiter, henv, -, -⟩ :=
    correctingTick_ok quiet_accessPoint (Nat.zero_le 24) (s := countTick s) (k := 0) hready hinv hu
  obtain rfl : c = (agentsStep s).cnt := (hcount hsettle).trans (agentsStep_countTick_cnt s)
  have hfield := liveHolds_of_allFields hok hlive hholds
  have htick : seqTick accessPoint s = .ok () t := (seqTick_correcting accessPoint hi).trans hrun
  exact ⟨setCode x1 s, setCode x2 s, setCode x3 s, setCode x4 s, t,
    finish_of_ok ((onCodes_hfCorrect _).transport (s := countTick s) (x := s.code) rfl hhf),
    finish_of_ok ((onCodes_lcCorrect _).transport (s := countTick s) rfl hlc),
    finish_of_ok ((onCodes_rc2mCorrect _).transport (s := countTick s) rfl hrc),
    finish_of_ok ((onCodes_ifCorrect _).transport (s := countTick s) rfl hif),
    finish_of_ok htick, hiter, hprev, hsnap, hcode, hlive, hother, hfield .hfCoarse, hfield .hfFine, hfield .rc2mCoarse,
    hfield .rc2mFine, hfield .rc2mSuperfine, hfield .ifCoarse, hfield .ifFine, hfield .lcCoarse, hfield .lcMid,
    hfield .lcFine, hmode, hrecord, hret, hhandler, hhand, hwaiting, henv⟩

/-- The termination check by its policy; the codes of the record do not matter (R252 to R254). -/
theorem terminates_iff (s : State) (c : Counts) (codes : Codes) : terminates s c = true ↔
    s.iter = 12 ∨ (s.cfg.terminationPolicy = .convergenceGated ∧ (mkResult s.cfg c codes).converged = true) := by
  cases hp : s.cfg.terminationPolicy with
  | fixedBudget => simp [terminates, hp, warmup, budget]
  | convergenceGated => simp [terminates, hp, warmup, budget, mkResult, or_comm]

/-- Settles O54: the two outcomes of the check that ends the correcting tick. -/
theorem sessionEndsAtTheTwelfthTick : Obligations.SessionEndsAtTheTwelfthTick := by
  unfold Obligations.SessionEndsAtTheTwelfthTick
  intro s hready hinv hu hi hsettle
  obtain ⟨c, -, -, -, x4, t, hrun, hcount, -, -, -, -, -, hcode, -, -, -, -, -, -, -, -, -, -, -, -, -, -, hends, hgoes⟩ :=
    correctingTick_ok quiet_accessPoint (Nat.zero_le 24) (s := countTick s) (k := 0) hready hinv hu
  obtain rfl : c = (agentsStep s).cnt := (hcount hsettle).trans (agentsStep_countTick_cnt s)
  have hterm := terminates_iff (countTick s) (agentsStep s).cnt s.code
  refine ⟨t, finish_of_ok ((seqTick_correcting accessPoint hi).trans hrun), fun h => ?_,
    fun h => hgoes (Bool.eq_false_iff.mpr fun ht => h (hterm.mp ht))⟩
  rw [hcode]
  exact hends (hterm.mpr h)

end Sys2Proof.Machine
end

section
/-! PROOFS. A calibration from its arming to its return: two warm-up rounds and ten correcting ones, and the end of the wait
(43_calibration_sequencer.md R252, R257, R258; 70_reset_and_hazards.md R318). -/

namespace Sys2Proof.Machine

/-! ### The end of a session -/

/-- What the terminating tick of a session that started at s leaves in t, with its snapshot c. -/
structure SessionDone (s t : State) (c : Counts) : Prop where
  record : SameRecord s t
  iter : t.iter = 12
  flag : t.doneFlag = true
  handler : t.inHandler = false
  enable : t.refEn = false
  pending : t.refPending = false
  snap : t.snap = some c
  result : t.result = some (mkResult s.cfg c t.code)
  mode : t.cntMode = .running
  live : ∀ p, p < nAsc → ∃ v, t.mirror.bit p = some v ∧ t.l.at p = Bit3.ofBool v
  fields : ∀ e ∈ allFields t, mirrorHolds t e.1 e.2
  others : ∀ p, (∀ f, ¬ inField s.cfg f p) → SameBit s t p

/-- The session may be taken to start at an earlier round. -/
theorem SessionDone.of_earlier {s t u : State} {c : Counts} (hrecord : SameRecord s t)
    (hothers : ∀ p, (∀ f, ¬ inField s.cfg f p) → SameBit s t p) (h : SessionDone t u c) : SessionDone s u c := by
  have ⟨_, _, _, hcfg, _⟩ := hrecord
  obtain ⟨hrecord', hiter, hflag, hhandler, hen, hpending, hsnap, hresult, hmode, hlive, hfields, hothers'⟩ := h
  rw [hcfg] at hresult hothers'
  exact ⟨hrecord.trans hrecord', hiter, hflag, hhandler, hen, hpending, hsnap, hresult, hmode, hlive, hfields,
    fun p hp => (hothers' p hp).trans (hothers p hp)⟩

theorem SessionDone.undisturbed {s t : State} {c : Counts} (h : SessionDone s t c) : t.undisturbed :=
  .inr ⟨h.pending, .inl h.enable⟩

/-! ### The rounds -/

/-- The correcting rounds that are left, under FIXED_BUDGET: each but the twelfth tick's leads to the next one. -/
theorem correcting_rounds (k n : Nat) {s : State} (hbetween : BetweenRounds s) (hwarm : 2 ≤ s.iter)
    (hiter : s.iter + (k + 1) = 12) (hpolicy : s.cfg.terminationPolicy = .fixedBudget)
    (hlen : 4880 * (k + 1) ≤ s.env.length) (hready : tickReady s (k + 1)) (hinv : chainInv s) :
    ∃ t c, mainPoint (n + (k + 1)) s = mainPoint n t ∧ SessionDone s t c := by
  induction k generalizing s with
  | zero =>
    obtain ⟨t, c, hrun, -, -, hit, -, hhandler, hrecord, -, -, hsnap, hmode, hlive, hfields, hothers, -, hend⟩ :=
      round_correcting (n := n) hbetween (by omega) hwarm (Nat.zero_le _) hready hinv
    have hterm : terminates { s with iter := s.iter + 1 } c = true := (terminates_iff _ c s.code).mpr (.inl hiter)
    obtain ⟨hen, hpending, hflag, -, hresult⟩ := hend hterm
    exact ⟨t, c, hrun, hrecord, hit.trans hiter, hflag, hhandler, hen, hpending, hsnap, hresult, hmode, hlive, hfields,
      hothers⟩
  | succ k ih =>
    obtain ⟨t, c, hrun, hready', hinv', hit, henv, -, hrecord, -, -, -, -, -, -, hothers, hgoes, -⟩ :=
      round_correcting (n := n + (k + 1)) hbetween (by omega) hwarm (by omega) hready hinv
    have hterm : terminates { s with iter := s.iter + 1 } c = false := by
      refine Bool.eq_false_iff.mpr fun ht => ?_
      obtain h | ⟨h, -⟩ := (terminates_iff _ c s.code).mp ht
      · have : s.iter + 1 = 12 := h
        omega
      · cases hpolicy.symm.trans h
    obtain ⟨hbetween', -, -⟩ := hgoes hterm
    have ⟨_, _, _, hcfg, _⟩ := hrecord
    obtain ⟨u, d, hrest, hdone⟩ := ih hbetween' (by omega) (by omega) (by rw [hcfg]; exact hpolicy)
      (by rw [henv, List.length_drop]; omega) hready' hinv'
    exact ⟨u, d, hrun.trans hrest, hdone.of_earlier hrecord hothers⟩

/-- The twelve rounds of a session that has just been armed, taken at one access point. -/
theorem session_rounds (n : Nat) {s : State} (hbetween : BetweenRounds s) (hiter : s.iter = 0)
    (hpolicy : s.cfg.terminationPolicy = .fixedBudget) (hlen : 48828 ≤ s.env.length) (hready : tickReady s 10)
    (hinv : chainInv s) : ∃ t c, mainPoint (n + 12) s = mainPoint n t ∧ SessionDone s t c := by
  obtain ⟨s1, hrun1, hbetween1, hready1, hinv1, hiter1, henv1, -, hrecord1, -, -, hmirror1, -⟩ :=
    round_warmup (n := n + 11) hbetween (by omega) (by rw [hiter]; decide) hready hinv
  obtain ⟨s2, hrun2, hbetween2, hready2, hinv2, hiter2, henv2, -, hrecord2, -, -, hmirror2, -⟩ :=
    round_warmup (n := n + 10) hbetween1 (by rw [henv1, List.length_drop]; omega)
      (by rw [hiter1, hiter]; decide) hready1 hinv1
  have hrecord := hrecord1.trans hrecord2
  have ⟨_, _, _, hcfg, _⟩ := hrecord
  obtain ⟨t, c, hrun, hdone⟩ := correcting_rounds 9 n hbetween2 (by omega) (by omega)
    (by rw [hcfg]; exact hpolicy) (by rw [henv2, henv1, List.drop_drop, List.length_drop]; omega) hready2 hinv2
  exact ⟨t, c, hrun1.trans (hrun2.trans hrun), hdone.of_earlier hrecord
    fun p _ => memory_bit_congr (fun w => (hmirror2 w).trans (hmirror1 w)) p⟩

/-! ### Arming and the wait -/

/-- Arming from IDLE stands before the first round, and keeps what a tick needs (R241). -/
theorem seqArm_betweenRounds {s : State} (hidle : s.seqState = .idle) (hpending : s.refPending = false)
    (hhandler : s.inHandler = false) (hedges : ∀ acts ∈ s.env, Act.edge ∈ acts) {k : Nat} (hready : tickReady s k)
    (hinv : chainInv s) :
    ∃ t, seqArm s = .ok () t ∧ BetweenRounds t ∧ t.iter = 0 ∧ t.doneFlag = false ∧ t.env = s.env ∧ tickReady t k
      ∧ chainInv t ∧ SameRecord s t ∧ ∀ p, SameBit s t p :=
  ⟨_, if_pos hidle, ⟨rfl, hpending, hhandler, hedges⟩, rfl, rfl, rfl, hready, hinv, ⟨rfl, rfl, rfl, rfl, rfl⟩, fun _ => rfl⟩

theorem mainPoint_quiet (n : Nat) {s : State} (hu : s.undisturbed) : mainPoint (n + 1) s = .ok () (agentsStep s) := by
  simp [mainPoint, undisturbed_entry (undisturbed_agentsStep hu)]

/-- The wait of a session that has just been armed ends after the rounds, at its one access point. -/
theorem seqWaitDone_session {s : State} (hbetween : BetweenRounds s) (hiter : s.iter = 0) (hflag : s.doneFlag = false)
    (hpolicy : s.cfg.terminationPolicy = .fixedBudget) (hlen : 48828 ≤ s.env.length) (hready : tickReady s 10)
    (hinv : chainInv s) : ∃ t c, seqWaitDone s = .ok () (endWait (agentsStep t)) ∧ SessionDone s t c := by
  obtain ⟨n, hn⟩ : ∃ n, s.env.length + 1 = (n + 1) + 12 := ⟨s.env.length - 12, by omega⟩
  obtain ⟨t, c, hrun, hdone⟩ := session_rounds (n + 1) hbetween hiter hpolicy hlen hready hinv
  have hpoint : accessPoint s = .ok () (agentsStep t) := by
    rw [accessPoint, hn, hrun, mainPoint_quiet n hdone.undisturbed]
  have hend := waitDone_of_flag (n + 11) ((agentsStep_doneFlag t).trans hdone.flag)
  refine ⟨t, c, ?_, hdone⟩
  rw [seqWaitDone, show s.env.length = (n + 11) + 1 by omega, waitDone_of_point _ hflag hpoint, hend]

/-- The return from the wait leaves the fields of the live configuration as the terminating tick left them. -/
theorem liveHolds_returned {t : State} (hok : t.cfg.ok = true)
    (hlive : ∀ p, p < nAsc → ∃ v, t.mirror.bit p = some v ∧ t.l.at p = Bit3.ofBool v)
    (hfields : ∀ e ∈ allFields t, mirrorHolds t e.1 e.2) (f : ChainField) :
    liveHolds (endWait (agentsStep t)) f (fieldValue (endWait (agentsStep t)) f) := by
  have h := liveHolds_of_allFields hok hlive hfields f
  have hvalue : fieldValue (endWait (agentsStep t)) f = fieldValue t f := by
    cases f <;> simp [fieldValue, lcSubOf]
  rw [hvalue]
  simpa [liveHolds] using h

/-- Settles O57: arming, the twelve rounds at the wait's access point, and the end of the wait. -/
theorem calibrationRunsToDone : Obligations.CalibrationRunsToDone := by
  unfold Obligations.CalibrationRunsToDone
  intro s hready hinv hidle hpending hhandler hsettle hpolicy hlen hedges
  obtain ⟨s0, harm, hbetween, hiter0, hflag0, henv0, hready0, hinv0, hrecord0, hbits0⟩ :=
    seqArm_betweenRounds hidle hpending hhandler hedges hready hinv
  have ⟨_, _, _, hcfg0, _⟩ := hrecord0
  obtain ⟨t, c, hwait, hdone0⟩ := seqWaitDone_session hbetween hiter0 hflag0 (by rw [hcfg0]; exact hpolicy)
    (by rw [henv0]; exact hlen) hready0 hinv0
  have hdone : SessionDone s t c := hdone0.of_earlier hrecord0 fun p _ => hbits0 p
  have hrun : performCalibration s = .ok () (endWait (agentsStep t)) := by
    simp only [performCalibration, harm, Res.andThen, Res.bind, hwait]
  obtain ⟨hok, -⟩ := hready
  have ⟨_, _, _, hcfg, _⟩ := hdone.record
  have hfield := liveHolds_returned (by rw [hcfg]; exact hok) hdone.live hdone.fields
  have hstill := agentsStep_refPending hdone.undisturbed
  refine ⟨endWait (agentsStep t), mkResult s.cfg c t.code, finish_of_ok hrun, rfl, ?iter, rfl, ?enable, ?pending, ?handler, rfl,
    ?result, ?returned, ?codes, ?snap, ?live, ?others, hfield .hfCoarse, hfield .hfFine, hfield .rc2mCoarse,
    hfield .rc2mFine, hfield .rc2mSuperfine, hfield .ifCoarse, hfield .ifFine, hfield .lcCoarse, hfield .lcMid,
    hfield .lcFine, ?mode, ?record⟩
  case iter => simp [hdone.iter]
  case enable => simp [hdone.enable]
  case pending => simp [hstill, hdone.pending]
  case handler => simp [hdone.handler]
  case result => simp [hdone.result]
  case returned => simp [hdone.result]
  case codes => simp [mkResult]
  case snap => simp [hdone.snap, mkResult]
  case live => simpa using hdone.live
  case others => simpa [SameBit] using hdone.others
  case mode => simp [hdone.mode]
  case record => exact hdone.record.trans (by simp [SameRecord])

end Sys2Proof.Machine
end

section
/-! PROOFS. The faults of the scan-chain operations: the checks of the mirror operations in their order, and a commit that
meets an unwritten word (40_scan_chain.md R108 to R113, R116; 60_exceptions.md R280, R283; 70_reset_and_hazards.md R308). -/

namespace Sys2Proof.Machine

/-! ### A commit that stops (R283, R308) -/

/-- Settles O22: the law of the stopping commit, at the access points of the main context; its fault is then recorded. -/
theorem commitStopsAtAnUnwrittenWord : Obligations.CommitStopsAtAnUnwrittenWord := by
  unfold Obligations.CommitStopsAtAnUnwrittenWord
  intro s w hok hrole hinv hu hw hnone habove hover
  obtain ⟨t, hrun, hlive, hshifted, hrest, hmirror, hgate, hcode, hsession, ⟨hfaults, hrefused, -⟩, -, henv⟩ :=
    ascCommit_unwritten quiet_accessPoint hok hrole hinv hu hw hnone habove
  exact ⟨raiseFault ⟨.unwrittenMirror, .word w⟩ t, finish_of_fault hrun, congrArg (· ++ _) hfaults, hlive hover, hshifted,
    hrest, hmirror, hgate, hcode, hsession, hrefused, henv⟩

/-! ### The checks of the mirror operations (R108 to R113) -/

section

variable {s : State} {w p n v : Nat} {α : Type}

theorem checkWord_in (hw : w < nWords) (k : State → Res α) : (checkWord w s).andThen k = k s := by
  simp only [checkWord, if_pos hw, Res.andThen, Res.bind]

theorem checkWord_out (hw : nWords ≤ w) (k : State → Res α) :
    (checkWord w s).andThen k = .fault ⟨.outOfRange, .word w⟩ s := by
  simp only [checkWord, if_neg hw.not_gt, Res.andThen, Res.bind]

theorem checkPosition_in (hp : p < nAsc) (k : State → Res α) : (checkPosition p s).andThen k = k s := by
  simp only [checkPosition, if_pos hp, Res.andThen, Res.bind]

theorem checkPosition_out (hp : nAsc ≤ p) (k : State → Res α) :
    (checkPosition p s).andThen k = .fault ⟨.outOfRange, .position p⟩ s := by
  simp only [checkPosition, if_neg hp.not_gt, Res.andThen, Res.bind]

theorem readMirror_unwritten (h : s.mirror.read w = none) : readMirror w s = .fault ⟨.unwrittenMirror, .word w⟩ s := by
  rw [readMirror, h]

/-- A position inside the chain, in a word never written: what reads that word stops there. -/
theorem checkPosition_unwritten (hp : p < nAsc) (h : s.mirror.read (wordOf p) = none) (k : Word → State → Res α) :
    ((checkPosition p s).andThen fun s => (readMirror (wordOf p) s).bind k)
      = .fault ⟨.unwrittenMirror, .word (wordOf p)⟩ s := by
  rw [checkPosition_in hp, readMirror_unwritten h, Res.bind]

theorem ascWriteField_outOfRange (h : n = 0 ∨ nAsc < p + n) :
    ascWriteField p n v s = .fault ⟨.outOfRange, .span p n⟩ s := if_pos h

variable (hn : 1 ≤ n) (hp : p + n ≤ nAsc)
include hn hp

theorem ascWriteField_tooWide (hv : 2 ^ n ≤ v) : ascWriteField p n v s = .fault ⟨.fieldRange, .value v n⟩ s := by
  rw [ascWriteField, if_neg (by omega), if_pos hv]

/-- The field is admitted, and w is the first word under it that was never written. -/
theorem ascWriteField_unwritten (hv : v < 2 ^ n) (hlo : wordOf p ≤ w) (hhi : w ≤ wordOf (p + n - 1))
    (hnone : s.mirror.read w = none) (hbelow : ∀ w', wordOf p ≤ w' → w' < w → s.mirror.read w' ≠ none) :
    ascWriteField p n v s = .fault ⟨.unwrittenMirror, .word w⟩ s := by
  rw [ascWriteField, if_neg (by omega), if_neg hv.not_ge, firstUnwritten_some hlo (by omega) hnone hbelow]

end

/-- Settles O26: each operation stops at the first of its checks that fails, in the state it started from. -/
theorem mirrorFaultsFollowTheOrderOfChecks : Obligations.MirrorFaultsFollowTheOrderOfChecks := by
  unfold Obligations.MirrorFaultsFollowTheOrderOfChecks
  intro s
  refine ⟨fun w v hw => ?writeOut, fun w hw => ?readOut, fun w hw h => ?readUnwritten,
    fun p hp => ⟨?setOut, ?clearOut, ?readBitOut⟩, fun p hp h => ⟨?setUnwritten, ?clearUnwritten, ?readBitUnwritten⟩,
    fun p n v h => ?span, fun p n v hn hp hv => ?value, fun p n v w hn hp hv hlo hhi hnone hbelow => ?fieldUnwritten⟩
  case writeOut => exact finish_of_fault (checkWord_out hw _)
  case readOut => exact finishWith_of_fault (checkWord_out hw _)
  case readUnwritten => exact finishWith_of_fault ((checkWord_in hw _).trans (readMirror_unwritten h))
  case setOut => exact finish_of_fault (checkPosition_out hp _)
  case clearOut => exact finish_of_fault (checkPosition_out hp _)
  case readBitOut => exact finishWith_of_fault (checkPosition_out hp _)
  case setUnwritten => exact finish_of_fault (checkPosition_unwritten hp h _)
  case clearUnwritten => exact finish_of_fault (checkPosition_unwritten hp h _)
  case readBitUnwritten => exact finishWith_of_fault (checkPosition_unwritten hp h _)
  case span => exact finish_of_fault (ascWriteField_outOfRange h)
  case value => exact finish_of_fault (ascWriteField_tooWide hn hp hv)
  case fieldUnwritten => exact finish_of_fault (ascWriteField_unwritten hn hp hv hlo hhi hnone hbelow)

end Sys2Proof.Machine
end

section
/-! PROOFS. The state after power-on with the invariants that start there, and the boot operations that leave no bit of the
live configuration unknown (70_reset_and_hazards.md R301, R302). -/

namespace Sys2Proof.Machine

/-! ### Power-on (R301) -/

theorem chainInv_powerOn (cfg : Config) : chainInv (State.powerOn cfg) := ⟨rfl, rfl, rfl⟩

theorem sessionInv_powerOn (cfg : Config) : sessionInv (State.powerOn cfg) := by simp [sessionInv]

theorem sequencerInv_powerOn (cfg : Config) : sequencerInv (State.powerOn cfg) :=
  ⟨sessionInv_powerOn cfg, fun _ hx => (List.not_mem_nil hx).elim, fun _ _ => .inl ⟨rfl, rfl⟩⟩

theorem bounded_initCodes {cfg : Config} (hok : cfg.ok = true) : Codes.bounded cfg.initCodes := by
  obtain ⟨hcodes, -⟩ := Config.ok_codes hok
  exact fun f => (hcodes f).2

/-- Settles O59: every field is read off the definition, and the invariants hold in it. -/
theorem resetIsThePowerOnState : Obligations.ResetIsThePowerOnState := by
  unfold Obligations.ResetIsThePowerOnState
  refine ⟨?_, rfl, by decide⟩
  rintro cfg _ rfl
  exact ⟨rfl, fun i _ => ⟨chain_at_allX i, chain_at_allX i, chain_at_allX i⟩, fun _ => rfl, rfl, rfl, rfl, rfl, rfl, rfl, rfl,
    rfl, rfl, rfl, rfl, rfl, rfl, rfl, rfl, rfl, chainInv_powerOn cfg, sequencerInv_powerOn cfg, rfl,
    fun hok => ⟨bounded_initCodes hok, rfl, rfl, hok⟩⟩

/-! ### The operations of the boot (R302) -/

theorem execAll_append {is : List Instr} {s t : State} (h : execAll is s = .next t) (js : List Instr) :
    execAll (is ++ js) s = execAll js t := by
  induction is generalizing s with
  | nil => cases h; rfl
  | cons i is ih =>
    simp only [List.cons_append, execAll] at h ⊢
    cases hi : exec i s with
    | next u => rw [hi] at h; exact ih h
    | fault r => rw [hi] at h; cases h
    | refused r => rw [hi] at h; cases h

/-- Step 1: the first n words of the mirror written one after another. -/
theorem execAll_mirrorWrites (f : Nat → Word) (s : State) {n : Nat} (hn : n ≤ nWords) :
    ∃ m, execAll ((List.range n).map fun w => .ascMirrorWr w (f w)) s = .next (setMirror m s)
      ∧ ∀ w, w < n → m.read w = some (f w) := by
  induction n with
  | zero => exact ⟨s.mirror, rfl, fun w hw => absurd hw (Nat.not_lt_zero w)⟩
  | succ n ih =>
    obtain ⟨m, hrun, hread⟩ := ih (by omega)
    refine ⟨m.write n (f n), ?run, fun w hw => ?read⟩
    case run =>
      rw [List.range_succ, List.map_append, execAll_append hrun]
      exact execAll_cons (i := .ascMirrorWr n (f n)) (finish_of_ok (ascMirrorWrite_ok (f n) (setMirror m s) hn)) []
    case read =>
      rw [memory_read_write]
      split
      · next h => rw [h]
      · next h => exact hread w (by omega)

/-- Step 2: the codes c set one after another. A field ends at its code where it is in the list or held it before. -/
theorem execAll_dacSets {c : Codes} (hc : Codes.bounded c) (fs : List Field) (s : State) :
    ∃ d, execAll (fs.map fun f => .dacSet f (BitVec.ofNat 32 (c.get f))) s = .next (setCode d s)
      ∧ ∀ f, f ∈ fs ∨ s.code.get f = c.get f → d.get f = c.get f := by
  induction fs generalizing s with
  | nil => exact ⟨s.code, rfl, fun f hf => hf.resolve_left List.not_mem_nil⟩
  | cons g gs ih =>
    have hval : (BitVec.ofNat 32 (c.get g)).toNat = c.get g := Nat.mod_eq_of_lt (hc g)
    have hset : exec (.dacSet g (BitVec.ofNat 32 (c.get g))) s = .next (putCode g (c.get g) s) :=
      congrArg (fun v => Host.Outcome.next (putCode g v s)) hval
    obtain ⟨d, hrun, hd⟩ := ih (putCode g (c.get g) s)
    refine ⟨d, (execAll_cons hset _).trans hrun, fun f hf => hd f ?_⟩
    obtain ⟨hsame, hother, -⟩ := putCode_only g (c.get g) s
    by_cases hfg : f = g
    · exact .inr (hfg ▸ hsame)
    · exact hf.imp (fun h => (List.mem_cons.mp h).resolve_left hfg) (hother f hfg).trans

theorem execAll_loadCodes {cfg : Config} (hok : cfg.ok = true) (s : State) :
    execAll (loadCodes cfg) s = .next (setCode cfg.initCodes s) := by
  obtain ⟨d, hrun, hd⟩ := execAll_dacSets (bounded_initCodes hok) Field.all s
  rwa [codes_ext fun f => hd f (.inl (Field.mem_all f))] at hrun

/-- Steps 3 and 4: encoding all and committing, with what the mirror then holds. -/
theorem execAll_encode_commit {s : State} (hok : s.cfg.ok = true) (hrole : s.cfg.phaseRole = .p2Input) (hinv : chainInv s)
    (hu : s.undisturbed) (hfull : s.mirror.full) (hhf : hfEncodable s) (hrc : rc2mEncodable s) (hif : ifEncodable s)
    (hlc : lcEncodable s) :
    ∃ t, execAll [.dacEncodeAll, .ascCommit] s = .next t ∧ SameRecord s t ∧ t.code = s.code
      ∧ (∀ p, p < nAsc → ∃ v, t.mirror.bit p = some v ∧ t.l.at p = Bit3.ofBool v)
      ∧ (∀ f, liveHolds t f (fieldValue t f)) ∧ ∀ p, (∀ f, ¬ inField s.cfg f p) → SameBit s t p := by
  obtain ⟨u, hencode, henc⟩ := encodeAll_ok hok hfull hhf hrc hif hlc
  have hok' : u.cfg.ok = true := by rw [henc.cfg]; exact hok
  obtain ⟨t, hcommit, hchain, -, -, -, -, hmirror, -, htcode, -, hrecord, -⟩ :=
    ascCommit_ok quiet_accessPoint hok' (by rw [henc.cfg]; exact hrole) (henc.chainInv hinv) (henc.undisturbed hu)
      (henc.full hfull)
  obtain ⟨-, -, -, -, hurecord, -⟩ := henc.onlyMirror
  have ⟨_, _, _, htcfg, _⟩ := hrecord
  have hbit (p : Nat) : t.mirror.bit p = u.mirror.bit p := memory_bit_congr hmirror p
  have hlive (p : Nat) (hp : p < nAsc) : ∃ v, t.mirror.bit p = some v ∧ t.l.at p = Bit3.ofBool v := by
    obtain ⟨v, hv, hl, -⟩ := hchain p hp
    exact ⟨v, (hbit p).trans hv, hl⟩
  have hfields : ∀ e ∈ allFields t, mirrorHolds t e.1 e.2 := by
    have hall : allFields t = allFields s := by
      simp only [allFields, lcSubOf, htcode, htcfg, henc.code, henc.cfg]
    rw [hall]
    intro e he
    have hheld := henc.holds he
    unfold mirrorHolds at hheld ⊢
    simpa only [htcfg, hbit] using hheld
  exact ⟨t, (execAll_cons (i := .dacEncodeAll) (finish_of_ok hencode) _).trans
      (execAll_cons (i := .ascCommit) (finish_of_ok hcommit) _),
    hurecord.trans hrecord, htcode.trans henc.code, hlive,
    liveHolds_of_allFields (by rw [htcfg]; exact hok') hlive hfields,
    fun p hp => (hbit p).trans (henc.sameBit fun e _ => hp e.1)⟩

/-! ### The boot (R302) -/

/-- Steps 1 and 2: the mirror holds ASC_INIT, and the store the codes the board starts with. -/
theorem execAll_boot_start {s : State} (loads : Bool) (hok : s.cfg.ok = true) (rest : List Instr) :
    ∃ m, execAll ((List.range nWords).map (fun w => .ascMirrorWr w (s.cfg.ascInit.toList.getD w 0))
          ++ (if loads then loadCodes s.cfg else []) ++ rest) s
        = execAll rest (setCode (if loads then s.cfg.initCodes else s.code) (setMirror m s))
      ∧ ∀ w (h : w < 38), m.read w = some s.cfg.ascInit[w] := by
  obtain ⟨m, hwrite, hread⟩ := execAll_mirrorWrites (s.cfg.ascInit.toList.getD · 0) s (Nat.le_refl nWords)
  refine ⟨m, ?run, fun w h => ?read⟩
  case run =>
    rw [List.append_assoc, execAll_append hwrite]
    cases loads with
    | false => rfl
    | true => exact execAll_append (execAll_loadCodes hok (setMirror m s)) rest
  case read => simpa [h] using hread w h

/-- Settles O44: ASC_INIT fills the mirror, the encoders put the codes into their fields, and the commit makes the live
configuration equal the mirror. -/
theorem bootLeavesNoUnknownBit : Obligations.BootLeavesNoUnknownBit := by
  unfold Obligations.BootLeavesNoUnknownBit
  rintro s loads _ hok hrole hinv hu rfl hhf hrc hif hlc
  obtain ⟨m, hstart, hread⟩ := execAll_boot_start loads hok [.dacEncodeAll, .ascCommit]
  have hfull : m.full := fun w hw => by rw [hread w hw]; exact Option.some_ne_none _
  obtain ⟨t, hrun, hrecord, hcode, hlive, hfield, hothers⟩ := execAll_encode_commit
    (s := setCode (if loads then s.cfg.initCodes else s.code) (setMirror m s)) hok hrole hinv hu hfull hhf hrc hif hlc
  refine ⟨t, hstart.trans hrun, hrecord, hcode, hlive, fun p h hp hout => ?init, hfield .hfCoarse, hfield .hfFine,
    hfield .rc2mCoarse, hfield .rc2mFine, hfield .rc2mSuperfine, hfield .ifCoarse, hfield .ifFine, hfield .lcCoarse,
    hfield .lcMid, hfield .lcFine⟩
  case init =>
    obtain ⟨v, hv, hl⟩ := hlive p hp
    cases hv.symm.trans ((hothers p hout).trans (memory_bit_of_read (hread (wordOf p) h)))
    exact hl

end Sys2Proof.Machine
end
